-- ==== Sys2Proof/Word.lean ====
section
/-! DEFINITION. The word types of the part: bytes, halfwords, Line Time values. -/

namespace Sys2Proof

/-- One byte of a frame, a payload or a reply buffer. -/
abbrev Byte := BitVec 8

/-- One halfword of the register window (R161). -/
abbrev Halfword := BitVec 16

/-- A Line Time, or any boundary derived from it: 48 bits, modulo 2^48 (R23). -/
abbrev Tick := BitVec 48

end Sys2Proof
end

