-- ==== Sys2Proof/Syntax.lean ====
section
/-! DEFINITION. The commands of the part: one constructor per row of spec/opcode_table.json. -/

namespace Sys2Proof

/-- The two Line Configuration halfwords, offsets 7 and 8 (register map, 11.4). -/
inductive LineReg where
  | rateAndMiss | timeoutAndLate
  deriving DecidableEq, Repr

/-- The seven bank halfwords, offsets 10 to 16 (register map, 11.4). -/
inductive BankReg where
  | baseLow | baseMiddle | baseHigh | cycleLow | cycleHigh | durationLow | durationHigh
  deriving DecidableEq, Repr

/-- The four object configuration halfwords, offsets 18 to 21 (register map, 11.4). -/
inductive ObjReg where
  | conf0 | conf1 | conf2 | conf3
  deriving DecidableEq, Repr

/-- The three select halfwords: bank select (9), object select (17), node select (42) (R163). -/
inductive SelectReg where
  | bank | object | node
  deriving DecidableEq, Repr

/-- The commands the block takes. A write to offset 0 that carries a listed code is the command of that code, with
`arg` the halfword's bits 15 to 8; the codes without an argument ignore those bits (R162). -/
inductive Instr where
  /-- A low level on RESET# (R167). -/
  | pinReset
  /-- The rise of RESET# (R23, R167). -/
  | resetRelease
  /-- SWITCH, code 01h (R58). -/
  | switch (arg : BitVec 8)
  /-- SWITCH_CANCEL, code 02h (R68). -/
  | switchCancel
  /-- SCHED_STOP, code 03h (R75). -/
  | schedStop
  /-- SCHED_RESUME, code 04h (R81). -/
  | schedResume
  /-- LINE_RESET, code 05h (R82). -/
  | lineReset
  /-- OBJ_ENABLE, code 08h (R91). -/
  | objEnable (arg : BitVec 8)
  /-- OBJ_DISABLE, code 09h (R92). -/
  | objDisable (arg : BitVec 8)
  /-- OBJ_REQUEST, code 0Ah (R93). -/
  | objRequest (arg : BitVec 8)
  /-- OBJ_WITHDRAW, code 0Bh (R96). -/
  | objWithdraw (arg : BitVec 8)
  /-- OBJ_RELEASE, code 0Ch (R97). -/
  | objRelease (arg : BitVec 8)
  /-- OBJ_INSERT, code 0Dh (R122). -/
  | objInsert (arg : BitVec 8)
  /-- NODE_REVIVE, code 10h (R150). -/
  | nodeRevive (arg : BitVec 8)
  /-- QUEUE_POP, code 11h (R155). -/
  | queuePop
  /-- COUNTERS_CLEAR, code 12h (R160). -/
  | countersClear
  /-- A write to offset 0 whose code is not listed (R162). -/
  | unknownCommand (code arg : BitVec 8)
  /-- A read of offset 54 (R24). -/
  | lineTimeLowRead
  /-- A write to offset 7 or 8 (R85). -/
  | lineConfigurationWrite (reg : LineReg) (data : Halfword)
  /-- A write to offset 10 to 16 (R45). -/
  | bankWrite (reg : BankReg) (data : Halfword)
  /-- A write to offset 18 to 21 (R86). -/
  | objectConfigurationWrite (reg : ObjReg) (data : Halfword)
  /-- A write to offset 26 + k (R87). -/
  | payloadWrite (k : BitVec 3) (data : Halfword)
  /-- A write to offset 9, 17 or 42 (R163). -/
  | selectWrite (reg : SelectReg) (data : Halfword)
  /-- A write to offset 52 (R156). -/
  | eventFlagsWrite (data : Halfword)
  /-- A write to offset 53 (R158). -/
  | eventEnablesWrite (data : Halfword)
  /-- A write of any value to offset 63 (R47). -/
  | accessDeniedRecordClear (data : Halfword)
  /-- A write to a read-only or unmapped halfword (R161). -/
  | registerWrite (offset : BitVec 7) (data : Halfword)
  /-- Line Time reaches the Instant of a pending switch (R65). -/
  | switchInstant
  /-- Line Time reaches the cycle end (R28, R31). -/
  | cycleStart
  /-- Line Time reaches a window end before the cycle end (R30). -/
  | windowBoundary
  /-- Four ticks after the last cycle start (R35). -/
  | cycPulseEnd
  /-- A byte's stop bit ends; `echo` holds the ten bits read from LRX, the start bit in bit 0 (R11, R1). -/
  | byteSent (echo : BitVec 10)
  /-- A start bit on LRX in AWAIT_REPLY (R13). -/
  | replyStart
  /-- The Reply Timeout ends with no start bit seen (R13). -/
  | replyTimeout
  /-- A reply byte's stop bit ends: its eight data bits and its stop bit (R14). -/
  | replyByteReceived (data : Byte) (stopBit : Bool)
  /-- No start bit by the end of the twentieth bit time after a reply byte (R14). -/
  | truncatedReply
  /-- LRX has read 1 for 20 bit times in DRAINING (R17). -/
  | drainEnd
  /-- The 4 bit times of GAP end (R18). -/
  | gapEnd
  /-- One tick of CLKIN divided by four (R23). -/
  | lineTimeTick
  /-- A 0 on LRX in DRAINING (R17). -/
  | drainCountRestart
  deriving DecidableEq, Repr

end Sys2Proof
end

