-- ==== Sys2Proof/WellFormed.lean ====
section
/-! DEFINITION. Which terms of `Instr` are commands of their own row. Every other constructor's operands are in range by
their types; an argument out of range is a command too, answered BAD_ARG (R162). -/

namespace Sys2Proof

/-- The command codes that R162 lists. -/
def isListedCode (code : BitVec 8) : Bool :=
  code ∈ [0x01#8, 0x02#8, 0x03#8, 0x04#8, 0x05#8, 0x08#8, 0x09#8, 0x0A#8, 0x0B#8, 0x0C#8, 0x0D#8, 0x10#8, 0x11#8, 0x12#8]

/-- The offsets that a host write can reach (R164): the others are read-only or unmapped (R161). -/
def isWritableOffset (offset : BitVec 7) : Bool :=
  let o := offset.toNat
  o == 0 || (7 ≤ o && o ≤ 21) || (26 ≤ o && o ≤ 33) || o == 42 || o == 52 || o == 53 || o == 63

/-- A term stands for a command of its row: UNKNOWN_COMMAND carries a code that is not listed, and REGISTER_WRITE an
offset that no write reaches. -/
def Instr.wellFormed : Instr → Bool
  | .unknownCommand code _ => !isListedCode code
  | .registerWrite offset _ => !isWritableOffset offset
  | .pinReset | .resetRelease | .switch _ | .switchCancel | .schedStop | .schedResume | .lineReset
  | .objEnable _ | .objDisable _ | .objRequest _ | .objWithdraw _ | .objRelease _ | .objInsert _
  | .nodeRevive _ | .queuePop | .countersClear | .lineTimeLowRead
  | .lineConfigurationWrite _ _ | .bankWrite _ _ | .objectConfigurationWrite _ _ | .payloadWrite _ _
  | .selectWrite _ _ | .eventFlagsWrite _ | .eventEnablesWrite _ | .accessDeniedRecordClear _
  | .switchInstant | .cycleStart | .windowBoundary | .cycPulseEnd | .byteSent _ | .replyStart
  | .replyTimeout | .replyByteReceived _ _ | .truncatedReply | .drainEnd | .gapEnd | .lineTimeTick
  | .drainCountRestart => true

end Sys2Proof
end

