-- ==== Sys2Proof/Decode.lean ====
section
/-! DEFINITION. From bits to commands. spec/opcode_table.json gives no row any bits, so `decodeTableWord` answers none.
The bus cycles do have bits: `busWrite` is the command that a write of a halfword to an offset is (R162, R164, register
map 11.4), and `busWord` the bus write that a host-write command is. -/

namespace Sys2Proof

/-- No row of the table has bits (log 17). -/
def decodeTableWord (_nbits _w : Nat) : Option Instr := none

/-- The command that a write to offset 0 carries: the code in bits 7 to 0, the argument in bits 15 to 8 (R162). -/
def commandOf (data : Halfword) : Instr :=
  let code := data.extractLsb' 0 8
  let arg := data.extractLsb' 8 8
  match code.toNat with
  | 0x01 => .switch arg
  | 0x02 => .switchCancel
  | 0x03 => .schedStop
  | 0x04 => .schedResume
  | 0x05 => .lineReset
  | 0x08 => .objEnable arg
  | 0x09 => .objDisable arg
  | 0x0A => .objRequest arg
  | 0x0B => .objWithdraw arg
  | 0x0C => .objRelease arg
  | 0x0D => .objInsert arg
  | 0x10 => .nodeRevive arg
  | 0x11 => .queuePop
  | 0x12 => .countersClear
  | _ => .unknownCommand code arg

/-- The command that a host write of `data` to `offset` is (register map, 11.4; R161, R164). -/
def busWrite (offset : BitVec 7) (data : Halfword) : Instr :=
  match offset.toNat with
  | 0 => commandOf data
  | 7 => .lineConfigurationWrite .rateAndMiss data
  | 8 => .lineConfigurationWrite .timeoutAndLate data
  | 9 => .selectWrite .bank data
  | 10 => .bankWrite .baseLow data
  | 11 => .bankWrite .baseMiddle data
  | 12 => .bankWrite .baseHigh data
  | 13 => .bankWrite .cycleLow data
  | 14 => .bankWrite .cycleHigh data
  | 15 => .bankWrite .durationLow data
  | 16 => .bankWrite .durationHigh data
  | 17 => .selectWrite .object data
  | 18 => .objectConfigurationWrite .conf0 data
  | 19 => .objectConfigurationWrite .conf1 data
  | 20 => .objectConfigurationWrite .conf2 data
  | 21 => .objectConfigurationWrite .conf3 data
  | 26 => .payloadWrite 0 data
  | 27 => .payloadWrite 1 data
  | 28 => .payloadWrite 2 data
  | 29 => .payloadWrite 3 data
  | 30 => .payloadWrite 4 data
  | 31 => .payloadWrite 5 data
  | 32 => .payloadWrite 6 data
  | 33 => .payloadWrite 7 data
  | 42 => .selectWrite .node data
  | 52 => .eventFlagsWrite data
  | 53 => .eventEnablesWrite data
  | 63 => .accessDeniedRecordClear data
  | _ => .registerWrite offset data

/-- The offset of a Line Configuration halfword (register map, 11.4). -/
def LineReg.offset : LineReg → BitVec 7
  | .rateAndMiss => 7
  | .timeoutAndLate => 8

/-- The offset of a bank halfword (register map, 11.4). -/
def BankReg.offset : BankReg → BitVec 7
  | .baseLow => 10
  | .baseMiddle => 11
  | .baseHigh => 12
  | .cycleLow => 13
  | .cycleHigh => 14
  | .durationLow => 15
  | .durationHigh => 16

/-- The offset of an object configuration halfword (register map, 11.4). -/
def ObjReg.offset : ObjReg → BitVec 7
  | .conf0 => 18
  | .conf1 => 19
  | .conf2 => 20
  | .conf3 => 21

/-- The offset of payload halfword k (register map, 11.4). -/
def payloadOffset (k : BitVec 3) : BitVec 7 := 26 + k.setWidth 7

/-- The offset of a select halfword (register map, 11.4). -/
def SelectReg.offset : SelectReg → BitVec 7
  | .bank => 9
  | .object => 17
  | .node => 42

/-- The halfword of a command: argument above, code below (R162). -/
def commandWord (code arg : BitVec 8) : Halfword := arg ++ code

/-- The bus write (offset and halfword) that a host-write command is; none for a read, a pin or an event of the part. -/
def busWord : Instr → Option (BitVec 7 × Halfword)
  | .switch arg => some (0, commandWord 0x01 arg)
  | .switchCancel => some (0, commandWord 0x02 0)
  | .schedStop => some (0, commandWord 0x03 0)
  | .schedResume => some (0, commandWord 0x04 0)
  | .lineReset => some (0, commandWord 0x05 0)
  | .objEnable arg => some (0, commandWord 0x08 arg)
  | .objDisable arg => some (0, commandWord 0x09 arg)
  | .objRequest arg => some (0, commandWord 0x0A arg)
  | .objWithdraw arg => some (0, commandWord 0x0B arg)
  | .objRelease arg => some (0, commandWord 0x0C arg)
  | .objInsert arg => some (0, commandWord 0x0D arg)
  | .nodeRevive arg => some (0, commandWord 0x10 arg)
  | .queuePop => some (0, commandWord 0x11 0)
  | .countersClear => some (0, commandWord 0x12 0)
  | .unknownCommand code arg => some (0, commandWord code arg)
  | .lineConfigurationWrite reg data => some (reg.offset, data)
  | .bankWrite reg data => some (reg.offset, data)
  | .objectConfigurationWrite reg data => some (reg.offset, data)
  | .payloadWrite k data => some (payloadOffset k, data)
  | .selectWrite reg data => some (reg.offset, data)
  | .eventFlagsWrite data => some (52, data)
  | .eventEnablesWrite data => some (53, data)
  | .accessDeniedRecordClear data => some (63, data)
  | .registerWrite offset data => some (offset, data)
  | .pinReset | .resetRelease | .lineTimeLowRead | .switchInstant | .cycleStart | .windowBoundary | .cycPulseEnd
  | .byteSent _ | .replyStart | .replyTimeout | .replyByteReceived _ _ | .truncatedReply | .drainEnd | .gapEnd
  | .lineTimeTick | .drainCountRestart => none

end Sys2Proof
end

