-- ==== Sys2Proof/Config.lean ====
section
/-! DEFINITION. What is fixed for the part. The spec leaves no value of the part open (INVENTORY.md, "What the manual
leaves open"), so there is no free value here; these are the capacities of 00_scope.md. -/

namespace Sys2Proof

/-- Records the Completion Queue can hold (R152, R153). -/
def Config.queueCapacity : Nat := 32

/-- Ticks of the 2 µs after RESET# rises in which bus cycles are ignored: 8 ticks of 250 ns (R167, R23; log 18). -/
def Config.portWaitTicks : Nat := 8

/-- Ticks for which CYC stays high after the last cycle start (R35). -/
def Config.pulseTicks : Nat := 4

/-- Bit times of a SYNC frame and its gap (R22, R51). -/
def Config.syncBits : Nat := 74

/-- Bit times of one byte on the line: start bit, eight data bits, stop bit (R1). -/
def Config.byteBits : Nat := 10

/-- Bit times of silence that end a drain (R17) and of the longest wait for the next reply byte (R14). -/
def Config.silenceBits : Nat := 20

/-- Bit times of GAP (R18). -/
def Config.gapBits : Nat := 4

end Sys2Proof
end

