-- ==== Sys2Proof/Machine/State.lean ====
section
/-! DEFINITION. The state of the part as plain data, its reset value, and the reasons a step can stop. INVENTORY.md lists
each field with the rule that names it. -/

namespace Sys2Proof.Machine

/-! ## Host Port -/

/-- Result codes (R162). -/
inductive ResultCode where
  | ok | badArg | badState | badConfig | tooLate | tooLong | notPending | inFlight | wrongBank | queueEmpty
  | unknownCommand
  deriving DecidableEq, Repr

/-- The two banks (R39). -/
inductive BankId where
  | bankA | bankB
  deriving DecidableEq, Repr

/-- Causes of a denied host write; the record's NONE is the absence of one (R46). -/
inductive DenyCause where
  | activeBank | locked | objectState | schedState
  deriving DecidableEq, Repr

/-- The Access-Denied Record (R46). -/
structure DeniedRecord where
  offset : BitVec 6
  cause : Option DenyCause
  count : BitVec 8
  deriving DecidableEq, Repr

/-- The Host Port: command result register (R162), selects (R163; `nodeSelect` is the address less 1), Line Time snapshot
latch (R24), Access-Denied Record (R46), the halfword last read (R161), RESET# and the ticks until the port answers
(R167; `wait` is the model's own, log 18). -/
structure HostPort where
  result : ResultCode
  answered : BitVec 8
  objectSelect : Fin 32
  bankSelect : BankId
  entrySelect : Fin 64
  nodeSelect : Fin 30
  latch : BitVec 32
  denied : DeniedRecord
  readData : Option Halfword
  resetLow : Bool
  wait : Nat
  deriving DecidableEq, Repr

/-! ## Line Configuration -/

/-- The four bit rates (R2). -/
inductive BitRate where
  | kbit500 | mbit1 | mbit2 | mbit4
  deriving DecidableEq, Repr

/-- The Line Configuration (R84). -/
structure LineConfig where
  bitRate : BitRate
  replyTimeout : BitVec 8
  missLimit : BitVec 4
  lateLimit : BitVec 8
  deriving DecidableEq, Repr

/-! ## Schedule Banks -/

/-- One schedule entry: Duration, and Open Classes with bit c for class c (R39). -/
structure Entry where
  duration : BitVec 20
  classes : BitVec 4
  deriving DecidableEq, Repr

/-- One schedule bank (R39). -/
structure Bank where
  baseTime : Tick
  cycleTime : BitVec 24
  listLength : BitVec 7
  sync : Bool
  entries : Vector Entry 64
  deriving DecidableEq, Repr

/-- MaxOpen of each class and MaxAny, in ticks (R53). -/
structure Figures where
  maxOpen : Vector Nat 4
  maxAny : Nat
  deriving DecidableEq, Repr

/-! ## Switch Control -/

/-- Last Result (R56). -/
inductive SwitchResult where
  | noResult | done | failed | cancelled | stopped
  deriving DecidableEq, Repr

/-- Cause of a failed switch (R56, R49). -/
inductive SwitchCause where
  | noCause | length | cycle | entry | allClosed | syncRoom | late
  deriving DecidableEq, Repr

/-- The Switch Record (R56). -/
structure SwitchRecord where
  pending : Bool
  target : Option BankId
  instant : Tick
  lateCount : BitVec 8
  lastResult : SwitchResult
  cause : SwitchCause
  switchCount : BitVec 16
  deriving DecidableEq, Repr

/-! ## Scheduler Control and Cycle Timer -/

/-- Scheduler states (R73). -/
inductive SchedState where
  | off | armed | running | stopping | halted
  deriving DecidableEq, Repr

/-- The Cycle Timer (section 2.2). `window` is none where the window index reads 255; `pulseEnd` is none while CYC is
low. -/
structure CycleTimer where
  cycleStart : Tick
  cycleEnd : Tick
  cycleNumber : BitVec 32
  window : Option (Fin 64)
  windowEnd : Tick
  syncOwed : Bool
  pulseEnd : Option Tick
  deriving DecidableEq, Repr

/-! ## Object Table -/

/-- Kind of an object (R86). -/
inductive ObjKind where
  | command | poll
  deriving DecidableEq, Repr

/-- Trigger of an object (R86). -/
inductive Trigger where
  | host | cyclic
  deriving DecidableEq, Repr

/-- Configuration of an object (R86). -/
structure ObjConfig where
  kind : ObjKind
  node : BitVec 5
  cls : BitVec 2
  priority : BitVec 4
  attemptLimit : BitVec 4
  length : BitVec 5
  replyLength : BitVec 5
  lifetime : BitVec 8
  trigger : Trigger
  period : BitVec 7
  phase : BitVec 7
  holdUnread : Bool
  deriving DecidableEq, Repr

/-- Object states (R88). -/
inductive ObjState where
  | disabled | idle | pending | active
  deriving DecidableEq, Repr

/-- Outcomes of a finished request (section 6.6). -/
inductive RequestOutcome where
  | done | nakReject | busy | noReply | badReply | collision | expired | noFit | nodeSilent | withdrawn
  deriving DecidableEq, Repr

/-- One message object (R86 to R88). -/
structure MsgObject where
  config : ObjConfig
  payload : Vector Byte 16
  reply : Vector Byte 16
  state : ObjState
  lastOutcome : Option RequestOutcome
  attempts : BitVec 4
  age : BitVec 8
  reRequest : Bool
  inSlot : Bool
  fresh : Bool
  replyCount : BitVec 8
  receivedLength : BitVec 5
  mergeCount : BitVec 8
  overwriteCount : BitVec 8
  delivered : Bool
  deriving DecidableEq, Repr

/-! ## Line Engine -/

/-- Attempt results (R18). -/
inductive AttemptResult where
  | ack | nakReject | nakBusy | data | noReply | badReply | collision
  deriving DecidableEq, Repr

/-- Kinds of exchange (R22). -/
inductive ExchangeKind where
  | command | broadcast | poll
  deriving DecidableEq, Repr

/-- What the frame in flight is (section 1.5): a SYNC frame, or an exchange of an object. -/
inductive Carried where
  | sync
  | exchange (object : Fin 32) (kind : ExchangeKind)
  deriving DecidableEq, Repr

/-- The states of the Line Engine other than IDLE (section 1.5). GAP holds the result that its end reports; of a SYNC frame
nothing is reported, and `ack` stands there for "went out whole" (R19). -/
inductive Phase where
  | sending | awaitReply | receiving | draining
  | gap (result : AttemptResult)
  deriving DecidableEq, Repr

/-- The attempt in flight (section 1.5, R10, R129), with its frame bound (R59), the bytes already sent whole (R11),
whether its overrun is counted (R20), the engine's state, and the Line Time from which that state's count of bit times
runs (log 7). -/
structure Flight where
  carried : Carried
  node : BitVec 5
  replyLength : BitVec 5
  frame : List Byte
  toggle : Bool
  resync : Bool
  bitRate : BitRate
  replyTimeout : BitVec 8
  frameBound : Tick
  sent : Nat
  overran : Bool
  phase : Phase
  mark : Tick
  deriving DecidableEq, Repr

/-- The receive staging buffer (section 1.5, R14), with the number of bytes received. -/
structure Staging where
  address : BitVec 5
  type : BitVec 3
  tag : BitVec 5
  toggle : Bool
  attention : Bool
  length : BitVec 8
  payload : Vector Byte 16
  crc : BitVec 16
  count : Nat
  deriving DecidableEq, Repr

/-- The Line Engine. It is IDLE exactly while `flight` is none (R9, R10). `gapEndedNow` is the model's own (R37,
log 12). -/
structure LineEngine where
  flight : Option Flight
  staging : Staging
  collisions : BitVec 2
  overrun : BitVec 16
  syncLate : BitVec 16
  gapEndedNow : Bool
  deriving DecidableEq, Repr

/-! ## Node Table, Completion Queue, Event Unit -/

/-- Node states (R143). -/
inductive NodeState where
  | unknown | alive | silent
  deriving DecidableEq, Repr

/-- One node record (R143); `toggle` is none for UNKNOWN. -/
structure NodeRecord where
  state : NodeState
  missCount : BitVec 4
  toggle : Option Bool
  attention : Bool
  lastReplyCycle : BitVec 16
  skipped : BitVec 8
  deriving DecidableEq, Repr

/-- One completion record (R107). -/
structure Completion where
  object : Fin 32
  outcome : RequestOutcome
  attempts : BitVec 4
  cycle : BitVec 16
  window : BitVec 8
  receivedLength : BitVec 5
  time : BitVec 32
  deriving DecidableEq, Repr

/-- The eight sticky event flags (section 10.3). COMPLETION is live and is computed from the queue (R156). -/
structure EventFlags where
  queueLost : Bool
  switchDone : Bool
  switchFailed : Bool
  nodeSilent : Bool
  attention : Bool
  lineFault : Bool
  cycleStart : Bool
  accessDenied : Bool
  deriving DecidableEq, Repr

/-! ## The whole state -/

/-- Everything the spec gives the part, and the queue of commands that wait. -/
structure State where
  port : HostPort
  lineTime : Tick
  config : LineConfig
  bankA : Bank
  bankB : Bank
  activeBank : Option BankId
  figures : Option Figures
  sw : SwitchRecord
  sched : SchedState
  cycle : CycleTimer
  objects : Vector MsgObject 32
  slot : Option (Fin 32)
  supersede : BitVec 16
  engine : LineEngine
  nodes : Vector NodeRecord 30
  queue : List Completion
  lost : BitVec 8
  flags : EventFlags
  enables : BitVec 9
  pending : List Instr
  deriving DecidableEq, Repr

/-- Reasons for which the part stops. The spec gives it none: an illegal command gets a result code, a denied write a
record (INVENTORY.md, "Faults"). Nothing raises a fault. -/
inductive Fault
  deriving DecidableEq, Repr

/-- Reasons for which the model gives a command no meaning. -/
inductive Refusal where
  /-- Raised by an arm of `exec` whose command has no meaning yet. Safe: no next state is claimed. -/
  | notModelled (mnemonic : String)
  /-- Raised by UNKNOWN_COMMAND with a listed code and by REGISTER_WRITE at a writable offset: such operands spell a
  command of another row (`Instr.wellFormed`, log 15). Safe: no next state is claimed. -/
  | otherRow
  deriving DecidableEq, Repr

/-! ## Reset values -/

/-- Line Configuration after pin reset (R84). -/
def LineConfig.reset : LineConfig :=
  { bitRate := .mbit1, replyTimeout := 32, missLimit := 3, lateLimit := 0 }

/-- A bank after pin reset (R40). -/
def Bank.reset : Bank :=
  { baseTime := 0, cycleTime := 0, listLength := 0, sync := false
    entries := Vector.replicate 64 { duration := 0, classes := 0 } }

/-- The Switch Record after pin reset (R56). -/
def SwitchRecord.reset : SwitchRecord :=
  { pending := false, target := none, instant := 0, lateCount := 0, lastResult := .noResult, cause := .noCause
    switchCount := 0 }

/-- The Cycle Timer after pin reset (R25). The spec gives the three boundaries no value: DESIGN CHOICE 0 (log 2). -/
def CycleTimer.reset : CycleTimer :=
  { cycleStart := 0, cycleEnd := 0, cycleNumber := 0, window := none, windowEnd := 0, syncOwed := false
    pulseEnd := none }

/-- An object after pin reset (R89). -/
def MsgObject.reset : MsgObject :=
  { config :=
      { kind := .command, node := 0, cls := 0, priority := 0, attemptLimit := 0, length := 0, replyLength := 0
        lifetime := 0, trigger := .host, period := 0, phase := 0, holdUnread := false }
    payload := Vector.replicate 16 0, reply := Vector.replicate 16 0, state := .disabled, lastOutcome := none
    attempts := 0, age := 0, reRequest := false, inSlot := false, fresh := false, replyCount := 0
    receivedLength := 0, mergeCount := 0, overwriteCount := 0, delivered := false }

/-- The staging buffer emptied (R9, R14). The spec does not say what an empty buffer holds: DESIGN CHOICE zeros, with the
running CRC at its initial value (R5) (log 3). -/
def Staging.empty : Staging :=
  { address := 0, type := 0, tag := 0, toggle := false, attention := false, length := 0
    payload := Vector.replicate 16 0, crc := 0xFFFF, count := 0 }

/-- The Line Engine after pin reset (R9). -/
def LineEngine.reset : LineEngine :=
  { flight := none, staging := Staging.empty, collisions := 0, overrun := 0, syncLate := 0, gapEndedNow := false }

/-- A node record after pin reset and after LINE_RESET (R143). -/
def NodeRecord.reset : NodeRecord :=
  { state := .unknown, missCount := 0, toggle := none, attention := false, lastReplyCycle := 0, skipped := 0 }

/-- The Access-Denied Record after pin reset and after a clear (R47). -/
def DeniedRecord.reset : DeniedRecord := { offset := 0, cause := none, count := 0 }

/-- Every sticky flag clear (R157). -/
def EventFlags.clear : EventFlags :=
  { queueLost := false, switchDone := false, switchFailed := false, nodeSilent := false, attention := false
    lineFault := false, cycleStart := false, accessDenied := false }

/-- The Host Port after pin reset (R162, R163, R24, R47, R167). RESET# high and `wait` 0 are DESIGN CHOICE (log 1). -/
def HostPort.reset : HostPort :=
  { result := .ok, answered := 0, objectSelect := 0, bankSelect := .bankA, entrySelect := 0, nodeSelect := 0, latch := 0
    denied := DeniedRecord.reset, readData := none, resetLow := false, wait := 0 }

/-- The machine right after pin reset, with no command waiting. -/
def State.reset : State :=
  { port := HostPort.reset, lineTime := 0, config := LineConfig.reset, bankA := Bank.reset, bankB := Bank.reset
    activeBank := none, figures := none, sw := SwitchRecord.reset, sched := .off, cycle := CycleTimer.reset
    objects := Vector.replicate 32 MsgObject.reset, slot := none, supersede := 0, engine := LineEngine.reset
    nodes := Vector.replicate 30 NodeRecord.reset, queue := [], lost := 0, flags := EventFlags.clear, enables := 0
    pending := [] }

end Sys2Proof.Machine
end

