-- ==== Sys2Proof/Machine/Ops.lean ====
section
/-! DEFINITION. Named operations over the state that every block uses: time, saturating counts, access to tables, the host
port's own operations. -/

namespace Sys2Proof.Machine

/-- A counter said to saturate: it stops at its largest value (00_scope.md, Conventions). -/
def satInc {w : Nat} (x : BitVec w) : BitVec w := if x = BitVec.allOnes w then x else x + 1

/-! ## Time -/

/-- Ticks per bit (R2). -/
def BitRate.ticksPerBit : BitRate → Nat
  | .kbit500 => 8
  | .mbit1 => 4
  | .mbit2 => 2
  | .mbit4 => 1

/-- The Line Time `n` bit times after `t` at a bit rate, modulo 2^48 (R2, R23). -/
def afterBits (rate : BitRate) (t : Tick) (n : Nat) : Tick := t + BitVec.ofNat 48 (n * rate.ticksPerBit)

/-- Ticks from `now` to `t`, modulo 2^48 (R23, R116). -/
def ticksUntil (now t : Tick) : Nat := (t - now).toNat

/-- `p` lies after `t`: judged on the difference modulo 2^48 as R60 judges "ahead" (R59; log 11). -/
def liesAfter (p t : Tick) : Bool := p != t && decide ((t - p).toNat ≥ 2 ^ 47)

/-! ## Tables -/

/-- The bank a name stands for. -/
def State.bank (s : State) : BankId → Bank
  | .bankA => s.bankA
  | .bankB => s.bankB

/-- Put a bank's contents. -/
def State.setBank (s : State) (b : BankId) (bk : Bank) : State :=
  match b with
  | .bankA => { s with bankA := bk }
  | .bankB => { s with bankB := bk }

/-- Object n. -/
def State.object (s : State) (n : Fin 32) : MsgObject := s.objects[n.val]

/-- Put object n. -/
def State.setObject (s : State) (n : Fin 32) (o : MsgObject) : State :=
  { s with objects := s.objects.set n.val o n.isLt }

/-- The record of the node with index i, which is the node of address i + 1 (R143). -/
def State.nodeRecord (s : State) (i : Fin 30) : NodeRecord := s.nodes[i.val]

/-- Put the node record of index i. -/
def State.setNode (s : State) (i : Fin 30) (r : NodeRecord) : State :=
  { s with nodes := s.nodes.set i.val r i.isLt }

/-- The index of a node address: 1 to 30 have a record; 0 is no station and 31 is broadcast (R143). -/
def nodeIndex (address : BitVec 5) : Option (Fin 30) :=
  if h : 1 ≤ address.toNat ∧ address.toNat ≤ 30 then some ⟨address.toNat - 1, by omega⟩ else none

/-- The Node Table holds the node of this address SILENT (R94, R118). -/
def State.isSilent (s : State) (address : BitVec 5) : Bool :=
  match nodeIndex address with
  | none => false
  | some i => (s.nodeRecord i).state == .silent

/-- Change the record of a node address; an address without a record changes nothing (R138, R144). -/
def State.modifyNode (s : State) (address : BitVec 5) (f : NodeRecord → NodeRecord) : State :=
  match nodeIndex address with
  | none => s
  | some i => s.setNode i (f (s.nodeRecord i))

/-- The object numbers in the order in which the Object Table goes through them (R99). -/
def objectNumbers : List (Fin 32) := List.finRange 32

/-- One step for each object in object-number order (R99, R106, R110). -/
def State.forEachObject (s : State) (f : Fin 32 → State → State) : State :=
  objectNumbers.foldl (fun t n => f n t) s

/-! ## Host port -/

/-- The port answers bus cycles: RESET# is high and 2 µs have passed since it rose (R167). -/
def State.portAnswers (s : State) : Bool := !s.port.resetLow && s.port.wait == 0

/-- The command result register after a command (R162). -/
def State.answer (s : State) (code : BitVec 8) (r : ResultCode) : State :=
  { s with port := { s.port with result := r, answered := code } }

/-- A command taken: its effects, and its result and code in the command result register (R162). While the port does not
answer, the write is not taken (R167). -/
def State.takeCommand (s : State) (code : BitVec 8) (f : State → State × ResultCode) : State :=
  if s.portAnswers then (f s).1.answer code (f s).2 else s

/-- A register write taken; while the port does not answer it is not (R167). -/
def State.takeWrite (s : State) (f : State → State) : State := if s.portAnswers then f s else s

/-- A denied host write: Offset and Cause overwritten, Denied Count raised, ACCESS_DENIED set (R46). -/
def State.deny (s : State) (offset : BitVec 7) (cause : DenyCause) : State :=
  { s with
    port := { s.port with
      denied := { offset := offset.setWidth 6, cause := some cause, count := satInc s.port.denied.count } }
    flags := { s.flags with accessDenied := true } }

/-! ## Line Engine -/

/-- The Line Engine is IDLE (R9). -/
def State.lineIdle (s : State) : Bool := s.engine.flight.isNone

/-- The GAP of a frame ends at the present tick (R18, R20, R37). -/
def Flight.gapEndsAt (fl : Flight) (now : Tick) : Bool :=
  match fl.phase with
  | .gap _ => afterBits fl.bitRate fl.mark Config.gapBits == now
  | _ => false

/-! ## Switch Control -/

/-- Bank b is locked: it is the target of a pending switch (R42). -/
def State.isLocked (s : State) (b : BankId) : Bool := s.sw.pending && s.sw.target == some b

/-- The instant of a pending switch falls at the present tick (R65). -/
def State.instantDue (s : State) : Bool := s.sw.pending && s.sw.instant == s.lineTime

/-- A pending switch ends without its instant (R68, R70, R71); it unlocks its target, since the lock is the pending
switch (R42). With no switch pending the record is left as it is. -/
def State.endPending (s : State) (r : SwitchResult) : State :=
  if s.sw.pending then { s with sw := { s.sw with pending := false, lastResult := r, cause := .noCause } } else s

/-- What going OFF from RUNNING, STOPPING or HALTED hands to the blocks (R76): the ACTIVE bank becomes SHADOW, the
figures become absent (R54), the Cycle Timer stops, its window index 255 and the owed SYNC dropped (R34). -/
def State.goOff (s : State) : State :=
  { s with
    sched := .off, activeBank := none, figures := none
    cycle := { s.cycle with window := none, syncOwed := false } }

end Sys2Proof.Machine
end

