-- ==== Sys2Proof/Machine/Schedule.lean ====
section
/-! DEFINITION. What the Schedule Banks and Switch Control compute from a bank: the layout of its entries on a cycle (R29),
validation (R49 to R51), the figures (R52, R53), the late count and the instant (R59, R60). -/

namespace Sys2Proof.Machine

/-- SYNC time at a bit rate, in ticks (R51). -/
def syncTime (rate : BitRate) : Nat := Config.syncBits * rate.ticksPerBit

/-- The entries below List Length, in order (R29). -/
def Bank.listed (bk : Bank) : List Entry := bk.entries.toList.take bk.listLength.toNat

/-- The entries used in a cycle, each with its effective duration, when `left` ticks of the cycle remain at the first
of them: an entry is used while its offset is below the Cycle Time, and is cut at the cycle end (R29). -/
def layout (left : Nat) : List Entry → List (Entry × Nat)
  | [] => []
  | e :: es =>
    if left = 0 then []
    else
      let d := min e.duration.toNat left
      (e, d) :: layout (left - d) es

/-- The used entries of a bank with their effective durations (R29). -/
def Bank.used (bk : Bank) : List (Entry × Nat) := layout bk.cycleTime.toNat bk.listed

/-- The effective duration of entry i, if it is used in the cycle (R29). -/
def Bank.effective (bk : Bank) (i : Nat) : Option Nat := (bk.used[i]?).map (·.2)

/-- Validation checks 1 to 5 of R49 in their order: the cause of the first that fails. -/
def Bank.firstFault (bk : Bank) (rate : BitRate) : Option SwitchCause :=
  if bk.listLength = 0 ∨ 64 < bk.listLength.toNat then some .length
  else if bk.cycleTime.toNat < 64 then some .cycle
  else if bk.listed.any (fun e => decide (e.duration.toNat < 16)) then some .entry
  else if bk.used.all (fun u => u.1.classes == 0) then some .allClosed
  else if bk.sync && decide ((bk.effective 0).getD 0 < syncTime rate) then some .syncRoom
  else none

/-- The late count k and the instant S from the reference time U (R60): D is U minus Base Time modulo 2^48. -/
def reckon (u base : Tick) (cycleTime : Nat) : Nat × Tick :=
  let d := (u - base).toNat
  if d = 0 ∨ 2 ^ 47 ≤ d then (0, base)
  else
    let k := (d + cycleTime - 1) / cycleTime
    (k, base + BitVec.ofNat 48 (k * cycleTime))

/-- The reference time U (R59): the frame bound of a frame in flight if it lies after the present tick, else the present
tick. -/
def State.referenceTime (s : State) : Tick :=
  match s.engine.flight with
  | none => s.lineTime
  | some fl => if liesAfter fl.frameBound s.lineTime then fl.frameBound else s.lineTime

/-- min(k, 255), as a record field holds it (R60, R61). -/
def lateField (k : Nat) : BitVec 8 := BitVec.ofNat 8 (min k 255)

/-- Usable durations (R52): the effective durations, entry 0's less SYNC time when Sync is set. -/
def Bank.usable (bk : Bank) (rate : BitRate) : List (Entry × Nat) :=
  match bk.used with
  | [] => []
  | (e, d) :: rest => (e, if bk.sync then d - syncTime rate else d) :: rest

/-- The largest usable duration among the entries that a test admits; 0 when it admits none (R53). -/
def longest (us : List (Entry × Nat)) (p : Entry → Bool) : Nat :=
  us.foldl (fun m u => if p u.1 then max m u.2 else m) 0

/-- The figures of a bank (R53). -/
def Bank.figures (bk : Bank) (rate : BitRate) : Figures :=
  let us := bk.usable rate
  { maxOpen := Vector.ofFn (fun c : Fin 4 => longest us (fun e => e.classes.getLsbD c.val))
    maxAny := longest us (fun e => e.classes != 0) }

end Sys2Proof.Machine
end

