-- ==== Sys2Proof/Machine/Line.lean ====
section
/-! DEFINITION. The line protocol as the 2216 speaks it: bytes and echo (R1, R11), the CRC (R5), frames (R3, R4, R6), the
worst-case duration W (R22), and the receiving and checking of a reply byte (R14 to R16). -/

namespace Sys2Proof.Machine

/-- The ten bits of a byte in the order sent, the first in bit 0: start bit 0, data least significant bit first, stop bit
1 (R1). -/
def drivenBits (d : Byte) : BitVec 10 := 1#1 ++ d ++ 0#1

/-- One bit into the CRC register (R5: generator 1021h). -/
def crcBit (c : BitVec 16) (b : Bool) : BitVec 16 :=
  if xor (c.getLsbD 15) b then (c <<< 1) ^^^ 0x1021 else c <<< 1

/-- One byte into the CRC register, its most significant bit first (R5). -/
def crcByte (c : BitVec 16) (d : Byte) : BitVec 16 :=
  [7, 6, 5, 4, 3, 2, 1, 0].foldl (fun r i => crcBit r (d.getLsbD i)) c

/-- The CRC of a run of bytes, from the initial value FFFFh (R5). -/
def crcOf (bytes : List Byte) : BitVec 16 := bytes.foldl crcByte 0xFFFF

/-- Frame type codes (R4). -/
def typeSync : BitVec 3 := 0
/-- COMMAND (R4). -/
def typeCommand : BitVec 3 := 1
/-- POLL (R4). -/
def typePoll : BitVec 3 := 2
/-- ACK (R4). -/
def typeAck : BitVec 3 := 4
/-- NAK (R4). -/
def typeNak : BitVec 3 := 5
/-- DATA (R4). -/
def typeData : BitVec 3 := 6

/-- A master frame (R3): header, payload, CRC high, CRC low; Attention is 0 in every master frame (R6). -/
def buildFrame (address : BitVec 5) (type : BitVec 3) (tag : BitVec 5) (toggle resync : Bool) (payload : List Byte) :
    List Byte :=
  let body : List Byte :=
    [type ++ address, 0#1 ++ BitVec.ofBool resync ++ BitVec.ofBool toggle ++ tag, BitVec.ofNat 8 payload.length] ++
      payload
  let crc := crcOf body
  body ++ [crc.extractLsb' 8 8, crc.extractLsb' 0 8]

/-- The SYNC frame: payload the low 16 bits of the Cycle Number, low byte first (R6). -/
def syncFrame (cycleNumber : BitVec 32) : List Byte :=
  buildFrame 31 typeSync 0 false false [cycleNumber.extractLsb' 0 8, cycleNumber.extractLsb' 8 8]

/-- The kind of exchange an object makes (R90): a COMMAND with Node 31 is a broadcast. -/
def ObjConfig.exchangeKind (c : ObjConfig) : ExchangeKind :=
  match c.kind with
  | .poll => .poll
  | .command => if c.node = 31 then .broadcast else .command

/-- Toggle and Resync of a COMMAND to a node from the node record's Toggle (R131). -/
def toggleBits : Option Bool → Bool × Bool
  | some t => (t, false)
  | none => (false, true)

/-- The Toggle of a node record; an address without a record has none (R131). -/
def State.nodeToggle (s : State) (address : BitVec 5) : Option Bool :=
  match nodeIndex address with
  | none => none
  | some i => (s.nodeRecord i).toggle

/-- Toggle and Resync of an object's request frame (R131): only a COMMAND to a node reads the node record. -/
def State.frameToggle (s : State) (n : Fin 32) : Bool × Bool :=
  match (s.object n).config.exchangeKind with
  | .command => toggleBits (s.nodeToggle (s.object n).config.node)
  | .broadcast | .poll => (false, false)

/-- The request frame of an object (R6, R129). -/
def State.requestFrame (s : State) (n : Fin 32) : List Byte :=
  let o := s.object n
  let t := s.frameToggle n
  match o.config.exchangeKind with
  | .poll => buildFrame o.config.node typePoll (BitVec.ofNat 5 n.val) t.1 t.2 []
  | .command | .broadcast =>
    buildFrame o.config.node typeCommand (BitVec.ofNat 5 n.val) t.1 t.2 (o.payload.toList.take o.config.length.toNat)

/-- The worst-case duration W of an object's exchange, in bit times (R22, R90). -/
def worstBits (c : ObjConfig) (replyTimeout : BitVec 8) : Nat :=
  match c.exchangeKind with
  | .command => 10 * (c.length.toNat + 5) + replyTimeout.toNat + 60 + 4
  | .poll => 50 + replyTimeout.toNat + 10 * (c.replyLength.toNat + 5) + 4
  | .broadcast => 10 * (c.length.toNat + 5) + 4

/-- W of object n in ticks, with the Line Configuration in force (R22, R90). -/
def State.worst (s : State) (n : Fin 32) : Nat :=
  worstBits (s.object n).config s.config.replyTimeout * s.config.bitRate.ticksPerBit

/-! ## Receiving -/

/-- A byte received whole, stored in its place and fed to the running CRC (R14). The place is the number of bytes already
received: header, payload up to Length, then the CRC bytes, which only the CRC takes. -/
def Staging.store (g : Staging) (d : Byte) : Staging :=
  let g1 := { g with crc := crcByte g.crc d, count := g.count + 1 }
  match g.count with
  | 0 => { g1 with address := d.extractLsb' 0 5, type := d.extractLsb' 5 3 }
  | 1 => { g1 with tag := d.extractLsb' 0 5, toggle := d.getLsbD 5, attention := d.getLsbD 7 }
  | 2 => { g1 with length := d }
  | k + 3 =>
    if h : k < 16 then
      if k < g.length.toNat then { g1 with payload := g.payload.set k d h } else g1
    else g1

/-- What a reply byte leads to (R14, R15): go on receiving, drain after a failed check, or end the reply with a result. -/
inductive ByteVerdict where
  | goOn | drain
  | finish (result : AttemptResult)
  deriving DecidableEq, Repr

/-- The reply types an exchange may be answered with (R15, check 2). -/
def typeFits (kind : ExchangeKind) (type : BitVec 3) : Bool :=
  match kind with
  | .poll => type == typeData || type == typeNak
  | .command | .broadcast => type == typeAck || type == typeNak

/-- The Length rule of a reply type (R4; R15, check 4). -/
def lengthFits (type : BitVec 3) (length : BitVec 8) (replyLength : BitVec 5) : Bool :=
  if type = typeAck then length == 0
  else if type = typeNak then length == 1
  else decide (length.toNat ≤ replyLength.toNat)

/-- The result of a reply whose six checks passed (R16). -/
def validResult (g : Staging) : AttemptResult :=
  if g.type = typeAck then .ack
  else if g.type = typeNak then
    if g.payload[0] = 1 then .nakReject else if g.payload[0] = 2 then .nakBusy else .badReply
  else .data

/-- The reply checks at the end of a byte received whole, on the buffer that holds it (R15, checks 2, 3, 4 and 6). -/
def checkByte (object : Fin 32) (kind : ExchangeKind) (node replyLength : BitVec 5) (g : Staging) : ByteVerdict :=
  match g.count with
  | 0 => .goOn
  | 1 => if g.address = node ∧ typeFits kind g.type then .goOn else .drain
  | 2 => if g.tag = BitVec.ofNat 5 object.val then .goOn else .drain
  | 3 => if lengthFits g.type g.length replyLength then .goOn else .drain
  | k + 4 =>
    if k + 4 = g.length.toNat + 5 then
      if g.crc = 0 then .finish (validResult g) else .finish .badReply
    else .goOn

end Sys2Proof.Machine
end

