-- ==== Sys2Proof/Machine/Requests.lean ====
section
/-! DEFINITION. The Object Table and what it hands on: taking (R93, R94), finishing (R107 to R109), retrying (R105),
attempt results (R103, R104, R106), the cycle-start work (R99 to R101) and the re-check (R110); the Node Table's update
from a report (R144 to R147, R133), its toggle decision (R135), and the Completion Queue's push (R153). -/

namespace Sys2Proof.Machine

/-- Change object n. -/
def State.modifyObject (s : State) (n : Fin 32) (f : MsgObject → MsgObject) : State := s.setObject n (f (s.object n))

/-! ## Finishing -/

/-- A completion record joins the queue, or is lost and counted when the queue is full (R153). -/
def State.pushCompletion (s : State) (r : Completion) : State :=
  if s.queue.length < Config.queueCapacity then { s with queue := s.queue ++ [r] }
  else { s with lost := satInc s.lost, flags := { s.flags with queueLost := true } }

/-- The window index as the host and the records see it: 255 while no window is in force (section 2.2, R38). -/
def State.windowIndex (s : State) : BitVec 8 :=
  match s.cycle.window with
  | some w => BitVec.ofNat 8 w.val
  | none => 255

/-- The completion record of object n's request finished with an outcome (R107). -/
def State.completionOf (s : State) (n : Fin 32) (outcome : RequestOutcome) : Completion :=
  let o := s.object n
  { object := n, outcome := outcome, attempts := o.attempts, cycle := s.cycle.cycleNumber.extractLsb' 0 16
    window := s.windowIndex
    receivedLength := if outcome = .done ∧ o.config.kind = .poll then o.receivedLength else 0
    time := s.lineTime.extractLsb' 0 32 }

/-- Object n leaves the Insert Slot if it is the occupant (R125). -/
def State.leaveSlot (s : State) (n : Fin 32) : State :=
  if s.slot = some n then { s.modifyObject n (fun o => { o with inSlot := false }) with slot := none } else s

/-- The toggle decision at the finishing of a request (R135): of a COMMAND to a node, with an outcome other than DONE and
NAK_REJECT and with Delivered set, the node's Toggle becomes UNKNOWN. -/
def State.decideToggle (s : State) (n : Fin 32) (outcome : RequestOutcome) : State :=
  let o := s.object n
  if o.config.exchangeKind = .command ∧ outcome ≠ .done ∧ outcome ≠ .nakReject ∧ o.delivered = true then
    s.modifyNode o.config.node (fun r => { r with toggle := none })
  else s

/-- A request finished (R107): Last Outcome, the completion record, the slot left, the toggle decided, and the object in
`next`, which is IDLE or, for OBJ_DISABLE, DISABLED (R108). -/
def State.retire (s : State) (n : Fin 32) (outcome : RequestOutcome) (next : ObjState) : State :=
  let s1 := s.modifyObject n (fun o => { o with lastOutcome := some outcome, state := next })
  ((s1.pushCompletion (s.completionOf n outcome)).leaveSlot n).decideToggle n outcome

/-- The object's W is above MaxOpen for its Class; never while the figures are absent (R94, R105, R110, R54). -/
def State.noFit (s : State) (n : Fin 32) : Bool :=
  match s.figures with
  | none => false
  | some f => decide (f.maxOpen[(s.object n).config.cls.toNat]'((s.object n).config.cls.isLt) < s.worst n)

/-- A request taken, from IDLE or from a re-request: PENDING with Attempts 0, Age 0 and Delivered clear, then the SILENT
and NO_FIT checks in that order (R94, R109). A request taken here has no re-request behind it. -/
def State.takeRequest (s : State) (n : Fin 32) : State :=
  let s1 := s.modifyObject n (fun o => { o with state := .pending, attempts := 0, age := 0, delivered := false })
  if s1.isSilent (s1.object n).config.node then s1.retire n .nodeSilent .idle
  else if s1.noFit n then s1.retire n .noFit .idle
  else s1

/-- A request finished, and a set Re-request taken as a new request (R108, R109). -/
def State.finish (s : State) (n : Fin 32) (outcome : RequestOutcome) : State :=
  let s1 := s.retire n outcome .idle
  if (s1.object n).reRequest then (s1.modifyObject n (fun o => { o with reRequest := false })).takeRequest n else s1

/-- A demand merged into the request standing: Merge Count rises, stopping at 255 (R93, R105). -/
def MsgObject.merge (o : MsgObject) : MsgObject := { o with mergeCount := satInc o.mergeCount }

/-- A request for object n, by its state (R93). A DISABLED object takes none. -/
def State.request (s : State) (n : Fin 32) : State :=
  match (s.object n).state with
  | .disabled => s
  | .idle => s.takeRequest n
  | .pending => s.modifyObject n MsgObject.merge
  | .active =>
    s.modifyObject n (fun o => if o.reRequest then o.merge else { o with reRequest := true })

/-! ## Cycle-start work -/

/-- The ageing step (R100). -/
def State.ageStep (s : State) (n : Fin 32) : State :=
  if (s.object n).state = .pending then
    let s1 := s.modifyObject n (fun o => { o with age := satInc o.age })
    let o := s1.object n
    if o.config.lifetime ≠ 0 ∧ o.config.lifetime ≤ o.age then s1.finish n .expired else s1
  else s

/-- The trigger condition: the Cycle Number leaves the remainder Phase when divided by Period (R101). -/
def ObjConfig.triggersAt (c : ObjConfig) (cycleNumber : BitVec 32) : Bool :=
  c.trigger == .cyclic && cycleNumber.toNat % c.period.toNat == c.phase.toNat

/-- A skipped trigger raises the node's Skipped Count (R149). -/
def NodeRecord.skip (r : NodeRecord) : NodeRecord := { r with skipped := satInc r.skipped }

/-- The trigger step (R101): a trigger of an IDLE object to a SILENT node is skipped and counted (R149). -/
def State.triggerStep (s : State) (n : Fin 32) : State :=
  let o := s.object n
  if o.state ≠ .disabled ∧ o.config.triggersAt s.cycle.cycleNumber = true then
    if o.state = .idle ∧ s.isSilent o.config.node = true then s.modifyNode o.config.node NodeRecord.skip
    else s.request n
  else s

/-- The Object Table's cycle-start work: for each object in order, ageing then trigger (R99). -/
def State.cycleWork (s : State) : State := s.forEachObject (fun n t => (t.ageStep n).triggerStep n)

/-- The re-check of one PENDING object at a switch instant: the slot occupant against MaxAny, the others against MaxOpen
of their Class (R110). -/
def State.recheckStep (s : State) (n : Fin 32) : State :=
  if (s.object n).state = .pending then
    if s.slot = some n then
      match s.figures with
      | some f => if f.maxAny < s.worst n then s.finish n .noFit else s
      | none => s
    else if s.noFit n then s.finish n .noFit else s
  else s

/-- The re-check at a switch instant (R110). -/
def State.recheck (s : State) : State := s.forEachObject (fun n t => t.recheckStep n)

/-! ## Attempt results -/

/-- A NO_REPLY to this address brings its Miss Count to the Miss Limit (R146, R147). -/
def State.missesLimit (s : State) (address : BitVec 5) : Bool :=
  match nodeIndex address with
  | none => false
  | some i => (s.nodeRecord i).missCount + 1 == s.config.missLimit

/-- A valid reply in a node record (R144, R145); `toggle` is the ACK's bit for a COMMAND, else none (R133). -/
def NodeRecord.answered (r : NodeRecord) (attention : Bool) (toggle : Option Bool) (cycle : BitVec 16) : NodeRecord :=
  { r with
    state := .alive, missCount := 0, attention := attention, lastReplyCycle := cycle
    toggle := match toggle with
      | some t => some t
      | none => r.toggle }

/-- A valid reply reaches the Node Table: the record of the address, and the ATTENTION flag at a rise (R144, R145). -/
def State.nodeAnswered (s : State) (address : BitVec 5) (toggle : Option Bool) : State :=
  match nodeIndex address with
  | none => s
  | some i =>
    let r := s.nodeRecord i
    let a := s.engine.staging.attention
    let s1 := s.setNode i (r.answered a toggle (s.cycle.cycleNumber.extractLsb' 0 16))
    { s1 with flags := { s1.flags with attention := s1.flags.attention || (a && !r.attention) } }

/-- A NO_REPLY reaches the Node Table: one more miss, and SILENT with the NODE_SILENT flag at the Miss Limit (R146,
R147). -/
def State.nodeMissed (s : State) (address : BitVec 5) : State :=
  match nodeIndex address with
  | none => s
  | some i =>
    let r := s.nodeRecord i
    if s.missesLimit address then
      let s1 := s.setNode i { r with missCount := r.missCount + 1, state := .silent }
      { s1 with flags := { s1.flags with nodeSilent := true } }
    else s.setNode i { r with missCount := r.missCount + 1 }

/-- The Node Table's update from a report (R144). A report for address 31 reaches no record (R138). -/
def State.nodeReport (s : State) (kind : ExchangeKind) (address : BitVec 5) (result : AttemptResult) : State :=
  match result with
  | .ack => s.nodeAnswered address (if kind = .command then some s.engine.staging.toggle else none)
  | .nakReject | .nakBusy | .data => s.nodeAnswered address none
  | .noReply => s.nodeMissed address
  | .badReply | .collision => s

/-- The reply copied from the staging buffer into the object (R104). -/
def MsgObject.copyReply (o : MsgObject) (g : Staging) : MsgObject :=
  { o with
    reply := Vector.ofFn (fun i : Fin 16 => if i.val < g.length.toNat then g.payload[i.val] else 0)
    receivedLength := g.length.setWidth 5
    replyCount := o.replyCount + 1
    overwriteCount := if o.fresh then satInc o.overwriteCount else o.overwriteCount
    fresh := true }

/-- A retried request: finished NO_FIT if it no longer fits, else PENDING again with a set Re-request merged into it
(R105). -/
def State.retry (s : State) (n : Fin 32) : State :=
  if s.noFit n then s.finish n .noFit
  else s.modifyObject n (fun o =>
    if o.reRequest then { o.merge with state := .pending, reRequest := false } else { o with state := .pending })

/-- Retried while Attempts is below the Attempt Limit, else finished (R103). -/
def State.retryOr (s : State) (n : Fin 32) (outcome : RequestOutcome) : State :=
  if (s.object n).attempts < (s.object n).config.attemptLimit then s.retry n else s.finish n outcome

/-- A node became SILENT: the ACTIVE object's request, then its re-request, then every PENDING object to the node in
object-number order, each finished NODE_SILENT (R106). -/
def State.finishAllTo (s : State) (n : Fin 32) (address : BitVec 5) : State :=
  (s.finish n .nodeSilent).forEachObject (fun m t =>
    if (t.object m).state = .pending ∧ (t.object m).config.node = address then t.finish m .nodeSilent else t)

/-- The attempt result applied to object n (R103). `silent` says that the node became SILENT on this attempt. -/
def State.applyResult (s : State) (n : Fin 32) (address : BitVec 5) (result : AttemptResult) (silent : Bool) : State :=
  let s1 := s.modifyObject n (fun o =>
    { o with attempts := o.attempts + 1, delivered := o.delivered || result != .collision })
  if silent then s1.finishAllTo n address
  else match result with
    | .ack => s1.finish n .done
    | .data => (s1.modifyObject n (fun o => o.copyReply s1.engine.staging)).finish n .done
    | .nakReject => s1.finish n .nakReject
    | .nakBusy => s1.retryOr n .busy
    | .noReply => s1.retryOr n .noReply
    | .badReply => s1.retryOr n .badReply
    | .collision => s1.retryOr n .collision

/-- The report of an attempt: the Node Table first, then the Object Table (R18, R103). -/
def State.report (s : State) (n : Fin 32) (kind : ExchangeKind) (address : BitVec 5) (result : AttemptResult) : State :=
  (s.nodeReport kind address result).applyResult n address result (result == .noReply && s.missesLimit address)

end Sys2Proof.Machine
end

