-- ==== Sys2Proof/Machine/Arbiter.lean ====
section
/-! DEFINITION. The Transmit Arbiter: the look (R113), the remaining time (R116), the SYNC frame (R117), candidates and the
winner (R118, R119), the taking of a frame (R120, R10, R129), and the Insert Slot (R122 to R124). -/

namespace Sys2Proof.Machine

/-- A POLL object with Hold Unread and FRESH set is held (R98). -/
def MsgObject.held (o : MsgObject) : Bool := o.config.kind == .poll && o.config.holdUnread && o.fresh

/-- The entry whose window is in force (R28 to R30, R43). -/
def State.openEntry (s : State) : Option Entry :=
  match s.activeBank, s.cycle.window with
  | some b, some w => some ((s.bank b).entries[w.val])
  | _, _ => none

/-- The remaining time R while a window is in force: the nearest of the window end, the cycle end and a pending Instant,
each less Line Time modulo 2^48 (R116). -/
def State.remaining (s : State) : Nat :=
  let r := min (ticksUntil s.lineTime s.cycle.windowEnd) (ticksUntil s.lineTime s.cycle.cycleEnd)
  if s.sw.pending then min r (ticksUntil s.lineTime s.sw.instant) else r

/-- A pending Instant less than SYNC time ahead keeps the SYNC frame from being sent (R117). -/
def State.syncBarred (s : State) : Bool :=
  s.sw.pending && decide (ticksUntil s.lineTime s.sw.instant < syncTime s.config.bitRate)

/-- The slot occupant is a candidate: the window opens some class, it is not held, and its W is at most R (R118, step
1). -/
def State.slotCandidate (s : State) (e : Entry) (n : Fin 32) : Bool :=
  (s.object n).state == .pending && e.classes != 0 && !(s.object n).held && decide (s.worst n ≤ s.remaining)

/-- A PENDING object is a candidate in the ordinary order (R118, step 2). -/
def State.ordinaryCandidate (s : State) (e : Entry) (n : Fin 32) : Bool :=
  (s.object n).state == .pending && !(s.object n).held && !s.isSilent (s.object n).config.node &&
    e.classes.getLsbD (s.object n).config.cls.toNat && decide (s.worst n ≤ s.remaining)

/-- The better of the best so far and object n, which has the higher number: a lower Priority value wins, and an equal
one keeps the lower number (R119). -/
def State.better (s : State) (best : Option (Fin 32)) (n : Fin 32) : Option (Fin 32) :=
  match best with
  | none => some n
  | some m => if (s.object n).config.priority < (s.object m).config.priority then some n else some m

/-- The winner of the ordinary order (R119). -/
def State.ordinaryWinner (s : State) (e : Entry) : Option (Fin 32) :=
  (objectNumbers.filter (fun n => s.ordinaryCandidate e n)).foldl (fun best n => s.better best n) none

/-- The winner of a look that may start an exchange, if there is a candidate (R118, R119). -/
def State.winner (s : State) : Option (Fin 32) :=
  match s.openEntry with
  | none => none
  | some e =>
    match s.slot with
    | some n => if s.slotCandidate e n then some n else s.ordinaryWinner e
    | none => s.ordinaryWinner e

/-- The Line Engine takes the owed SYNC frame, and the flag is cleared (R117, R36, R10, R6). -/
def State.startSync (s : State) : State :=
  { s with
    cycle := { s.cycle with syncOwed := false }
    engine := { s.engine with
      flight := some
        { carried := .sync, node := 31, replyLength := 0, frame := syncFrame s.cycle.cycleNumber, toggle := false
          resync := false, bitRate := s.config.bitRate, replyTimeout := s.config.replyTimeout
          frameBound := s.lineTime + BitVec.ofNat 48 (syncTime s.config.bitRate)
          sent := 0, overran := false, phase := .sending, mark := s.lineTime } } }

/-- The attempt in flight of object n's exchange, as the Line Engine takes it at this tick (R10, R129, R120). -/
def State.flightOf (s : State) (n : Fin 32) : Flight :=
  let o := s.object n
  let t := s.frameToggle n
  { carried := .exchange n o.config.exchangeKind, node := o.config.node, replyLength := o.config.replyLength
    frame := s.requestFrame n, toggle := t.1, resync := t.2, bitRate := s.config.bitRate
    replyTimeout := s.config.replyTimeout, frameBound := s.lineTime + BitVec.ofNat 48 (s.worst n)
    sent := 0, overran := false, phase := .sending, mark := s.lineTime }

/-- The winner selected: ACTIVE, out of the slot, and its frame taken (R120, R102). -/
def State.startExchange (s : State) (n : Fin 32) : State :=
  let s1 := (s.modifyObject n (fun o => { o with state := .active })).leaveSlot n
  { s1 with engine := { s1.engine with flight := some (s.flightOf n) } }

/-- A look (R113): only in RUNNING with the line idle; an owed SYNC first, and no exchange while one is owed. -/
def State.look (s : State) : State :=
  if s.sched = .running ∧ s.lineIdle = true then
    if s.cycle.syncOwed then
      if s.syncBarred then s else s.startSync
    else
      match s.winner with
      | none => s
      | some n => s.startExchange n
  else s

/-- Object n enters the slot; an occupant is superseded and counted (R122, R124). -/
def State.enterSlot (s : State) (n : Fin 32) : State :=
  let s1 :=
    match s.slot with
    | some m => { s.modifyObject m (fun o => { o with inSlot := false }) with supersede := satInc s.supersede }
    | none => s
  { s1.modifyObject n (fun o => { o with inSlot := true }) with slot := some n }

/-- W is above MaxAny of the ACTIVE bank; not judged while no bank is ACTIVE (R123). -/
def State.tooLong (s : State) (n : Fin 32) : Bool :=
  match s.figures with
  | none => false
  | some f => decide (f.maxAny < s.worst n)

/-- OBJ_INSERT of object n by its state (R122); a result OK makes a look (R113). -/
def State.insert (s : State) (n : Fin 32) : State × ResultCode :=
  match (s.object n).state with
  | .pending =>
    if s.slot = some n then (s.look, .ok)
    else if s.tooLong n then (s, .tooLong)
    else ((s.enterSlot n).look, .ok)
  | .idle => (s, .notPending)
  | .active => (s, .inFlight)
  | .disabled => (s, .badState)

end Sys2Proof.Machine
end

