-- ==== Sys2Proof/Machine/Cycle.lean ====
section
/-! DEFINITION. The Cycle Timer's happenings: window ends (R20, R30 to R32), cycle starts (R28, R36, R37), and the switch
instant with all that it hands on (R65 to R67, R127). -/

namespace Sys2Proof.Machine

/-- The overrun of the frame in flight counts at a window end: an exchange, not yet counted, whose GAP does not end at
this very tick (R20). -/
def Flight.overruns (fl : Flight) (now : Tick) : Bool :=
  (match fl.carried with
    | .sync => false
    | .exchange _ _ => true) && !fl.overran && !fl.gapEndsAt now

/-- A window end signalled to the Line Engine (R20); with no window in force none is signalled (R31, R32). -/
def State.signalWindowEnd (s : State) : State :=
  match s.cycle.window, s.engine.flight with
  | some _, some fl =>
    if fl.overruns s.lineTime then
      { s with
        engine := { s.engine with flight := some { fl with overran := true }, overrun := satInc s.engine.overrun } }
    else s
  | _, _ => s

/-- The line is busy at a cycle start: a frame is in flight, except at the tick at which a GAP ends, whichever of the two
is taken first (R37; log 12). -/
def State.busyAtCycleStart (s : State) : Bool :=
  match s.engine.flight with
  | none => false
  | some fl => !(fl.gapEndsAt s.lineTime || s.engine.gapEndedNow)

/-- A cycle start whose SYNC is owed counts late (R37). -/
def State.countsLate (s : State) : Bool := s.busyAtCycleStart || s.sched != .running

/-- A cycle starts at the present tick on bank b with the given Cycle Number (R28, R35, R36, R37, R159). -/
def State.beginCycle (s : State) (b : BankId) (number : BitVec 32) : State :=
  let bk := s.bank b
  { s with
    cycle :=
      { cycleStart := s.lineTime
        cycleEnd := s.lineTime + bk.cycleTime.setWidth 48
        cycleNumber := number
        window := some 0
        windowEnd := s.lineTime + BitVec.ofNat 48 ((bk.effective 0).getD 0)
        syncOwed := bk.sync
        pulseEnd := some (s.lineTime + BitVec.ofNat 48 Config.pulseTicks) }
    engine := { s.engine with
      syncLate := if bk.sync && s.countsLate then satInc s.engine.syncLate else s.engine.syncLate }
    flags := { s.flags with cycleStart := true } }

/-- The next window of the cycle, or the idle tail (R30). -/
def State.nextWindow (s : State) (b : BankId) (w : Fin 64) : State :=
  match (s.bank b).effective (w.val + 1) with
  | some d =>
    if h : w.val + 1 < 64 then
      { s with cycle := { s.cycle with
          window := some ⟨w.val + 1, h⟩, windowEnd := s.lineTime + BitVec.ofNat 48 d } }
    else { s with cycle := { s.cycle with window := none } }
  | none => { s with cycle := { s.cycle with window := none } }

/-- Roles, figures and scheduler state at an instant on bank b: b ACTIVE, its figures formed, ARMED to RUNNING (R41, R53,
R67). -/
def State.takeRoles (s : State) (b : BankId) : State :=
  { s with
    activeBank := some b
    figures := some ((s.bank b).figures s.config.bitRate)
    sched := if s.sched = .armed then .running else s.sched }

/-- The Switch Record and the SWITCH_DONE flag at an instant (R65). -/
def State.recordSwitch (s : State) : State :=
  { s with
    sw := { s.sw with
      pending := false, lastResult := .done, cause := .noCause, switchCount := s.sw.switchCount + 1 }
    flags := { s.flags with switchDone := true } }

/-- The Cycle Number of the cycle that an instant starts: 0 from ARMED, else one more (R27). -/
def State.instantNumber (s : State) : BitVec 32 := if s.sched = .armed then 0 else s.cycle.cycleNumber + 1

/-- The switch instant on bank b, all in one happening and the look last (R65 to R67, R32, R127). -/
def State.takeInstant (s : State) (b : BankId) : State :=
  ((((s.recordSwitch.signalWindowEnd).takeRoles b).beginCycle b s.instantNumber).cycleWork.recheck).look

end Sys2Proof.Machine
end

