-- ==== Sys2Proof/Machine/CycleEvents.lean ====
section
/-! DEFINITION. The happenings of Switch Control and the Cycle Timer: SWITCH_INSTANT, CYCLE_START, WINDOW_BOUNDARY,
CYC_PULSE_END. Each falls at the tick at which Line Time equals its boundary (R23); offered at another tick, or with its
boundary not standing, it does not occur and changes nothing (log 5). -/

namespace Sys2Proof.Machine

/-- SWITCH_INSTANT (R65 to R67). -/
def execSwitchInstant (s : State) : Host.Outcome State Fault Refusal :=
  .next (match s.sw.target with
    | some b => if s.instantDue then s.takeInstant b else s
    | none => s)

/-- The cycle end falls at the present tick, and no switch instant does (R31). -/
def State.cycleEndDue (s : State) : Bool := s.cycle.cycleEnd == s.lineTime && !s.instantDue

/-- A grid cycle start on the ACTIVE bank (R31, R28): the window in force ends, the cycle starts, the Object Table does its
work, and the look is last. -/
def State.gridCycleStart (s : State) (b : BankId) : State :=
  ((s.signalWindowEnd.beginCycle b (s.cycle.cycleNumber + 1)).cycleWork).look

/-- CYCLE_START (R28, R31). -/
def execCycleStart (s : State) : Host.Outcome State Fault Refusal :=
  .next (match s.activeBank with
    | some b => if s.cycleEndDue then s.gridCycleStart b else s
    | none => s)

/-- The window end falls at the present tick, before the cycle end, and no switch instant does (R30, R32; log 14). -/
def State.windowEndDue (s : State) : Bool :=
  s.cycle.windowEnd == s.lineTime && s.cycle.windowEnd != s.cycle.cycleEnd && !s.instantDue

/-- A window boundary: the window end is signalled, and the next entry or the idle tail begins (R30); a new window makes a
look (R113). -/
def State.boundary (s : State) (b : BankId) (w : Fin 64) : State :=
  let s1 := s.signalWindowEnd.nextWindow b w
  if s1.cycle.window.isSome then s1.look else s1

/-- WINDOW_BOUNDARY (R30). -/
def execWindowBoundary (s : State) : Host.Outcome State Fault Refusal :=
  .next (match s.activeBank, s.cycle.window with
    | some b, some w => if s.windowEndDue then s.boundary b w else s
    | _, _ => s)

/-- CYC_PULSE_END (R35). -/
def execCycPulseEnd (s : State) : Host.Outcome State Fault Refusal :=
  .next (if s.cycle.pulseEnd = some s.lineTime then { s with cycle := { s.cycle with pulseEnd := none } } else s)

end Sys2Proof.Machine
end

