-- ==== Sys2Proof/Machine/Flags.lean ====
section
/-! DEFINITION. The event flags as the host sees and clears them (R156), INT# (R158), and the output pins CYC (R35), LDE and
LTX (R1, R9, R11), each a function of the state (log 20). -/

namespace Sys2Proof.Machine

/-- COMPLETION is live: set while the queue holds a record (R156). -/
def State.completionFlag (s : State) : Bool := !s.queue.isEmpty

/-- The nine event flags as bits 0 to 8 of their halfword (register map, offset 52). -/
def State.flagsWord (s : State) : BitVec 9 :=
  BitVec.ofBool s.flags.accessDenied ++ BitVec.ofBool s.flags.cycleStart ++ BitVec.ofBool s.flags.lineFault ++
    BitVec.ofBool s.flags.attention ++ BitVec.ofBool s.flags.nodeSilent ++ BitVec.ofBool s.flags.switchFailed ++
    BitVec.ofBool s.flags.switchDone ++ BitVec.ofBool s.flags.queueLost ++ BitVec.ofBool s.completionFlag

/-- Each sticky flag whose bit is written as 1 is cleared; the COMPLETION bit is ignored (R156). -/
def EventFlags.cleared (f : EventFlags) (data : Halfword) : EventFlags :=
  { queueLost := f.queueLost && !data.getLsbD 1
    switchDone := f.switchDone && !data.getLsbD 2
    switchFailed := f.switchFailed && !data.getLsbD 3
    nodeSilent := f.nodeSilent && !data.getLsbD 4
    attention := f.attention && !data.getLsbD 5
    lineFault := f.lineFault && !data.getLsbD 6
    cycleStart := f.cycleStart && !data.getLsbD 7
    accessDenied := f.accessDenied && !data.getLsbD 8 }

/-- INT# is driven low while at least one flag is set whose enable is also set (R158). -/
def State.intLow (s : State) : Bool := (s.flagsWord &&& s.enables) != 0

/-- CYC is high while a pulse is under way (R35). -/
def State.cycHigh (s : State) : Bool := s.cycle.pulseEnd.isSome

/-- LDE is asserted in SENDING alone (section 1.5). -/
def State.ldeAsserted (s : State) : Bool :=
  match s.engine.flight with
  | some fl => fl.phase == .sending
  | none => false

/-- The byte of the frame that is being sent (R11). -/
def Flight.currentByte (fl : Flight) : Byte := fl.frame.getD fl.sent 0

/-- The level of LTX: the bit of the current byte that the present tick falls in while LDE is asserted, and 1 whenever LDE
is released (R1, R9). -/
def State.ltx (s : State) : Bool :=
  match s.engine.flight with
  | some fl =>
    if fl.phase = .sending then
      (drivenBits fl.currentByte).getLsbD (min 9 (ticksUntil fl.mark s.lineTime / fl.bitRate.ticksPerBit))
    else true
  | none => true

end Sys2Proof.Machine
end

