-- ==== Sys2Proof/Machine/LineEvents.lean ====
section
/-! DEFINITION. The happenings of the Line Engine: BYTE_SENT, REPLY_START, REPLY_TIMEOUT, REPLY_BYTE_RECEIVED,
TRUNCATED_REPLY, DRAIN_END, DRAIN_COUNT_RESTART, GAP_END. Each occurs only in its state of the engine and at its tick
(log 5, log 7, log 9); offered otherwise it changes nothing. -/

namespace Sys2Proof.Machine

/-- A flight gone on to another state of the engine, whose count of bit times runs from `now`. -/
def Flight.goTo (fl : Flight) (phase : Phase) (now : Tick) : Flight := { fl with phase := phase, mark := now }

/-- Put the flight. -/
def State.setFlight (s : State) (fl : Flight) : State := { s with engine := { s.engine with flight := some fl } }

/-- The moment `n` bit times after the flight's mark is the present tick. -/
def State.bitsUp (s : State) (fl : Flight) (n : Nat) : Bool := afterBits fl.bitRate fl.mark n == s.lineTime

/-! ## Sending -/

/-- The last byte of a frame went out with a clean echo (R11, R12): the collision count becomes 0; a COMMAND to a node and
a POLL await the reply, whose buffer is emptied at the start of the reply phase (R14, log 3); a broadcast and a SYNC go to
GAP. -/
def State.frameWhole (s : State) (fl : Flight) : State :=
  match fl.carried with
  | .sync | .exchange _ .broadcast =>
    { s with engine := { s.engine with collisions := 0, flight := some (fl.goTo (.gap .ack) s.lineTime) } }
  | .exchange _ .command | .exchange _ .poll =>
    { s with engine := { s.engine with
        collisions := 0, staging := Staging.empty, flight := some (fl.goTo .awaitReply s.lineTime) } }

/-- An echo mismatch is a collision (R11, R12): the count rises, stopping at 3, and the engine enters GAP. -/
def State.collide (s : State) (fl : Flight) : State :=
  { s with engine := { s.engine with
      collisions := satInc s.engine.collisions, flight := some (fl.goTo (.gap .collision) s.lineTime) } }

/-- The end of a sent byte (R11): `echo` is compared with the ten bits driven. -/
def State.byteEnds (s : State) (fl : Flight) (echo : BitVec 10) : State :=
  if echo = drivenBits fl.currentByte then
    if fl.sent + 1 < fl.frame.length then s.setFlight { fl with sent := fl.sent + 1, mark := s.lineTime }
    else s.frameWhole { fl with sent := fl.sent + 1 }
  else s.collide fl

/-- BYTE_SENT (R11). -/
def execByteSent (echo : BitVec 10) (s : State) : Host.Outcome State Fault Refusal :=
  .next (match s.engine.flight with
    | some fl => if fl.phase = .sending ∧ s.bitsUp fl Config.byteBits = true then s.byteEnds fl echo else s
    | none => s)

/-! ## The reply phase -/

/-- A start bit is in time (R13): in AWAIT_REPLY no later than the end of the Reply Timeout; and at the very tick at which
the Reply Timeout ends, also when REPLY_TIMEOUT was taken first (log 10). -/
def State.startInTime (s : State) (fl : Flight) : Bool :=
  match fl.phase with
  | .awaitReply => decide (ticksUntil fl.mark s.lineTime ≤ fl.replyTimeout.toNat * fl.bitRate.ticksPerBit)
  | .gap .noReply => fl.mark == s.lineTime
  | _ => false

/-- REPLY_START (R13, R14). -/
def execReplyStart (s : State) : Host.Outcome State Fault Refusal :=
  .next (match s.engine.flight with
    | some fl =>
      if s.startInTime fl then
        { s with engine := { s.engine with
            staging := Staging.empty, flight := some (fl.goTo .receiving s.lineTime) } }
      else s
    | none => s)

/-- REPLY_TIMEOUT (R13). -/
def execReplyTimeout (s : State) : Host.Outcome State Fault Refusal :=
  .next (match s.engine.flight with
    | some fl =>
      if fl.phase = .awaitReply ∧ s.bitsUp fl fl.replyTimeout.toNat = true then
        s.setFlight (fl.goTo (.gap .noReply) s.lineTime)
      else s
    | none => s)

/-- A reply byte can end at the present tick (R1, R14): byte 0 ten bit times after its start bit, a later byte ten to thirty
bit times after the stop bit of the byte before it (log 9). -/
def State.byteInTime (s : State) (fl : Flight) : Bool :=
  if s.engine.staging.count = 0 then s.bitsUp fl Config.byteBits
  else
    let t := ticksUntil fl.mark s.lineTime
    decide (Config.byteBits * fl.bitRate.ticksPerBit ≤ t ∧
      t ≤ (Config.byteBits + Config.silenceBits) * fl.bitRate.ticksPerBit)

/-- A reply byte received: a broken byte fails the reply and drains; a whole byte is stored and checked (R14, R15, R16). -/
def State.receiveByte (s : State) (fl : Flight) (n : Fin 32) (kind : ExchangeKind) (data : Byte) (stopBit : Bool) :
    State :=
  if stopBit then
    let g := s.engine.staging.store data
    let next : Flight :=
      match checkByte n kind fl.node fl.replyLength g with
      | .goOn => { fl with mark := s.lineTime }
      | .drain => fl.goTo .draining s.lineTime
      | .finish r => fl.goTo (.gap r) s.lineTime
    { s with engine := { s.engine with staging := g, flight := some next } }
  else s.setFlight (fl.goTo .draining s.lineTime)

/-- REPLY_BYTE_RECEIVED (R14). -/
def execReplyByteReceived (data : Byte) (stopBit : Bool) (s : State) : Host.Outcome State Fault Refusal :=
  .next (match s.engine.flight with
    | some fl =>
      match fl.carried with
      | .exchange n kind =>
        if fl.phase = .receiving ∧ s.byteInTime fl = true then s.receiveByte fl n kind data stopBit else s
      | .sync => s
    | none => s)

/-- TRUNCATED_REPLY (R14): after a byte of an unfinished reply; straight to GAP with BAD_REPLY. -/
def execTruncatedReply (s : State) : Host.Outcome State Fault Refusal :=
  .next (match s.engine.flight with
    | some fl =>
      if fl.phase = .receiving ∧ s.engine.staging.count ≠ 0 ∧ s.bitsUp fl Config.silenceBits = true then
        s.setFlight (fl.goTo (.gap .badReply) s.lineTime)
      else s
    | none => s)

/-- DRAIN_END (R17). -/
def execDrainEnd (s : State) : Host.Outcome State Fault Refusal :=
  .next (match s.engine.flight with
    | some fl =>
      if fl.phase = .draining ∧ s.bitsUp fl Config.silenceBits = true then
        s.setFlight (fl.goTo (.gap .badReply) s.lineTime)
      else s
    | none => s)

/-- DRAIN_COUNT_RESTART: a 0 on LRX in DRAINING sets the count of bit times at 1 back to 0 (R17). -/
def execDrainCountRestart (s : State) : Host.Outcome State Fault Refusal :=
  .next (match s.engine.flight with
    | some fl => if fl.phase = .draining then s.setFlight { fl with mark := s.lineTime } else s
    | none => s)

/-! ## The end of an attempt -/

/-- A third consecutive collision raises LINE_FAULT at the end of its GAP (R12): the flag is set, and RUNNING becomes HALTED
(R79). -/
def State.raiseFault (s : State) (result : AttemptResult) : State :=
  if result = .collision ∧ s.engine.collisions = 3 then
    { s with
      flags := { s.flags with lineFault := true }
      sched := if s.sched = .running then .halted else s.sched }
  else s

/-- Line idle ends STOPPING with the effects of going OFF (R77, R76). -/
def State.endStopping (s : State) : State := if s.sched = .stopping then s.goOff else s

/-- The Line Engine back in IDLE, the attempt ended (R18). -/
def State.enterIdle (s : State) : State := { s with engine := { s.engine with flight := none, gapEndedNow := true } }

/-- The end of GAP (R18): IDLE, the report to the Node Table and the Object Table, the line fault, the end of STOPPING, and
the look last (R120, R121). At the tick of a cycle end that has not been taken yet, a SYNC still owed goes at this look with the
old Cycle Number (log 26). -/
def State.endGap (s : State) (fl : Flight) (result : AttemptResult) : State :=
  let s1 := s.enterIdle
  let s2 :=
    match fl.carried with
    | .sync => s1
    | .exchange n kind => s1.report n kind fl.node result
  ((s2.raiseFault result).endStopping).look

/-- GAP_END (R18). -/
def execGapEnd (s : State) : Host.Outcome State Fault Refusal :=
  .next (match s.engine.flight with
    | some fl =>
      match fl.phase with
      | .gap r => if s.bitsUp fl Config.gapBits then s.endGap fl r else s
      | _ => s
    | none => s)

end Sys2Proof.Machine
end

