-- ==== Sys2Proof/Machine/Operands.lean ====
section
/-! DEFINITION. Operand forms: command arguments (R162), select reductions (R163), and the fields of the writable halfwords
(register map, 11.4). -/

namespace Sys2Proof.Machine

/-- A bank argument: 0 is A, 1 is B; any other value is out of range (R162). -/
def bankArgument (arg : BitVec 8) : Option BankId :=
  match arg.toNat with
  | 0 => some .bankA
  | 1 => some .bankB
  | _ => none

/-- An object argument: 0 to 31 (R162). -/
def objectArgument (arg : BitVec 8) : Option (Fin 32) :=
  if h : arg.toNat < 32 then some ⟨arg.toNat, h⟩ else none

/-- A node argument: 1 to 30, as the index of its record (R162, R150). -/
def nodeArgument (arg : BitVec 8) : Option (Fin 30) :=
  if h : 1 ≤ arg.toNat ∧ arg.toNat ≤ 30 then some ⟨arg.toNat - 1, by omega⟩ else none

/-- A command with an object argument: out of range it is answered BAD_ARG and changes nothing (R162). -/
def State.onObject (s : State) (arg : BitVec 8) (f : Fin 32 → State → State × ResultCode) : State × ResultCode :=
  match objectArgument arg with
  | none => (s, .badArg)
  | some n => f n s

/-- Object select: the whole halfword modulo 32 (R163). -/
def objectSelectOf (data : Halfword) : Fin 32 := ⟨data.toNat % 32, Nat.mod_lt _ (by decide)⟩

/-- Bank field of the bank select, bits 1 to 0, modulo 2 (R163). -/
def bankSelectOf (data : Halfword) : BankId := if (data.extractLsb' 0 2).toNat % 2 = 0 then .bankA else .bankB

/-- Entry field of the bank select, bits 14 to 8, modulo 64 (R163). -/
def entrySelectOf (data : Halfword) : Fin 64 := ⟨(data.extractLsb' 8 7).toNat % 64, Nat.mod_lt _ (by decide)⟩

/-- Node select, as the index (address less 1): 1 to 30 are kept, and any other v selects ((v − 1) modulo 30) + 1, with
v = 0 selecting 30 (R163). -/
def nodeSelectOf (data : Halfword) : Fin 30 := ⟨(data.toNat + 29) % 30, Nat.mod_lt _ (by decide)⟩

/-- The low, middle and high halfwords of a 48-bit value replaced. -/
def replaceHalf (x : Tick) (which : Nat) (data : Halfword) : Tick :=
  match which with
  | 0 => x.extractLsb' 16 32 ++ data
  | 1 => x.extractLsb' 32 16 ++ data ++ x.extractLsb' 0 16
  | _ => data ++ x.extractLsb' 0 32

/-- An accepted write to a bank halfword (R45; offsets 10 to 16). -/
def Bank.write (bk : Bank) (entry : Fin 64) (reg : BankReg) (data : Halfword) : Bank :=
  match reg with
  | .baseLow => { bk with baseTime := replaceHalf bk.baseTime 0 data }
  | .baseMiddle => { bk with baseTime := replaceHalf bk.baseTime 1 data }
  | .baseHigh => { bk with baseTime := replaceHalf bk.baseTime 2 data }
  | .cycleLow => { bk with cycleTime := bk.cycleTime.extractLsb' 16 8 ++ data }
  | .cycleHigh =>
    { bk with
      cycleTime := data.extractLsb' 0 8 ++ bk.cycleTime.extractLsb' 0 16
      listLength := data.extractLsb' 8 7
      sync := data.getLsbD 15 }
  | .durationLow =>
    let e := bk.entries[entry.val]
    { bk with entries := bk.entries.set entry.val { e with duration := e.duration.extractLsb' 16 4 ++ data } }
  | .durationHigh =>
    let e := bk.entries[entry.val]
    { bk with
      entries := bk.entries.set entry.val
        { duration := data.extractLsb' 0 4 ++ e.duration.extractLsb' 0 16, classes := data.extractLsb' 8 4 } }

/-- An accepted write to an object configuration halfword (R86; offsets 18 to 21). -/
def ObjConfig.write (c : ObjConfig) (reg : ObjReg) (data : Halfword) : ObjConfig :=
  match reg with
  | .conf0 =>
    { c with
      node := data.extractLsb' 0 5
      kind := if data.getLsbD 5 then .poll else .command
      cls := data.extractLsb' 6 2
      priority := data.extractLsb' 8 4
      trigger := if data.getLsbD 12 then .cyclic else .host
      holdUnread := data.getLsbD 13 }
  | .conf1 =>
    { c with
      attemptLimit := data.extractLsb' 0 4, length := data.extractLsb' 4 5, replyLength := data.extractLsb' 9 5 }
  | .conf2 => { c with lifetime := data.extractLsb' 0 8 }
  | .conf3 => { c with period := data.extractLsb' 0 7, phase := data.extractLsb' 8 7 }

/-- An accepted write to payload halfword k: byte 2k + 1 in bits 7 to 0, byte 2k + 2 in bits 15 to 8 (R87; offset
26 + k). Byte j of the manual is element j − 1. -/
def writePayload (p : Vector Byte 16) (k : BitVec 3) (data : Halfword) : Vector Byte 16 :=
  have h : k.toNat < 8 := k.isLt
  (p.set (2 * k.toNat) (data.extractLsb' 0 8) (by omega)).set (2 * k.toNat + 1) (data.extractLsb' 8 8) (by omega)

/-- The bit rate of a code (register map, offset 7). -/
def bitRateOf (code : BitVec 2) : BitRate :=
  match code.toNat with
  | 0 => .kbit500
  | 1 => .mbit1
  | 2 => .mbit2
  | _ => .mbit4

/-- An accepted write to a Line Configuration halfword: a Miss Limit written as 0 is stored as 1, a Reply Timeout
written below 8 is stored as 8 (R84; offsets 7 and 8). -/
def LineConfig.write (c : LineConfig) (reg : LineReg) (data : Halfword) : LineConfig :=
  match reg with
  | .rateAndMiss =>
    let m : BitVec 4 := data.extractLsb' 8 4
    { c with bitRate := bitRateOf (data.extractLsb' 0 2), missLimit := if m = 0 then 1 else m }
  | .timeoutAndLate =>
    let t : BitVec 8 := data.extractLsb' 0 8
    { c with replyTimeout := if t < 8 then 8 else t, lateLimit := data.extractLsb' 8 8 }

/-- A node record brought within a new Miss Limit: SILENT keeps its state and is lowered to the limit; a record that is
not SILENT and stands at or above the limit takes the limit less 1 (R85). -/
def NodeRecord.withinLimit (limit : BitVec 4) (r : NodeRecord) : NodeRecord :=
  if r.state = .silent then
    if limit < r.missCount then { r with missCount := limit } else r
  else if limit ≤ r.missCount then { r with missCount := limit - 1 } else r

/-- The validity check of OBJ_ENABLE (R91, Valid column of R86). -/
def ObjConfig.valid (c : ObjConfig) : Bool :=
  (match c.kind with
    | .command => decide (1 ≤ c.node.toNat ∧ c.node.toNat ≤ 31) && decide (c.length.toNat ≤ 16)
    | .poll => decide (1 ≤ c.node.toNat ∧ c.node.toNat ≤ 30) && decide (c.replyLength.toNat ≤ 16)) &&
  decide (1 ≤ c.attemptLimit.toNat ∧ c.attemptLimit.toNat ≤ 8) &&
  (match c.trigger with
    | .host => true
    | .cyclic => decide (1 ≤ c.period.toNat ∧ c.period.toNat ≤ 64) && decide (c.phase.toNat < c.period.toNat))

end Sys2Proof.Machine
end

