-- ==== Sys2Proof/Machine/ObjectCommands.lean ====
section
/-! DEFINITION. The object commands (R91 to R97, R122) and the commands of the Node Table, the Completion Queue and the
counters (R150, R155, R160, R162). -/

namespace Sys2Proof.Machine

/-- OBJ_ENABLE n (R91). -/
def State.enable (n : Fin 32) (s : State) : State × ResultCode :=
  match (s.object n).state with
  | .disabled =>
    if (s.object n).config.valid then (s.modifyObject n (fun o => { o with state := .idle }), .ok) else (s, .badConfig)
  | .idle | .pending | .active => (s, .badState)

/-- OBJ_ENABLE (R91). -/
def execObjEnable (arg : BitVec 8) (s : State) : Host.Outcome State Fault Refusal :=
  .next (s.takeCommand 0x08 (fun t => t.onObject arg State.enable))

/-- OBJ_DISABLE n (R92). -/
def State.disable (n : Fin 32) (s : State) : State × ResultCode :=
  match (s.object n).state with
  | .idle => (s.modifyObject n (fun o => { o with state := .disabled }), .ok)
  | .pending => (s.retire n .withdrawn .disabled, .ok)
  | .active => (s, .inFlight)
  | .disabled => (s, .ok)

/-- OBJ_DISABLE (R92). -/
def execObjDisable (arg : BitVec 8) (s : State) : Host.Outcome State Fault Refusal :=
  .next (s.takeCommand 0x09 (fun t => t.onObject arg State.disable))

/-- OBJ_REQUEST n (R93, R94): a request taken that leaves the object PENDING makes a look (R113). -/
def State.hostRequest (n : Fin 32) (s : State) : State × ResultCode :=
  match (s.object n).state with
  | .disabled => (s, .badState)
  | .idle =>
    let s1 := s.request n
    (if (s1.object n).state = .pending then s1.look else s1, .ok)
  | .pending | .active => (s.request n, .ok)

/-- OBJ_REQUEST (R93). -/
def execObjRequest (arg : BitVec 8) (s : State) : Host.Outcome State Fault Refusal :=
  .next (s.takeCommand 0x0A (fun t => t.onObject arg State.hostRequest))

/-- OBJ_WITHDRAW n (R96). -/
def State.withdraw (n : Fin 32) (s : State) : State × ResultCode :=
  match (s.object n).state with
  | .pending => (s.finish n .withdrawn, .ok)
  | .active => (s.modifyObject n (fun o => { o with reRequest := false }), .inFlight)
  | .idle | .disabled => (s, .notPending)

/-- OBJ_WITHDRAW (R96). -/
def execObjWithdraw (arg : BitVec 8) (s : State) : Host.Outcome State Fault Refusal :=
  .next (s.takeCommand 0x0B (fun t => t.onObject arg State.withdraw))

/-- OBJ_RELEASE n (R97): a release that ends the hold of a PENDING object makes a look (R98, R113). -/
def State.release (n : Fin 32) (s : State) : State × ResultCode :=
  match (s.object n).state with
  | .disabled => (s, .badState)
  | .idle | .pending | .active =>
    let s1 := s.modifyObject n (fun o => { o with fresh := false })
    (if (s.object n).state = .pending ∧ (s.object n).held = true then s1.look else s1, .ok)

/-- OBJ_RELEASE (R97). -/
def execObjRelease (arg : BitVec 8) (s : State) : Host.Outcome State Fault Refusal :=
  .next (s.takeCommand 0x0C (fun t => t.onObject arg State.release))

/-- OBJ_INSERT (R122). -/
def execObjInsert (arg : BitVec 8) (s : State) : Host.Outcome State Fault Refusal :=
  .next (s.takeCommand 0x0D (fun t => t.onObject arg (fun n u => u.insert n)))

/-- NODE_REVIVE of the node with index i (R150). -/
def State.revive (s : State) (i : Fin 30) : State × ResultCode :=
  let r := s.nodeRecord i
  if r.state = .silent then (s.setNode i { r with state := .unknown, missCount := 0, toggle := none }, .ok)
  else (s, .badState)

/-- NODE_REVIVE (R150). -/
def execNodeRevive (arg : BitVec 8) (s : State) : Host.Outcome State Fault Refusal :=
  .next (s.takeCommand 0x10 (fun t =>
    match nodeArgument arg with
    | none => (t, .badArg)
    | some i => t.revive i))

/-- The head record removed (R155). -/
def State.pop (s : State) : State × ResultCode :=
  match s.queue with
  | [] => (s, .queueEmpty)
  | _ :: rest => ({ s with queue := rest }, .ok)

/-- QUEUE_POP (R155). -/
def execQueuePop (s : State) : Host.Outcome State Fault Refusal := .next (s.takeCommand 0x11 State.pop)

/-- COUNTERS_CLEAR (R160). -/
def execCountersClear (s : State) : Host.Outcome State Fault Refusal :=
  .next (s.takeCommand 0x12 (fun t => ({ t with engine := { t.engine with overrun := 0, syncLate := 0 } }, .ok)))

/-- UNKNOWN_COMMAND: a code that is not listed changes nothing but the command result register (R162). A listed code is
another row's command (log 15). -/
def execUnknownCommand (code _arg : BitVec 8) (s : State) : Host.Outcome State Fault Refusal :=
  if isListedCode code then .refused .otherRow else .next (s.takeCommand code (fun t => (t, .unknownCommand)))

end Sys2Proof.Machine
end

