-- ==== Sys2Proof/Machine/RegisterMap.lean ====
section
/-! DEFINITION. The register window as the host reads it (register map, 11.4): codes of the enumerated fields and the
halfword at each offset, and what a bus read answers. A read changes nothing but the snapshot latch, which LINE_TIME_LOW_READ
moves (R161, R24). -/

namespace Sys2Proof.Machine

/-- Result codes (R162). -/
def ResultCode.code : ResultCode → BitVec 8
  | .ok => 0
  | .badArg => 1
  | .badState => 2
  | .badConfig => 3
  | .tooLate => 4
  | .tooLong => 5
  | .notPending => 6
  | .inFlight => 7
  | .wrongBank => 8
  | .queueEmpty => 9
  | .unknownCommand => 10

/-- Scheduler state codes. -/
def SchedState.code : SchedState → BitVec 16
  | .off => 0
  | .armed => 1
  | .running => 2
  | .stopping => 3
  | .halted => 4

/-- ACTIVE bank and Target codes: 0 none, 1 A, 2 B. -/
def bankCode : Option BankId → BitVec 16
  | none => 0
  | some .bankA => 1
  | some .bankB => 2

/-- Last Result codes. -/
def SwitchResult.code : SwitchResult → BitVec 16
  | .noResult => 0
  | .done => 1
  | .failed => 2
  | .cancelled => 3
  | .stopped => 4

/-- Cause codes of the Switch Record. -/
def SwitchCause.code : SwitchCause → BitVec 16
  | .noCause => 0
  | .length => 1
  | .cycle => 2
  | .entry => 3
  | .allClosed => 4
  | .syncRoom => 5
  | .late => 6

/-- Bit rate codes. -/
def BitRate.code : BitRate → BitVec 16
  | .kbit500 => 0
  | .mbit1 => 1
  | .mbit2 => 2
  | .mbit4 => 3

/-- Object State codes. -/
def ObjState.code : ObjState → BitVec 16
  | .disabled => 0
  | .idle => 1
  | .pending => 2
  | .active => 3

/-- Outcome codes of a finished request; 0 is NONE. -/
def RequestOutcome.code : RequestOutcome → BitVec 16
  | .done => 1
  | .nakReject => 2
  | .busy => 3
  | .noReply => 4
  | .badReply => 5
  | .collision => 6
  | .expired => 7
  | .noFit => 8
  | .nodeSilent => 9
  | .withdrawn => 10

/-- Node State codes. -/
def NodeState.code : NodeState → BitVec 16
  | .unknown => 0
  | .alive => 1
  | .silent => 2

/-- Toggle codes: 0, 1, 2 UNKNOWN. -/
def toggleCode : Option Bool → BitVec 16
  | some false => 0
  | some true => 1
  | none => 2

/-- Cause codes of the Access-Denied Record; a cleared record reads 0 there (R165). -/
def DenyCause.code : DenyCause → BitVec 16
  | .activeBank => 0
  | .locked => 1
  | .objectState => 2
  | .schedState => 3

/-- A field placed with its lowest bit at `at`. -/
def fieldAt {w : Nat} (low : Nat) (v : BitVec w) : Halfword := v.setWidth 16 <<< low

/-- One bit placed at a position. -/
def bitAt (low : Nat) (b : Bool) : Halfword := fieldAt low (BitVec.ofBool b)

/-- The object named by the object select (R163). -/
def State.selectedObject (s : State) : MsgObject := s.object s.port.objectSelect

/-- The bank named by the bank select (R163). -/
def State.selectedBank (s : State) : Bank := s.bank s.port.bankSelect

/-- The entry named by the bank select (R163). -/
def State.selectedEntry (s : State) : Entry := s.selectedBank.entries[s.port.entrySelect.val]

/-- The node record named by the node select (R163). -/
def State.selectedNode (s : State) : NodeRecord := s.nodeRecord s.port.nodeSelect

/-- Halfword k of a 16-byte buffer: byte 2k + 1 below, byte 2k + 2 above (register map, offsets 26 to 41). -/
def bufferWord (p : Vector Byte 16) (k : Nat) : Halfword := p.toList.getD (2 * k + 1) 0 ++ p.toList.getD (2 * k) 0

/-- Object status 0 (offset 22). -/
def MsgObject.status0 (o : MsgObject) : Halfword :=
  fieldAt 0 o.state.code ||| fieldAt 2 (match o.lastOutcome with
    | none => 0
    | some x => x.code) ||| fieldAt 6 o.attempts ||| bitAt 10 o.reRequest ||| bitAt 11 o.inSlot ||| bitAt 12 o.fresh

/-- The five head halfwords (offsets 46 to 50); all 0 while the queue is empty (R154). -/
def headWord (queue : List Completion) (k : Nat) : Halfword :=
  match queue with
  | [] => 0
  | c :: _ =>
    match k with
    | 0 => fieldAt 0 (BitVec.ofNat 5 c.object.val) ||| fieldAt 5 c.outcome.code ||| fieldAt 9 c.attempts ||| bitAt 15 true
    | 1 => c.cycle
    | 2 => fieldAt 0 c.window ||| fieldAt 8 c.receivedLength
    | 3 => c.time.extractLsb' 0 16
    | _ => c.time.extractLsb' 16 16

/-- Object configuration 0 to 3 (offsets 18 to 21). -/
def ObjConfig.word (c : ObjConfig) (k : Nat) : Halfword :=
  match k with
  | 0 =>
    fieldAt 0 c.node ||| bitAt 5 (c.kind == .poll) ||| fieldAt 6 c.cls ||| fieldAt 8 c.priority |||
      bitAt 12 (c.trigger == .cyclic) ||| bitAt 13 c.holdUnread
  | 1 => fieldAt 0 c.attemptLimit ||| fieldAt 4 c.length ||| fieldAt 9 c.replyLength
  | 2 => fieldAt 0 c.lifetime
  | _ => fieldAt 0 c.period ||| fieldAt 8 c.phase

/-- Node status (offset 43). -/
def NodeRecord.statusWord (r : NodeRecord) : Halfword :=
  fieldAt 0 r.state.code ||| fieldAt 2 r.missCount ||| fieldAt 6 (toggleCode r.toggle) ||| bitAt 8 r.attention

/-- The Access-Denied Record (offset 63; R165). -/
def DeniedRecord.word (d : DeniedRecord) : Halfword :=
  fieldAt 0 d.offset ||| fieldAt 6 (match d.cause with
    | none => 0
    | some c => c.code) ||| fieldAt 8 d.count

/-- The halfword at an offset as the owning blocks hold it (R161; register map, 11.4). Offset 54 is the live low halfword of
Line Time, 55 and 56 the latch (R24). Unmapped halfwords read 0000h. -/
def State.readHalfword (s : State) (offset : BitVec 7) : Halfword :=
  match offset.toNat with
  | 0 => fieldAt 0 s.port.result.code ||| fieldAt 8 s.port.answered
  | 1 =>
    fieldAt 0 s.sched.code ||| fieldAt 3 (bankCode s.activeBank) ||| bitAt 5 s.sw.pending |||
      fieldAt 8 s.sw.lastResult.code ||| fieldAt 12 s.sw.cause.code
  | 2 => fieldAt 0 (bankCode s.sw.target) ||| bitAt 2 s.sw.pending ||| fieldAt 8 s.sw.lateCount
  | 3 => s.sw.instant.extractLsb' 0 16
  | 4 => s.sw.instant.extractLsb' 16 16
  | 5 => s.sw.instant.extractLsb' 32 16
  | 6 => s.sw.switchCount
  | 7 => fieldAt 0 s.config.bitRate.code ||| fieldAt 8 s.config.missLimit
  | 8 => fieldAt 0 s.config.replyTimeout ||| fieldAt 8 s.config.lateLimit
  | 9 => fieldAt 0 (BitVec.ofBool (s.port.bankSelect == .bankB)) ||| fieldAt 8 (BitVec.ofNat 7 s.port.entrySelect.val)
  | 10 => s.selectedBank.baseTime.extractLsb' 0 16
  | 11 => s.selectedBank.baseTime.extractLsb' 16 16
  | 12 => s.selectedBank.baseTime.extractLsb' 32 16
  | 13 => s.selectedBank.cycleTime.extractLsb' 0 16
  | 14 =>
    fieldAt 0 (s.selectedBank.cycleTime.extractLsb' 16 8) ||| fieldAt 8 s.selectedBank.listLength |||
      bitAt 15 s.selectedBank.sync
  | 15 => s.selectedEntry.duration.extractLsb' 0 16
  | 16 => fieldAt 0 (s.selectedEntry.duration.extractLsb' 16 4) ||| fieldAt 8 s.selectedEntry.classes
  | 17 => BitVec.ofNat 16 s.port.objectSelect.val
  | 18 => s.selectedObject.config.word 0
  | 19 => s.selectedObject.config.word 1
  | 20 => s.selectedObject.config.word 2
  | 21 => s.selectedObject.config.word 3
  | 22 => s.selectedObject.status0
  | 23 => fieldAt 0 s.selectedObject.age ||| fieldAt 8 s.selectedObject.receivedLength
  | 24 => fieldAt 0 s.selectedObject.replyCount ||| fieldAt 8 s.selectedObject.mergeCount
  | 25 => fieldAt 0 s.selectedObject.overwriteCount
  | 26 => bufferWord s.selectedObject.payload 0
  | 27 => bufferWord s.selectedObject.payload 1
  | 28 => bufferWord s.selectedObject.payload 2
  | 29 => bufferWord s.selectedObject.payload 3
  | 30 => bufferWord s.selectedObject.payload 4
  | 31 => bufferWord s.selectedObject.payload 5
  | 32 => bufferWord s.selectedObject.payload 6
  | 33 => bufferWord s.selectedObject.payload 7
  | 34 => bufferWord s.selectedObject.reply 0
  | 35 => bufferWord s.selectedObject.reply 1
  | 36 => bufferWord s.selectedObject.reply 2
  | 37 => bufferWord s.selectedObject.reply 3
  | 38 => bufferWord s.selectedObject.reply 4
  | 39 => bufferWord s.selectedObject.reply 5
  | 40 => bufferWord s.selectedObject.reply 6
  | 41 => bufferWord s.selectedObject.reply 7
  | 42 => BitVec.ofNat 16 (s.port.nodeSelect.val + 1)
  | 43 => s.selectedNode.statusWord
  | 44 => s.selectedNode.lastReplyCycle
  | 45 => fieldAt 0 s.selectedNode.skipped
  | 46 => headWord s.queue 0
  | 47 => headWord s.queue 1
  | 48 => headWord s.queue 2
  | 49 => headWord s.queue 3
  | 50 => headWord s.queue 4
  | 51 => fieldAt 0 (BitVec.ofNat 6 s.queue.length) ||| fieldAt 8 s.lost
  | 52 => fieldAt 0 s.flagsWord
  | 53 => fieldAt 0 s.enables
  | 54 => s.lineTime.extractLsb' 0 16
  | 55 => s.port.latch.extractLsb' 0 16
  | 56 => s.port.latch.extractLsb' 16 16
  | 57 => s.cycle.cycleNumber.extractLsb' 0 16
  | 58 => s.cycle.cycleNumber.extractLsb' 16 16
  | 59 => fieldAt 0 s.windowIndex
  | 60 => s.engine.overrun
  | 61 => s.engine.syncLate
  | 62 => s.supersede
  | 63 => s.port.denied.word
  | _ => 0

/-- What a bus read of an offset answers on D15 to D0 (R161, R167): the halfword at the offset while the port answers; 0000h
within the first 2 µs after RESET# rises; none, the data lines not driven, while RESET# is low. -/
def State.hostRead (s : State) (offset : BitVec 7) : Option Halfword :=
  if s.portAnswers then some (s.readHalfword offset) else if s.port.resetLow then none else some 0

end Sys2Proof.Machine
end

