-- ==== Sys2Proof/Machine/RegisterWrites.lean ====
section
/-! DEFINITION. The register accesses: the Line Time read that latches (R24) and the host writes (R161, R163, R164). -/

namespace Sys2Proof.Machine

/-- LINE_TIME_LOW_READ: the read of offset 54 answers as any bus read does (R161, R167), which is bits 15 to 0 of Line Time
while the port answers, and it then latches bits 47 to 16 (R24). A read that is not answered has no effect. -/
def execLineTimeLowRead (s : State) : Host.Outcome State Fault Refusal :=
  .next (match s.hostRead 54 with
    | some data =>
      { s with port := { s.port with
          readData := some data
          latch := if s.portAnswers then s.lineTime.extractLsb' 16 32 else s.port.latch } }
    | none => s)

/-- A write to a Line Configuration halfword: accepted in OFF, with the Miss Counts brought within a changed Miss Limit;
denied SCHED_STATE in every other state (R85). -/
def State.writeLineConfig (s : State) (reg : LineReg) (data : Halfword) : State :=
  if s.sched = .off then
    let c := s.config.write reg data
    { s with
      config := c
      nodes := if c.missLimit = s.config.missLimit then s.nodes else s.nodes.map (NodeRecord.withinLimit c.missLimit) }
  else s.deny reg.offset .schedState

/-- LINE_CONFIGURATION_WRITE (R85). -/
def execLineConfigurationWrite (reg : LineReg) (data : Halfword) (s : State) : Host.Outcome State Fault Refusal :=
  .next (s.takeWrite (fun t => t.writeLineConfig reg data))

/-- A write to a bank halfword, judged from the role and lock of the selected bank (R45). -/
def State.writeBank (s : State) (reg : BankReg) (data : Halfword) : State :=
  let b := s.port.bankSelect
  if s.activeBank = some b then s.deny reg.offset .activeBank
  else if s.isLocked b then s.deny reg.offset .locked
  else s.setBank b ((s.bank b).write s.port.entrySelect reg data)

/-- BANK_WRITE (R45). -/
def execBankWrite (reg : BankReg) (data : Halfword) (s : State) : Host.Outcome State Fault Refusal :=
  .next (s.takeWrite (fun t => t.writeBank reg data))

/-- A write to the selected object's configuration: accepted in DISABLED (R86). -/
def State.writeObjConfig (s : State) (reg : ObjReg) (data : Halfword) : State :=
  let n := s.port.objectSelect
  if (s.object n).state = .disabled then s.modifyObject n (fun o => { o with config := o.config.write reg data })
  else s.deny reg.offset .objectState

/-- OBJECT_CONFIGURATION_WRITE (R86). -/
def execObjectConfigurationWrite (reg : ObjReg) (data : Halfword) (s : State) : Host.Outcome State Fault Refusal :=
  .next (s.takeWrite (fun t => t.writeObjConfig reg data))

/-- A write to the selected object's payload: accepted in DISABLED and IDLE (R87). -/
def State.writePayloadHalf (s : State) (k : BitVec 3) (data : Halfword) : State :=
  let n := s.port.objectSelect
  if (s.object n).state = .disabled ∨ (s.object n).state = .idle then
    s.modifyObject n (fun o => { o with payload := writePayload o.payload k data })
  else s.deny (payloadOffset k) .objectState

/-- PAYLOAD_WRITE (R87). -/
def execPayloadWrite (k : BitVec 3) (data : Halfword) (s : State) : Host.Outcome State Fault Refusal :=
  .next (s.takeWrite (fun t => t.writePayloadHalf k data))

/-- A write to a select halfword, reduced to the table's range (R163). -/
def State.writeSelect (s : State) (reg : SelectReg) (data : Halfword) : State :=
  match reg with
  | .bank => { s with port := { s.port with bankSelect := bankSelectOf data, entrySelect := entrySelectOf data } }
  | .object => { s with port := { s.port with objectSelect := objectSelectOf data } }
  | .node => { s with port := { s.port with nodeSelect := nodeSelectOf data } }

/-- SELECT_WRITE (R163). -/
def execSelectWrite (reg : SelectReg) (data : Halfword) (s : State) : Host.Outcome State Fault Refusal :=
  .next (s.takeWrite (fun t => t.writeSelect reg data))

/-- EVENT_FLAGS_WRITE (R156). -/
def execEventFlagsWrite (data : Halfword) (s : State) : Host.Outcome State Fault Refusal :=
  .next (s.takeWrite (fun t => { t with flags := t.flags.cleared data }))

/-- EVENT_ENABLES_WRITE (R158). -/
def execEventEnablesWrite (data : Halfword) (s : State) : Host.Outcome State Fault Refusal :=
  .next (s.takeWrite (fun t => { t with enables := data.extractLsb' 0 9 }))

/-- ACCESS_DENIED_RECORD_CLEAR: any value (R47). -/
def execAccessDeniedRecordClear (_data : Halfword) (s : State) : Host.Outcome State Fault Refusal :=
  .next (s.takeWrite (fun t => { t with port := { t.port with denied := DeniedRecord.reset } }))

/-- REGISTER_WRITE: a write to a read-only or unmapped halfword is ignored and not recorded (R161). An offset that writes
reach is another row's command (log 15). -/
def execRegisterWrite (offset : BitVec 7) (_data : Halfword) (s : State) : Host.Outcome State Fault Refusal :=
  if isWritableOffset offset then .refused .otherRow else .next s

end Sys2Proof.Machine
end

