-- ==== Sys2Proof/Machine/ResetPin.lean ====
section
/-! DEFINITION. The reset pin and the clock: PIN_RESET, RESET_RELEASE, LINE_TIME_TICK. -/

namespace Sys2Proof.Machine

/-- RESET# is low: every block is held at its pin reset values and Line Time at 0, and any frame is cut (R167, R21). The
commands that wait are the sender's and stay (log 22). -/
def State.holdReset (s : State) : State :=
  { State.reset with port := { HostPort.reset with resetLow := true }, pending := s.pending }

/-- PIN_RESET (R167). -/
def execPinReset (s : State) : Host.Outcome State Fault Refusal := .next s.holdReset

/-- RESET_RELEASE: RESET# rises, Line Time counts from 0 at the ticks that follow, and the port answers bus cycles after
2 µs (R23, R167). With RESET# already high there is no rise (log 22). -/
def execResetRelease (s : State) : Host.Outcome State Fault Refusal :=
  .next (if s.port.resetLow then
    { s with port := { s.port with resetLow := false, wait := Config.portWaitTicks } } else s)

/-- LINE_TIME_TICK: Line Time rises by 1, wrapping; while RESET# is low it is held at 0 (R23). -/
def execLineTimeTick (s : State) : Host.Outcome State Fault Refusal :=
  .next (if s.port.resetLow then s else
    { s with
      lineTime := s.lineTime + 1
      port := { s.port with wait := s.port.wait - 1 }
      engine := { s.engine with gapEndedNow := false } })

end Sys2Proof.Machine
end

