-- ==== Sys2Proof/Machine/SchedulerCommands.lean ====
section
/-! DEFINITION. The commands of Switch Control and Scheduler Control: SWITCH, SWITCH_CANCEL, SCHED_STOP, SCHED_RESUME,
LINE_RESET. -/

namespace Sys2Proof.Machine

/-- A SWITCH that failed validation (R61). -/
def State.failSwitch (s : State) (b : BankId) (cause : SwitchCause) (late : BitVec 8) : State :=
  { s with
    sw := { s.sw with target := some b, lateCount := late, lastResult := .failed, cause := cause }
    flags := { s.flags with switchFailed := true } }

/-- A SWITCH that passed becomes pending with instant S and late count k (R62). -/
def State.armSwitch (s : State) (b : BankId) (instant : Tick) (late : BitVec 8) : State :=
  { s with
    sw := { s.sw with
      pending := true, target := some b, instant := instant, lateCount := late, lastResult := .noResult
      cause := .noCause }
    sched := if s.sched = .off then .armed else s.sched }

/-- The refusal checks of SWITCH after the argument, in their order (R58). -/
def State.switchRefusal (s : State) (b : BankId) : Option ResultCode :=
  if s.sched = .armed ∨ s.sched = .stopping ∨ s.sw.pending = true then some .badState
  else if s.activeBank = some b then some .wrongBank
  else none

/-- Validation of bank b at this tick: its six checks (R49, R61), and the late count and instant when they pass. -/
def State.judge (s : State) (b : BankId) : Except (SwitchCause × BitVec 8) (Nat × Tick) :=
  let bk := s.bank b
  match bk.firstFault s.config.bitRate with
  | some cause => .error (cause, 0)
  | none =>
    let r := reckon s.referenceTime bk.baseTime bk.cycleTime.toNat
    if s.config.lateLimit.toNat < r.1 then .error (.late, lateField r.1) else .ok r

/-- SWITCH naming bank b (R58 to R62): a switch whose instant is the present tick is made at once, and any other that
passes makes a look (R113). At a tick at which a cycle has already started, the instant taken at once starts a second one (log
25). -/
def State.switchTo (s : State) (b : BankId) : State × ResultCode :=
  match s.switchRefusal b with
  | some r => (s, r)
  | none =>
    match s.judge b with
    | .error f => (s.failSwitch b f.1 f.2, .badConfig)
    | .ok (k, instant) =>
      let s1 := s.armSwitch b instant (lateField k)
      if instant = s.lineTime then (s1.takeInstant b, .ok) else (s1.look, .ok)

/-- SWITCH (R58). -/
def execSwitch (arg : BitVec 8) (s : State) : Host.Outcome State Fault Refusal :=
  .next (s.takeCommand 0x01 (fun t =>
    match bankArgument arg with
    | none => (t, .badArg)
    | some b => t.switchTo b))

/-- A cancelled switch takes ARMED to OFF; the other states stay (R68). -/
def State.disarm (s : State) : State := { s with sched := if s.sched = .armed then .off else s.sched }

/-- SWITCH_CANCEL with its effects on the scheduler (R68); the look follows (R113). -/
def State.cancelSwitch (s : State) : State × ResultCode :=
  if s.sw.pending then
    ((s.endPending .cancelled).disarm.look, .ok)
  else (s, .tooLate)

/-- SWITCH_CANCEL (R68). -/
def execSwitchCancel (s : State) : Host.Outcome State Fault Refusal := .next (s.takeCommand 0x02 State.cancelSwitch)

/-- SCHED_STOP by the scheduler state (R75, R70, R76). -/
def State.stop (s : State) : State × ResultCode :=
  match s.sched with
  | .off | .stopping => (s, .badState)
  | .armed => ({ s.endPending .stopped with sched := .off }, .ok)
  | .running =>
    if s.lineIdle then ((s.endPending .stopped).goOff, .ok)
    else ({ s.endPending .stopped with sched := .stopping }, .ok)
  | .halted => ((s.endPending .stopped).goOff, .ok)

/-- SCHED_STOP (R75). -/
def execSchedStop (s : State) : Host.Outcome State Fault Refusal := .next (s.takeCommand 0x03 State.stop)

/-- SCHED_RESUME (R81): HALTED to RUNNING, the consecutive collision count 0, and a look. -/
def State.resume (s : State) : State × ResultCode :=
  if s.sched = .halted then
    ({ s with sched := .running, engine := { s.engine with collisions := 0 } }.look, .ok)
  else (s, .badState)

/-- SCHED_RESUME (R81). -/
def execSchedResume (s : State) : Host.Outcome State Fault Refusal := .next (s.takeCommand 0x04 State.resume)

/-- What LINE_RESET does to an object: PENDING and ACTIVE become IDLE, their request discarded (R111). -/
def MsgObject.lineReset (o : MsgObject) : MsgObject :=
  match o.state with
  | .disabled | .idle => o
  | .pending | .active =>
    { o with state := .idle, attempts := 0, age := 0, reRequest := false, inSlot := false, delivered := false }

/-- LINE_RESET (R82, R83). Kept: Line Time, the Line Configuration, the banks, the Switch Record but for a discarded
switch, the selects, latch and Access-Denied Record, the enable mask, the last values of the cycle boundaries (R25), and
what R111 keeps of each object. -/
def State.lineReset (s : State) : State :=
  let s1 := s.endPending .stopped
  { s1 with
    sched := .off, activeBank := none, figures := none
    cycle := { s1.cycle with cycleNumber := 0, window := none, syncOwed := false, pulseEnd := none }
    objects := s1.objects.map MsgObject.lineReset
    slot := none, supersede := 0
    engine := { s1.engine with
      flight := none, staging := Staging.empty, collisions := 0, overrun := 0, syncLate := 0 }
    nodes := Vector.replicate 30 NodeRecord.reset
    queue := [], lost := 0, flags := EventFlags.clear }

/-- LINE_RESET (R82). -/
def execLineReset (s : State) : Host.Outcome State Fault Refusal :=
  .next (s.takeCommand 0x05 (fun t => (t.lineReset, .ok)))

end Sys2Proof.Machine
end

