-- ==== Sys2Proof/Machine/Dispatch.lean ====
section
/-! DEFINITION. The dispatch: each command to its meaning. -/

namespace Sys2Proof.Machine

/-- The effect of a command on everything but the queue of commands. -/
def exec (i : Instr) (s : State) : Host.Outcome State Fault Refusal :=
  match i with
  | .pinReset => Sys2Proof.Machine.execPinReset s
  | .resetRelease => Sys2Proof.Machine.execResetRelease s
  | .switch arg => Sys2Proof.Machine.execSwitch arg s
  | .switchCancel => Sys2Proof.Machine.execSwitchCancel s
  | .schedStop => Sys2Proof.Machine.execSchedStop s
  | .schedResume => Sys2Proof.Machine.execSchedResume s
  | .lineReset => Sys2Proof.Machine.execLineReset s
  | .objEnable arg => Sys2Proof.Machine.execObjEnable arg s
  | .objDisable arg => Sys2Proof.Machine.execObjDisable arg s
  | .objRequest arg => Sys2Proof.Machine.execObjRequest arg s
  | .objWithdraw arg => Sys2Proof.Machine.execObjWithdraw arg s
  | .objRelease arg => Sys2Proof.Machine.execObjRelease arg s
  | .objInsert arg => Sys2Proof.Machine.execObjInsert arg s
  | .nodeRevive arg => Sys2Proof.Machine.execNodeRevive arg s
  | .queuePop => Sys2Proof.Machine.execQueuePop s
  | .countersClear => Sys2Proof.Machine.execCountersClear s
  | .unknownCommand code arg => Sys2Proof.Machine.execUnknownCommand code arg s
  | .lineTimeLowRead => Sys2Proof.Machine.execLineTimeLowRead s
  | .lineConfigurationWrite reg data => Sys2Proof.Machine.execLineConfigurationWrite reg data s
  | .bankWrite reg data => Sys2Proof.Machine.execBankWrite reg data s
  | .objectConfigurationWrite reg data => Sys2Proof.Machine.execObjectConfigurationWrite reg data s
  | .payloadWrite k data => Sys2Proof.Machine.execPayloadWrite k data s
  | .selectWrite reg data => Sys2Proof.Machine.execSelectWrite reg data s
  | .eventFlagsWrite data => Sys2Proof.Machine.execEventFlagsWrite data s
  | .eventEnablesWrite data => Sys2Proof.Machine.execEventEnablesWrite data s
  | .accessDeniedRecordClear data => Sys2Proof.Machine.execAccessDeniedRecordClear data s
  | .registerWrite offset data => Sys2Proof.Machine.execRegisterWrite offset data s
  | .switchInstant => Sys2Proof.Machine.execSwitchInstant s
  | .cycleStart => Sys2Proof.Machine.execCycleStart s
  | .windowBoundary => Sys2Proof.Machine.execWindowBoundary s
  | .cycPulseEnd => Sys2Proof.Machine.execCycPulseEnd s
  | .byteSent echo => Sys2Proof.Machine.execByteSent echo s
  | .replyStart => Sys2Proof.Machine.execReplyStart s
  | .replyTimeout => Sys2Proof.Machine.execReplyTimeout s
  | .replyByteReceived data stopBit => Sys2Proof.Machine.execReplyByteReceived data stopBit s
  | .truncatedReply => Sys2Proof.Machine.execTruncatedReply s
  | .drainEnd => Sys2Proof.Machine.execDrainEnd s
  | .gapEnd => Sys2Proof.Machine.execGapEnd s
  | .lineTimeTick => Sys2Proof.Machine.execLineTimeTick s
  | .drainCountRestart => Sys2Proof.Machine.execDrainCountRestart s

end Sys2Proof.Machine
end

