-- ==== Sys2Proof/Safety.lean ====
section
/-! DEFINITION. What a safe run is, in the terms the statements use: which happenings are due at a tick, what a step may
leave changed, what finishing and taking a request leave, written out on one state, and the conditions that every step
keeps. -/

namespace Sys2Proof.Machine

/-! ## Words of the statements -/

/-- `k` steps, stopping at the first fault or refusal. -/
def State.runSteps : Nat → State → Host.Outcome State Fault Refusal
  | 0, s => .next s
  | k + 1, s =>
    match step s with
    | .next t => t.runSteps k
    | .fault f => .fault f
    | .refused r => .refused r

/-- The argument that names a bank (R162). -/
def BankId.argument : BankId → BitVec 8
  | .bankA => 0
  | .bankB => 1

/-- The other bank. -/
def BankId.other : BankId → BankId
  | .bankA => .bankB
  | .bankB => .bankA

/-- The column "After pin reset" of the register map (11.4). -/
def resetHalfword (offset : BitVec 7) : Halfword :=
  match offset.toNat with
  | 7 => 0x0301
  | 8 => 0x0020
  | 42 => 0x0001
  | 43 => 0x0080
  | 59 => 0x00FF
  | _ => 0x0000

/-- The finishing of the object's request makes its node's Toggle UNKNOWN (R135): a COMMAND to a node, an outcome other
than DONE and NAK_REJECT, and Delivered set. -/
def MsgObject.uncertain (o : MsgObject) (outcome : RequestOutcome) : Bool :=
  o.config.kind == .command && o.config.node != 31 && outcome != .done && outcome != .nakReject && o.delivered

/-- What finishing object n's request leaves, before any re-request is taken, written out on one state: the object in
`next`, out of the slot, with its outcome; its completion record queued or lost; its node's Toggle (R107, R108, R125, R135,
R153). -/
def State.afterFinish (s : State) (n : Fin 32) (outcome : RequestOutcome) (next : ObjState) : State :=
  let o := s.object n
  let record : Completion :=
    { object := n, outcome := outcome, attempts := o.attempts, cycle := s.cycle.cycleNumber.extractLsb' 0 16
      window := match s.cycle.window with
        | some w => BitVec.ofNat 8 w.val
        | none => 255
      receivedLength := if outcome = .done ∧ o.config.kind = .poll then o.receivedLength else 0
      time := s.lineTime.extractLsb' 0 32 }
  { s with
    objects := s.objects.set n.val
      { o with lastOutcome := some outcome, state := next, inSlot := if s.slot = some n then false else o.inSlot } n.isLt
    slot := if s.slot = some n then none else s.slot
    queue := if s.queue.length < 32 then s.queue ++ [record] else s.queue
    lost := if s.queue.length < 32 then s.lost else if s.lost = 255 then 255 else s.lost + 1
    flags := { s.flags with queueLost := s.flags.queueLost || decide (32 ≤ s.queue.length) }
    nodes := Vector.ofFn (fun i : Fin 30 =>
      if o.uncertain outcome = true ∧ i.val + 1 = o.config.node.toNat then { s.nodeRecord i with toggle := none }
      else s.nodeRecord i) }

/-- A request of object n taken as new, written out: PENDING with Attempts 0, Age 0 and Delivered clear, and finished at
once when its node is SILENT, or else when its W is above MaxOpen (R94). -/
def State.afterRequest (s : State) (n : Fin 32) : State :=
  let t := s.setObject n { s.object n with state := .pending, attempts := 0, age := 0, delivered := false }
  if s.isSilent (s.object n).config.node then t.afterFinish n .nodeSilent .idle
  else if s.noFit n then t.afterFinish n .noFit .idle
  else t

/-- A request finished, and a set Re-request taken as a new request in the same happening (R108, R109). -/
def State.afterOutcome (s : State) (n : Fin 32) (outcome : RequestOutcome) : State :=
  let t := s.afterFinish n outcome .idle
  if (s.object n).reRequest then (t.setObject n { t.object n with reRequest := false }).afterRequest n else t

/-- What the line idle at the end of an attempt leaves, once the report is applied, written out: in STOPPING the scheduler goes
OFF, whatever the result (R77, R76); else a line fault makes RUNNING HALTED (R79) and nothing is started (R121); else the look
follows (R113). A fault sets LINE_FAULT in every case (R12). -/
def State.afterLineIdle (s : State) (fault : Bool) : State :=
  if s.sched = .stopping then
    { s with
      sched := .off, activeBank := none, figures := none
      cycle := { s.cycle with window := none, syncOwed := false }
      flags := { s.flags with lineFault := s.flags.lineFault || fault } }
  else if fault then
    { s with
      sched := if s.sched = .running then .halted else s.sched
      flags := { s.flags with lineFault := true } }
  else s.look

/-! ## Happenings due at the present tick -/

/-- A happening of the Line Engine whose tick is fixed falls at the present tick (R11, R13, R17, R18). -/
def State.engineDue (s : State) : Bool :=
  match s.engine.flight with
  | none => false
  | some fl =>
    match fl.phase with
    | .sending => s.bitsUp fl Config.byteBits
    | .awaitReply => s.bitsUp fl fl.replyTimeout.toNat
    | .receiving => false
    | .draining => s.bitsUp fl Config.silenceBits
    | .gap _ => s.bitsUp fl Config.gapBits

/-- A happening of the part whose tick is fixed falls at the present tick. -/
def State.happeningDue (s : State) : Bool :=
  s.instantDue || (s.activeBank.isSome && (s.cycleEndDue || (s.cycle.window.isSome && s.windowEndDue))) ||
    s.cycle.pulseEnd == some s.lineTime || s.engineDue

/-- A run of the part lets no tick pass while a happening is due at it: the sender has queued each before the next
LINE_TIME_TICK (log 6). -/
def State.Timely (s : State) : Prop := s.pending.head? = some .lineTimeTick → s.happeningDue = false

/-! ## What may differ between two states -/

/-- `t` differs from `s` at most in the object records, the Insert Slot, the Completion Queue and its lost count, the
QUEUE_LOST flag and the node records: what the Object Table's work reaches. -/
def State.SameButTables (s t : State) : Prop :=
  t = { s with
    objects := t.objects, slot := t.slot, queue := t.queue, lost := t.lost, nodes := t.nodes
    flags := { s.flags with queueLost := t.flags.queueLost } }

/-- `t` differs from `s` at most in what a look reaches: the object records, the Insert Slot, the SYNC-owed flag and the
attempt in flight. -/
def State.SameButTaken (s t : State) : Prop :=
  t = { s with
    objects := t.objects, slot := t.slot
    cycle := { s.cycle with syncOwed := t.cycle.syncOwed }
    engine := { s.engine with flight := t.engine.flight } }

/-- `t` differs from `s` at most in the fields that either of the two relations above names. -/
def State.SameButRequests (s t : State) : Prop :=
  t = { s with
    objects := t.objects, slot := t.slot, queue := t.queue, lost := t.lost, nodes := t.nodes
    flags := { s.flags with queueLost := t.flags.queueLost }
    cycle := { s.cycle with syncOwed := t.cycle.syncOwed }
    engine := { s.engine with flight := t.engine.flight } }

/-- Object records other than n's are unchanged. -/
def State.OnlyObject (s t : State) (n : Fin 32) : Prop := ∀ m, m ≠ n → t.object m = s.object m

/-! ## Conditions that every step keeps -/

/-- The Insert Slot and the In Slot flags agree, and the occupant is PENDING (R112). -/
def State.SlotAgrees (s : State) : Prop :=
  (∀ n, (s.object n).inSlot = true ↔ s.slot = some n) ∧ ∀ n, s.slot = some n → (s.object n).state = .pending

/-- An object is ACTIVE exactly while its exchange is in flight; so at most one is (R10, R102). -/
def State.ActiveInFlight (s : State) : Prop :=
  ∀ n, (s.object n).state = .active ↔
    ∃ fl kind, s.engine.flight = some fl ∧ fl.carried = .exchange n kind

/-- The scheduler state, the roles, the pending switch, the figures and the Line Engine agree (R57, R54, R74). -/
structure State.SchedulerAgrees (s : State) : Prop where
  bankActive : s.activeBank.isSome = true ↔ s.sched = .running ∨ s.sched = .stopping ∨ s.sched = .halted
  figuresFormed : s.figures.isSome = s.activeBank.isSome
  armedPending : s.sched = .armed → s.sw.pending = true
  pendingStates : s.sw.pending = true → s.sched = .armed ∨ s.sched = .running ∨ s.sched = .halted
  pendingTarget : s.sw.pending = true → ∃ b, s.sw.target = some b ∧ s.activeBank ≠ some b
  flightStates : s.engine.flight.isSome = true → s.sched = .running ∨ s.sched = .stopping
  stoppingBusy : s.sched = .stopping → s.engine.flight.isSome = true
  timerStopped : s.activeBank = none → s.cycle.window = none ∧ s.cycle.syncOwed = false

/-- The figures are those of the ACTIVE bank, and the ACTIVE bank and the target of a pending switch pass validation checks
1 to 5 (R42, R53, R51). -/
structure State.BanksJudged (s : State) : Prop where
  figuresOfActive : ∀ b f, s.activeBank = some b → s.figures = some f → f = (s.bank b).figures s.config.bitRate
  activeValid : ∀ b, s.activeBank = some b → (s.bank b).firstFault s.config.bitRate = none
  targetValid : ∀ b, s.sw.pending = true → s.sw.target = some b → (s.bank b).firstFault s.config.bitRate = none

/-- The configuration of an object that is not DISABLED is valid (R86, R91), a standing request's Attempts is below its
Attempt Limit (R103), and Re-request is set only while the object is ACTIVE (R93). -/
structure State.RequestsSound (s : State) : Prop where
  enabledValid : ∀ n, (s.object n).state ≠ .disabled → (s.object n).config.valid = true
  attemptsBelow : ∀ n, (s.object n).state = .pending ∨ (s.object n).state = .active →
    (s.object n).attempts < (s.object n).config.attemptLimit
  reRequestActive : ∀ n, (s.object n).reRequest = true → (s.object n).state = .active

/-- Miss Counts are within the Miss Limit (R143), no request to a SILENT node stands (R106, R147), and the exchange in
flight addresses its object's node (R129). -/
structure State.NodesSound (s : State) : Prop where
  limitPositive : s.config.missLimit ≠ 0
  silentCount : ∀ i, (s.nodeRecord i).state = .silent → (s.nodeRecord i).missCount ≤ s.config.missLimit
  heardCount : ∀ i, (s.nodeRecord i).state ≠ .silent → (s.nodeRecord i).missCount < s.config.missLimit
  noneToSilent : ∀ n, (s.object n).state = .pending ∨ (s.object n).state = .active →
    s.isSilent (s.object n).config.node = false
  flightNode : ∀ fl n kind, s.engine.flight = some fl → fl.carried = .exchange n kind →
    fl.node = (s.object n).config.node

end Sys2Proof.Machine
end

