-- ==== Sys2Proof/Certificates/Slice0/Obligations.lean ====
section
/-! DEFINITION. The statements for the provers. Each docstring names what of spec/ a statement formalises, and the log entry
where a clause is the model's own choice. -/

open Sys2Proof Sys2Proof.Machine

/-! ## The queue of commands and the bus -/

/-- A step is the front command with the queue's rest (95_what_each_step_holds.md). That the block idles on an empty queue is
the model's choice (log 16). -/
def Obligations.StepRunsFrontCommand : Prop :=
  ∀ s : State, (s.pending = [] → step s = .next s) ∧
    ∀ c rest, s.pending = c :: rest → step s = exec c { s with pending := rest }

/-- The bus write of a command reads back as that command; every bus write is a command of one row, and its own bus write
has its offset and means the same, the argument byte of a command without argument apart (R161, R162, register map). -/
def Obligations.BusWritesAndCommandsAgree : Prop :=
  (∀ (i : Instr) (offset : BitVec 7) (data : Halfword),
    i.wellFormed = true → busWord i = some (offset, data) → busWrite offset data = i) ∧
  ∀ (offset : BitVec 7) (data : Halfword),
    (busWrite offset data).wellFormed = true ∧
    ∃ data', busWord (busWrite offset data) = some (offset, data') ∧ busWrite offset data' = busWrite offset data ∧
      data'.extractLsb' 0 8 = data.extractLsb' 0 8 ∧ (offset ≠ 0 → data' = data)

/-- Every command whose operands are its row's answers a next state in every state. Operands that spell another row's command
are refused: the model's choice (log 15). -/
def Obligations.CommandsOfTheirRowComplete : Prop :=
  ∀ (i : Instr) (s : State),
    (i.wellFormed = true → ∃ t, exec i s = .next t) ∧ (i.wellFormed = false → exec i s = .refused .otherRow)

/-- While the port does not answer, no host write is taken or recorded, and a read of Line Time low latches nothing; no read
is answered while RESET# is low, and every read answers 0000h in the first 2 µs after it rises (R167). A write to a read-only or
unmapped halfword changes nothing and is not recorded (R161). A read while the port answers gives the halfword at its offset:
0000h where the map has none, and at the status halfwords the fields and codes of the register map (11.4; R56, R72, R73, R88,
R112, R143, R152, R156, R162). Reads are the function `hostRead`, and of LINE_TIME_LOW_READ the field `readData` (the model's
form, log 4). -/
def Obligations.ReadsAnswerAndIgnoredAccessesChangeNothing : Prop :=
  (∀ (i : Instr) (s : State), s.portAnswers = false → (busWord i).isSome = true → i.wellFormed = true →
    exec i s = .next s) ∧
  (∀ s : State, s.portAnswers = false →
    (s.port.resetLow = true → exec .lineTimeLowRead s = .next s) ∧
    (s.port.resetLow = false →
      exec .lineTimeLowRead s = .next { s with port := { s.port with readData := some 0 } })) ∧
  (∀ (offset : BitVec 7) (data : Halfword) (s : State), isWritableOffset offset = false →
    exec (.registerWrite offset data) s = .next s) ∧
  (∀ (s : State) (offset : BitVec 7),
    (s.port.resetLow = true → s.hostRead offset = none) ∧
    (s.port.resetLow = false → s.portAnswers = false → s.hostRead offset = some 0) ∧
    (s.portAnswers = true → s.hostRead offset = some (s.readHalfword offset)) ∧
    (64 ≤ offset.toNat → s.readHalfword offset = 0)) ∧
  (∀ s : State, s.port.resetLow = false →
    ∃ t, exec .lineTimeLowRead s = .next t ∧ t.port.readData = s.hostRead 54) ∧
  ∀ s : State,
    let bit : Bool → BitVec 1 := BitVec.ofBool
    let bankField : Option BankId → BitVec 2 := fun b => match b with
      | none => 0
      | some .bankA => 1
      | some .bankB => 2
    let result : BitVec 8 := match s.port.result with
      | .ok => 0
      | .badArg => 1
      | .badState => 2
      | .badConfig => 3
      | .tooLate => 4
      | .tooLong => 5
      | .notPending => 6
      | .inFlight => 7
      | .wrongBank => 8
      | .queueEmpty => 9
      | .unknownCommand => 10
    let sched : BitVec 3 := match s.sched with
      | .off => 0
      | .armed => 1
      | .running => 2
      | .stopping => 3
      | .halted => 4
    let lastResult : BitVec 3 := match s.sw.lastResult with
      | .noResult => 0
      | .done => 1
      | .failed => 2
      | .cancelled => 3
      | .stopped => 4
    let cause : BitVec 3 := match s.sw.cause with
      | .noCause => 0
      | .length => 1
      | .cycle => 2
      | .entry => 3
      | .allClosed => 4
      | .syncRoom => 5
      | .late => 6
    let rate : BitVec 2 := match s.config.bitRate with
      | .kbit500 => 0
      | .mbit1 => 1
      | .mbit2 => 2
      | .mbit4 => 3
    let o := s.object s.port.objectSelect
    let objState : BitVec 2 := match o.state with
      | .disabled => 0
      | .idle => 1
      | .pending => 2
      | .active => 3
    let lastOutcome : BitVec 4 := match o.lastOutcome with
      | none => 0
      | some .done => 1
      | some .nakReject => 2
      | some .busy => 3
      | some .noReply => 4
      | some .badReply => 5
      | some .collision => 6
      | some .expired => 7
      | some .noFit => 8
      | some .nodeSilent => 9
      | some .withdrawn => 10
    let r := s.nodeRecord s.port.nodeSelect
    let nodeState : BitVec 2 := match r.state with
      | .unknown => 0
      | .alive => 1
      | .silent => 2
    let toggle : BitVec 2 := match r.toggle with
      | some false => 0
      | some true => 1
      | none => 2
    let f := s.flags
    s.readHalfword 0 = s.port.answered ++ result ∧
    s.readHalfword 1 = 0#1 ++ cause ++ 0#1 ++ lastResult ++ 0#2 ++ bit s.sw.pending ++ bankField s.activeBank ++ sched ∧
    s.readHalfword 2 = s.sw.lateCount ++ 0#5 ++ bit s.sw.pending ++ bankField s.sw.target ∧
    s.readHalfword 5 ++ s.readHalfword 4 ++ s.readHalfword 3 = s.sw.instant ∧
    s.readHalfword 6 = s.sw.switchCount ∧
    s.readHalfword 7 = 0#4 ++ s.config.missLimit ++ 0#6 ++ rate ∧
    s.readHalfword 8 = s.config.lateLimit ++ s.config.replyTimeout ∧
    s.readHalfword 22 =
      0#3 ++ bit o.fresh ++ bit o.inSlot ++ bit o.reRequest ++ o.attempts ++ lastOutcome ++ objState ∧
    s.readHalfword 23 = 0#3 ++ o.receivedLength ++ o.age ∧
    s.readHalfword 24 = o.mergeCount ++ o.replyCount ∧
    s.readHalfword 25 = 0#8 ++ o.overwriteCount ∧
    (∀ k : Fin 8,
      s.readHalfword (BitVec.ofNat 7 (26 + k.val)) = o.payload[2 * k.val + 1] ++ o.payload[2 * k.val] ∧
      s.readHalfword (BitVec.ofNat 7 (34 + k.val)) = o.reply[2 * k.val + 1] ++ o.reply[2 * k.val]) ∧
    s.readHalfword 43 = 0#7 ++ bit r.attention ++ toggle ++ r.missCount ++ nodeState ∧
    s.readHalfword 44 = r.lastReplyCycle ∧
    s.readHalfword 45 = 0#8 ++ r.skipped ∧
    s.readHalfword 51 = s.lost ++ 0#2 ++ BitVec.ofNat 6 s.queue.length ∧
    s.readHalfword 52 =
      0#7 ++ bit f.accessDenied ++ bit f.cycleStart ++ bit f.lineFault ++ bit f.attention ++ bit f.nodeSilent ++
        bit f.switchFailed ++ bit f.switchDone ++ bit f.queueLost ++ bit (!s.queue.isEmpty) ∧
    s.readHalfword 53 = 0#7 ++ s.enables ∧
    s.readHalfword 58 ++ s.readHalfword 57 = s.cycle.cycleNumber ∧
    s.readHalfword 59 = (match s.cycle.window with
      | none => 255
      | some w => BitVec.ofNat 16 w.val) ∧
    s.readHalfword 60 = s.engine.overrun ∧
    s.readHalfword 61 = s.engine.syncLate ∧
    s.readHalfword 62 = s.supersede

/-! ## Reset pin and Line Time -/

/-- PIN_RESET: every block at its pin reset values, read through the register map and, for what it does not show, field by
field; the pins as R167 gives them, and no read answered. That the commands waiting stay, and what an empty staging buffer
holds, are the model's choices (log 22, log 3). -/
def Obligations.PinResetSetsEveryBlock : Prop :=
  ∀ s : State, ∃ t, exec .pinReset s = .next t ∧
    t.pending = s.pending ∧ t.port.resetLow = true ∧ t.portAnswers = false ∧ t.lineTime = 0 ∧
    (∀ offset, t.hostRead offset = none ∧ t.readHalfword offset = resetHalfword offset) ∧
    t.config = { bitRate := .mbit1, replyTimeout := 32, missLimit := 3, lateLimit := 0 } ∧
    (∀ b, (t.bank b).baseTime = 0 ∧ (t.bank b).cycleTime = 0 ∧ (t.bank b).listLength = 0 ∧ (t.bank b).sync = false ∧
      ∀ i : Fin 64, (t.bank b).entries[i] = { duration := 0, classes := 0 }) ∧
    t.activeBank = none ∧ t.figures = none ∧ t.sched = .off ∧ t.sw.pending = false ∧
    t.cycle.cycleNumber = 0 ∧ t.cycle.window = none ∧ t.cycle.syncOwed = false ∧
    (∀ n, t.object n = MsgObject.reset) ∧ t.slot = none ∧ t.supersede = 0 ∧
    t.engine.flight = none ∧ t.engine.staging = Staging.empty ∧ t.engine.collisions = 0 ∧ t.engine.overrun = 0 ∧
    t.engine.syncLate = 0 ∧
    (∀ i, (t.nodeRecord i).state = .unknown ∧ (t.nodeRecord i).missCount = 0 ∧ (t.nodeRecord i).toggle = none ∧
      (t.nodeRecord i).attention = false ∧ (t.nodeRecord i).lastReplyCycle = 0 ∧ (t.nodeRecord i).skipped = 0) ∧
    t.queue = [] ∧ t.lost = 0 ∧ t.flags = EventFlags.clear ∧ t.enables = 0 ∧
    t.intLow = false ∧ t.ldeAsserted = false ∧ t.ltx = true ∧ t.cycHigh = false

/-- LINE_TIME_TICK: Line Time rises by 1, wrapping, in every state while RESET# is high, and is held while it is low (R23); the
two counts that go with it are the model's own (log 12, log 18). RESET_RELEASE and the ticks after it: Line Time counts from
where it was held, and the port answers from the eighth tick on, which is 2 µs (R167; the count in ticks is log 18). With
RESET# high there is no rise (log 22). -/
def Obligations.ResetReleaseAndTicks : Prop :=
  (∀ s : State,
    (s.port.resetLow = false →
      exec .lineTimeTick s = .next { s with
        lineTime := s.lineTime + 1
        port := { s.port with wait := s.port.wait - 1 }
        engine := { s.engine with gapEndedNow := false } }) ∧
    (s.port.resetLow = true → exec .lineTimeTick s = .next s)) ∧
  (∀ s : State,
    (s.port.resetLow = true →
      exec .resetRelease s = .next { s with port := { s.port with resetLow := false, wait := 8 } }) ∧
    (s.port.resetLow = false → exec .resetRelease s = .next s)) ∧
  (∀ (s : State) (n : Nat), s.port.resetLow = true →
    s.pending = .resetRelease :: List.replicate n .lineTimeTick →
    ∃ t : State, s.runSteps (n + 1) = .next t ∧
      t = { s with
        pending := []
        lineTime := s.lineTime + BitVec.ofNat 48 n
        port := { s.port with resetLow := false, wait := 8 - n }
        engine := { s.engine with gapEndedNow := if n = 0 then s.engine.gapEndedNow else false } } ∧
      (t.portAnswers = true ↔ 8 ≤ n))

/-- R24: a read of the low halfword answers (in `readData`, log 4) bits 15 to 0 and latches bits 47 to 16; the middle and high
halfwords read the latch, whatever ticks have passed; pin reset clears it, LINE_RESET keeps it, and a write to the three
halfwords is ignored. -/
def Obligations.LineTimeReadLatches : Prop :=
  (∀ s : State, s.portAnswers = true →
    exec .lineTimeLowRead s = .next { s with port := { s.port with
      readData := some (s.lineTime.extractLsb' 0 16), latch := s.lineTime.extractLsb' 16 32 } }) ∧
  (∀ s : State, s.readHalfword 54 = s.lineTime.extractLsb' 0 16 ∧
    s.readHalfword 55 = s.port.latch.extractLsb' 0 16 ∧ s.readHalfword 56 = s.port.latch.extractLsb' 16 16) ∧
  (∀ (s : State) (n : Nat), s.portAnswers = true →
    s.pending = .lineTimeLowRead :: List.replicate n .lineTimeTick →
    ∃ t : State, s.runSteps (n + 1) = .next t ∧ t.lineTime = s.lineTime + BitVec.ofNat 48 n ∧
      t.readHalfword 56 ++ t.readHalfword 55 ++ (t.port.readData.getD 0) = s.lineTime) ∧
  (∀ s : State, ∃ t, exec .pinReset s = .next t ∧ t.port.latch = 0) ∧
  (∀ s : State, ∃ t, exec .lineReset s = .next t ∧ t.port.latch = s.port.latch) ∧
  (∀ (s : State) (data : Halfword), exec (.registerWrite 54 data) s = .next s ∧
    exec (.registerWrite 55 data) s = .next s ∧ exec (.registerWrite 56 data) s = .next s)

/-! ## Schedule banks and the figures -/

/-- R29: the layout of a bank's entries on a cycle. The offset of entry i is the sum of the effective durations of the entries
before it; entry i is used when its index is below List Length and its offset below Cycle Time; its effective duration is the
smaller of its Duration and what is left of the cycle. -/
def Obligations.EntriesAreLaidInOrder : Prop :=
  ∀ (bk : Bank) (i : Fin 64),
    bk.effective i.val =
      if i.val < bk.listLength.toNat ∧
          ((List.range i.val).map (fun j => (bk.effective j).getD 0)).sum < bk.cycleTime.toNat then
        some (min (bk.entries[i.val]).duration.toNat
          (bk.cycleTime.toNat - ((List.range i.val).map (fun j => (bk.effective j).getD 0)).sum))
      else none

/-- The checks 1 to 5 of R49 in their order, with R50's test of the used entries and R51's table of SYNC times. -/
def Obligations.ValidationChecksInOrder : Prop :=
  ∀ (bk : Bank) (rate : BitRate),
    let syncTicks : Nat := match rate with
      | .kbit500 => 592
      | .mbit1 => 296
      | .mbit2 => 148
      | .mbit4 => 74
    let lengthOk : Prop := 1 ≤ bk.listLength.toNat ∧ bk.listLength.toNat ≤ 64
    let cycleOk : Prop := 64 ≤ bk.cycleTime.toNat
    let entriesOk : Prop := ∀ i : Fin 64, i.val < bk.listLength.toNat → 16 ≤ (bk.entries[i.val]).duration.toNat
    let opens : Prop := ∃ i : Fin 64, (bk.effective i.val).isSome = true ∧ (bk.entries[i.val]).classes ≠ 0
    let syncRoom : Prop := bk.sync = true → syncTicks ≤ min (bk.entries[0]).duration.toNat bk.cycleTime.toNat
    (bk.firstFault rate = some .length ↔ ¬lengthOk) ∧
    (bk.firstFault rate = some .cycle ↔ lengthOk ∧ ¬cycleOk) ∧
    (bk.firstFault rate = some .entry ↔ lengthOk ∧ cycleOk ∧ ¬entriesOk) ∧
    (bk.firstFault rate = some .allClosed ↔ lengthOk ∧ cycleOk ∧ entriesOk ∧ ¬opens) ∧
    (bk.firstFault rate = some .syncRoom ↔ lengthOk ∧ cycleOk ∧ entriesOk ∧ opens ∧ ¬syncRoom) ∧
    (bk.firstFault rate = none ↔ lengthOk ∧ cycleOk ∧ entriesOk ∧ opens ∧ syncRoom)

/-- The five figures (R52, R53): each is the largest usable duration among the used entries it speaks of, and 0 when there is
none; entry 0's usable duration is less SYNC time when Sync is set. -/
def Obligations.FiguresAreLongestWindows : Prop :=
  ∀ (bk : Bank) (rate : BitRate),
    let usable : Fin 64 → Option Nat := fun i =>
      (bk.effective i.val).map (fun d => if i.val = 0 ∧ bk.sync = true then d - 74 * rate.ticksPerBit else d)
    (∀ c : Fin 4,
      (∀ i u, usable i = some u → (bk.entries[i.val]).classes.getLsbD c.val = true →
        u ≤ (bk.figures rate).maxOpen[c.val]) ∧
      ((∃ i, usable i = some ((bk.figures rate).maxOpen[c.val]) ∧
          (bk.entries[i.val]).classes.getLsbD c.val = true) ∨
        (bk.figures rate).maxOpen[c.val] = 0 ∧
          ∀ i u, usable i = some u → (bk.entries[i.val]).classes.getLsbD c.val = false)) ∧
    (∀ i u, usable i = some u → (bk.entries[i.val]).classes ≠ 0 → u ≤ (bk.figures rate).maxAny) ∧
    ((∃ i, usable i = some (bk.figures rate).maxAny ∧ (bk.entries[i.val]).classes ≠ 0) ∨
      (bk.figures rate).maxAny = 0 ∧ ∀ i u, usable i = some u → (bk.entries[i.val]).classes = 0)

/-- R59 and R60: the reference time, and the instant as the first point of the bank's grid that is not behind it. A time is
behind another when it lies 1 to 2^47 − 1 ticks before it, modulo 2^48. That a frame bound exactly 2^47 ticks ahead lies after
the present tick is the model's reading (log 11). -/
def Obligations.InstantIsFirstGridPoint : Prop :=
  (∀ s : State,
    (s.engine.flight = none → s.referenceTime = s.lineTime) ∧
    ∀ fl, s.engine.flight = some fl →
      (1 ≤ (fl.frameBound - s.lineTime).toNat ∧ (fl.frameBound - s.lineTime).toNat ≤ 2 ^ 47 →
        s.referenceTime = fl.frameBound) ∧
      (¬(1 ≤ (fl.frameBound - s.lineTime).toNat ∧ (fl.frameBound - s.lineTime).toNat ≤ 2 ^ 47) →
        s.referenceTime = s.lineTime)) ∧
  ∀ (u base : Tick) (c k : Nat) (instant : Tick), 64 ≤ c → c < 2 ^ 24 → reckon u base c = (k, instant) →
    let behind : Tick → Prop := fun p => 1 ≤ (u - p).toNat ∧ (u - p).toNat < 2 ^ 47
    instant = base + BitVec.ofNat 48 (k * c) ∧ ¬behind instant ∧
    (∀ j, j < k → behind (base + BitVec.ofNat 48 (j * c))) ∧
    (0 < k → (instant - u).toNat < c)

/-! ## Switching -/

/-- SWITCH refused, by the first of the checks of R58 that applies: nothing changes but the command result register. SWITCH
that fails validation (R61): BAD_CONFIG, the Switch Record and SWITCH_FAILED, and nothing else. -/
def Obligations.SwitchRefusedOrFailed : Prop :=
  (∀ (s : State) (arg : BitVec 8), s.portAnswers = true →
    (2 ≤ arg.toNat → exec (.switch arg) s = .next (s.answer 0x01 .badArg)) ∧
    ∀ b : BankId, arg = b.argument →
      (s.sched = .armed ∨ s.sched = .stopping ∨ s.sw.pending = true →
        exec (.switch arg) s = .next (s.answer 0x01 .badState)) ∧
      (s.sched ≠ .armed → s.sched ≠ .stopping → s.sw.pending = false → s.activeBank = some b →
        exec (.switch arg) s = .next (s.answer 0x01 .wrongBank))) ∧
  (∀ (s : State) (b : BankId), s.portAnswers = true →
    s.sched ≠ .armed → s.sched ≠ .stopping → s.sw.pending = false → s.activeBank ≠ some b →
    (∀ cause, (s.bank b).firstFault s.config.bitRate = some cause →
      exec (.switch b.argument) s = .next ({ s with
        sw := { s.sw with target := some b, lateCount := 0, lastResult := .failed, cause := cause }
        flags := { s.flags with switchFailed := true } }.answer 0x01 .badConfig)) ∧
    ∀ k instant, (s.bank b).firstFault s.config.bitRate = none →
      reckon s.referenceTime (s.bank b).baseTime (s.bank b).cycleTime.toNat = (k, instant) →
      s.config.lateLimit.toNat < k →
      exec (.switch b.argument) s = .next ({ s with
        sw := { s.sw with
          target := some b, lateCount := BitVec.ofNat 8 (min k 255), lastResult := .failed, cause := .late }
        flags := { s.flags with switchFailed := true } }.answer 0x01 .badConfig))

/-- SWITCH that passes (R62): the switch is pending toward the locked bank, OFF becomes ARMED, and a look follows; when the
instant is the present tick, it is taken at once. That it is so also after a cycle start at that tick is the model's choice (log
25). -/
def Obligations.SwitchPasses : Prop :=
  ∀ (s : State) (b : BankId) (k : Nat) (instant : Tick), s.portAnswers = true →
    s.sched ≠ .armed → s.sched ≠ .stopping → s.sw.pending = false → s.activeBank ≠ some b →
    (s.bank b).firstFault s.config.bitRate = none →
    reckon s.referenceTime (s.bank b).baseTime (s.bank b).cycleTime.toNat = (k, instant) →
    k ≤ s.config.lateLimit.toNat →
    let t : State := { s with
      sw := { s.sw with
        pending := true, target := some b, instant := instant, lateCount := BitVec.ofNat 8 k, lastResult := .noResult
        cause := .noCause }
      sched := if s.sched = .off then .armed else s.sched }
    t.isLocked b = true ∧
    (instant ≠ s.lineTime → exec (.switch b.argument) s = .next (t.look.answer 0x01 .ok)) ∧
    (instant = s.lineTime →
      ∃ u, exec .switchInstant t = .next u ∧ exec (.switch b.argument) s = .next (u.answer 0x01 .ok))

/-- SWITCH_INSTANT at the Instant of a pending switch (R65 to R67, R27, R28, R32, R36, R37, R53): the Switch Record, the
roles, the figures, the scheduler state, the cycle on the new bank and the late SYNC, then the Object Table's cycle-start
work and re-check, and the look last (R127; the one look: log 13). That a GAP ending at this tick is no busy line in either
order is read from R37 (log 12). -/
def Obligations.SwitchInstantStartsBank : Prop :=
  ∀ (s : State) (b : BankId) (d : Nat), s.sw.pending = true → s.sw.target = some b → s.sw.instant = s.lineTime →
    (s.bank b).effective 0 = some d →
    let late : Bool := (s.bank b).sync &&
      (s.busyAtCycleStart || (s.sched != .armed && s.sched != .running))
    let t : State := { s with
      sw := { s.sw with
        pending := false, lastResult := .done, cause := .noCause, switchCount := s.sw.switchCount + 1 }
      activeBank := some b
      figures := some ((s.bank b).figures s.config.bitRate)
      sched := if s.sched = .armed then .running else s.sched
      cycle :=
        { cycleStart := s.lineTime
          cycleEnd := s.lineTime + (s.bank b).cycleTime.setWidth 48
          cycleNumber := if s.sched = .armed then 0 else s.cycle.cycleNumber + 1
          window := some 0
          windowEnd := s.lineTime + BitVec.ofNat 48 d
          syncOwed := (s.bank b).sync
          pulseEnd := some (s.lineTime + 4) }
      engine := { s.signalWindowEnd.engine with
        syncLate := if late then satInc s.engine.syncLate else s.engine.syncLate }
      flags := { s.flags with switchDone := true, cycleStart := true } }
    exec .switchInstant s = .next (t.cycleWork.recheck.look)

/-- SWITCH_CANCEL (R68). -/
def Obligations.SwitchCancelEndsPending : Prop :=
  ∀ s : State, s.portAnswers = true →
    (s.sw.pending = true →
      let t : State := { s with
        sw := { s.sw with pending := false, lastResult := .cancelled, cause := .noCause }
        sched := if s.sched = .armed then .off else s.sched }
      (∀ b, t.isLocked b = false) ∧ exec .switchCancel s = .next (t.look.answer 0x02 .ok)) ∧
    (s.sw.pending = false → exec .switchCancel s = .next (s.answer 0x02 .tooLate))

/-! ## Scheduler commands -/

/-- SCHED_STOP by the scheduler state (R75), with the discard of R70 and the effects of going OFF of R76. SCHED_RESUME (R81):
from HALTED to RUNNING with the collision count 0, and a look; BAD_STATE in every other state. -/
def Obligations.SchedStopAndResumeByState : Prop :=
  (∀ s : State, s.portAnswers = true →
    let sw' : SwitchRecord :=
      if s.sw.pending then { s.sw with pending := false, lastResult := .stopped, cause := .noCause } else s.sw
    let off : State := { s with
      sw := sw', sched := .off, activeBank := none, figures := none
      cycle := { s.cycle with window := none, syncOwed := false } }
    (s.sched = .off ∨ s.sched = .stopping → exec .schedStop s = .next (s.answer 0x03 .badState)) ∧
    (s.sched = .armed → exec .schedStop s = .next ({ s with sw := sw', sched := .off }.answer 0x03 .ok)) ∧
    (s.sched = .running → s.engine.flight = none → exec .schedStop s = .next (off.answer 0x03 .ok)) ∧
    (s.sched = .running → s.engine.flight ≠ none →
      exec .schedStop s = .next ({ s with sw := sw', sched := .stopping }.answer 0x03 .ok)) ∧
    (s.sched = .halted → exec .schedStop s = .next (off.answer 0x03 .ok)) ∧
    ∀ b, off.isLocked b = false) ∧
  (∀ s : State, s.portAnswers = true →
    (s.sched = .halted →
      exec .schedResume s = .next
        (({ s with sched := .running, engine := { s.engine with collisions := 0 } } : State).look.answer 0x04 .ok)) ∧
    (s.sched ≠ .halted → exec .schedResume s = .next (s.answer 0x04 .badState)))

/-- LINE_RESET (R82, R83, R111, R21, R25, R71): what it sets, block by block, and by the last clause all that it keeps.
What the emptied staging buffer holds is the model's choice (log 3), and `gapEndedNow`, which it keeps, is the model's own field
(log 12). -/
def Obligations.LineResetClearsLineSide : Prop :=
  ∀ s : State, s.portAnswers = true → ∃ t, exec .lineReset s = .next t ∧
    t.engine.flight = none ∧ t.ldeAsserted = false ∧ t.ltx = true ∧ t.cycHigh = false ∧ t.intLow = false ∧
    (∀ n, t.object n =
      if (s.object n).state = .pending ∨ (s.object n).state = .active then
        { s.object n with
          state := .idle, attempts := 0, age := 0, reRequest := false, inSlot := false, delivered := false }
      else s.object n) ∧
    (∀ i, t.nodeRecord i =
      { state := .unknown, missCount := 0, toggle := none, attention := false, lastReplyCycle := 0, skipped := 0 }) ∧
    t = { s with
      port := { s.port with result := .ok, answered := 0x05 }
      sw := if s.sw.pending then { s.sw with pending := false, lastResult := .stopped, cause := .noCause } else s.sw
      sched := .off, activeBank := none, figures := none
      cycle := { s.cycle with cycleNumber := 0, window := none, syncOwed := false, pulseEnd := none }
      objects := t.objects, slot := none, supersede := 0
      engine :=
        { flight := none, staging := Staging.empty, collisions := 0, overrun := 0, syncLate := 0
          gapEndedNow := s.engine.gapEndedNow }
      nodes := t.nodes
      queue := [], lost := 0
      flags := EventFlags.clear }

/-! ## Cycle Timer -/

/-- CYCLE_START at the cycle end of the ACTIVE bank's grid, with no instant at that tick (R31, R28, R27, R35 to R37): the
window in force ends, the next cycle begins with window 0, the Object Table does its cycle-start work, and the one look
is last, after that work, as the model reads R127 (log 13). The busy line of R37 is as in log 12. -/
def Obligations.CycleStartOnGrid : Prop :=
  ∀ (s : State) (b : BankId) (d : Nat), s.activeBank = some b → s.cycle.cycleEnd = s.lineTime →
    ¬(s.sw.pending = true ∧ s.sw.instant = s.lineTime) → (s.bank b).effective 0 = some d →
    let late : Bool := (s.bank b).sync && (s.busyAtCycleStart || s.sched != .running)
    let t : State := { s with
      cycle :=
        { cycleStart := s.lineTime
          cycleEnd := s.lineTime + (s.bank b).cycleTime.setWidth 48
          cycleNumber := s.cycle.cycleNumber + 1
          window := some 0
          windowEnd := s.lineTime + BitVec.ofNat 48 d
          syncOwed := (s.bank b).sync
          pulseEnd := some (s.lineTime + 4) }
      engine := { s.signalWindowEnd.engine with
        syncLate := if late then satInc s.engine.syncLate else s.engine.syncLate }
      flags := { s.flags with cycleStart := true } }
    exec .cycleStart s = .next (t.cycleWork.look)

/-- WINDOW_BOUNDARY at a window end before the cycle end, with no instant at that tick (R30): the window end is signalled, and
the next entry's window begins with a look, or the idle tail begins. A window end signalled to the Line Engine (R20) counts
one overrun of an exchange in flight, at most once in an exchange and not at the tick at which its GAP ends; a SYNC frame, the
idle tail and an idle line count none. CYC_PULSE_END (R35): CYC is high while a pulse is under way and falls at its end. -/
def Obligations.WindowsEndAndPulsesEnd : Prop :=
  (∀ (s : State) (b : BankId) (w : Fin 64), s.activeBank = some b → s.cycle.window = some w →
    s.cycle.windowEnd = s.lineTime → s.cycle.cycleEnd ≠ s.lineTime →
    ¬(s.sw.pending = true ∧ s.sw.instant = s.lineTime) →
    (∀ (v : Fin 64) d, v.val = w.val + 1 → (s.bank b).effective v.val = some d →
      exec .windowBoundary s = .next
        ({ s with
          cycle := { s.cycle with window := some v, windowEnd := s.lineTime + BitVec.ofNat 48 d }
          engine := s.signalWindowEnd.engine } : State).look) ∧
    ((s.bank b).effective (w.val + 1) = none →
      exec .windowBoundary s = .next { s with
        cycle := { s.cycle with window := none }
        engine := s.signalWindowEnd.engine })) ∧
  (∀ s : State,
    (s.cycle.window = none ∨ s.engine.flight = none → s.signalWindowEnd = s) ∧
    ∀ fl, s.engine.flight = some fl →
      (fl.carried = .sync ∨ fl.overran = true ∨
        (∃ r, fl.phase = .gap r ∧ fl.mark + BitVec.ofNat 48 (4 * fl.bitRate.ticksPerBit) = s.lineTime) →
        s.signalWindowEnd = s) ∧
      (∀ n kind, s.cycle.window ≠ none → fl.carried = .exchange n kind → fl.overran = false →
        (∀ r, fl.phase = .gap r → fl.mark + BitVec.ofNat 48 (4 * fl.bitRate.ticksPerBit) ≠ s.lineTime) →
        s.signalWindowEnd = { s with engine := { s.engine with
          flight := some { fl with overran := true }
          overrun := if s.engine.overrun = 0xFFFF then 0xFFFF else s.engine.overrun + 1 } })) ∧
  (∀ s : State, s.cycle.pulseEnd = some s.lineTime →
    s.cycHigh = true ∧
    ∃ t, exec .cycPulseEnd s = .next t ∧ t.cycHigh = false ∧ t = { s with cycle := { s.cycle with pulseEnd := none } })

/-! ## Object commands -/

/-- OBJ_ENABLE by the object's state and configuration (R91, Valid column of R86). -/
def Obligations.ObjEnableJudgesConfiguration : Prop :=
  ∀ (s : State) (n : Fin 32), s.portAnswers = true →
    let o := s.object n
    let c := o.config
    let nodeOk : Prop := match c.kind with
      | .command => 1 ≤ c.node.toNat
      | .poll => 1 ≤ c.node.toNat ∧ c.node.toNat ≤ 30
    let lengthOk : Prop := match c.kind with
      | .command => c.length.toNat ≤ 16
      | .poll => c.replyLength.toNat ≤ 16
    let limitOk : Prop := 1 ≤ c.attemptLimit.toNat ∧ c.attemptLimit.toNat ≤ 8
    let triggerOk : Prop :=
      c.trigger = .cyclic → 1 ≤ c.period.toNat ∧ c.period.toNat ≤ 64 ∧ c.phase.toNat < c.period.toNat
    (o.state = .disabled → nodeOk ∧ lengthOk ∧ limitOk ∧ triggerOk →
      exec (.objEnable (BitVec.ofNat 8 n.val)) s = .next ((s.setObject n { o with state := .idle }).answer 0x08 .ok)) ∧
    (o.state = .disabled → ¬(nodeOk ∧ lengthOk ∧ limitOk ∧ triggerOk) →
      exec (.objEnable (BitVec.ofNat 8 n.val)) s = .next (s.answer 0x08 .badConfig)) ∧
    (o.state ≠ .disabled → exec (.objEnable (BitVec.ofNat 8 n.val)) s = .next (s.answer 0x08 .badState))

/-- OBJ_DISABLE by the object's state (R92). -/
def Obligations.ObjDisableByState : Prop :=
  ∀ (s : State) (n : Fin 32), s.portAnswers = true →
    let o := s.object n
    let cmd : Instr := .objDisable (BitVec.ofNat 8 n.val)
    (o.state = .idle → exec cmd s = .next ((s.setObject n { o with state := .disabled }).answer 0x09 .ok)) ∧
    (o.state = .pending → exec cmd s = .next ((s.afterFinish n .withdrawn .disabled).answer 0x09 .ok)) ∧
    (o.state = .active → exec cmd s = .next (s.answer 0x09 .inFlight)) ∧
    (o.state = .disabled → exec cmd s = .next (s.answer 0x09 .ok))

/-- OBJ_REQUEST by the object's state (R93), with the two checks at the taking of a request from IDLE (R94). -/
def Obligations.ObjRequestByState : Prop :=
  ∀ (s : State) (n : Fin 32), s.portAnswers = true →
    let o := s.object n
    let cmd : Instr := .objRequest (BitVec.ofNat 8 n.val)
    let taken := s.setObject n { o with state := .pending, attempts := 0, age := 0, delivered := false }
    let merged := s.setObject n { o with mergeCount := if o.mergeCount = 255 then 255 else o.mergeCount + 1 }
    (o.state = .disabled → exec cmd s = .next (s.answer 0x0A .badState)) ∧
    (o.state = .idle → s.isSilent o.config.node = true →
      exec cmd s = .next ((taken.afterFinish n .nodeSilent .idle).answer 0x0A .ok)) ∧
    (o.state = .idle → s.isSilent o.config.node = false →
      (∃ f, s.figures = some f ∧ f.maxOpen[o.config.cls.toFin] < s.worst n) →
      exec cmd s = .next ((taken.afterFinish n .noFit .idle).answer 0x0A .ok)) ∧
    (o.state = .idle → s.isSilent o.config.node = false →
      (∀ f, s.figures = some f → s.worst n ≤ f.maxOpen[o.config.cls.toFin]) →
      exec cmd s = .next (taken.look.answer 0x0A .ok)) ∧
    (o.state = .pending → exec cmd s = .next (merged.answer 0x0A .ok)) ∧
    (o.state = .active → o.reRequest = false →
      exec cmd s = .next ((s.setObject n { o with reRequest := true }).answer 0x0A .ok)) ∧
    (o.state = .active → o.reRequest = true → exec cmd s = .next (merged.answer 0x0A .ok))

/-- OBJ_WITHDRAW by the object's state (R96). A PENDING object has no re-request behind it (R108). -/
def Obligations.ObjWithdrawByState : Prop :=
  ∀ (s : State) (n : Fin 32), s.portAnswers = true →
    let o := s.object n
    let cmd : Instr := .objWithdraw (BitVec.ofNat 8 n.val)
    (o.state = .pending → o.reRequest = false →
      exec cmd s = .next ((s.afterFinish n .withdrawn .idle).answer 0x0B .ok)) ∧
    (o.state = .active → exec cmd s = .next ((s.setObject n { o with reRequest := false }).answer 0x0B .inFlight)) ∧
    (o.state = .idle ∨ o.state = .disabled → exec cmd s = .next (s.answer 0x0B .notPending))

/-- OBJ_RELEASE by the object's state (R97): a release that ends the hold of a PENDING object makes a look. -/
def Obligations.ObjReleaseClearsFresh : Prop :=
  ∀ (s : State) (n : Fin 32), s.portAnswers = true →
    let o := s.object n
    let cmd : Instr := .objRelease (BitVec.ofNat 8 n.val)
    let released := s.setObject n { o with fresh := false }
    let endsHold : Prop :=
      o.state = .pending ∧ o.config.kind = .poll ∧ o.config.holdUnread = true ∧ o.fresh = true
    (o.state = .disabled → exec cmd s = .next (s.answer 0x0C .badState)) ∧
    (o.state ≠ .disabled → endsHold → exec cmd s = .next (released.look.answer 0x0C .ok)) ∧
    (o.state ≠ .disabled → ¬endsHold → exec cmd s = .next (released.answer 0x0C .ok))

/-- OBJ_INSERT by the object's state and the slot (R122 to R124). That an insert of the present occupant makes a look, which
finds nothing new, is the model's reading of R113 (log 24). -/
def Obligations.ObjInsertByState : Prop :=
  ∀ (s : State) (n : Fin 32), s.portAnswers = true →
    let o := s.object n
    let cmd : Instr := .objInsert (BitVec.ofNat 8 n.val)
    let tooLong : Prop := ∃ f, s.figures = some f ∧ f.maxAny < s.worst n
    let entered : State := { s.setObject n { o with inSlot := true } with slot := some n }
    (o.state = .pending → s.slot = some n → exec cmd s = .next (s.look.answer 0x0D .ok)) ∧
    (o.state = .pending → s.slot ≠ some n → tooLong → exec cmd s = .next (s.answer 0x0D .tooLong)) ∧
    (o.state = .pending → s.slot = none → ¬tooLong → exec cmd s = .next (entered.look.answer 0x0D .ok)) ∧
    (∀ m, o.state = .pending → s.slot = some m → m ≠ n → ¬tooLong →
      exec cmd s = .next (({ entered.setObject m { s.object m with inSlot := false } with
        supersede := if s.supersede = 0xFFFF then 0xFFFF else s.supersede + 1 } : State).look.answer 0x0D .ok)) ∧
    (o.state = .idle → exec cmd s = .next (s.answer 0x0D .notPending)) ∧
    (o.state = .active → exec cmd s = .next (s.answer 0x0D .inFlight)) ∧
    (o.state = .disabled → exec cmd s = .next (s.answer 0x0D .badState))

/-- Arguments outside their range give BAD_ARG and a code that is not listed gives UNKNOWN_COMMAND, with nothing else changed
(R162). -/
def Obligations.BadArgumentsAndCodes : Prop :=
  ∀ (s : State) (arg : BitVec 8), s.portAnswers = true →
    (32 ≤ arg.toNat →
      exec (.objEnable arg) s = .next (s.answer 0x08 .badArg) ∧
      exec (.objDisable arg) s = .next (s.answer 0x09 .badArg) ∧
      exec (.objRequest arg) s = .next (s.answer 0x0A .badArg) ∧
      exec (.objWithdraw arg) s = .next (s.answer 0x0B .badArg) ∧
      exec (.objRelease arg) s = .next (s.answer 0x0C .badArg) ∧
      exec (.objInsert arg) s = .next (s.answer 0x0D .badArg)) ∧
    (arg = 0 ∨ 31 ≤ arg.toNat → exec (.nodeRevive arg) s = .next (s.answer 0x10 .badArg)) ∧
    ∀ code : BitVec 8, isListedCode code = false →
      exec (.unknownCommand code arg) s = .next (s.answer code .unknownCommand)

/-! ## Node, queue and counter commands -/

/-- NODE_REVIVE (R150). -/
def Obligations.NodeReviveByState : Prop :=
  ∀ (s : State) (i : Fin 30), s.portAnswers = true →
    let r := s.nodeRecord i
    let cmd : Instr := .nodeRevive (BitVec.ofNat 8 (i.val + 1))
    (r.state = .silent →
      exec cmd s = .next
        ((s.setNode i { r with state := .unknown, missCount := 0, toggle := none }).answer 0x10 .ok)) ∧
    (r.state ≠ .silent → exec cmd s = .next (s.answer 0x10 .badState))

/-- QUEUE_POP (R155), with the head halfwords and COMPLETION that follow the queue (R154, R156): offsets 46 to 50 read 0000h
while the queue is empty, and else the fields of the oldest record, with Valid set. -/
def Obligations.QueuePopRemovesHead : Prop :=
  ∀ s : State, s.portAnswers = true →
    (s.queue = [] → exec .queuePop s = .next (s.answer 0x11 .queueEmpty) ∧ s.completionFlag = false ∧
      (∀ k : Fin 5, headWord s.queue k.val = 0) ∧
      ∀ offset : BitVec 7, 46 ≤ offset.toNat → offset.toNat ≤ 50 → s.readHalfword offset = 0) ∧
    ∀ c rest, s.queue = c :: rest →
      let outcome : BitVec 4 := match c.outcome with
        | .done => 1
        | .nakReject => 2
        | .busy => 3
        | .noReply => 4
        | .badReply => 5
        | .collision => 6
        | .expired => 7
        | .noFit => 8
        | .nodeSilent => 9
        | .withdrawn => 10
      s.completionFlag = true ∧ (headWord s.queue 0).getLsbD 15 = true ∧
      s.readHalfword 46 = 1#1 ++ 0#2 ++ c.attempts ++ outcome ++ BitVec.ofNat 5 c.object.val ∧
      s.readHalfword 47 = c.cycle ∧
      s.readHalfword 48 = 0#3 ++ c.receivedLength ++ c.window ∧
      s.readHalfword 50 ++ s.readHalfword 49 = c.time ∧
      ∃ t, exec .queuePop s = .next t ∧ t = { s with queue := rest }.answer 0x11 .ok ∧
        (t.completionFlag = true ↔ rest ≠ [])

/-- COUNTERS_CLEAR (R160): the overrun and sync-late counters become 0 and nothing else moves, in every scheduler state. -/
def Obligations.CountersClearTwoCounters : Prop :=
  ∀ s : State, s.portAnswers = true →
    exec .countersClear s =
      .next ({ s with engine := { s.engine with overrun := 0, syncLate := 0 } }.answer 0x12 .ok)

/-! ## Register writes -/

/-- LINE_CONFIGURATION_WRITE (R84, R85): in OFF the fields are replaced with R84's coercions, and every Miss Count is brought
within a changed Miss Limit; in every other state the write is denied. -/
def Obligations.LineConfigurationWriteInOff : Prop :=
  ∀ (s : State) (data : Halfword), s.portAnswers = true →
    (s.sched = .off →
      (exec (.lineConfigurationWrite .timeoutAndLate data) s = .next { s with config := { s.config with
        replyTimeout := if (data.extractLsb' 0 8).toNat < 8 then 8 else data.extractLsb' 0 8
        lateLimit := data.extractLsb' 8 8 } }) ∧
      ∃ t, exec (.lineConfigurationWrite .rateAndMiss data) s = .next t ∧
        t.config.bitRate.code = (data.extractLsb' 0 2).setWidth 16 ∧
        t.config.missLimit = (if data.extractLsb' 8 4 = 0#4 then 1 else data.extractLsb' 8 4) ∧
        (∀ i, t.nodeRecord i = { s.nodeRecord i with missCount :=
          if t.config.missLimit = s.config.missLimit then (s.nodeRecord i).missCount
          else if (s.nodeRecord i).state = .silent then
            (if t.config.missLimit.toNat < (s.nodeRecord i).missCount.toNat then t.config.missLimit
              else (s.nodeRecord i).missCount)
          else if t.config.missLimit.toNat ≤ (s.nodeRecord i).missCount.toNat then t.config.missLimit - 1
          else (s.nodeRecord i).missCount }) ∧
        t = { s with
          config := { s.config with bitRate := t.config.bitRate, missLimit := t.config.missLimit }
          nodes := t.nodes }) ∧
    (s.sched ≠ .off → ∀ reg,
      exec (.lineConfigurationWrite reg data) s = .next (s.deny reg.offset .schedState))

/-- BANK_WRITE (R45, R164): accepted for a SHADOW bank that is not locked, where the halfword reads back its fields and
replaces nothing else of the bank; denied ACTIVE_BANK or LOCKED otherwise. -/
def Obligations.BankWriteReachesShadowOnly : Prop :=
  ∀ (s : State) (reg : BankReg) (data : Halfword), s.portAnswers = true →
    let b := s.port.bankSelect
    let e := s.port.entrySelect
    (s.activeBank = some b → exec (.bankWrite reg data) s = .next (s.deny reg.offset .activeBank)) ∧
    (s.activeBank ≠ some b → s.sw.pending = true ∧ s.sw.target = some b →
      exec (.bankWrite reg data) s = .next (s.deny reg.offset .locked)) ∧
    (s.activeBank ≠ some b → ¬(s.sw.pending = true ∧ s.sw.target = some b) →
      ∃ bk, exec (.bankWrite reg data) s = .next (s.setBank b bk) ∧
        (s.setBank b bk).readHalfword reg.offset =
          (if reg = .durationHigh then data &&& 0x0F0F else data) ∧
        (∀ other : BankReg, other ≠ reg → (s.setBank b bk).readHalfword other.offset = s.readHalfword other.offset) ∧
        (∀ i : Fin 64, i ≠ e → bk.entries[i.val] = (s.bank b).entries[i.val]) ∧
        (s.setBank b bk).bank b.other = s.bank b.other)

/-- OBJECT_CONFIGURATION_WRITE and PAYLOAD_WRITE (R86, R87, R164): accepted in DISABLED, and the payload in IDLE too, where
the halfword reads back its fields and nothing else of the object moves; denied OBJECT_STATE otherwise. -/
def Obligations.ObjectWritesByState : Prop :=
  ∀ (s : State) (data : Halfword), s.portAnswers = true →
    let n := s.port.objectSelect
    let o := s.object n
    (∀ reg : ObjReg,
      (o.state = .disabled → ∃ c, exec (.objectConfigurationWrite reg data) s =
          .next (s.setObject n { o with config := c }) ∧
        (s.setObject n { o with config := c }).readHalfword reg.offset =
          (match reg with
            | .conf0 => data &&& 0x3FFF
            | .conf1 => data &&& 0x3FFF
            | .conf2 => data &&& 0x00FF
            | .conf3 => data &&& 0x7F7F) ∧
        ∀ other : ObjReg, other ≠ reg →
          (s.setObject n { o with config := c }).readHalfword other.offset = s.readHalfword other.offset) ∧
      (o.state ≠ .disabled →
        exec (.objectConfigurationWrite reg data) s = .next (s.deny reg.offset .objectState))) ∧
    (∀ k : BitVec 3,
      (o.state = .disabled ∨ o.state = .idle → ∃ p, exec (.payloadWrite k data) s =
          .next (s.setObject n { o with payload := p }) ∧
        ∀ j : Fin 16, p[j.val] =
          if j.val = 2 * k.toNat then data.extractLsb' 0 8
          else if j.val = 2 * k.toNat + 1 then data.extractLsb' 8 8
          else o.payload[j.val]) ∧
      (o.state = .pending ∨ o.state = .active →
        exec (.payloadWrite k data) s = .next (s.deny (payloadOffset k) .objectState)))

/-- SELECT_WRITE (R163): the reductions, what a read returns, the reset values, and that LINE_RESET keeps the selects. -/
def Obligations.SelectsAreReduced : Prop :=
  (∀ (s : State) (data : Halfword), s.portAnswers = true →
    (∃ t, exec (.selectWrite .object data) s = .next t ∧
      t = { s with port := { s.port with objectSelect := t.port.objectSelect } } ∧
      t.port.objectSelect.val = data.toNat % 32 ∧ (t.readHalfword 17).toNat = data.toNat % 32) ∧
    (∃ t, exec (.selectWrite .bank data) s = .next t ∧
      t = { s with port := { s.port with bankSelect := t.port.bankSelect, entrySelect := t.port.entrySelect } } ∧
      t.port.bankSelect = (if data.getLsbD 0 then .bankB else .bankA) ∧
      t.port.entrySelect.val = (data.toNat / 256) % 64 ∧
      t.readHalfword 9 = data &&& 0x3F01) ∧
    (∃ t, exec (.selectWrite .node data) s = .next t ∧
      t = { s with port := { s.port with nodeSelect := t.port.nodeSelect } } ∧
      (t.readHalfword 42).toNat =
        (if 1 ≤ data.toNat ∧ data.toNat ≤ 30 then data.toNat else if data.toNat = 0 then 30
          else (data.toNat - 1) % 30 + 1) ∧
      t.selectedNode = s.nodeRecord t.port.nodeSelect ∧ t.port.nodeSelect.val + 1 = (t.readHalfword 42).toNat)) ∧
  (∃ t, exec .pinReset State.reset = .next t ∧ t.readHalfword 17 = 0 ∧ t.readHalfword 9 = 0 ∧ t.readHalfword 42 = 1) ∧
  ∀ s : State, ∃ t, exec .lineReset s = .next t ∧ t.port.objectSelect = s.port.objectSelect ∧
    t.port.bankSelect = s.port.bankSelect ∧ t.port.entrySelect = s.port.entrySelect ∧
    t.port.nodeSelect = s.port.nodeSelect

/-- A denied write (R46) overwrites Offset and Cause, raises the count, which stops at 255, sets ACCESS_DENIED, and reads back
at offset 63 (R165). R47: a write of any value to offset 63 clears the record and leaves the flag; it is never denied; pin
reset clears the record; LINE_RESET keeps it and clears the flag; a denial after a clear shows the count 1. -/
def Obligations.DenialsAreRecordedAndCleared : Prop :=
  (∀ (s : State) (offset : BitVec 7) (cause : DenyCause), offset.toNat < 64 →
    let t := s.deny offset cause
    t.port.denied.offset = offset.setWidth 6 ∧ t.port.denied.cause = some cause ∧
    t.port.denied.count.toNat = min 255 (s.port.denied.count.toNat + 1) ∧ t.flags.accessDenied = true ∧
    t = { s with
      port := { s.port with denied := t.port.denied }
      flags := { s.flags with accessDenied := true } } ∧
    (t.readHalfword 63).toNat = offset.toNat + 64 * (match cause with
      | .activeBank => 0
      | .locked => 1
      | .objectState => 2
      | .schedState => 3) + 256 * min 255 (s.port.denied.count.toNat + 1)) ∧
  (∀ s : State,
    (∀ data : Halfword, s.portAnswers = true →
      ∃ t, exec (.accessDeniedRecordClear data) s = .next t ∧
        t = { s with port := { s.port with denied := { offset := 0, cause := none, count := 0 } } } ∧
        t.readHalfword 63 = 0 ∧
        ∀ offset cause, (t.deny offset cause).port.denied = { offset := offset.setWidth 6, cause := some cause, count := 1 }) ∧
    (∃ t, exec .pinReset s = .next t ∧ t.port.denied = { offset := 0, cause := none, count := 0 }) ∧
    (s.portAnswers = true →
      ∃ t, exec .lineReset s = .next t ∧ t.port.denied = s.port.denied ∧ t.flags.accessDenied = false))

/-- EVENT_FLAGS_WRITE and EVENT_ENABLES_WRITE (R156, R158): a written 1 clears its sticky flag and no other, COMPLETION
follows the queue, the enables are replaced whole, and INT# is low exactly while an enabled flag is set. -/
def Obligations.EventWritesDriveInterrupt : Prop :=
  ∀ (s : State) (data : Halfword), s.portAnswers = true →
    (∃ t, exec (.eventFlagsWrite data) s = .next t ∧ t = { s with flags := t.flags } ∧
      ∀ k : Fin 9, t.flagsWord.getLsbD k.val =
        (s.flagsWord.getLsbD k.val && (k.val == 0 || !data.getLsbD k.val))) ∧
    exec (.eventEnablesWrite data) s = .next { s with enables := data.extractLsb' 0 9 } ∧
    (s.intLow = true ↔ ∃ k : Fin 9, s.flagsWord.getLsbD k.val = true ∧ s.enables.getLsbD k.val = true) ∧
    (s.flagsWord.getLsbD 0 = true ↔ s.queue ≠ [])

/-! ## Line Engine -/

/-- BYTE_SENT ten bit times after the byte began (R11, R12, R1, R19): the echo is compared with start bit 0, the data bits
least significant first, stop bit 1. That the staging buffer is emptied as the reply phase begins is the model's reading (log
3). -/
def Obligations.ByteSentChecksEcho : Prop :=
  ∀ (s : State) (fl : Flight) (echo : BitVec 10), s.engine.flight = some fl → fl.phase = .sending →
    fl.mark + BitVec.ofNat 48 (10 * fl.bitRate.ticksPerBit) = s.lineTime → fl.sent < fl.frame.length →
    let agrees : Prop :=
      echo.getLsbD 0 = false ∧ (∀ k : Fin 8, echo.getLsbD (k.val + 1) = (fl.frame.getD fl.sent 0).getLsbD k.val) ∧
        echo.getLsbD 9 = true
    let fl' : Flight := { fl with sent := fl.sent + 1, mark := s.lineTime }
    (agrees → fl.sent + 1 < fl.frame.length →
      exec (.byteSent echo) s = .next { s with engine := { s.engine with flight := some fl' } }) ∧
    (agrees → fl.sent + 1 = fl.frame.length →
      (fl.carried = .sync ∨ (∃ n, fl.carried = .exchange n .broadcast) →
        exec (.byteSent echo) s = .next { s with engine := { s.engine with
          collisions := 0, flight := some { fl' with phase := .gap .ack } } }) ∧
      ((∃ n, fl.carried = .exchange n .command) ∨ (∃ n, fl.carried = .exchange n .poll) →
        exec (.byteSent echo) s = .next { s with engine := { s.engine with
          collisions := 0, staging := Staging.empty, flight := some { fl' with phase := .awaitReply } } })) ∧
    (¬agrees →
      exec (.byteSent echo) s = .next { s with engine := { s.engine with
        collisions := if s.engine.collisions = 3 then 3 else s.engine.collisions + 1
        flight := some { fl with phase := .gap .collision, mark := s.lineTime } } })

/-- REPLY_START and REPLY_TIMEOUT (R13): a start bit no later than the end of the Reply Timeout begins byte 0 with an empty
buffer; the timeout ends in GAP with NO_REPLY; and at the one tick both can fall in, the start bit counts, in either order
(that it does after the timeout is read from R13, log 10). TRUNCATED_REPLY, DRAIN_END and DRAIN_COUNT_RESTART (R14, R17):
twenty bit times of silence end a reply or a drain in GAP with BAD_REPLY; a 0 on LRX starts a drain's count again. That
REPLY_START empties the buffer, and what an empty buffer holds, are the model's choice (log 3). -/
def Obligations.ReplyPhaseBeginsAndEnds : Prop :=
  (∀ (s : State) (fl : Flight), s.engine.flight = some fl → fl.phase = .awaitReply →
    let receiving : State := { s with engine := { s.engine with
      staging := Staging.empty, flight := some { fl with phase := .receiving, mark := s.lineTime } } }
    let timedOut : State := { s with engine := { s.engine with
      flight := some { fl with phase := .gap .noReply, mark := s.lineTime } } }
    ((s.lineTime - fl.mark).toNat ≤ fl.replyTimeout.toNat * fl.bitRate.ticksPerBit →
      exec .replyStart s = .next receiving) ∧
    (fl.replyTimeout.toNat * fl.bitRate.ticksPerBit < (s.lineTime - fl.mark).toNat → exec .replyStart s = .next s) ∧
    (fl.mark + BitVec.ofNat 48 (fl.replyTimeout.toNat * fl.bitRate.ticksPerBit) = s.lineTime →
      exec .replyTimeout s = .next timedOut ∧ exec .replyStart timedOut = .next receiving ∧
      exec .replyTimeout receiving = .next receiving)) ∧
  (∀ (s : State) (fl : Flight), s.engine.flight = some fl →
    let silent : Prop := fl.mark + BitVec.ofNat 48 (20 * fl.bitRate.ticksPerBit) = s.lineTime
    let gap : State := { s with engine := { s.engine with
      flight := some { fl with phase := .gap .badReply, mark := s.lineTime } } }
    (fl.phase = .receiving → s.engine.staging.count ≠ 0 → silent → exec .truncatedReply s = .next gap) ∧
    (fl.phase = .draining → silent → exec .drainEnd s = .next gap) ∧
    (fl.phase = .draining → exec .drainCountRestart s =
      .next { s with engine := { s.engine with flight := some { fl with mark := s.lineTime } } }))

/-- REPLY_BYTE_RECEIVED (R14 to R16) at a tick at which a byte can end (the model's choice, log 9): a broken byte drains; a
whole byte is stored and checked at its place, and the last byte of the frame ends the reply with its result. That a drain's
count begins with the drain is the model's reading (log 8), and that a whole byte that fails its check is in the buffer when the
engine drains is the model's choice (log 3). -/
def Obligations.ReplyBytesAreChecked : Prop :=
  ∀ (s : State) (fl : Flight) (n : Fin 32) (kind : ExchangeKind) (data : Byte),
    s.engine.flight = some fl → fl.carried = .exchange n kind → fl.phase = .receiving → s.byteInTime fl = true →
    let g := s.engine.staging.store data
    let goOn : Prop := exec (.replyByteReceived data true) s = .next { s with engine := { s.engine with
      staging := g, flight := some { fl with mark := s.lineTime } } }
    let drains : Prop := exec (.replyByteReceived data true) s = .next { s with engine := { s.engine with
      staging := g, flight := some { fl with phase := .draining, mark := s.lineTime } } }
    let ends : AttemptResult → Prop := fun r => exec (.replyByteReceived data true) s = .next { s with
      engine := { s.engine with staging := g, flight := some { fl with phase := .gap r, mark := s.lineTime } } }
    exec (.replyByteReceived data false) s = .next { s with engine := { s.engine with
      flight := some { fl with phase := .draining, mark := s.lineTime } } } ∧
    (g.count = 1 →
      (g.address = fl.node ∧ (g.type = typeNak ∨ (kind = .poll ∧ g.type = typeData) ∨ (kind ≠ .poll ∧ g.type = typeAck)) →
        goOn) ∧
      (¬(g.address = fl.node ∧
        (g.type = typeNak ∨ (kind = .poll ∧ g.type = typeData) ∨ (kind ≠ .poll ∧ g.type = typeAck))) → drains)) ∧
    (g.count = 2 → (g.tag.toNat = n.val → goOn) ∧ (g.tag.toNat ≠ n.val → drains)) ∧
    (g.count = 3 → g.type = typeAck ∨ g.type = typeNak ∨ g.type = typeData →
      ((g.type = typeAck → g.length = 0) ∧ (g.type = typeNak → g.length = 1) ∧
          (g.type = typeData → g.length.toNat ≤ fl.replyLength.toNat) → goOn) ∧
      (¬((g.type = typeAck → g.length = 0) ∧ (g.type = typeNak → g.length = 1) ∧
          (g.type = typeData → g.length.toNat ≤ fl.replyLength.toNat)) → drains)) ∧
    (4 ≤ g.count → g.count ≠ g.length.toNat + 5 → goOn) ∧
    (4 ≤ g.count → g.count = g.length.toNat + 5 →
      (g.crc ≠ 0 → ends .badReply) ∧
      (g.crc = 0 → g.type = typeAck → ends .ack) ∧
      (g.crc = 0 → g.type = typeNak → g.payload[0] = 1 → ends .nakReject) ∧
      (g.crc = 0 → g.type = typeNak → g.payload[0] = 2 → ends .nakBusy) ∧
      (g.crc = 0 → g.type = typeNak → g.payload[0] ≠ 1 → g.payload[0] ≠ 2 → ends .badReply) ∧
      (g.crc = 0 → g.type = typeData → ends .data))

/-- A whole byte goes to its place in the staging buffer and into the running CRC (R14, R3). What an empty buffer holds, and
so the bytes past Length, is the model's choice (log 3). -/
def Obligations.ReplyBytesAreStored : Prop :=
  ∀ (bytes : List Byte) (length : Fin 17), bytes.length = length.val + 5 → bytes.getD 2 0 = BitVec.ofNat 8 length.val →
    let g := bytes.foldl Staging.store Staging.empty
    g.count = length.val + 5 ∧ g.crc = crcOf bytes ∧
    g.address = (bytes.getD 0 0).extractLsb' 0 5 ∧ g.type = (bytes.getD 0 0).extractLsb' 5 3 ∧
    g.tag = (bytes.getD 1 0).extractLsb' 0 5 ∧ g.toggle = (bytes.getD 1 0).getLsbD 5 ∧
    g.attention = (bytes.getD 1 0).getLsbD 7 ∧ g.length = BitVec.ofNat 8 length.val ∧
    ∀ j : Fin 16, g.payload[j.val] = if j.val < length.val then bytes.getD (3 + j.val) 0 else 0

/-- GAP_END of an exchange whose node does not become SILENT by it (R18, R103 to R105, R88): the Node Table's update, then
Attempts and Delivered, then the row of R103, in every scheduler state; then, in STOPPING, the scheduler goes OFF (R77, R76),
else a third consecutive collision makes RUNNING HALTED (R12, R79), else the look is made (`afterLineIdle`). `gapEndedNow` is
the model's own (log 12), and what the look sends at the tick of a cycle start is the model's choice (log 26). -/
def Obligations.GapEndAppliesResult : Prop :=
  ∀ (s : State) (fl : Flight) (n : Fin 32) (kind : ExchangeKind) (r : AttemptResult),
    s.engine.flight = some fl → fl.carried = .exchange n kind → fl.phase = .gap r →
    fl.mark + BitVec.ofNat 48 (4 * fl.bitRate.ticksPerBit) = s.lineTime →
    ¬(r = .noReply ∧ s.missesLimit fl.node = true) →
    let fault : Bool := decide (r = .collision ∧ s.engine.collisions = 3)
    let u := { s with engine := { s.engine with flight := none, gapEndedNow := true } }.nodeReport kind fl.node r
    let o := s.object n
    let o' : MsgObject := { o with attempts := o.attempts + 1, delivered := o.delivered || r != .collision }
    let g := s.engine.staging
    let tried := u.setObject n o'
    let copied := u.setObject n { o' with
      reply := Vector.ofFn (fun j : Fin 16 => if j.val < g.length.toNat then g.payload[j.val] else 0)
      receivedLength := g.length.setWidth 5
      replyCount := o.replyCount + 1
      overwriteCount := if o.fresh = true ∧ o.overwriteCount ≠ 255 then o.overwriteCount + 1 else o.overwriteCount
      fresh := true }
    let oversized : Prop := ∃ f, s.figures = some f ∧ f.maxOpen[o.config.cls.toFin] < s.worst n
    let retries : RequestOutcome → Prop := fun outcome =>
      (o.attempts + 1 < o.config.attemptLimit → oversized →
        exec .gapEnd s = .next ((tried.afterOutcome n .noFit).afterLineIdle fault)) ∧
      (o.attempts + 1 < o.config.attemptLimit → ¬oversized → o.reRequest = false →
        exec .gapEnd s = .next ((u.setObject n { o' with state := .pending }).afterLineIdle fault)) ∧
      (o.attempts + 1 < o.config.attemptLimit → ¬oversized → o.reRequest = true →
        exec .gapEnd s = .next ((u.setObject n { o' with
          state := .pending, reRequest := false
          mergeCount := if o.mergeCount = 255 then 255 else o.mergeCount + 1 }).afterLineIdle fault)) ∧
      (¬ o.attempts + 1 < o.config.attemptLimit →
        exec .gapEnd s = .next ((tried.afterOutcome n outcome).afterLineIdle fault))
    (r = .ack → exec .gapEnd s = .next ((tried.afterOutcome n .done).afterLineIdle fault)) ∧
    (r = .data → exec .gapEnd s = .next ((copied.afterOutcome n .done).afterLineIdle fault)) ∧
    (r = .nakReject → exec .gapEnd s = .next ((tried.afterOutcome n .nakReject).afterLineIdle fault)) ∧
    (r = .nakBusy → retries .busy) ∧
    (r = .noReply → retries .noReply) ∧
    (r = .badReply → retries .badReply) ∧
    (r = .collision → retries .collision)

/-- GAP_END with the NO_REPLY that brings the Miss Count to the Miss Limit (R146, R147, R106): the node is SILENT,
NODE_SILENT is set, the object's request and its re-request are finished, then every PENDING object to the node in number
order, each NODE_SILENT; and then no object to the node waits. In STOPPING the scheduler then goes OFF (R77), else the look is
made. `gapEndedNow` is the model's own (log 12), and what the look sends at the tick of a cycle start is the model's choice (log
26). -/
def Obligations.GapEndSilencesNode : Prop :=
  ∀ (s : State) (fl : Flight) (n : Fin 32) (kind : ExchangeKind) (i : Fin 30),
    s.engine.flight = some fl → fl.carried = .exchange n kind → fl.phase = .gap .noReply →
    fl.mark + BitVec.ofNat 48 (4 * fl.bitRate.ticksPerBit) = s.lineTime →
    i.val + 1 = fl.node.toNat → (s.object n).config.node = fl.node →
    (s.nodeRecord i).missCount + 1 = s.config.missLimit →
    let u : State := { s.setNode i { s.nodeRecord i with missCount := s.config.missLimit, state := .silent } with
      engine := { s.engine with flight := none, gapEndedNow := true }
      flags := { s.flags with nodeSilent := true } }
    let v := (u.setObject n { s.object n with attempts := (s.object n).attempts + 1, delivered := true }).afterOutcome n
      .nodeSilent
    let w := v.forEachObject (fun m t =>
      if (t.object m).state = .pending ∧ (t.object m).config.node = fl.node then t.afterOutcome m .nodeSilent else t)
    exec .gapEnd s = .next (w.afterLineIdle false) ∧
    ∀ m, (w.object m).config.node = fl.node → (w.object m).state ≠ .pending ∧ (w.object n).state = .idle

/-- GAP_END of a SYNC frame (R19), and in every case the line fault and the end of STOPPING (R12, R79, R77, R76): a third
collision sets LINE_FAULT and makes RUNNING HALTED, a stop asked for ends OFF, and nothing is started. What an exchange's
result leaves beside these is in GapEndAppliesResult and GapEndSilencesNode. `gapEndedNow` is the model's own (log 12), and what
the look sends at the tick of a cycle start is the model's choice (log 26). -/
def Obligations.GapEndFaultsAndStops : Prop :=
  ∀ (s : State) (fl : Flight) (r : AttemptResult), s.engine.flight = some fl → fl.phase = .gap r →
    fl.mark + BitVec.ofNat 48 (4 * fl.bitRate.ticksPerBit) = s.lineTime →
    let idle : State := { s with engine := { s.engine with flight := none, gapEndedNow := true } }
    let fault : Prop := r = .collision ∧ s.engine.collisions = 3
    (fl.carried = .sync → s.sched = .running → ¬fault → exec .gapEnd s = .next idle.look) ∧
    (fl.carried = .sync → s.sched = .running → fault → exec .gapEnd s = .next { idle with
      sched := .halted, flags := { s.flags with lineFault := true } }) ∧
    (fl.carried = .sync → s.sched = .stopping → exec .gapEnd s = .next { idle with
      sched := .off, activeBank := none, figures := none
      cycle := { s.cycle with window := none, syncOwed := false }
      flags := { s.flags with lineFault := s.flags.lineFault || decide fault } }) ∧
    (s.sched = .running → fault → ∃ t, exec .gapEnd s = .next t ∧ t.sched = .halted ∧ t.flags.lineFault = true ∧
      t.engine.flight = none ∧ t.engine.collisions = 3 ∧ t.activeBank = s.activeBank ∧ t.figures = s.figures ∧
      t.sw = s.sw ∧ t.cycle = s.cycle ∧ t.supersede = s.supersede) ∧
    (s.sched = .stopping → ∃ t, exec .gapEnd s = .next t ∧ t.sched = .off ∧ t.activeBank = none ∧ t.figures = none ∧
      t.cycle.window = none ∧ t.cycle.syncOwed = false ∧ t.cycle.cycleNumber = s.cycle.cycleNumber ∧
      t.engine.flight = none ∧ t.engine.collisions = s.engine.collisions ∧ t.sw = s.sw ∧
      (t.flags.lineFault = true ↔ s.flags.lineFault = true ∨ fault))

/-- The Node Table's update from a report (R144 to R146, R133, R138), record by record, and the two flags; nothing else
moves. -/
def Obligations.ReportUpdatesNodeRecord : Prop :=
  ∀ (s : State) (kind : ExchangeKind) (address : BitVec 5) (r : AttemptResult),
    let t := s.nodeReport kind address r
    let g := s.engine.staging
    let answered : Prop := r = .ack ∨ r = .nakReject ∨ r = .nakBusy ∨ r = .data
    (∀ i : Fin 30, i.val + 1 ≠ address.toNat → t.nodeRecord i = s.nodeRecord i) ∧
    (∀ i : Fin 30, i.val + 1 = address.toNat →
      (answered → t.nodeRecord i = { s.nodeRecord i with
          state := .alive, missCount := 0, attention := g.attention
          lastReplyCycle := s.cycle.cycleNumber.extractLsb' 0 16
          toggle := if r = .ack ∧ kind = .command then some g.toggle else (s.nodeRecord i).toggle } ∧
        (t.flags.attention = true ↔
          s.flags.attention = true ∨ g.attention = true ∧ (s.nodeRecord i).attention = false)) ∧
      (r = .noReply → t.nodeRecord i = { s.nodeRecord i with
          missCount := (s.nodeRecord i).missCount + 1
          state := if (s.nodeRecord i).missCount + 1 = s.config.missLimit then .silent else (s.nodeRecord i).state } ∧
        (t.flags.nodeSilent = true ↔
          s.flags.nodeSilent = true ∨ (s.nodeRecord i).missCount + 1 = s.config.missLimit)) ∧
      (r = .badReply ∨ r = .collision → t = s)) ∧
    (¬(1 ≤ address.toNat ∧ address.toNat ≤ 30) → t = s) ∧
    t = { s with
      nodes := t.nodes
      flags := { s.flags with attention := t.flags.attention, nodeSilent := t.flags.nodeSilent } }

/-! ## Happenings out of their time -/

/-- A happening of the part that is offered at a tick or in a state in which the spec does not let it occur changes nothing: the
model's choice (log 5, and log 14 for the two boundaries at the tick of an instant). -/
def Obligations.HappeningsOutOfTimeDoNothing : Prop :=
  ∀ s : State,
    let instantNow : Prop := s.sw.pending = true ∧ s.sw.instant = s.lineTime
    (¬instantNow → exec .switchInstant s = .next s) ∧
    (s.activeBank = none ∨ s.cycle.cycleEnd ≠ s.lineTime ∨ instantNow → exec .cycleStart s = .next s) ∧
    (s.activeBank = none ∨ s.cycle.window = none ∨ s.cycle.windowEnd ≠ s.lineTime ∨
      s.cycle.windowEnd = s.cycle.cycleEnd ∨ instantNow → exec .windowBoundary s = .next s) ∧
    (s.cycle.pulseEnd ≠ some s.lineTime → exec .cycPulseEnd s = .next s) ∧
    (s.engine.flight = none → ∀ (echo : BitVec 10) (data : Byte) (stopBit : Bool),
      ∀ c ∈ [Instr.byteSent echo, .replyStart, .replyTimeout, .replyByteReceived data stopBit, .truncatedReply, .drainEnd,
        .drainCountRestart, .gapEnd], exec c s = .next s) ∧
    ∀ fl, s.engine.flight = some fl →
      let now : Nat → Prop := fun bits => fl.mark + BitVec.ofNat 48 (bits * fl.bitRate.ticksPerBit) = s.lineTime
      (fl.phase ≠ .sending ∨ ¬now 10 → ∀ echo, exec (.byteSent echo) s = .next s) ∧
      (fl.phase ≠ .awaitReply → ¬(fl.phase = .gap .noReply ∧ fl.mark = s.lineTime) → exec .replyStart s = .next s) ∧
      (fl.phase ≠ .awaitReply ∨ ¬now fl.replyTimeout.toNat → exec .replyTimeout s = .next s) ∧
      (fl.carried = .sync ∨ fl.phase ≠ .receiving ∨ s.byteInTime fl = false →
        ∀ data stopBit, exec (.replyByteReceived data stopBit) s = .next s) ∧
      (fl.phase ≠ .receiving ∨ s.engine.staging.count = 0 ∨ ¬now 20 → exec .truncatedReply s = .next s) ∧
      (fl.phase ≠ .draining ∨ ¬now 20 → exec .drainEnd s = .next s) ∧
      (fl.phase ≠ .draining → exec .drainCountRestart s = .next s) ∧
      ((∀ r, fl.phase ≠ .gap r) ∨ ¬now 4 → exec .gapEnd s = .next s)

/-! ## Transmit Arbiter -/

/-- A look (R113, R117, R120, R10, R102): nothing outside RUNNING or with the line busy; an owed SYNC first, unless a pending
Instant is less than SYNC time ahead; else the winner's exchange, taken whole at this tick. -/
def Obligations.LookStartsAtMostOneFrame : Prop :=
  ∀ s : State,
    let rate := s.config.bitRate
    let syncTicks := 74 * rate.ticksPerBit
    (s.sched ≠ .running ∨ s.engine.flight ≠ none → s.look = s) ∧
    (s.sched = .running → s.engine.flight = none → s.cycle.syncOwed = true →
      (s.sw.pending = true ∧ (s.sw.instant - s.lineTime).toNat < syncTicks → s.look = s) ∧
      (¬(s.sw.pending = true ∧ (s.sw.instant - s.lineTime).toNat < syncTicks) → s.look = { s with
        cycle := { s.cycle with syncOwed := false }
        engine := { s.engine with
          flight := some
            { carried := .sync, node := 31, replyLength := 0, frame := syncFrame s.cycle.cycleNumber, toggle := false
              resync := false, bitRate := rate, replyTimeout := s.config.replyTimeout
              frameBound := s.lineTime + BitVec.ofNat 48 syncTicks, sent := 0, overran := false, phase := .sending
              mark := s.lineTime } } })) ∧
    (s.sched = .running → s.engine.flight = none → s.cycle.syncOwed = false →
      (s.winner = none → s.look = s) ∧
      ∀ n, s.winner = some n →
        let o := s.object n
        s.look = { s with
          objects := (s.setObject n { o with
            state := .active, inSlot := if s.slot = some n then false else o.inSlot }).objects
          slot := if s.slot = some n then none else s.slot
          engine := { s.engine with
            flight := some
              { carried := .exchange n o.config.exchangeKind, node := o.config.node, replyLength := o.config.replyLength
                frame := s.requestFrame n, toggle := (s.frameToggle n).1, resync := (s.frameToggle n).2, bitRate := rate
                replyTimeout := s.config.replyTimeout, frameBound := s.lineTime + BitVec.ofNat 48 (s.worst n), sent := 0
                overran := false, phase := .sending, mark := s.lineTime } } })

/-- R119: the winner is the slot occupant if it is a candidate; otherwise the candidate of lowest Priority value, and among
equals of lowest number. The candidates are those of R118, with the remaining time of R116. -/
def Obligations.WinnerIsBestCandidate : Prop :=
  ∀ s : State,
    (s.activeBank = none ∨ s.cycle.window = none → s.winner = none) ∧
    ∀ (b : BankId) (w : Fin 64), s.activeBank = some b → s.cycle.window = some w →
      let e := (s.bank b).entries[w.val]
      let inTime : Fin 32 → Prop := fun n =>
        s.worst n ≤ (s.cycle.windowEnd - s.lineTime).toNat ∧ s.worst n ≤ (s.cycle.cycleEnd - s.lineTime).toNat ∧
          (s.sw.pending = true → s.worst n ≤ (s.sw.instant - s.lineTime).toNat)
      let held : Fin 32 → Prop := fun n =>
        (s.object n).config.kind = .poll ∧ (s.object n).config.holdUnread = true ∧ (s.object n).fresh = true
      let inserted : Fin 32 → Prop := fun n =>
        s.slot = some n ∧ (s.object n).state = .pending ∧ e.classes ≠ 0 ∧ ¬held n ∧ inTime n
      let candidate : Fin 32 → Prop := fun n =>
        (s.object n).state = .pending ∧ ¬held n ∧ s.isSilent (s.object n).config.node = false ∧
          e.classes.getLsbD (s.object n).config.cls.toNat = true ∧ inTime n
      (∀ n, inserted n → s.winner = some n) ∧
      ((∀ n, ¬inserted n) →
        (s.winner = none ↔ ∀ n, ¬candidate n) ∧
        ∀ n, s.winner = some n ↔ candidate n ∧ ∀ m, candidate m →
          (s.object n).config.priority < (s.object m).config.priority ∨
            ((s.object n).config.priority = (s.object m).config.priority ∧ n ≤ m))

/-- The frames the part sends (R3 to R6, R131) and the worst case W (R22, R90), for an object whose configuration is valid: a
frame has L + 5 bytes, its fields in their places, and leaves the CRC register at 0000h; the check value of R5. -/
def Obligations.FramesAndWorstCase : Prop :=
  crcOf [0x31, 0x32, 0x33, 0x34, 0x35, 0x36, 0x37, 0x38, 0x39] = 0x29B1 ∧
  (∀ bytes : List Byte,
    crcOf (bytes ++ [(crcOf bytes).extractLsb' 8 8, (crcOf bytes).extractLsb' 0 8]) = 0) ∧
  (∀ number : BitVec 32, ∃ hi lo : Byte,
    syncFrame number =
      [0x1F, 0x00, 0x02, number.extractLsb' 0 8, number.extractLsb' 8 8, hi, lo] ∧ crcOf (syncFrame number) = 0) ∧
  ∀ (s : State) (n : Fin 32), (s.object n).config.valid = true →
    let o := s.object n
    let c := o.config
    let frame := s.requestFrame n
    let tog : Option Bool := if h : 1 ≤ c.node.toNat ∧ c.node.toNat ≤ 30 then
      (s.nodeRecord ⟨c.node.toNat - 1, by omega⟩).toggle else none
    let toNode : Prop := c.kind = .command ∧ c.node ≠ 31
    crcOf frame = 0 ∧
    (frame.getD 0 0).extractLsb' 0 5 = c.node ∧ ((frame.getD 1 0).extractLsb' 0 5).toNat = n.val ∧
    (frame.getD 1 0).getLsbD 7 = false ∧
    (toNode → ((frame.getD 1 0).getLsbD 5 = true ↔ tog = some true) ∧
      ((frame.getD 1 0).getLsbD 6 = true ↔ tog = none)) ∧
    (¬toNode → (frame.getD 1 0).getLsbD 5 = false ∧ (frame.getD 1 0).getLsbD 6 = false) ∧
    (c.kind = .command → frame.length = c.length.toNat + 5 ∧ (frame.getD 0 0).extractLsb' 5 3 = 1 ∧
      (frame.getD 2 0).toNat = c.length.toNat ∧
      (∀ j : Fin 16, j.val < c.length.toNat → frame.getD (3 + j.val) 0 = o.payload[j.val]) ∧
      s.worst n = s.config.bitRate.ticksPerBit *
        (if c.node = 31 then 10 * (c.length.toNat + 5) + 4
          else 10 * (c.length.toNat + 5) + s.config.replyTimeout.toNat + 60 + 4)) ∧
    (c.kind = .poll → frame.length = 5 ∧ (frame.getD 0 0).extractLsb' 5 3 = 2 ∧ (frame.getD 2 0).toNat = 0 ∧
      s.worst n = s.config.bitRate.ticksPerBit *
        (50 + s.config.replyTimeout.toNat + 10 * (c.replyLength.toNat + 5) + 4))

/-! ## Object Table -/

/-- The ageing and the trigger step of one object (R100, R101, R149), and its re-check at a switch instant (R110). -/
def Obligations.ObjectStepsAtCycleStart : Prop :=
  (∀ (s : State) (n : Fin 32),
    let o := s.object n
    let age := if o.age = 255 then 255 else o.age + 1
    let aged := s.setObject n { o with age := age }
    let number := s.cycle.cycleNumber.toNat
    let triggers : Prop :=
      o.config.trigger = .cyclic ∧ number % o.config.period.toNat = o.config.phase.toNat
    let merged := s.setObject n { o with mergeCount := if o.mergeCount = 255 then 255 else o.mergeCount + 1 }
    (o.state ≠ .pending → s.ageStep n = s) ∧
    (o.state = .pending → o.config.lifetime ≠ 0 ∧ o.config.lifetime.toNat ≤ age.toNat → o.reRequest = false →
      s.ageStep n = aged.afterFinish n .expired .idle) ∧
    (o.state = .pending → ¬(o.config.lifetime ≠ 0 ∧ o.config.lifetime.toNat ≤ age.toNat) → s.ageStep n = aged) ∧
    (o.state = .disabled ∨ ¬triggers → s.triggerStep n = s) ∧
    (triggers → o.state = .idle → s.isSilent o.config.node = true →
      ∀ i, (s.triggerStep n).nodeRecord i =
          (if i.val + 1 = o.config.node.toNat then { s.nodeRecord i with
            skipped := if (s.nodeRecord i).skipped = 255 then 255 else (s.nodeRecord i).skipped + 1 }
          else s.nodeRecord i) ∧
        s.triggerStep n = { s with nodes := (s.triggerStep n).nodes }) ∧
    (triggers → o.state = .idle → s.isSilent o.config.node = false → s.triggerStep n = s.afterRequest n) ∧
    (triggers → o.state = .pending → s.triggerStep n = merged) ∧
    (triggers → o.state = .active → o.reRequest = false →
      s.triggerStep n = s.setObject n { o with reRequest := true }) ∧
    (triggers → o.state = .active → o.reRequest = true → s.triggerStep n = merged)) ∧
  (∀ (s : State) (n : Fin 32) (f : Figures), s.figures = some f →
    let o := s.object n
    let limit := if s.slot = some n then f.maxAny else f.maxOpen[o.config.cls.toFin]
    (o.state = .pending → limit < s.worst n → o.reRequest = false →
      s.recheckStep n = s.afterFinish n .noFit .idle) ∧
    (o.state ≠ .pending ∨ s.worst n ≤ limit → s.recheckStep n = s))

/-- The cycle-start work and the re-check go through the objects in number order, each meeting its own two steps as it stood
(R99, R110): no object's steps reach another object, and the records that each of the two makes follow those of the queue
in number order, all with the number and the window of the cycle in force as it begins, which is the new one, and with the
present time (R107). What is said of the re-check's records, each of them NO_FIT, is for states with sound requests, which
every step keeps. -/
def Obligations.CycleWorkIsPerObject : Prop :=
  ∀ s : State,
    (∀ n, s.cycleWork.object n = ((s.ageStep n).triggerStep n).object n) ∧
    (∀ n, s.recheck.object n = (s.recheckStep n).object n) ∧
    (∃ made : List Completion, s.cycleWork.queue = s.queue ++ made ∧
      made.Pairwise (fun a b => a.object ≤ b.object) ∧
      ∀ c ∈ made, c.cycle = s.cycle.cycleNumber.extractLsb' 0 16 ∧ c.window = s.windowIndex ∧
        c.time = s.lineTime.extractLsb' 0 32) ∧
    (s.RequestsSound → ∃ made : List Completion, s.recheck.queue = s.queue ++ made ∧
      made.Pairwise (fun a b => a.object < b.object) ∧
      ∀ c ∈ made, c.outcome = .noFit ∧ c.cycle = s.cycle.cycleNumber.extractLsb' 0 16 ∧ c.window = s.windowIndex ∧
        c.time = s.lineTime.extractLsb' 0 32)

/-! ## What every step keeps -/

/-- The Insert Slot, the In Slot flags and the occupant's state agree after every step that finds them agreeing (R112). -/
def Obligations.SlotAgreesKept : Prop :=
  ∀ s t : State, s.SlotAgrees → step s = .next t → t.SlotAgrees

/-- An object is ACTIVE exactly while its exchange is in flight, kept by every step (R10, R102). -/
def Obligations.ActiveInFlightKept : Prop :=
  ∀ s t : State, s.ActiveInFlight → step s = .next t → t.ActiveInFlight

/-- The scheduler state, the roles, the figures, the pending switch and the Line Engine agree, kept by every step (R57, R54,
R74). -/
def Obligations.SchedulerAgreesKept : Prop :=
  ∀ s t : State, s.SchedulerAgrees → step s = .next t → t.SchedulerAgrees

/-- The ACTIVE bank and the target of a pending switch stay valid, and the figures stay those of the ACTIVE bank (R42, R53,
R51). -/
def Obligations.BanksJudgedKept : Prop :=
  ∀ s t : State, s.SchedulerAgrees → s.BanksJudged → step s = .next t → t.BanksJudged

/-- Enabled objects stay valid, Attempts of a standing request stays below its limit, and Re-request is set only in ACTIVE
(R86, R103, R93). -/
def Obligations.RequestsSoundKept : Prop :=
  ∀ s t : State, s.ActiveInFlight → s.RequestsSound → step s = .next t → t.RequestsSound

/-- Miss Counts stay within the Miss Limit and no request to a SILENT node stands, kept by every step (R143, R147, R106). -/
def Obligations.NodesSoundKept : Prop :=
  ∀ s t : State, s.ActiveInFlight → s.NodesSound → step s = .next t → t.NodesSound

/-- The kept conditions hold after pin reset. -/
def Obligations.ConditionsHoldAtReset : Prop :=
  State.reset.SlotAgrees ∧ State.reset.ActiveInFlight ∧ State.reset.SchedulerAgrees ∧ State.reset.BanksJudged ∧
    State.reset.RequestsSound ∧ State.reset.NodesSound

/-- A frame begins only in RUNNING (R74), and an exchange only with no SYNC owed, in a window that has room for its W before
the window end, the cycle end and a pending Instant, not held, and, but for the slot's occupant, with its class open and its
node not SILENT (R118). -/
def Obligations.FramesStartOnlyWhereTheyFit : Prop :=
  ∀ s t : State, s.ldeAsserted = false → step s = .next t →
    (t.ldeAsserted = true → t.sched = .running) ∧
    ∀ fl n kind, t.engine.flight = some fl → fl.phase = .sending → fl.carried = .exchange n kind →
      t.cycle.syncOwed = false ∧ (t.object n).state = .active ∧ (t.object n).held = false ∧
      fl.frameBound = t.lineTime + BitVec.ofNat 48 (t.worst n) ∧
      ∃ b w, t.activeBank = some b ∧ t.cycle.window = some w ∧
        t.worst n ≤ (t.cycle.windowEnd - t.lineTime).toNat ∧
        t.worst n ≤ (t.cycle.cycleEnd - t.lineTime).toNat ∧
        (t.sw.pending = true → t.worst n ≤ (t.sw.instant - t.lineTime).toNat) ∧
        ((t.bank b).entries[w.val]).classes ≠ 0 ∧
        (((t.bank b).entries[w.val]).classes.getLsbD (t.object n).config.cls.toNat = true ∧
            t.isSilent (t.object n).config.node = false ∨
          s.slot = some n ∨ s.pending.head? = some (.objInsert (BitVec.ofNat 8 n.val)))

/-- What a step may change belongs to the command that owns it: Line Time (R23), bank contents (R40, R45), the Line
Configuration (R85), object configurations (R86), payloads (R87), reply buffers (R104), the enable mask (R158). Nothing that
happens while a frame is in flight changes what was fixed at its taking; only the end of its GAP lets another frame be taken
(R129). -/
def Obligations.StepsReachOnlyWhatTheyOwn : Prop :=
  (∀ (s t : State) (c : Instr) (rest : List Instr), s.pending = c :: rest → step s = .next t →
    t.pending = rest ∧
    (t.lineTime ≠ s.lineTime → c = .pinReset ∨ c = .lineTimeTick ∧ t.lineTime = s.lineTime + 1) ∧
    (∀ b, t.bank b ≠ s.bank b → c = .pinReset ∨
      (∃ reg data, c = .bankWrite reg data) ∧ s.port.bankSelect = b ∧ s.activeBank ≠ some b ∧ s.isLocked b = false) ∧
    (t.config ≠ s.config → c = .pinReset ∨ (∃ reg data, c = .lineConfigurationWrite reg data) ∧ s.sched = .off) ∧
    (∀ n, (t.object n).config ≠ (s.object n).config → c = .pinReset ∨
      (∃ reg data, c = .objectConfigurationWrite reg data) ∧ s.port.objectSelect = n ∧
        (s.object n).state = .disabled) ∧
    (∀ n, (t.object n).payload ≠ (s.object n).payload → c = .pinReset ∨
      (∃ k data, c = .payloadWrite k data) ∧ s.port.objectSelect = n ∧
        ((s.object n).state = .disabled ∨ (s.object n).state = .idle)) ∧
    (∀ n, (t.object n).reply ≠ (s.object n).reply → c = .pinReset ∨ c = .gapEnd) ∧
    (t.enables ≠ s.enables → c = .pinReset ∨ ∃ data, c = .eventEnablesWrite data)) ∧
  (∀ (s t : State) (fl fl' : Flight), s.engine.flight = some fl → step s = .next t → t.engine.flight = some fl' →
    s.pending.head? ≠ some .gapEnd →
    fl'.carried = fl.carried ∧ fl'.node = fl.node ∧ fl'.replyLength = fl.replyLength ∧ fl'.frame = fl.frame ∧
      fl'.toggle = fl.toggle ∧ fl'.resync = fl.resync ∧ fl'.bitRate = fl.bitRate ∧
      fl'.replyTimeout = fl.replyTimeout ∧ fl'.frameBound = fl.frameBound)

/-- The Completion Queue is first in, first out over every step (R152, R153, R155): records join behind the newest, the head
alone is popped, and only LINE_RESET and pin reset empty it. -/
def Obligations.QueueIsFirstInFirstOut : Prop :=
  ∀ (s t : State) (c : Instr) (rest : List Instr), s.pending = c :: rest → step s = .next t →
    (t.queue = [] ∧ (c = .pinReset ∨ c = .lineReset)) ∨ (c = .queuePop ∧ ∃ head, s.queue = head :: t.queue) ∨
      ∃ made, t.queue = s.queue ++ made ∧ (made ≠ [] → t.queue.length ≤ 32)

/-- A node becomes SILENT only at the end of an attempt, with NODE_SILENT set, and leaves SILENT only by NODE_REVIVE,
LINE_RESET or pin reset (R147); the second in states in which no request to a SILENT node stands, which every step keeps. -/
def Obligations.SilentChangesByItsRules : Prop :=
  ∀ (s t : State) (i : Fin 30) (c : Instr) (rest : List Instr), s.pending = c :: rest → step s = .next t →
    ((s.nodeRecord i).state ≠ .silent → (t.nodeRecord i).state = .silent → c = .gapEnd ∧ t.flags.nodeSilent = true) ∧
    (s.ActiveInFlight → s.NodesSound → (s.nodeRecord i).state = .silent → (t.nodeRecord i).state ≠ .silent →
      (c = .nodeRevive (BitVec.ofNat 8 (i.val + 1)) ∨ c = .lineReset ∨ c = .pinReset))
end

