-- ==== Sys2Proof/Laws/State.lean ====
section
/-! SUPPORT. One lemma per field per named update of the state, so that no later proof unfolds a record update. -/

namespace Sys2Proof.Machine

/-! ### setObject -/

@[simp] theorem State.setObject_port (s : State) (n : Fin 32) (o : MsgObject) : (s.setObject n o).port = s.port := rfl
@[simp] theorem State.setObject_lineTime (s : State) (n : Fin 32) (o : MsgObject) : (s.setObject n o).lineTime = s.lineTime := rfl
@[simp] theorem State.setObject_config (s : State) (n : Fin 32) (o : MsgObject) : (s.setObject n o).config = s.config := rfl
@[simp] theorem State.setObject_bankA (s : State) (n : Fin 32) (o : MsgObject) : (s.setObject n o).bankA = s.bankA := rfl
@[simp] theorem State.setObject_bankB (s : State) (n : Fin 32) (o : MsgObject) : (s.setObject n o).bankB = s.bankB := rfl
@[simp] theorem State.setObject_activeBank (s : State) (n : Fin 32) (o : MsgObject) : (s.setObject n o).activeBank = s.activeBank := rfl
@[simp] theorem State.setObject_figures (s : State) (n : Fin 32) (o : MsgObject) : (s.setObject n o).figures = s.figures := rfl
@[simp] theorem State.setObject_sw (s : State) (n : Fin 32) (o : MsgObject) : (s.setObject n o).sw = s.sw := rfl
@[simp] theorem State.setObject_sched (s : State) (n : Fin 32) (o : MsgObject) : (s.setObject n o).sched = s.sched := rfl
@[simp] theorem State.setObject_cycle (s : State) (n : Fin 32) (o : MsgObject) : (s.setObject n o).cycle = s.cycle := rfl
@[simp] theorem State.setObject_objects (s : State) (n : Fin 32) (o : MsgObject) :
    (s.setObject n o).objects = s.objects.set n.val o n.isLt := rfl
@[simp] theorem State.setObject_slot (s : State) (n : Fin 32) (o : MsgObject) : (s.setObject n o).slot = s.slot := rfl
@[simp] theorem State.setObject_supersede (s : State) (n : Fin 32) (o : MsgObject) : (s.setObject n o).supersede = s.supersede := rfl
@[simp] theorem State.setObject_engine (s : State) (n : Fin 32) (o : MsgObject) : (s.setObject n o).engine = s.engine := rfl
@[simp] theorem State.setObject_nodes (s : State) (n : Fin 32) (o : MsgObject) : (s.setObject n o).nodes = s.nodes := rfl
@[simp] theorem State.setObject_queue (s : State) (n : Fin 32) (o : MsgObject) : (s.setObject n o).queue = s.queue := rfl
@[simp] theorem State.setObject_lost (s : State) (n : Fin 32) (o : MsgObject) : (s.setObject n o).lost = s.lost := rfl
@[simp] theorem State.setObject_flags (s : State) (n : Fin 32) (o : MsgObject) : (s.setObject n o).flags = s.flags := rfl
@[simp] theorem State.setObject_enables (s : State) (n : Fin 32) (o : MsgObject) : (s.setObject n o).enables = s.enables := rfl
@[simp] theorem State.setObject_pending (s : State) (n : Fin 32) (o : MsgObject) : (s.setObject n o).pending = s.pending := rfl

/-! ### setNode -/

@[simp] theorem State.setNode_port (s : State) (i : Fin 30) (r : NodeRecord) : (s.setNode i r).port = s.port := rfl
@[simp] theorem State.setNode_lineTime (s : State) (i : Fin 30) (r : NodeRecord) : (s.setNode i r).lineTime = s.lineTime := rfl
@[simp] theorem State.setNode_config (s : State) (i : Fin 30) (r : NodeRecord) : (s.setNode i r).config = s.config := rfl
@[simp] theorem State.setNode_bankA (s : State) (i : Fin 30) (r : NodeRecord) : (s.setNode i r).bankA = s.bankA := rfl
@[simp] theorem State.setNode_bankB (s : State) (i : Fin 30) (r : NodeRecord) : (s.setNode i r).bankB = s.bankB := rfl
@[simp] theorem State.setNode_activeBank (s : State) (i : Fin 30) (r : NodeRecord) : (s.setNode i r).activeBank = s.activeBank := rfl
@[simp] theorem State.setNode_figures (s : State) (i : Fin 30) (r : NodeRecord) : (s.setNode i r).figures = s.figures := rfl
@[simp] theorem State.setNode_sw (s : State) (i : Fin 30) (r : NodeRecord) : (s.setNode i r).sw = s.sw := rfl
@[simp] theorem State.setNode_sched (s : State) (i : Fin 30) (r : NodeRecord) : (s.setNode i r).sched = s.sched := rfl
@[simp] theorem State.setNode_cycle (s : State) (i : Fin 30) (r : NodeRecord) : (s.setNode i r).cycle = s.cycle := rfl
@[simp] theorem State.setNode_objects (s : State) (i : Fin 30) (r : NodeRecord) : (s.setNode i r).objects = s.objects := rfl
@[simp] theorem State.setNode_slot (s : State) (i : Fin 30) (r : NodeRecord) : (s.setNode i r).slot = s.slot := rfl
@[simp] theorem State.setNode_supersede (s : State) (i : Fin 30) (r : NodeRecord) : (s.setNode i r).supersede = s.supersede := rfl
@[simp] theorem State.setNode_engine (s : State) (i : Fin 30) (r : NodeRecord) : (s.setNode i r).engine = s.engine := rfl
@[simp] theorem State.setNode_nodes (s : State) (i : Fin 30) (r : NodeRecord) :
    (s.setNode i r).nodes = s.nodes.set i.val r i.isLt := rfl
@[simp] theorem State.setNode_queue (s : State) (i : Fin 30) (r : NodeRecord) : (s.setNode i r).queue = s.queue := rfl
@[simp] theorem State.setNode_lost (s : State) (i : Fin 30) (r : NodeRecord) : (s.setNode i r).lost = s.lost := rfl
@[simp] theorem State.setNode_flags (s : State) (i : Fin 30) (r : NodeRecord) : (s.setNode i r).flags = s.flags := rfl
@[simp] theorem State.setNode_enables (s : State) (i : Fin 30) (r : NodeRecord) : (s.setNode i r).enables = s.enables := rfl
@[simp] theorem State.setNode_pending (s : State) (i : Fin 30) (r : NodeRecord) : (s.setNode i r).pending = s.pending := rfl

/-! ### answer -/

@[simp] theorem State.answer_port (s : State) (code : BitVec 8) (r : ResultCode) :
    (s.answer code r).port = { s.port with result := r, answered := code } := rfl
@[simp] theorem State.answer_lineTime (s : State) (code : BitVec 8) (r : ResultCode) : (s.answer code r).lineTime = s.lineTime := rfl
@[simp] theorem State.answer_config (s : State) (code : BitVec 8) (r : ResultCode) : (s.answer code r).config = s.config := rfl
@[simp] theorem State.answer_bankA (s : State) (code : BitVec 8) (r : ResultCode) : (s.answer code r).bankA = s.bankA := rfl
@[simp] theorem State.answer_bankB (s : State) (code : BitVec 8) (r : ResultCode) : (s.answer code r).bankB = s.bankB := rfl
@[simp] theorem State.answer_activeBank (s : State) (code : BitVec 8) (r : ResultCode) : (s.answer code r).activeBank = s.activeBank := rfl
@[simp] theorem State.answer_figures (s : State) (code : BitVec 8) (r : ResultCode) : (s.answer code r).figures = s.figures := rfl
@[simp] theorem State.answer_sw (s : State) (code : BitVec 8) (r : ResultCode) : (s.answer code r).sw = s.sw := rfl
@[simp] theorem State.answer_sched (s : State) (code : BitVec 8) (r : ResultCode) : (s.answer code r).sched = s.sched := rfl
@[simp] theorem State.answer_cycle (s : State) (code : BitVec 8) (r : ResultCode) : (s.answer code r).cycle = s.cycle := rfl
@[simp] theorem State.answer_objects (s : State) (code : BitVec 8) (r : ResultCode) : (s.answer code r).objects = s.objects := rfl
@[simp] theorem State.answer_slot (s : State) (code : BitVec 8) (r : ResultCode) : (s.answer code r).slot = s.slot := rfl
@[simp] theorem State.answer_supersede (s : State) (code : BitVec 8) (r : ResultCode) : (s.answer code r).supersede = s.supersede := rfl
@[simp] theorem State.answer_engine (s : State) (code : BitVec 8) (r : ResultCode) : (s.answer code r).engine = s.engine := rfl
@[simp] theorem State.answer_nodes (s : State) (code : BitVec 8) (r : ResultCode) : (s.answer code r).nodes = s.nodes := rfl
@[simp] theorem State.answer_queue (s : State) (code : BitVec 8) (r : ResultCode) : (s.answer code r).queue = s.queue := rfl
@[simp] theorem State.answer_lost (s : State) (code : BitVec 8) (r : ResultCode) : (s.answer code r).lost = s.lost := rfl
@[simp] theorem State.answer_flags (s : State) (code : BitVec 8) (r : ResultCode) : (s.answer code r).flags = s.flags := rfl
@[simp] theorem State.answer_enables (s : State) (code : BitVec 8) (r : ResultCode) : (s.answer code r).enables = s.enables := rfl
@[simp] theorem State.answer_pending (s : State) (code : BitVec 8) (r : ResultCode) : (s.answer code r).pending = s.pending := rfl

/-! ### setFlight -/

@[simp] theorem State.setFlight_port (s : State) (fl : Flight) : (s.setFlight fl).port = s.port := rfl
@[simp] theorem State.setFlight_lineTime (s : State) (fl : Flight) : (s.setFlight fl).lineTime = s.lineTime := rfl
@[simp] theorem State.setFlight_config (s : State) (fl : Flight) : (s.setFlight fl).config = s.config := rfl
@[simp] theorem State.setFlight_bankA (s : State) (fl : Flight) : (s.setFlight fl).bankA = s.bankA := rfl
@[simp] theorem State.setFlight_bankB (s : State) (fl : Flight) : (s.setFlight fl).bankB = s.bankB := rfl
@[simp] theorem State.setFlight_activeBank (s : State) (fl : Flight) : (s.setFlight fl).activeBank = s.activeBank := rfl
@[simp] theorem State.setFlight_figures (s : State) (fl : Flight) : (s.setFlight fl).figures = s.figures := rfl
@[simp] theorem State.setFlight_sw (s : State) (fl : Flight) : (s.setFlight fl).sw = s.sw := rfl
@[simp] theorem State.setFlight_sched (s : State) (fl : Flight) : (s.setFlight fl).sched = s.sched := rfl
@[simp] theorem State.setFlight_cycle (s : State) (fl : Flight) : (s.setFlight fl).cycle = s.cycle := rfl
@[simp] theorem State.setFlight_objects (s : State) (fl : Flight) : (s.setFlight fl).objects = s.objects := rfl
@[simp] theorem State.setFlight_slot (s : State) (fl : Flight) : (s.setFlight fl).slot = s.slot := rfl
@[simp] theorem State.setFlight_supersede (s : State) (fl : Flight) : (s.setFlight fl).supersede = s.supersede := rfl
@[simp] theorem State.setFlight_engine (s : State) (fl : Flight) :
    (s.setFlight fl).engine = { s.engine with flight := some fl } := rfl
@[simp] theorem State.setFlight_nodes (s : State) (fl : Flight) : (s.setFlight fl).nodes = s.nodes := rfl
@[simp] theorem State.setFlight_queue (s : State) (fl : Flight) : (s.setFlight fl).queue = s.queue := rfl
@[simp] theorem State.setFlight_lost (s : State) (fl : Flight) : (s.setFlight fl).lost = s.lost := rfl
@[simp] theorem State.setFlight_flags (s : State) (fl : Flight) : (s.setFlight fl).flags = s.flags := rfl
@[simp] theorem State.setFlight_enables (s : State) (fl : Flight) : (s.setFlight fl).enables = s.enables := rfl
@[simp] theorem State.setFlight_pending (s : State) (fl : Flight) : (s.setFlight fl).pending = s.pending := rfl

/-! ### enterIdle -/

@[simp] theorem State.enterIdle_port (s : State)  : (s.enterIdle).port = s.port := rfl
@[simp] theorem State.enterIdle_lineTime (s : State)  : (s.enterIdle).lineTime = s.lineTime := rfl
@[simp] theorem State.enterIdle_config (s : State)  : (s.enterIdle).config = s.config := rfl
@[simp] theorem State.enterIdle_bankA (s : State)  : (s.enterIdle).bankA = s.bankA := rfl
@[simp] theorem State.enterIdle_bankB (s : State)  : (s.enterIdle).bankB = s.bankB := rfl
@[simp] theorem State.enterIdle_activeBank (s : State)  : (s.enterIdle).activeBank = s.activeBank := rfl
@[simp] theorem State.enterIdle_figures (s : State)  : (s.enterIdle).figures = s.figures := rfl
@[simp] theorem State.enterIdle_sw (s : State)  : (s.enterIdle).sw = s.sw := rfl
@[simp] theorem State.enterIdle_sched (s : State)  : (s.enterIdle).sched = s.sched := rfl
@[simp] theorem State.enterIdle_cycle (s : State)  : (s.enterIdle).cycle = s.cycle := rfl
@[simp] theorem State.enterIdle_objects (s : State)  : (s.enterIdle).objects = s.objects := rfl
@[simp] theorem State.enterIdle_slot (s : State)  : (s.enterIdle).slot = s.slot := rfl
@[simp] theorem State.enterIdle_supersede (s : State)  : (s.enterIdle).supersede = s.supersede := rfl
@[simp] theorem State.enterIdle_engine (s : State)  :
    (s.enterIdle).engine = { s.engine with flight := none, gapEndedNow := true } := rfl
@[simp] theorem State.enterIdle_nodes (s : State)  : (s.enterIdle).nodes = s.nodes := rfl
@[simp] theorem State.enterIdle_queue (s : State)  : (s.enterIdle).queue = s.queue := rfl
@[simp] theorem State.enterIdle_lost (s : State)  : (s.enterIdle).lost = s.lost := rfl
@[simp] theorem State.enterIdle_flags (s : State)  : (s.enterIdle).flags = s.flags := rfl
@[simp] theorem State.enterIdle_enables (s : State)  : (s.enterIdle).enables = s.enables := rfl
@[simp] theorem State.enterIdle_pending (s : State)  : (s.enterIdle).pending = s.pending := rfl

/-! ### goOff -/

@[simp] theorem State.goOff_port (s : State)  : (s.goOff).port = s.port := rfl
@[simp] theorem State.goOff_lineTime (s : State)  : (s.goOff).lineTime = s.lineTime := rfl
@[simp] theorem State.goOff_config (s : State)  : (s.goOff).config = s.config := rfl
@[simp] theorem State.goOff_bankA (s : State)  : (s.goOff).bankA = s.bankA := rfl
@[simp] theorem State.goOff_bankB (s : State)  : (s.goOff).bankB = s.bankB := rfl
@[simp] theorem State.goOff_activeBank (s : State)  :
    (s.goOff).activeBank = none := rfl
@[simp] theorem State.goOff_figures (s : State)  :
    (s.goOff).figures = none := rfl
@[simp] theorem State.goOff_sw (s : State)  : (s.goOff).sw = s.sw := rfl
@[simp] theorem State.goOff_sched (s : State)  :
    (s.goOff).sched = .off := rfl
@[simp] theorem State.goOff_cycle (s : State)  :
    (s.goOff).cycle = { s.cycle with window := none, syncOwed := false } := rfl
@[simp] theorem State.goOff_objects (s : State)  : (s.goOff).objects = s.objects := rfl
@[simp] theorem State.goOff_slot (s : State)  : (s.goOff).slot = s.slot := rfl
@[simp] theorem State.goOff_supersede (s : State)  : (s.goOff).supersede = s.supersede := rfl
@[simp] theorem State.goOff_engine (s : State)  : (s.goOff).engine = s.engine := rfl
@[simp] theorem State.goOff_nodes (s : State)  : (s.goOff).nodes = s.nodes := rfl
@[simp] theorem State.goOff_queue (s : State)  : (s.goOff).queue = s.queue := rfl
@[simp] theorem State.goOff_lost (s : State)  : (s.goOff).lost = s.lost := rfl
@[simp] theorem State.goOff_flags (s : State)  : (s.goOff).flags = s.flags := rfl
@[simp] theorem State.goOff_enables (s : State)  : (s.goOff).enables = s.enables := rfl
@[simp] theorem State.goOff_pending (s : State)  : (s.goOff).pending = s.pending := rfl

/-! ### takeRoles -/

@[simp] theorem State.takeRoles_port (s : State) (b : BankId) : (s.takeRoles b).port = s.port := rfl
@[simp] theorem State.takeRoles_lineTime (s : State) (b : BankId) : (s.takeRoles b).lineTime = s.lineTime := rfl
@[simp] theorem State.takeRoles_config (s : State) (b : BankId) : (s.takeRoles b).config = s.config := rfl
@[simp] theorem State.takeRoles_bankA (s : State) (b : BankId) : (s.takeRoles b).bankA = s.bankA := rfl
@[simp] theorem State.takeRoles_bankB (s : State) (b : BankId) : (s.takeRoles b).bankB = s.bankB := rfl
@[simp] theorem State.takeRoles_activeBank (s : State) (b : BankId) :
    (s.takeRoles b).activeBank = some b := rfl
@[simp] theorem State.takeRoles_figures (s : State) (b : BankId) :
    (s.takeRoles b).figures = some ((s.bank b).figures s.config.bitRate) := rfl
@[simp] theorem State.takeRoles_sw (s : State) (b : BankId) : (s.takeRoles b).sw = s.sw := rfl
@[simp] theorem State.takeRoles_sched (s : State) (b : BankId) :
    (s.takeRoles b).sched = if s.sched = .armed then .running else s.sched := rfl
@[simp] theorem State.takeRoles_cycle (s : State) (b : BankId) : (s.takeRoles b).cycle = s.cycle := rfl
@[simp] theorem State.takeRoles_objects (s : State) (b : BankId) : (s.takeRoles b).objects = s.objects := rfl
@[simp] theorem State.takeRoles_slot (s : State) (b : BankId) : (s.takeRoles b).slot = s.slot := rfl
@[simp] theorem State.takeRoles_supersede (s : State) (b : BankId) : (s.takeRoles b).supersede = s.supersede := rfl
@[simp] theorem State.takeRoles_engine (s : State) (b : BankId) : (s.takeRoles b).engine = s.engine := rfl
@[simp] theorem State.takeRoles_nodes (s : State) (b : BankId) : (s.takeRoles b).nodes = s.nodes := rfl
@[simp] theorem State.takeRoles_queue (s : State) (b : BankId) : (s.takeRoles b).queue = s.queue := rfl
@[simp] theorem State.takeRoles_lost (s : State) (b : BankId) : (s.takeRoles b).lost = s.lost := rfl
@[simp] theorem State.takeRoles_flags (s : State) (b : BankId) : (s.takeRoles b).flags = s.flags := rfl
@[simp] theorem State.takeRoles_enables (s : State) (b : BankId) : (s.takeRoles b).enables = s.enables := rfl
@[simp] theorem State.takeRoles_pending (s : State) (b : BankId) : (s.takeRoles b).pending = s.pending := rfl

/-! ### recordSwitch -/

@[simp] theorem State.recordSwitch_port (s : State)  : (s.recordSwitch).port = s.port := rfl
@[simp] theorem State.recordSwitch_lineTime (s : State)  : (s.recordSwitch).lineTime = s.lineTime := rfl
@[simp] theorem State.recordSwitch_config (s : State)  : (s.recordSwitch).config = s.config := rfl
@[simp] theorem State.recordSwitch_bankA (s : State)  : (s.recordSwitch).bankA = s.bankA := rfl
@[simp] theorem State.recordSwitch_bankB (s : State)  : (s.recordSwitch).bankB = s.bankB := rfl
@[simp] theorem State.recordSwitch_activeBank (s : State)  : (s.recordSwitch).activeBank = s.activeBank := rfl
@[simp] theorem State.recordSwitch_figures (s : State)  : (s.recordSwitch).figures = s.figures := rfl
@[simp] theorem State.recordSwitch_sw (s : State)  :
    (s.recordSwitch).sw = { s.sw with
      pending := false, lastResult := .done, cause := .noCause, switchCount := s.sw.switchCount + 1 } := rfl
@[simp] theorem State.recordSwitch_sched (s : State)  : (s.recordSwitch).sched = s.sched := rfl
@[simp] theorem State.recordSwitch_cycle (s : State)  : (s.recordSwitch).cycle = s.cycle := rfl
@[simp] theorem State.recordSwitch_objects (s : State)  : (s.recordSwitch).objects = s.objects := rfl
@[simp] theorem State.recordSwitch_slot (s : State)  : (s.recordSwitch).slot = s.slot := rfl
@[simp] theorem State.recordSwitch_supersede (s : State)  : (s.recordSwitch).supersede = s.supersede := rfl
@[simp] theorem State.recordSwitch_engine (s : State)  : (s.recordSwitch).engine = s.engine := rfl
@[simp] theorem State.recordSwitch_nodes (s : State)  : (s.recordSwitch).nodes = s.nodes := rfl
@[simp] theorem State.recordSwitch_queue (s : State)  : (s.recordSwitch).queue = s.queue := rfl
@[simp] theorem State.recordSwitch_lost (s : State)  : (s.recordSwitch).lost = s.lost := rfl
@[simp] theorem State.recordSwitch_flags (s : State)  :
    (s.recordSwitch).flags = { s.flags with switchDone := true } := rfl
@[simp] theorem State.recordSwitch_enables (s : State)  : (s.recordSwitch).enables = s.enables := rfl
@[simp] theorem State.recordSwitch_pending (s : State)  : (s.recordSwitch).pending = s.pending := rfl

/-! ### disarm -/

@[simp] theorem State.disarm_port (s : State)  : (s.disarm).port = s.port := rfl
@[simp] theorem State.disarm_lineTime (s : State)  : (s.disarm).lineTime = s.lineTime := rfl
@[simp] theorem State.disarm_config (s : State)  : (s.disarm).config = s.config := rfl
@[simp] theorem State.disarm_bankA (s : State)  : (s.disarm).bankA = s.bankA := rfl
@[simp] theorem State.disarm_bankB (s : State)  : (s.disarm).bankB = s.bankB := rfl
@[simp] theorem State.disarm_activeBank (s : State)  : (s.disarm).activeBank = s.activeBank := rfl
@[simp] theorem State.disarm_figures (s : State)  : (s.disarm).figures = s.figures := rfl
@[simp] theorem State.disarm_sw (s : State)  : (s.disarm).sw = s.sw := rfl
@[simp] theorem State.disarm_sched (s : State)  :
    (s.disarm).sched = if s.sched = .armed then .off else s.sched := rfl
@[simp] theorem State.disarm_cycle (s : State)  : (s.disarm).cycle = s.cycle := rfl
@[simp] theorem State.disarm_objects (s : State)  : (s.disarm).objects = s.objects := rfl
@[simp] theorem State.disarm_slot (s : State)  : (s.disarm).slot = s.slot := rfl
@[simp] theorem State.disarm_supersede (s : State)  : (s.disarm).supersede = s.supersede := rfl
@[simp] theorem State.disarm_engine (s : State)  : (s.disarm).engine = s.engine := rfl
@[simp] theorem State.disarm_nodes (s : State)  : (s.disarm).nodes = s.nodes := rfl
@[simp] theorem State.disarm_queue (s : State)  : (s.disarm).queue = s.queue := rfl
@[simp] theorem State.disarm_lost (s : State)  : (s.disarm).lost = s.lost := rfl
@[simp] theorem State.disarm_flags (s : State)  : (s.disarm).flags = s.flags := rfl
@[simp] theorem State.disarm_enables (s : State)  : (s.disarm).enables = s.enables := rfl
@[simp] theorem State.disarm_pending (s : State)  : (s.disarm).pending = s.pending := rfl

/-! ### beginCycle -/

@[simp] theorem State.beginCycle_port (s : State) (b : BankId) (number : BitVec 32) : (s.beginCycle b number).port = s.port := rfl
@[simp] theorem State.beginCycle_lineTime (s : State) (b : BankId) (number : BitVec 32) : (s.beginCycle b number).lineTime = s.lineTime := rfl
@[simp] theorem State.beginCycle_config (s : State) (b : BankId) (number : BitVec 32) : (s.beginCycle b number).config = s.config := rfl
@[simp] theorem State.beginCycle_bankA (s : State) (b : BankId) (number : BitVec 32) : (s.beginCycle b number).bankA = s.bankA := rfl
@[simp] theorem State.beginCycle_bankB (s : State) (b : BankId) (number : BitVec 32) : (s.beginCycle b number).bankB = s.bankB := rfl
@[simp] theorem State.beginCycle_activeBank (s : State) (b : BankId) (number : BitVec 32) : (s.beginCycle b number).activeBank = s.activeBank := rfl
@[simp] theorem State.beginCycle_figures (s : State) (b : BankId) (number : BitVec 32) : (s.beginCycle b number).figures = s.figures := rfl
@[simp] theorem State.beginCycle_sw (s : State) (b : BankId) (number : BitVec 32) : (s.beginCycle b number).sw = s.sw := rfl
@[simp] theorem State.beginCycle_sched (s : State) (b : BankId) (number : BitVec 32) : (s.beginCycle b number).sched = s.sched := rfl
@[simp] theorem State.beginCycle_objects (s : State) (b : BankId) (number : BitVec 32) : (s.beginCycle b number).objects = s.objects := rfl
@[simp] theorem State.beginCycle_slot (s : State) (b : BankId) (number : BitVec 32) : (s.beginCycle b number).slot = s.slot := rfl
@[simp] theorem State.beginCycle_supersede (s : State) (b : BankId) (number : BitVec 32) : (s.beginCycle b number).supersede = s.supersede := rfl
@[simp] theorem State.beginCycle_nodes (s : State) (b : BankId) (number : BitVec 32) : (s.beginCycle b number).nodes = s.nodes := rfl
@[simp] theorem State.beginCycle_queue (s : State) (b : BankId) (number : BitVec 32) : (s.beginCycle b number).queue = s.queue := rfl
@[simp] theorem State.beginCycle_lost (s : State) (b : BankId) (number : BitVec 32) : (s.beginCycle b number).lost = s.lost := rfl
@[simp] theorem State.beginCycle_flags (s : State) (b : BankId) (number : BitVec 32) :
    (s.beginCycle b number).flags = { s.flags with cycleStart := true } := rfl
@[simp] theorem State.beginCycle_enables (s : State) (b : BankId) (number : BitVec 32) : (s.beginCycle b number).enables = s.enables := rfl
@[simp] theorem State.beginCycle_pending (s : State) (b : BankId) (number : BitVec 32) : (s.beginCycle b number).pending = s.pending := rfl

/-! ### startSync -/

@[simp] theorem State.startSync_port (s : State)  : (s.startSync).port = s.port := rfl
@[simp] theorem State.startSync_lineTime (s : State)  : (s.startSync).lineTime = s.lineTime := rfl
@[simp] theorem State.startSync_config (s : State)  : (s.startSync).config = s.config := rfl
@[simp] theorem State.startSync_bankA (s : State)  : (s.startSync).bankA = s.bankA := rfl
@[simp] theorem State.startSync_bankB (s : State)  : (s.startSync).bankB = s.bankB := rfl
@[simp] theorem State.startSync_activeBank (s : State)  : (s.startSync).activeBank = s.activeBank := rfl
@[simp] theorem State.startSync_figures (s : State)  : (s.startSync).figures = s.figures := rfl
@[simp] theorem State.startSync_sw (s : State)  : (s.startSync).sw = s.sw := rfl
@[simp] theorem State.startSync_sched (s : State)  : (s.startSync).sched = s.sched := rfl
@[simp] theorem State.startSync_cycle (s : State)  :
    (s.startSync).cycle = { s.cycle with syncOwed := false } := rfl
@[simp] theorem State.startSync_objects (s : State)  : (s.startSync).objects = s.objects := rfl
@[simp] theorem State.startSync_slot (s : State)  : (s.startSync).slot = s.slot := rfl
@[simp] theorem State.startSync_supersede (s : State)  : (s.startSync).supersede = s.supersede := rfl
@[simp] theorem State.startSync_nodes (s : State)  : (s.startSync).nodes = s.nodes := rfl
@[simp] theorem State.startSync_queue (s : State)  : (s.startSync).queue = s.queue := rfl
@[simp] theorem State.startSync_lost (s : State)  : (s.startSync).lost = s.lost := rfl
@[simp] theorem State.startSync_flags (s : State)  : (s.startSync).flags = s.flags := rfl
@[simp] theorem State.startSync_enables (s : State)  : (s.startSync).enables = s.enables := rfl
@[simp] theorem State.startSync_pending (s : State)  : (s.startSync).pending = s.pending := rfl

/-! ### deny -/

@[simp] theorem State.deny_lineTime (s : State) (offset : BitVec 7) (cause : DenyCause) : (s.deny offset cause).lineTime = s.lineTime := rfl
@[simp] theorem State.deny_config (s : State) (offset : BitVec 7) (cause : DenyCause) : (s.deny offset cause).config = s.config := rfl
@[simp] theorem State.deny_bankA (s : State) (offset : BitVec 7) (cause : DenyCause) : (s.deny offset cause).bankA = s.bankA := rfl
@[simp] theorem State.deny_bankB (s : State) (offset : BitVec 7) (cause : DenyCause) : (s.deny offset cause).bankB = s.bankB := rfl
@[simp] theorem State.deny_activeBank (s : State) (offset : BitVec 7) (cause : DenyCause) : (s.deny offset cause).activeBank = s.activeBank := rfl
@[simp] theorem State.deny_figures (s : State) (offset : BitVec 7) (cause : DenyCause) : (s.deny offset cause).figures = s.figures := rfl
@[simp] theorem State.deny_sw (s : State) (offset : BitVec 7) (cause : DenyCause) : (s.deny offset cause).sw = s.sw := rfl
@[simp] theorem State.deny_sched (s : State) (offset : BitVec 7) (cause : DenyCause) : (s.deny offset cause).sched = s.sched := rfl
@[simp] theorem State.deny_cycle (s : State) (offset : BitVec 7) (cause : DenyCause) : (s.deny offset cause).cycle = s.cycle := rfl
@[simp] theorem State.deny_objects (s : State) (offset : BitVec 7) (cause : DenyCause) : (s.deny offset cause).objects = s.objects := rfl
@[simp] theorem State.deny_slot (s : State) (offset : BitVec 7) (cause : DenyCause) : (s.deny offset cause).slot = s.slot := rfl
@[simp] theorem State.deny_supersede (s : State) (offset : BitVec 7) (cause : DenyCause) : (s.deny offset cause).supersede = s.supersede := rfl
@[simp] theorem State.deny_engine (s : State) (offset : BitVec 7) (cause : DenyCause) : (s.deny offset cause).engine = s.engine := rfl
@[simp] theorem State.deny_nodes (s : State) (offset : BitVec 7) (cause : DenyCause) : (s.deny offset cause).nodes = s.nodes := rfl
@[simp] theorem State.deny_queue (s : State) (offset : BitVec 7) (cause : DenyCause) : (s.deny offset cause).queue = s.queue := rfl
@[simp] theorem State.deny_lost (s : State) (offset : BitVec 7) (cause : DenyCause) : (s.deny offset cause).lost = s.lost := rfl
@[simp] theorem State.deny_flags (s : State) (offset : BitVec 7) (cause : DenyCause) :
    (s.deny offset cause).flags = { s.flags with accessDenied := true } := rfl
@[simp] theorem State.deny_enables (s : State) (offset : BitVec 7) (cause : DenyCause) : (s.deny offset cause).enables = s.enables := rfl
@[simp] theorem State.deny_pending (s : State) (offset : BitVec 7) (cause : DenyCause) : (s.deny offset cause).pending = s.pending := rfl

/-! ### endPending -/

@[simp] theorem State.endPending_port (s : State) (r : SwitchResult) : (s.endPending r).port = s.port := by
  unfold State.endPending; split <;> rfl
@[simp] theorem State.endPending_lineTime (s : State) (r : SwitchResult) : (s.endPending r).lineTime = s.lineTime := by
  unfold State.endPending; split <;> rfl
@[simp] theorem State.endPending_config (s : State) (r : SwitchResult) : (s.endPending r).config = s.config := by
  unfold State.endPending; split <;> rfl
@[simp] theorem State.endPending_bankA (s : State) (r : SwitchResult) : (s.endPending r).bankA = s.bankA := by
  unfold State.endPending; split <;> rfl
@[simp] theorem State.endPending_bankB (s : State) (r : SwitchResult) : (s.endPending r).bankB = s.bankB := by
  unfold State.endPending; split <;> rfl
@[simp] theorem State.endPending_activeBank (s : State) (r : SwitchResult) : (s.endPending r).activeBank = s.activeBank := by
  unfold State.endPending; split <;> rfl
@[simp] theorem State.endPending_figures (s : State) (r : SwitchResult) : (s.endPending r).figures = s.figures := by
  unfold State.endPending; split <;> rfl
@[simp] theorem State.endPending_sched (s : State) (r : SwitchResult) : (s.endPending r).sched = s.sched := by
  unfold State.endPending; split <;> rfl
@[simp] theorem State.endPending_cycle (s : State) (r : SwitchResult) : (s.endPending r).cycle = s.cycle := by
  unfold State.endPending; split <;> rfl
@[simp] theorem State.endPending_objects (s : State) (r : SwitchResult) : (s.endPending r).objects = s.objects := by
  unfold State.endPending; split <;> rfl
@[simp] theorem State.endPending_slot (s : State) (r : SwitchResult) : (s.endPending r).slot = s.slot := by
  unfold State.endPending; split <;> rfl
@[simp] theorem State.endPending_supersede (s : State) (r : SwitchResult) : (s.endPending r).supersede = s.supersede := by
  unfold State.endPending; split <;> rfl
@[simp] theorem State.endPending_engine (s : State) (r : SwitchResult) : (s.endPending r).engine = s.engine := by
  unfold State.endPending; split <;> rfl
@[simp] theorem State.endPending_nodes (s : State) (r : SwitchResult) : (s.endPending r).nodes = s.nodes := by
  unfold State.endPending; split <;> rfl
@[simp] theorem State.endPending_queue (s : State) (r : SwitchResult) : (s.endPending r).queue = s.queue := by
  unfold State.endPending; split <;> rfl
@[simp] theorem State.endPending_lost (s : State) (r : SwitchResult) : (s.endPending r).lost = s.lost := by
  unfold State.endPending; split <;> rfl
@[simp] theorem State.endPending_flags (s : State) (r : SwitchResult) : (s.endPending r).flags = s.flags := by
  unfold State.endPending; split <;> rfl
@[simp] theorem State.endPending_enables (s : State) (r : SwitchResult) : (s.endPending r).enables = s.enables := by
  unfold State.endPending; split <;> rfl
@[simp] theorem State.endPending_pending (s : State) (r : SwitchResult) : (s.endPending r).pending = s.pending := by
  unfold State.endPending; split <;> rfl

/-- A pending switch has ended; with none pending the record is as it was (R68, R70). -/
theorem State.endPending_sw (s : State) (r : SwitchResult) :
    (s.endPending r).sw =
      if s.sw.pending then { s.sw with pending := false, lastResult := r, cause := .noCause } else s.sw := by
  unfold State.endPending; split <;> rfl

@[simp] theorem State.endPending_sw_pending (s : State) (r : SwitchResult) : (s.endPending r).sw.pending = false := by
  rw [State.endPending_sw]; split
  · rfl
  · exact Bool.eq_false_iff.mpr ‹_›

/-! ### Banks -/

@[simp] theorem State.bank_setBank_self (s : State) (b : BankId) (bk : Bank) : (s.setBank b bk).bank b = bk := by
  cases b <;> rfl

theorem State.bank_setBank_ne (s : State) {b c : BankId} (bk : Bank) (h : c ≠ b) : (s.setBank b bk).bank c = s.bank c := by
  cases b <;> cases c <;> first | rfl | exact absurd rfl h

@[simp] theorem State.setBank_port (s : State) (b : BankId) (bk : Bank) : (s.setBank b bk).port = s.port := by
  cases b <;> rfl
@[simp] theorem State.setBank_lineTime (s : State) (b : BankId) (bk : Bank) : (s.setBank b bk).lineTime = s.lineTime := by
  cases b <;> rfl
@[simp] theorem State.setBank_config (s : State) (b : BankId) (bk : Bank) : (s.setBank b bk).config = s.config := by
  cases b <;> rfl
@[simp] theorem State.setBank_activeBank (s : State) (b : BankId) (bk : Bank) : (s.setBank b bk).activeBank = s.activeBank := by
  cases b <;> rfl
@[simp] theorem State.setBank_figures (s : State) (b : BankId) (bk : Bank) : (s.setBank b bk).figures = s.figures := by
  cases b <;> rfl
@[simp] theorem State.setBank_sw (s : State) (b : BankId) (bk : Bank) : (s.setBank b bk).sw = s.sw := by
  cases b <;> rfl
@[simp] theorem State.setBank_sched (s : State) (b : BankId) (bk : Bank) : (s.setBank b bk).sched = s.sched := by
  cases b <;> rfl
@[simp] theorem State.setBank_cycle (s : State) (b : BankId) (bk : Bank) : (s.setBank b bk).cycle = s.cycle := by
  cases b <;> rfl
@[simp] theorem State.setBank_objects (s : State) (b : BankId) (bk : Bank) : (s.setBank b bk).objects = s.objects := by
  cases b <;> rfl
@[simp] theorem State.setBank_slot (s : State) (b : BankId) (bk : Bank) : (s.setBank b bk).slot = s.slot := by
  cases b <;> rfl
@[simp] theorem State.setBank_supersede (s : State) (b : BankId) (bk : Bank) : (s.setBank b bk).supersede = s.supersede := by
  cases b <;> rfl
@[simp] theorem State.setBank_engine (s : State) (b : BankId) (bk : Bank) : (s.setBank b bk).engine = s.engine := by
  cases b <;> rfl
@[simp] theorem State.setBank_nodes (s : State) (b : BankId) (bk : Bank) : (s.setBank b bk).nodes = s.nodes := by
  cases b <;> rfl
@[simp] theorem State.setBank_queue (s : State) (b : BankId) (bk : Bank) : (s.setBank b bk).queue = s.queue := by
  cases b <;> rfl
@[simp] theorem State.setBank_lost (s : State) (b : BankId) (bk : Bank) : (s.setBank b bk).lost = s.lost := by
  cases b <;> rfl
@[simp] theorem State.setBank_flags (s : State) (b : BankId) (bk : Bank) : (s.setBank b bk).flags = s.flags := by
  cases b <;> rfl
@[simp] theorem State.setBank_enables (s : State) (b : BankId) (bk : Bank) : (s.setBank b bk).enables = s.enables := by
  cases b <;> rfl
@[simp] theorem State.setBank_pending (s : State) (b : BankId) (bk : Bank) : (s.setBank b bk).pending = s.pending := by
  cases b <;> rfl

/-! ### Extensionality -/

/-- States that agree in every field are equal. -/
theorem State.eq_of_fields {s t : State} (h_port : s.port = t.port)
    (h_lineTime : s.lineTime = t.lineTime)
    (h_config : s.config = t.config)
    (h_bankA : s.bankA = t.bankA)
    (h_bankB : s.bankB = t.bankB)
    (h_activeBank : s.activeBank = t.activeBank)
    (h_figures : s.figures = t.figures)
    (h_sw : s.sw = t.sw)
    (h_sched : s.sched = t.sched)
    (h_cycle : s.cycle = t.cycle)
    (h_objects : s.objects = t.objects)
    (h_slot : s.slot = t.slot)
    (h_supersede : s.supersede = t.supersede)
    (h_engine : s.engine = t.engine)
    (h_nodes : s.nodes = t.nodes)
    (h_queue : s.queue = t.queue)
    (h_lost : s.lost = t.lost)
    (h_flags : s.flags = t.flags)
    (h_enables : s.enables = t.enables)
    (h_pending : s.pending = t.pending) : s = t := by
  cases s; cases t
  simp only at *
  subst_vars
  rfl

/-! ### Objects and node records -/

@[simp] theorem State.object_setObject_self (s : State) (n : Fin 32) (o : MsgObject) : (s.setObject n o).object n = o := by
  simp [State.object]

theorem State.object_setObject_ne (s : State) {m n : Fin 32} (o : MsgObject) (h : m ≠ n) :
    (s.setObject n o).object m = s.object m := by
  have : n.val ≠ m.val := fun e => h (Fin.ext e.symm)
  simp [State.object, this]

theorem State.object_setObject (s : State) (m n : Fin 32) (o : MsgObject) :
    (s.setObject n o).object m = if m = n then o else s.object m := by
  split
  · subst m; simp
  · exact s.object_setObject_ne o ‹_›

@[simp] theorem State.nodeRecord_setNode_self (s : State) (i : Fin 30) (r : NodeRecord) :
    (s.setNode i r).nodeRecord i = r := by
  simp [State.nodeRecord]

theorem State.nodeRecord_setNode (s : State) (i j : Fin 30) (r : NodeRecord) :
    (s.setNode i r).nodeRecord j = if j = i then r else s.nodeRecord j := by
  split
  · subst j; simp
  · have : i.val ≠ j.val := fun e => ‹¬j = i› (Fin.ext e.symm)
    simp [State.nodeRecord, this]

/-- Two states with the same object table have the same objects. -/
theorem State.object_congr {s t : State} (h : t.objects = s.objects) (n : Fin 32) : t.object n = s.object n := by
  simp [State.object, h]

/-- Two states with the same node table have the same node records. -/
theorem State.nodeRecord_congr {s t : State} (h : t.nodes = s.nodes) (i : Fin 30) : t.nodeRecord i = s.nodeRecord i := by
  simp [State.nodeRecord, h]

/-- Object tables that agree at every number are equal. -/
theorem State.objects_ext {s t : State} (h : ∀ n, t.object n = s.object n) : t.objects = s.objects := by
  apply Vector.ext
  intro i hi
  exact h ⟨i, hi⟩

/-- Node tables that agree at every index are equal. -/
theorem State.nodes_ext {s t : State} (h : ∀ i, t.nodeRecord i = s.nodeRecord i) : t.nodes = s.nodes := by
  apply Vector.ext
  intro i hi
  exact h ⟨i, hi⟩

/-! ### Node addresses -/

/-- An address has the record one below it, and only addresses 1 to 30 have one (R143). -/
theorem nodeIndex_eq_some {a : BitVec 5} {i : Fin 30} : nodeIndex a = some i ↔ i.val + 1 = a.toNat := by
  unfold nodeIndex
  split
  · rename_i h
    constructor
    · intro e; injection e with e; subst e; simp; omega
    · intro e; congr 1; apply Fin.ext; simp; omega
  · rename_i h
    constructor
    · intro e; cases e
    · intro e; exact absurd ⟨by omega, by have := i.isLt; omega⟩ h

/-- Only a SILENT node's own record makes its address silent (R94, R118). -/
theorem State.isSilent_iff (s : State) (a : BitVec 5) :
    s.isSilent a = true ↔ ∃ i : Fin 30, i.val + 1 = a.toNat ∧ (s.nodeRecord i).state = .silent := by
  unfold State.isSilent
  split
  · rename_i h
    constructor
    · intro e; cases e
    · rintro ⟨i, hi, -⟩; rw [nodeIndex_eq_some.mpr hi] at h; cases h
  · rename_i i h
    constructor
    · intro e; exact ⟨i, nodeIndex_eq_some.mp h, by simpa using e⟩
    · rintro ⟨j, hj, e⟩
      rw [nodeIndex_eq_some.mpr hj] at h
      injection h with h; subst h; simpa using e

theorem State.isSilent_congr {s t : State} (a : BitVec 5)
    (h : ∀ i, (t.nodeRecord i).state = .silent ↔ (s.nodeRecord i).state = .silent) : t.isSilent a = s.isSilent a := by
  rw [Bool.eq_iff_iff, State.isSilent_iff, State.isSilent_iff]
  simp [h]

end Sys2Proof.Machine
end

