-- ==== Sys2Proof/Laws/Finishing.lean ====
section
/-! SUPPORT. What finishing and taking a request leave (R94, R107 to R109): the model's operations are the field by field
descriptions of Safety.lean, and what they reach. -/

namespace Sys2Proof.Machine

/-- The exchange of an object goes to a node exactly for a COMMAND whose Node is not 31 (R90). -/
theorem ObjConfig.exchangeKind_command (c : ObjConfig) :
    c.exchangeKind = .command ↔ c.kind = .command ∧ c.node ≠ 31 := by
  unfold ObjConfig.exchangeKind
  cases c.kind <;> simp

/-- A broadcast is a COMMAND whose Node is 31 (R90). -/
theorem ObjConfig.exchangeKind_broadcast (c : ObjConfig) :
    c.exchangeKind = .broadcast ↔ c.kind = .command ∧ c.node = 31 := by
  unfold ObjConfig.exchangeKind
  cases c.kind <;> simp

/-- A POLL exchange is a POLL object's (R90). -/
theorem ObjConfig.exchangeKind_poll (c : ObjConfig) : c.exchangeKind = .poll ↔ c.kind = .poll := by
  unfold ObjConfig.exchangeKind
  cases c.kind <;> simp
  split <;> simp

/-- What a push leaves in the queue, the lost count and QUEUE_LOST; nothing else moves (R153). -/
theorem State.pushCompletion_eq (s : State) (r : Completion) :
    s.pushCompletion r = { s with
      queue := if s.queue.length < 32 then s.queue ++ [r] else s.queue
      lost := if s.queue.length < 32 then s.lost else if s.lost = 255 then 255 else s.lost + 1
      flags := { s.flags with queueLost := s.flags.queueLost || decide (32 ≤ s.queue.length) } } := by
  unfold State.pushCompletion
  have hc : Config.queueCapacity = 32 := rfl
  rw [hc]
  by_cases h : s.queue.length < 32
  · have h2 : ¬ 32 ≤ s.queue.length := by omega
    simp [h, h2]
  · have h2 : 32 ≤ s.queue.length := by omega
    have h3 : satInc s.lost = if s.lost = 255 then 255 else s.lost + 1 := by
      unfold satInc; split <;> simp_all
    simp [h, h2, h3]

theorem State.setObject_setObject (s : State) (n : Fin 32) (o p : MsgObject) :
    (s.setObject n o).setObject n p = s.setObject n p := by
  simp [State.setObject]

theorem State.ofFn_nodeRecord (s : State) : Vector.ofFn (fun i : Fin 30 => s.nodeRecord i) = s.nodes := by
  apply Vector.ext
  intro i hi
  simp [State.nodeRecord]

/-- Changing the record of an address, record by record (R138, R144). -/
theorem State.modifyNode_eq (s : State) (a : BitVec 5) (f : NodeRecord → NodeRecord) :
    s.modifyNode a f = { s with
      nodes := Vector.ofFn (fun i : Fin 30 => if i.val + 1 = a.toNat then f (s.nodeRecord i) else s.nodeRecord i) } := by
  unfold State.modifyNode
  split
  · rename_i h
    have : ∀ i : Fin 30, i.val + 1 ≠ a.toNat := fun i e => by rw [nodeIndex_eq_some.mpr e] at h; cases h
    simp [this, State.ofFn_nodeRecord]
  · rename_i i h
    have hi := nodeIndex_eq_some.mp h
    have : s.nodes.set i.val (f (s.nodeRecord i)) i.isLt =
        Vector.ofFn (fun i : Fin 30 => if i.val + 1 = a.toNat then f (s.nodeRecord i) else s.nodeRecord i) := by
      apply Vector.ext
      intro j hj
      by_cases e : i.val = j
      · subst e; simp [hi, State.nodeRecord]
      · have : j + 1 ≠ a.toNat := by omega
        simp [e, this, State.nodeRecord]
    simp only [State.setNode, this]

/-! ### Fields that pushCompletion leaves -/

@[simp] theorem State.pushCompletion_port (s : State) (r : Completion) : (s.pushCompletion r).port = s.port := by
  unfold State.pushCompletion; split <;> rfl
@[simp] theorem State.pushCompletion_lineTime (s : State) (r : Completion) : (s.pushCompletion r).lineTime = s.lineTime := by
  unfold State.pushCompletion; split <;> rfl
@[simp] theorem State.pushCompletion_config (s : State) (r : Completion) : (s.pushCompletion r).config = s.config := by
  unfold State.pushCompletion; split <;> rfl
@[simp] theorem State.pushCompletion_bankA (s : State) (r : Completion) : (s.pushCompletion r).bankA = s.bankA := by
  unfold State.pushCompletion; split <;> rfl
@[simp] theorem State.pushCompletion_bankB (s : State) (r : Completion) : (s.pushCompletion r).bankB = s.bankB := by
  unfold State.pushCompletion; split <;> rfl
@[simp] theorem State.pushCompletion_activeBank (s : State) (r : Completion) : (s.pushCompletion r).activeBank = s.activeBank := by
  unfold State.pushCompletion; split <;> rfl
@[simp] theorem State.pushCompletion_figures (s : State) (r : Completion) : (s.pushCompletion r).figures = s.figures := by
  unfold State.pushCompletion; split <;> rfl
@[simp] theorem State.pushCompletion_sw (s : State) (r : Completion) : (s.pushCompletion r).sw = s.sw := by
  unfold State.pushCompletion; split <;> rfl
@[simp] theorem State.pushCompletion_sched (s : State) (r : Completion) : (s.pushCompletion r).sched = s.sched := by
  unfold State.pushCompletion; split <;> rfl
@[simp] theorem State.pushCompletion_cycle (s : State) (r : Completion) : (s.pushCompletion r).cycle = s.cycle := by
  unfold State.pushCompletion; split <;> rfl
@[simp] theorem State.pushCompletion_objects (s : State) (r : Completion) : (s.pushCompletion r).objects = s.objects := by
  unfold State.pushCompletion; split <;> rfl
@[simp] theorem State.pushCompletion_slot (s : State) (r : Completion) : (s.pushCompletion r).slot = s.slot := by
  unfold State.pushCompletion; split <;> rfl
@[simp] theorem State.pushCompletion_supersede (s : State) (r : Completion) : (s.pushCompletion r).supersede = s.supersede := by
  unfold State.pushCompletion; split <;> rfl
@[simp] theorem State.pushCompletion_engine (s : State) (r : Completion) : (s.pushCompletion r).engine = s.engine := by
  unfold State.pushCompletion; split <;> rfl
@[simp] theorem State.pushCompletion_nodes (s : State) (r : Completion) : (s.pushCompletion r).nodes = s.nodes := by
  unfold State.pushCompletion; split <;> rfl
@[simp] theorem State.pushCompletion_enables (s : State) (r : Completion) : (s.pushCompletion r).enables = s.enables := by
  unfold State.pushCompletion; split <;> rfl
@[simp] theorem State.pushCompletion_pending (s : State) (r : Completion) : (s.pushCompletion r).pending = s.pending := by
  unfold State.pushCompletion; split <;> rfl

/-! ### Fields that leaveSlot leaves -/

@[simp] theorem State.leaveSlot_port (s : State) (n : Fin 32) : (s.leaveSlot n).port = s.port := by
  unfold State.leaveSlot; split <;> rfl
@[simp] theorem State.leaveSlot_lineTime (s : State) (n : Fin 32) : (s.leaveSlot n).lineTime = s.lineTime := by
  unfold State.leaveSlot; split <;> rfl
@[simp] theorem State.leaveSlot_config (s : State) (n : Fin 32) : (s.leaveSlot n).config = s.config := by
  unfold State.leaveSlot; split <;> rfl
@[simp] theorem State.leaveSlot_bankA (s : State) (n : Fin 32) : (s.leaveSlot n).bankA = s.bankA := by
  unfold State.leaveSlot; split <;> rfl
@[simp] theorem State.leaveSlot_bankB (s : State) (n : Fin 32) : (s.leaveSlot n).bankB = s.bankB := by
  unfold State.leaveSlot; split <;> rfl
@[simp] theorem State.leaveSlot_activeBank (s : State) (n : Fin 32) : (s.leaveSlot n).activeBank = s.activeBank := by
  unfold State.leaveSlot; split <;> rfl
@[simp] theorem State.leaveSlot_figures (s : State) (n : Fin 32) : (s.leaveSlot n).figures = s.figures := by
  unfold State.leaveSlot; split <;> rfl
@[simp] theorem State.leaveSlot_sw (s : State) (n : Fin 32) : (s.leaveSlot n).sw = s.sw := by
  unfold State.leaveSlot; split <;> rfl
@[simp] theorem State.leaveSlot_sched (s : State) (n : Fin 32) : (s.leaveSlot n).sched = s.sched := by
  unfold State.leaveSlot; split <;> rfl
@[simp] theorem State.leaveSlot_cycle (s : State) (n : Fin 32) : (s.leaveSlot n).cycle = s.cycle := by
  unfold State.leaveSlot; split <;> rfl
@[simp] theorem State.leaveSlot_supersede (s : State) (n : Fin 32) : (s.leaveSlot n).supersede = s.supersede := by
  unfold State.leaveSlot; split <;> rfl
@[simp] theorem State.leaveSlot_engine (s : State) (n : Fin 32) : (s.leaveSlot n).engine = s.engine := by
  unfold State.leaveSlot; split <;> rfl
@[simp] theorem State.leaveSlot_nodes (s : State) (n : Fin 32) : (s.leaveSlot n).nodes = s.nodes := by
  unfold State.leaveSlot; split <;> rfl
@[simp] theorem State.leaveSlot_queue (s : State) (n : Fin 32) : (s.leaveSlot n).queue = s.queue := by
  unfold State.leaveSlot; split <;> rfl
@[simp] theorem State.leaveSlot_lost (s : State) (n : Fin 32) : (s.leaveSlot n).lost = s.lost := by
  unfold State.leaveSlot; split <;> rfl
@[simp] theorem State.leaveSlot_flags (s : State) (n : Fin 32) : (s.leaveSlot n).flags = s.flags := by
  unfold State.leaveSlot; split <;> rfl
@[simp] theorem State.leaveSlot_enables (s : State) (n : Fin 32) : (s.leaveSlot n).enables = s.enables := by
  unfold State.leaveSlot; split <;> rfl
@[simp] theorem State.leaveSlot_pending (s : State) (n : Fin 32) : (s.leaveSlot n).pending = s.pending := by
  unfold State.leaveSlot; split <;> rfl

/-! ### Fields that modifyNode leaves -/

@[simp] theorem State.modifyNode_port (s : State) (a : BitVec 5) (f : NodeRecord → NodeRecord) : (s.modifyNode a f).port = s.port := by
  unfold State.modifyNode; split <;> rfl
@[simp] theorem State.modifyNode_lineTime (s : State) (a : BitVec 5) (f : NodeRecord → NodeRecord) : (s.modifyNode a f).lineTime = s.lineTime := by
  unfold State.modifyNode; split <;> rfl
@[simp] theorem State.modifyNode_config (s : State) (a : BitVec 5) (f : NodeRecord → NodeRecord) : (s.modifyNode a f).config = s.config := by
  unfold State.modifyNode; split <;> rfl
@[simp] theorem State.modifyNode_bankA (s : State) (a : BitVec 5) (f : NodeRecord → NodeRecord) : (s.modifyNode a f).bankA = s.bankA := by
  unfold State.modifyNode; split <;> rfl
@[simp] theorem State.modifyNode_bankB (s : State) (a : BitVec 5) (f : NodeRecord → NodeRecord) : (s.modifyNode a f).bankB = s.bankB := by
  unfold State.modifyNode; split <;> rfl
@[simp] theorem State.modifyNode_activeBank (s : State) (a : BitVec 5) (f : NodeRecord → NodeRecord) : (s.modifyNode a f).activeBank = s.activeBank := by
  unfold State.modifyNode; split <;> rfl
@[simp] theorem State.modifyNode_figures (s : State) (a : BitVec 5) (f : NodeRecord → NodeRecord) : (s.modifyNode a f).figures = s.figures := by
  unfold State.modifyNode; split <;> rfl
@[simp] theorem State.modifyNode_sw (s : State) (a : BitVec 5) (f : NodeRecord → NodeRecord) : (s.modifyNode a f).sw = s.sw := by
  unfold State.modifyNode; split <;> rfl
@[simp] theorem State.modifyNode_sched (s : State) (a : BitVec 5) (f : NodeRecord → NodeRecord) : (s.modifyNode a f).sched = s.sched := by
  unfold State.modifyNode; split <;> rfl
@[simp] theorem State.modifyNode_cycle (s : State) (a : BitVec 5) (f : NodeRecord → NodeRecord) : (s.modifyNode a f).cycle = s.cycle := by
  unfold State.modifyNode; split <;> rfl
@[simp] theorem State.modifyNode_objects (s : State) (a : BitVec 5) (f : NodeRecord → NodeRecord) : (s.modifyNode a f).objects = s.objects := by
  unfold State.modifyNode; split <;> rfl
@[simp] theorem State.modifyNode_slot (s : State) (a : BitVec 5) (f : NodeRecord → NodeRecord) : (s.modifyNode a f).slot = s.slot := by
  unfold State.modifyNode; split <;> rfl
@[simp] theorem State.modifyNode_supersede (s : State) (a : BitVec 5) (f : NodeRecord → NodeRecord) : (s.modifyNode a f).supersede = s.supersede := by
  unfold State.modifyNode; split <;> rfl
@[simp] theorem State.modifyNode_engine (s : State) (a : BitVec 5) (f : NodeRecord → NodeRecord) : (s.modifyNode a f).engine = s.engine := by
  unfold State.modifyNode; split <;> rfl
@[simp] theorem State.modifyNode_queue (s : State) (a : BitVec 5) (f : NodeRecord → NodeRecord) : (s.modifyNode a f).queue = s.queue := by
  unfold State.modifyNode; split <;> rfl
@[simp] theorem State.modifyNode_lost (s : State) (a : BitVec 5) (f : NodeRecord → NodeRecord) : (s.modifyNode a f).lost = s.lost := by
  unfold State.modifyNode; split <;> rfl
@[simp] theorem State.modifyNode_flags (s : State) (a : BitVec 5) (f : NodeRecord → NodeRecord) : (s.modifyNode a f).flags = s.flags := by
  unfold State.modifyNode; split <;> rfl
@[simp] theorem State.modifyNode_enables (s : State) (a : BitVec 5) (f : NodeRecord → NodeRecord) : (s.modifyNode a f).enables = s.enables := by
  unfold State.modifyNode; split <;> rfl
@[simp] theorem State.modifyNode_pending (s : State) (a : BitVec 5) (f : NodeRecord → NodeRecord) : (s.modifyNode a f).pending = s.pending := by
  unfold State.modifyNode; split <;> rfl

/-! ### Fields that decideToggle leaves -/

@[simp] theorem State.decideToggle_port (s : State) (n : Fin 32) (outcome : RequestOutcome) : (s.decideToggle n outcome).port = s.port := by
  unfold State.decideToggle; simp only; split <;> simp
@[simp] theorem State.decideToggle_lineTime (s : State) (n : Fin 32) (outcome : RequestOutcome) : (s.decideToggle n outcome).lineTime = s.lineTime := by
  unfold State.decideToggle; simp only; split <;> simp
@[simp] theorem State.decideToggle_config (s : State) (n : Fin 32) (outcome : RequestOutcome) : (s.decideToggle n outcome).config = s.config := by
  unfold State.decideToggle; simp only; split <;> simp
@[simp] theorem State.decideToggle_bankA (s : State) (n : Fin 32) (outcome : RequestOutcome) : (s.decideToggle n outcome).bankA = s.bankA := by
  unfold State.decideToggle; simp only; split <;> simp
@[simp] theorem State.decideToggle_bankB (s : State) (n : Fin 32) (outcome : RequestOutcome) : (s.decideToggle n outcome).bankB = s.bankB := by
  unfold State.decideToggle; simp only; split <;> simp
@[simp] theorem State.decideToggle_activeBank (s : State) (n : Fin 32) (outcome : RequestOutcome) : (s.decideToggle n outcome).activeBank = s.activeBank := by
  unfold State.decideToggle; simp only; split <;> simp
@[simp] theorem State.decideToggle_figures (s : State) (n : Fin 32) (outcome : RequestOutcome) : (s.decideToggle n outcome).figures = s.figures := by
  unfold State.decideToggle; simp only; split <;> simp
@[simp] theorem State.decideToggle_sw (s : State) (n : Fin 32) (outcome : RequestOutcome) : (s.decideToggle n outcome).sw = s.sw := by
  unfold State.decideToggle; simp only; split <;> simp
@[simp] theorem State.decideToggle_sched (s : State) (n : Fin 32) (outcome : RequestOutcome) : (s.decideToggle n outcome).sched = s.sched := by
  unfold State.decideToggle; simp only; split <;> simp
@[simp] theorem State.decideToggle_cycle (s : State) (n : Fin 32) (outcome : RequestOutcome) : (s.decideToggle n outcome).cycle = s.cycle := by
  unfold State.decideToggle; simp only; split <;> simp
@[simp] theorem State.decideToggle_objects (s : State) (n : Fin 32) (outcome : RequestOutcome) : (s.decideToggle n outcome).objects = s.objects := by
  unfold State.decideToggle; simp only; split <;> simp
@[simp] theorem State.decideToggle_slot (s : State) (n : Fin 32) (outcome : RequestOutcome) : (s.decideToggle n outcome).slot = s.slot := by
  unfold State.decideToggle; simp only; split <;> simp
@[simp] theorem State.decideToggle_supersede (s : State) (n : Fin 32) (outcome : RequestOutcome) : (s.decideToggle n outcome).supersede = s.supersede := by
  unfold State.decideToggle; simp only; split <;> simp
@[simp] theorem State.decideToggle_engine (s : State) (n : Fin 32) (outcome : RequestOutcome) : (s.decideToggle n outcome).engine = s.engine := by
  unfold State.decideToggle; simp only; split <;> simp
@[simp] theorem State.decideToggle_queue (s : State) (n : Fin 32) (outcome : RequestOutcome) : (s.decideToggle n outcome).queue = s.queue := by
  unfold State.decideToggle; simp only; split <;> simp
@[simp] theorem State.decideToggle_lost (s : State) (n : Fin 32) (outcome : RequestOutcome) : (s.decideToggle n outcome).lost = s.lost := by
  unfold State.decideToggle; simp only; split <;> simp
@[simp] theorem State.decideToggle_flags (s : State) (n : Fin 32) (outcome : RequestOutcome) : (s.decideToggle n outcome).flags = s.flags := by
  unfold State.decideToggle; simp only; split <;> simp
@[simp] theorem State.decideToggle_enables (s : State) (n : Fin 32) (outcome : RequestOutcome) : (s.decideToggle n outcome).enables = s.enables := by
  unfold State.decideToggle; simp only; split <;> simp
@[simp] theorem State.decideToggle_pending (s : State) (n : Fin 32) (outcome : RequestOutcome) : (s.decideToggle n outcome).pending = s.pending := by
  unfold State.decideToggle; simp only; split <;> simp

/-! ### Fields that afterFinish leaves -/

@[simp] theorem State.afterFinish_port (s : State) (n : Fin 32) (outcome : RequestOutcome) (next : ObjState) : (s.afterFinish n outcome next).port = s.port := by
  rfl
@[simp] theorem State.afterFinish_lineTime (s : State) (n : Fin 32) (outcome : RequestOutcome) (next : ObjState) : (s.afterFinish n outcome next).lineTime = s.lineTime := by
  rfl
@[simp] theorem State.afterFinish_config (s : State) (n : Fin 32) (outcome : RequestOutcome) (next : ObjState) : (s.afterFinish n outcome next).config = s.config := by
  rfl
@[simp] theorem State.afterFinish_bankA (s : State) (n : Fin 32) (outcome : RequestOutcome) (next : ObjState) : (s.afterFinish n outcome next).bankA = s.bankA := by
  rfl
@[simp] theorem State.afterFinish_bankB (s : State) (n : Fin 32) (outcome : RequestOutcome) (next : ObjState) : (s.afterFinish n outcome next).bankB = s.bankB := by
  rfl
@[simp] theorem State.afterFinish_activeBank (s : State) (n : Fin 32) (outcome : RequestOutcome) (next : ObjState) : (s.afterFinish n outcome next).activeBank = s.activeBank := by
  rfl
@[simp] theorem State.afterFinish_figures (s : State) (n : Fin 32) (outcome : RequestOutcome) (next : ObjState) : (s.afterFinish n outcome next).figures = s.figures := by
  rfl
@[simp] theorem State.afterFinish_sw (s : State) (n : Fin 32) (outcome : RequestOutcome) (next : ObjState) : (s.afterFinish n outcome next).sw = s.sw := by
  rfl
@[simp] theorem State.afterFinish_sched (s : State) (n : Fin 32) (outcome : RequestOutcome) (next : ObjState) : (s.afterFinish n outcome next).sched = s.sched := by
  rfl
@[simp] theorem State.afterFinish_cycle (s : State) (n : Fin 32) (outcome : RequestOutcome) (next : ObjState) : (s.afterFinish n outcome next).cycle = s.cycle := by
  rfl
@[simp] theorem State.afterFinish_supersede (s : State) (n : Fin 32) (outcome : RequestOutcome) (next : ObjState) : (s.afterFinish n outcome next).supersede = s.supersede := by
  rfl
@[simp] theorem State.afterFinish_engine (s : State) (n : Fin 32) (outcome : RequestOutcome) (next : ObjState) : (s.afterFinish n outcome next).engine = s.engine := by
  rfl
@[simp] theorem State.afterFinish_enables (s : State) (n : Fin 32) (outcome : RequestOutcome) (next : ObjState) : (s.afterFinish n outcome next).enables = s.enables := by
  rfl
@[simp] theorem State.afterFinish_pending (s : State) (n : Fin 32) (outcome : RequestOutcome) (next : ObjState) : (s.afterFinish n outcome next).pending = s.pending := by
  rfl

theorem State.leaveSlot_slot (s : State) (n : Fin 32) :
    (s.leaveSlot n).slot = if s.slot = some n then none else s.slot := by
  unfold State.leaveSlot; split <;> simp_all

theorem State.leaveSlot_object (s : State) (n m : Fin 32) :
    (s.leaveSlot n).object m =
      if m = n ∧ s.slot = some n then { s.object n with inSlot := false } else s.object m := by
  unfold State.leaveSlot
  split
  · rename_i h
    show (s.setObject n _).object m = _
    rw [State.object_setObject]
    simp [h]
  · simp_all

theorem State.modifyNode_nodeRecord (s : State) (a : BitVec 5) (f : NodeRecord → NodeRecord) (i : Fin 30) :
    (s.modifyNode a f).nodeRecord i = if i.val + 1 = a.toNat then f (s.nodeRecord i) else s.nodeRecord i := by
  rw [State.modifyNode_eq]
  simp [State.nodeRecord]

theorem State.decideToggle_nodeRecord (s : State) (n : Fin 32) (outcome : RequestOutcome) (i : Fin 30) :
    (s.decideToggle n outcome).nodeRecord i =
      if (s.object n).uncertain outcome = true ∧ i.val + 1 = (s.object n).config.node.toNat then
        { s.nodeRecord i with toggle := none }
      else s.nodeRecord i := by
  have hu : ((s.object n).config.exchangeKind = .command ∧ outcome ≠ .done ∧ outcome ≠ .nakReject ∧
      (s.object n).delivered = true) ↔ (s.object n).uncertain outcome = true := by
    rw [ObjConfig.exchangeKind_command]
    simp [MsgObject.uncertain, and_assoc]
  unfold State.decideToggle
  simp only [hu]
  split
  · rw [State.modifyNode_nodeRecord]; simp_all
  · simp_all

@[simp] theorem State.afterFinish_slot (s : State) (n : Fin 32) (outcome : RequestOutcome) (next : ObjState) :
    (s.afterFinish n outcome next).slot = if s.slot = some n then none else s.slot := rfl

theorem State.afterFinish_object (s : State) (n m : Fin 32) (outcome : RequestOutcome) (next : ObjState) :
    (s.afterFinish n outcome next).object m =
      if m = n then
        { s.object n with
          lastOutcome := some outcome, state := next
          inSlot := if s.slot = some n then false else (s.object n).inSlot }
      else s.object m := by
  show (s.setObject n _).object m = _
  rw [State.object_setObject]

theorem State.afterFinish_nodeRecord (s : State) (n : Fin 32) (outcome : RequestOutcome) (next : ObjState) (i : Fin 30) :
    (s.afterFinish n outcome next).nodeRecord i =
      if (s.object n).uncertain outcome = true ∧ i.val + 1 = (s.object n).config.node.toNat then
        { s.nodeRecord i with toggle := none }
      else s.nodeRecord i := by
  show (Vector.ofFn _)[i.val] = _
  simp

/-- Finishing a request leaves what `afterFinish` writes out (R107, R108, R125, R135, R153). -/
theorem State.retire_eq (s : State) (n : Fin 32) (outcome : RequestOutcome) (next : ObjState) :
    s.retire n outcome next = s.afterFinish n outcome next := by
  apply State.eq_of_fields
  all_goals first | (simp [State.retire, State.modifyObject]; done) | skip
  · apply State.objects_ext
    intro m
    rw [State.afterFinish_object]
    show ((State.leaveSlot _ n).decideToggle n outcome).object m = _
    rw [State.object_congr (State.decideToggle_objects _ _ _), State.leaveSlot_object]
    rw [State.object_congr (State.pushCompletion_objects _ _), State.object_congr (State.pushCompletion_objects _ _)]
    simp only [State.modifyObject, State.pushCompletion_slot, State.setObject_slot, State.object_setObject_self]
    rw [State.object_setObject]
    by_cases hm : m = n <;> by_cases hs : s.slot = some n <;> simp [hm, hs]
  · simp [State.retire, State.modifyObject, State.leaveSlot_slot]
  · apply State.nodes_ext
    intro i
    rw [State.afterFinish_nodeRecord]
    show ((State.leaveSlot _ n).decideToggle n outcome).nodeRecord i = _
    rw [State.decideToggle_nodeRecord, State.leaveSlot_object, State.nodeRecord_congr (State.leaveSlot_nodes _ _),
      State.nodeRecord_congr (State.pushCompletion_nodes _ _), State.object_congr (State.pushCompletion_objects _ _)]
    simp only [State.modifyObject, State.pushCompletion_slot, State.setObject_slot, State.object_setObject_self]
    rw [State.nodeRecord_congr (State.setObject_nodes _ _ _)]
    split <;> rfl
  · simp [State.retire, State.modifyObject, State.pushCompletion_eq]; rfl
  · simp [State.retire, State.modifyObject, State.pushCompletion_eq]; rfl
  · simp [State.retire, State.modifyObject, State.pushCompletion_eq]; rfl

end Sys2Proof.Machine
end

