-- ==== Sys2Proof/Laws/Ops.lean ====
section
/-! SUPPORT. The small lemmas of the shared operations: the host port, the arguments, saturating counts, the checks on W. -/

namespace Sys2Proof.Machine

/-! ### Host port and arguments -/

/-- A command taken while the port answers: its effects, then its answer (R162). -/
theorem State.takeCommand_answers {s : State} (h : s.portAnswers = true) (code : BitVec 8)
    (f : State → State × ResultCode) : s.takeCommand code f = (f s).1.answer code (f s).2 := by
  simp [State.takeCommand, h]

/-- A register write taken while the port answers (R164). -/
theorem State.takeWrite_answers {s : State} (h : s.portAnswers = true) (f : State → State) : s.takeWrite f = f s := by
  simp [State.takeWrite, h]

@[simp] theorem bankArgument_argument (b : BankId) : bankArgument b.argument = some b := by cases b <;> rfl

theorem bankArgument_none {arg : BitVec 8} (h : 2 ≤ arg.toNat) : bankArgument arg = none := by
  unfold bankArgument; split <;> first | omega | rfl

@[simp] theorem objectArgument_ofNat (n : Fin 32) : objectArgument (BitVec.ofNat 8 n.val) = some n := by
  have hn := n.isLt
  have h : (BitVec.ofNat 8 n.val).toNat = n.val := by simp; omega
  simp only [objectArgument, h, hn, dif_pos]

theorem objectArgument_none {arg : BitVec 8} (h : 32 ≤ arg.toNat) : objectArgument arg = none := by
  unfold objectArgument; simp; omega

/-- An object argument names the object whose number it is (R162). -/
theorem objectArgument_eq_some {arg : BitVec 8} {n : Fin 32} :
    objectArgument arg = some n ↔ arg = BitVec.ofNat 8 n.val := by
  constructor
  · unfold objectArgument
    split
    · intro h; injection h with h; subst h; simp
    · intro h; cases h
  · rintro rfl; simp

@[simp] theorem nodeArgument_ofNat (i : Fin 30) : nodeArgument (BitVec.ofNat 8 (i.val + 1)) = some i := by
  have hi := i.isLt
  have h : (BitVec.ofNat 8 (i.val + 1)).toNat = i.val + 1 := by simp; omega
  unfold nodeArgument
  simp [h]

/-- A node argument names the node whose address it is (R162). -/
theorem nodeArgument_eq_some {arg : BitVec 8} {i : Fin 30} :
    nodeArgument arg = some i ↔ arg = BitVec.ofNat 8 (i.val + 1) := by
  constructor
  · unfold nodeArgument
    split
    · rename_i h0
      intro h; injection h with h; subst h
      apply BitVec.eq_of_toNat_eq
      simp; omega
    · intro h; cases h
  · rintro rfl; simp

theorem nodeArgument_none {arg : BitVec 8} (h : arg = 0 ∨ 31 ≤ arg.toNat) : nodeArgument arg = none := by
  unfold nodeArgument
  rcases h with rfl | h
  · rfl
  · simp; omega

/-! ### Saturating counts -/

theorem satInc_eq8 (x : BitVec 8) : satInc x = if x = 255 then 255 else x + 1 := by
  unfold satInc; show (if x = 255 then x else _) = _; split <;> simp_all

theorem satInc_eq16 (x : BitVec 16) : satInc x = if x = 0xFFFF then 0xFFFF else x + 1 := by
  unfold satInc; show (if x = 0xFFFF then x else _) = _; split <;> simp_all

theorem satInc_eq2 (x : BitVec 2) : satInc x = if x = 3 then 3 else x + 1 := by
  unfold satInc; show (if x = 3 then x else _) = _; split <;> simp_all

/-! ### The checks on W -/

/-- The check against MaxOpen of the object's Class (R94). -/
theorem State.noFit_iff (s : State) (n : Fin 32) :
    s.noFit n = true ↔ ∃ f, s.figures = some f ∧ f.maxOpen[(s.object n).config.cls.toFin] < s.worst n := by
  unfold State.noFit; split <;> simp_all

/-- The check against MaxAny (R123). -/
theorem State.tooLong_iff (s : State) (n : Fin 32) :
    s.tooLong n = true ↔ ∃ f, s.figures = some f ∧ f.maxAny < s.worst n := by
  unfold State.tooLong; split <;> simp_all

/-- W depends on the object's configuration and the Line Configuration alone (R90). -/
theorem State.worst_congr {s t : State} {n : Fin 32} (h : (t.object n).config = (s.object n).config)
    (hc : t.config = s.config) : t.worst n = s.worst n := by
  unfold State.worst; rw [h, hc]

/-- The MaxOpen check depends on W, the Class and the figures alone (R94). -/
theorem State.noFit_congr {s t : State} {n : Fin 32} (h : (t.object n).config = (s.object n).config)
    (hc : t.config = s.config) (hf : t.figures = s.figures) : t.noFit n = s.noFit n := by
  unfold State.noFit
  simp only [hf, h, State.worst_congr h hc]

/-! ### Bus reads -/

/-- While the port answers, a read answers the halfword at its offset (R161). -/
theorem State.hostRead_of_answers {s : State} (h : s.portAnswers = true) (offset : BitVec 7) :
    s.hostRead offset = some (s.readHalfword offset) := by
  unfold State.hostRead; rw [if_pos h]

/-- With RESET# low no read is answered (R167). -/
theorem State.hostRead_of_low {s : State} (h : s.port.resetLow = true) (offset : BitVec 7) : s.hostRead offset = none := by
  simp [State.hostRead, State.portAnswers, h]

/-- In the first 2 µs after RESET# rises every read answers 0000h (R167). -/
theorem State.hostRead_of_waiting {s : State} (h : s.portAnswers = false) (hl : s.port.resetLow = false)
    (offset : BitVec 7) : s.hostRead offset = some 0 := by
  simp [State.hostRead, h, hl]

/-- LINE_TIME_LOW_READ answers as any read of offset 54 does, and latches only where the port answers (R24, R167). -/
theorem execLineTimeLowRead_eq (s : State) :
    execLineTimeLowRead s = .next (if s.port.resetLow then s else { s with port := { s.port with
      readData := some (if s.portAnswers then s.lineTime.extractLsb' 0 16 else 0)
      latch := if s.portAnswers then s.lineTime.extractLsb' 16 32 else s.port.latch } }) := by
  unfold execLineTimeLowRead State.hostRead
  by_cases h : s.portAnswers
  · have hl : s.port.resetLow = false := by
      unfold State.portAnswers at h; cases e : s.port.resetLow <;> simp_all
    simp [h, hl, State.readHalfword]
  · cases hl : s.port.resetLow <;> simp [h]

/-! ### Taking and finishing requests -/

/-- A request taken leaves what `afterRequest` writes out (R94, R109). -/
theorem State.takeRequest_eq (s : State) (n : Fin 32) : s.takeRequest n = s.afterRequest n := by
  unfold State.takeRequest State.afterRequest
  simp only [State.modifyObject, State.retire_eq]
  have h1 : ∀ o, (s.setObject n o).isSilent = s.isSilent := fun _ => rfl
  have h2 : ∀ o : MsgObject, o.config = (s.object n).config → (s.setObject n o).noFit n = s.noFit n := by
    intro o ho
    exact State.noFit_congr (by simp [ho]) rfl rfl
  simp only [State.object_setObject_self, h1]
  rw [h2 { s.object n with state := .pending, attempts := 0, age := 0, delivered := false } rfl]

/-- A finished request leaves what `afterOutcome` writes out (R108, R109). -/
theorem State.finish_eq (s : State) (n : Fin 32) (outcome : RequestOutcome) : s.finish n outcome = s.afterOutcome n outcome := by
  unfold State.finish State.afterOutcome
  simp only [State.retire_eq, State.takeRequest_eq, State.modifyObject]
  have h : ((s.afterFinish n outcome .idle).object n).reRequest = (s.object n).reRequest := by
    rw [State.afterFinish_object]; simp
  rw [h]

end Sys2Proof.Machine
end

