-- ==== Sys2Proof/Laws/Tables.lean ====
section
/-! SUPPORT. What the Object Table's work on one object can do, said once: `State.WorkOn`. Every operation of the table on
object n is work on n, and so is one after another; going through the objects is work on the table. -/

namespace Sys2Proof.Machine

/-! ### States that differ in the tables only -/

theorem State.SameButTables.port {s t : State} (h : s.SameButTables t) : t.port = s.port := by
  unfold State.SameButTables at h; rw [h]

theorem State.SameButTables.lineTime {s t : State} (h : s.SameButTables t) : t.lineTime = s.lineTime := by
  unfold State.SameButTables at h; rw [h]

theorem State.SameButTables.config {s t : State} (h : s.SameButTables t) : t.config = s.config := by
  unfold State.SameButTables at h; rw [h]

theorem State.SameButTables.bankA {s t : State} (h : s.SameButTables t) : t.bankA = s.bankA := by
  unfold State.SameButTables at h; rw [h]

theorem State.SameButTables.bankB {s t : State} (h : s.SameButTables t) : t.bankB = s.bankB := by
  unfold State.SameButTables at h; rw [h]

theorem State.SameButTables.activeBank {s t : State} (h : s.SameButTables t) : t.activeBank = s.activeBank := by
  unfold State.SameButTables at h; rw [h]

theorem State.SameButTables.figures {s t : State} (h : s.SameButTables t) : t.figures = s.figures := by
  unfold State.SameButTables at h; rw [h]

theorem State.SameButTables.sw {s t : State} (h : s.SameButTables t) : t.sw = s.sw := by
  unfold State.SameButTables at h; rw [h]

theorem State.SameButTables.sched {s t : State} (h : s.SameButTables t) : t.sched = s.sched := by
  unfold State.SameButTables at h; rw [h]

theorem State.SameButTables.cycle {s t : State} (h : s.SameButTables t) : t.cycle = s.cycle := by
  unfold State.SameButTables at h; rw [h]

theorem State.SameButTables.supersede {s t : State} (h : s.SameButTables t) : t.supersede = s.supersede := by
  unfold State.SameButTables at h; rw [h]

theorem State.SameButTables.engine {s t : State} (h : s.SameButTables t) : t.engine = s.engine := by
  unfold State.SameButTables at h; rw [h]

theorem State.SameButTables.enables {s t : State} (h : s.SameButTables t) : t.enables = s.enables := by
  unfold State.SameButTables at h; rw [h]

theorem State.SameButTables.pending {s t : State} (h : s.SameButTables t) : t.pending = s.pending := by
  unfold State.SameButTables at h; rw [h]

theorem State.SameButTables.bank {s t : State} (h : s.SameButTables t) (b : BankId) : t.bank b = s.bank b := by
  cases b
  · exact h.bankA
  · exact h.bankB

theorem State.SameButTables.flags_switchDone {s t : State} (h : s.SameButTables t) : t.flags.switchDone = s.flags.switchDone := by
  unfold State.SameButTables at h; rw [h]

theorem State.SameButTables.flags_switchFailed {s t : State} (h : s.SameButTables t) : t.flags.switchFailed = s.flags.switchFailed := by
  unfold State.SameButTables at h; rw [h]

theorem State.SameButTables.flags_nodeSilent {s t : State} (h : s.SameButTables t) : t.flags.nodeSilent = s.flags.nodeSilent := by
  unfold State.SameButTables at h; rw [h]

theorem State.SameButTables.flags_attention {s t : State} (h : s.SameButTables t) : t.flags.attention = s.flags.attention := by
  unfold State.SameButTables at h; rw [h]

theorem State.SameButTables.flags_lineFault {s t : State} (h : s.SameButTables t) : t.flags.lineFault = s.flags.lineFault := by
  unfold State.SameButTables at h; rw [h]

theorem State.SameButTables.flags_cycleStart {s t : State} (h : s.SameButTables t) : t.flags.cycleStart = s.flags.cycleStart := by
  unfold State.SameButTables at h; rw [h]

theorem State.SameButTables.flags_accessDenied {s t : State} (h : s.SameButTables t) : t.flags.accessDenied = s.flags.accessDenied := by
  unfold State.SameButTables at h; rw [h]

theorem State.SameButTables.refl (s : State) : s.SameButTables s := rfl

theorem State.SameButTables.trans {s t u : State} (h : s.SameButTables t) (k : t.SameButTables u) :
    s.SameButTables u := by
  unfold State.SameButTables at *
  rw [k, h]

/-! ### Work on one object -/

/-- Work on object n: nothing outside the tables, no other object, neither configuration nor payload; the slot is left as it
was or object n leaves it; node records change in Toggle and Skipped Count alone; records of object n join the queue with the
present cycle, window and time. -/
structure State.WorkOn (s t : State) (n : Fin 32) : Prop where
  tables : s.SameButTables t
  others : ∀ m, m ≠ n → t.object m = s.object m
  config : (t.object n).config = (s.object n).config
  payload : (t.object n).payload = (s.object n).payload
  slot : t.slot = s.slot ∨ s.slot = some n ∧ t.slot = none
  nodes : ∀ i, ∃ toggle skipped, t.nodeRecord i = { s.nodeRecord i with toggle := toggle, skipped := skipped }
  queue : ∃ made, t.queue = s.queue ++ made ∧ (made ≠ [] → t.queue.length ≤ 32) ∧
    ∀ c ∈ made, c.object = n ∧ c.cycle = s.cycle.cycleNumber.extractLsb' 0 16 ∧ c.window = s.windowIndex ∧
      c.time = s.lineTime.extractLsb' 0 32

theorem State.WorkOn.refl (s : State) (n : Fin 32) : s.WorkOn s n where
  tables := .refl s
  others _ _ := rfl
  config := rfl
  payload := rfl
  slot := .inl rfl
  nodes i := ⟨_, _, rfl⟩
  queue := ⟨[], by simp⟩

theorem State.SameButTables.windowIndex {s t : State} (h : s.SameButTables t) : t.windowIndex = s.windowIndex := by
  unfold State.windowIndex; rw [h.cycle]

theorem State.WorkOn.trans {s t u : State} {n : Fin 32} (h : s.WorkOn t n) (k : t.WorkOn u n) : s.WorkOn u n where
  tables := h.tables.trans k.tables
  others m hm := (k.others m hm).trans (h.others m hm)
  config := k.config.trans h.config
  payload := k.payload.trans h.payload
  slot := by
    rcases h.slot with a | ⟨a, b⟩ <;> rcases k.slot with c | ⟨c, d⟩
    · exact .inl (c.trans a)
    · exact .inr ⟨a ▸ c, d⟩
    · exact .inr ⟨a, c.trans b⟩
    · rw [b] at c; cases c
  nodes i := by
    obtain ⟨a, b, e⟩ := h.nodes i
    obtain ⟨c, d, f⟩ := k.nodes i
    exact ⟨c, d, by rw [f, e]⟩
  queue := by
    obtain ⟨a, ha, hb, hc⟩ := h.queue
    obtain ⟨b, ka, kb, kc⟩ := k.queue
    refine ⟨a ++ b, by rw [ka, ha, List.append_assoc], ?_, ?_⟩
    · intro hne
      by_cases e : b = []
      · subst e; simp at ka hne ⊢; rw [ka]; exact hb hne
      · exact kb e
    · intro c hm
      rcases List.mem_append.mp hm with hm | hm
      · exact hc c hm
      · have := kc c hm
        rwa [h.tables.cycle, h.tables.windowIndex, h.tables.lineTime] at this

/-- A SILENT node stays SILENT and no node becomes SILENT by work on an object. -/
theorem State.WorkOn.isSilent {s t : State} {n : Fin 32} (h : s.WorkOn t n) (a : BitVec 5) :
    t.isSilent a = s.isSilent a := by
  apply State.isSilent_congr
  intro i
  obtain ⟨x, y, e⟩ := h.nodes i
  rw [e]

/-- Configurations are as they were at every object. -/
theorem State.WorkOn.configs {s t : State} {n : Fin 32} (h : s.WorkOn t n) (m : Fin 32) :
    (t.object m).config = (s.object m).config := by
  by_cases e : m = n
  · subst e; exact h.config
  · rw [h.others m e]

/-- The checks on W are as they were at every object. -/
theorem State.WorkOn.noFit {s t : State} {n : Fin 32} (h : s.WorkOn t n) (m : Fin 32) : t.noFit m = s.noFit m :=
  State.noFit_congr (h.configs m) h.tables.config h.tables.figures

theorem State.WorkOn.worst {s t : State} {n : Fin 32} (h : s.WorkOn t n) (m : Fin 32) : t.worst m = s.worst m :=
  State.worst_congr (h.configs m) h.tables.config

/-- Changing object n's status fields is work on n. -/
theorem State.workOn_setObject (s : State) (n : Fin 32) (o : MsgObject) (hc : o.config = (s.object n).config)
    (hp : o.payload = (s.object n).payload) : s.WorkOn (s.setObject n o) n where
  tables := rfl
  others m hm := s.object_setObject_ne o hm
  config := by simp [hc]
  payload := by simp [hp]
  slot := .inl rfl
  nodes i := ⟨_, _, rfl⟩
  queue := ⟨[], by simp⟩

/-- Finishing object n's request is work on n (R107, R108). -/
theorem State.workOn_afterFinish (s : State) (n : Fin 32) (outcome : RequestOutcome) (next : ObjState) :
    s.WorkOn (s.afterFinish n outcome next) n where
  tables := rfl
  others m hm := by rw [State.afterFinish_object]; simp [hm]
  config := by rw [State.afterFinish_object]; simp
  payload := by rw [State.afterFinish_object]; simp
  slot := by
    by_cases h : s.slot = some n
    · exact .inr ⟨h, by simp [h]⟩
    · exact .inl (by simp [h])
  nodes i := by
    rw [State.afterFinish_nodeRecord]
    split
    · exact ⟨_, _, rfl⟩
    · exact ⟨_, _, rfl⟩
  queue := by
    by_cases h : s.queue.length < 32
    · refine ⟨_, by simp only [State.afterFinish, h, if_true]; rfl, ?_, ?_⟩
      · intro _; simp only [State.afterFinish, h, if_true, List.length_append, List.length_singleton]; omega
      · intro c hc
        rw [List.mem_singleton] at hc
        subst hc
        exact ⟨rfl, rfl, rfl, rfl⟩
    · exact ⟨[], by simp [State.afterFinish, h]⟩

/-- Taking a request of object n is work on n (R94). -/
theorem State.workOn_afterRequest (s : State) (n : Fin 32) : s.WorkOn (s.afterRequest n) n := by
  unfold State.afterRequest
  have h := s.workOn_setObject n { s.object n with state := .pending, attempts := 0, age := 0, delivered := false } rfl rfl
  simp only
  split
  · exact h.trans (State.workOn_afterFinish _ _ _ _)
  · split
    · exact h.trans (State.workOn_afterFinish _ _ _ _)
    · exact h

/-- Finishing a request and taking its re-request is work on the object (R108, R109). -/
theorem State.workOn_afterOutcome (s : State) (n : Fin 32) (outcome : RequestOutcome) :
    s.WorkOn (s.afterOutcome n outcome) n := by
  unfold State.afterOutcome
  have h := s.workOn_afterFinish n outcome .idle
  simp only
  split
  · refine (h.trans (State.workOn_setObject _ n { (s.afterFinish n outcome .idle).object n with reRequest := false }
      rfl rfl)).trans (State.workOn_afterRequest _ n)
  · exact h

theorem State.workOn_finish (s : State) (n : Fin 32) (outcome : RequestOutcome) : s.WorkOn (s.finish n outcome) n := by
  rw [State.finish_eq]; exact s.workOn_afterOutcome n outcome

theorem State.workOn_modifyObject (s : State) (n : Fin 32) (f : MsgObject → MsgObject)
    (hc : (f (s.object n)).config = (s.object n).config) (hp : (f (s.object n)).payload = (s.object n).payload) :
    s.WorkOn (s.modifyObject n f) n := s.workOn_setObject n _ hc hp

/-- A request is work on its object (R93). -/
theorem State.workOn_request (s : State) (n : Fin 32) : s.WorkOn (s.request n) n := by
  unfold State.request
  split
  · exact .refl s n
  · rw [State.takeRequest_eq]; exact s.workOn_afterRequest n
  · exact s.workOn_modifyObject n _ rfl rfl
  · apply s.workOn_modifyObject <;> split <;> rfl

/-- The ageing step is work on its object (R100). -/
theorem State.workOn_ageStep (s : State) (n : Fin 32) : s.WorkOn (s.ageStep n) n := by
  unfold State.ageStep
  split
  · have h := s.workOn_modifyObject n (fun o => { o with age := satInc o.age }) rfl rfl
    simp only
    split
    · exact h.trans (State.workOn_finish _ n _)
    · exact h
  · exact .refl s n

/-- The trigger step is work on its object (R101, R149). -/
theorem State.workOn_triggerStep (s : State) (n : Fin 32) : s.WorkOn (s.triggerStep n) n := by
  unfold State.triggerStep
  simp only
  split
  · split
    · exact
        { tables := by rw [State.modifyNode_eq]; rfl
          others := fun m _ => State.object_congr (State.modifyNode_objects _ _ _) m
          config := by rw [State.object_congr (State.modifyNode_objects _ _ _)]
          payload := by rw [State.object_congr (State.modifyNode_objects _ _ _)]
          slot := .inl (State.modifyNode_slot _ _ _)
          nodes := fun i => by
            rw [State.modifyNode_nodeRecord]
            split
            · exact ⟨_, _, rfl⟩
            · exact ⟨_, _, rfl⟩
          queue := ⟨[], by simp⟩ }
    · exact s.workOn_request n
  · exact .refl s n

/-- The re-check is work on its object (R110). -/
theorem State.workOn_recheckStep (s : State) (n : Fin 32) : s.WorkOn (s.recheckStep n) n := by
  unfold State.recheckStep
  split
  · split
    · split
      · split
        · exact s.workOn_finish n _
        · exact .refl s n
      · exact .refl s n
    · split
      · exact s.workOn_finish n _
      · exact .refl s n
  · exact .refl s n

/-- Retrying or finishing an attempt's request is work on its object (R103, R105). -/
theorem State.workOn_retryOr (s : State) (n : Fin 32) (outcome : RequestOutcome) : s.WorkOn (s.retryOr n outcome) n := by
  unfold State.retryOr State.retry
  split
  · split
    · exact s.workOn_finish n _
    · apply s.workOn_modifyObject <;> split <;> rfl
  · exact s.workOn_finish n _

/-! ### Work on the table -/

/-- What going through the objects leaves: the clauses of `WorkOn` that speak of the whole table. -/
structure State.WorkOnTable (s t : State) : Prop where
  tables : s.SameButTables t
  configs : ∀ m, (t.object m).config = (s.object m).config
  payloads : ∀ m, (t.object m).payload = (s.object m).payload
  slot : t.slot = s.slot ∨ t.slot = none
  nodes : ∀ i, ∃ toggle skipped, t.nodeRecord i = { s.nodeRecord i with toggle := toggle, skipped := skipped }
  queue : ∃ made, t.queue = s.queue ++ made ∧ (made ≠ [] → t.queue.length ≤ 32)

theorem State.WorkOnTable.refl (s : State) : s.WorkOnTable s where
  tables := .refl s
  configs _ := rfl
  payloads _ := rfl
  slot := .inl rfl
  nodes i := ⟨_, _, rfl⟩
  queue := ⟨[], by simp⟩

theorem State.WorkOn.onTable {s t : State} {n : Fin 32} (h : s.WorkOn t n) : s.WorkOnTable t where
  tables := h.tables
  configs := h.configs
  payloads m := by
    by_cases e : m = n
    · subst e; exact h.payload
    · rw [h.others m e]
  slot := h.slot.imp id And.right
  nodes := h.nodes
  queue := by
    obtain ⟨a, b, c, -⟩ := h.queue
    exact ⟨a, b, c⟩

theorem State.WorkOnTable.trans {s t u : State} (h : s.WorkOnTable t) (k : t.WorkOnTable u) : s.WorkOnTable u where
  tables := h.tables.trans k.tables
  configs m := (k.configs m).trans (h.configs m)
  payloads m := (k.payloads m).trans (h.payloads m)
  slot := by
    rcases k.slot with a | a
    · rcases h.slot with b | b
      · exact .inl (a.trans b)
      · exact .inr (a.trans b)
    · exact .inr a
  nodes i := by
    obtain ⟨a, b, e⟩ := h.nodes i
    obtain ⟨c, d, f⟩ := k.nodes i
    exact ⟨c, d, by rw [f, e]⟩
  queue := by
    obtain ⟨a, ha, hb⟩ := h.queue
    obtain ⟨b, ka, kb⟩ := k.queue
    refine ⟨a ++ b, by rw [ka, ha, List.append_assoc], ?_⟩
    intro hne
    by_cases e : b = []
    · subst e; simp at ka hne ⊢; rw [ka]; exact hb hne
    · exact kb e

theorem State.WorkOnTable.isSilent {s t : State} (h : s.WorkOnTable t) (a : BitVec 5) : t.isSilent a = s.isSilent a := by
  apply State.isSilent_congr
  intro i
  obtain ⟨x, y, e⟩ := h.nodes i
  rw [e]

/-- What one step for each object keeps, going through them keeps (R99). -/
theorem State.forEachObject_induction {P : State → Prop} {f : Fin 32 → State → State}
    (step : ∀ n s, P s → P (f n s)) (s : State) (h : P s) : P (s.forEachObject f) := by
  unfold State.forEachObject
  generalize objectNumbers = l
  induction l generalizing s with
  | nil => exact h
  | cons n l ih => exact ih _ (step n s h)

/-- Going through the objects with work on each is work on the table (R99). -/
theorem State.workOnTable_forEachObject {f : Fin 32 → State → State} (step : ∀ n s, State.WorkOnTable s (f n s))
    (s : State) : s.WorkOnTable (s.forEachObject f) :=
  State.forEachObject_induction (P := fun t => s.WorkOnTable t) (fun n t h => h.trans (step n t)) s (.refl s)

/-- The cycle-start work is work on the table (R99). -/
theorem State.workOnTable_cycleWork (s : State) : s.WorkOnTable s.cycleWork :=
  State.workOnTable_forEachObject
    (fun n t => ((t.workOn_ageStep n).trans ((t.ageStep n).workOn_triggerStep n)).onTable) s

/-- The re-check is work on the table (R110). -/
theorem State.workOnTable_recheck (s : State) : s.WorkOnTable s.recheck :=
  State.workOnTable_forEachObject (fun n t => (t.workOn_recheckStep n).onTable) s

end Sys2Proof.Machine
end

