-- ==== Sys2Proof/Laws/Looks.lean ====
section
/-! SUPPORT. What a look can do, said once (R113, R117 to R120), and the better of two candidates (R119). -/

namespace Sys2Proof.Machine

/-! ### The frame taken -/

/-- An exchange started: the object ACTIVE and out of the slot, and its flight (R102, R120). -/
theorem State.startExchange_eq (s : State) (n : Fin 32) :
    s.startExchange n = { s with
      objects := (s.setObject n { s.object n with
        state := .active, inSlot := if s.slot = some n then false else (s.object n).inSlot }).objects
      slot := if s.slot = some n then none else s.slot
      engine := { s.engine with flight := some (s.flightOf n) } } := by
  unfold State.startExchange State.leaveSlot State.modifyObject
  by_cases h : s.slot = some n
  · simp [h, State.setObject, State.object]
  · simp [h, State.setObject]

/-- What a look leaves, by what it found (R113): nothing started; the owed SYNC; or the winner's exchange. -/
theorem State.look_cases (s : State) :
    s.look = s ∨
    (s.sched = .running ∧ s.engine.flight = none ∧ s.cycle.syncOwed = true ∧ s.look = s.startSync) ∨
    ∃ n, s.sched = .running ∧ s.engine.flight = none ∧ s.cycle.syncOwed = false ∧ s.winner = some n ∧
      s.look = s.startExchange n := by
  unfold State.look State.lineIdle
  split
  · rename_i h
    obtain ⟨h1, h2⟩ := h
    rw [Option.isNone_iff_eq_none] at h2
    split
    · split
      · exact .inl rfl
      · exact .inr (.inl ⟨h1, h2, ‹_›, rfl⟩)
    · split
      · exact .inl rfl
      · exact .inr (.inr ⟨_, h1, h2, by simpa using ‹¬s.cycle.syncOwed = true›, ‹_›, rfl⟩)
  · exact .inl rfl

/-- A look reaches the object records, the slot, the owed SYNC and the attempt in flight, and nothing else. -/
theorem State.look_sameButTaken (s : State) : s.SameButTaken s.look := by
  rcases s.look_cases with h | ⟨-, -, -, h⟩ | ⟨n, -, -, -, -, h⟩
  · rw [h]; rfl
  · rw [h]; rfl
  · rw [h, State.startExchange_eq]; rfl

@[simp] theorem State.look_port (s : State) : s.look.port = s.port := by
  have h := s.look_sameButTaken; unfold State.SameButTaken at h; rw [h]

@[simp] theorem State.look_lineTime (s : State) : s.look.lineTime = s.lineTime := by
  have h := s.look_sameButTaken; unfold State.SameButTaken at h; rw [h]

@[simp] theorem State.look_config (s : State) : s.look.config = s.config := by
  have h := s.look_sameButTaken; unfold State.SameButTaken at h; rw [h]

@[simp] theorem State.look_bankA (s : State) : s.look.bankA = s.bankA := by
  have h := s.look_sameButTaken; unfold State.SameButTaken at h; rw [h]

@[simp] theorem State.look_bankB (s : State) : s.look.bankB = s.bankB := by
  have h := s.look_sameButTaken; unfold State.SameButTaken at h; rw [h]

@[simp] theorem State.look_activeBank (s : State) : s.look.activeBank = s.activeBank := by
  have h := s.look_sameButTaken; unfold State.SameButTaken at h; rw [h]

@[simp] theorem State.look_figures (s : State) : s.look.figures = s.figures := by
  have h := s.look_sameButTaken; unfold State.SameButTaken at h; rw [h]

@[simp] theorem State.look_sw (s : State) : s.look.sw = s.sw := by
  have h := s.look_sameButTaken; unfold State.SameButTaken at h; rw [h]

@[simp] theorem State.look_sched (s : State) : s.look.sched = s.sched := by
  have h := s.look_sameButTaken; unfold State.SameButTaken at h; rw [h]

@[simp] theorem State.look_supersede (s : State) : s.look.supersede = s.supersede := by
  have h := s.look_sameButTaken; unfold State.SameButTaken at h; rw [h]

@[simp] theorem State.look_nodes (s : State) : s.look.nodes = s.nodes := by
  have h := s.look_sameButTaken; unfold State.SameButTaken at h; rw [h]

@[simp] theorem State.look_queue (s : State) : s.look.queue = s.queue := by
  have h := s.look_sameButTaken; unfold State.SameButTaken at h; rw [h]

@[simp] theorem State.look_lost (s : State) : s.look.lost = s.lost := by
  have h := s.look_sameButTaken; unfold State.SameButTaken at h; rw [h]

@[simp] theorem State.look_flags (s : State) : s.look.flags = s.flags := by
  have h := s.look_sameButTaken; unfold State.SameButTaken at h; rw [h]

@[simp] theorem State.look_enables (s : State) : s.look.enables = s.enables := by
  have h := s.look_sameButTaken; unfold State.SameButTaken at h; rw [h]

@[simp] theorem State.look_pending (s : State) : s.look.pending = s.pending := by
  have h := s.look_sameButTaken; unfold State.SameButTaken at h; rw [h]

@[simp] theorem State.look_bank (s : State) (b : BankId) : s.look.bank b = s.bank b := by
  cases b <;> simp [State.bank]

@[simp] theorem State.look_nodeRecord (s : State) (i : Fin 30) : s.look.nodeRecord i = s.nodeRecord i :=
  State.nodeRecord_congr s.look_nodes i

@[simp] theorem State.look_cycle_cycleStart (s : State) : s.look.cycle.cycleStart = s.cycle.cycleStart := by
  have h := s.look_sameButTaken; unfold State.SameButTaken at h; rw [h]

@[simp] theorem State.look_cycle_cycleEnd (s : State) : s.look.cycle.cycleEnd = s.cycle.cycleEnd := by
  have h := s.look_sameButTaken; unfold State.SameButTaken at h; rw [h]

@[simp] theorem State.look_cycle_cycleNumber (s : State) : s.look.cycle.cycleNumber = s.cycle.cycleNumber := by
  have h := s.look_sameButTaken; unfold State.SameButTaken at h; rw [h]

@[simp] theorem State.look_cycle_window (s : State) : s.look.cycle.window = s.cycle.window := by
  have h := s.look_sameButTaken; unfold State.SameButTaken at h; rw [h]

@[simp] theorem State.look_cycle_windowEnd (s : State) : s.look.cycle.windowEnd = s.cycle.windowEnd := by
  have h := s.look_sameButTaken; unfold State.SameButTaken at h; rw [h]

@[simp] theorem State.look_cycle_pulseEnd (s : State) : s.look.cycle.pulseEnd = s.cycle.pulseEnd := by
  have h := s.look_sameButTaken; unfold State.SameButTaken at h; rw [h]

@[simp] theorem State.look_engine_staging (s : State) : s.look.engine.staging = s.engine.staging := by
  have h := s.look_sameButTaken; unfold State.SameButTaken at h; rw [h]

@[simp] theorem State.look_engine_collisions (s : State) : s.look.engine.collisions = s.engine.collisions := by
  have h := s.look_sameButTaken; unfold State.SameButTaken at h; rw [h]

@[simp] theorem State.look_engine_overrun (s : State) : s.look.engine.overrun = s.engine.overrun := by
  have h := s.look_sameButTaken; unfold State.SameButTaken at h; rw [h]

@[simp] theorem State.look_engine_syncLate (s : State) : s.look.engine.syncLate = s.engine.syncLate := by
  have h := s.look_sameButTaken; unfold State.SameButTaken at h; rw [h]

@[simp] theorem State.look_engine_gapEndedNow (s : State) : s.look.engine.gapEndedNow = s.engine.gapEndedNow := by
  have h := s.look_sameButTaken; unfold State.SameButTaken at h; rw [h]

/-! ### Outside RUNNING, and with the line busy -/

/-- Outside RUNNING a look starts nothing (R121). -/
theorem State.look_of_not_running {s : State} (h : s.sched ≠ .running) : s.look = s := by
  unfold State.look; simp [h]

/-- With a frame in flight a look starts nothing (R113). -/
theorem State.look_of_busy {s : State} (h : s.engine.flight ≠ none) : s.look = s := by
  unfold State.look State.lineIdle; simp [h]

/-! ### The winner -/

/-- Whether object a goes before object b in the ordinary order (R119). -/
def State.Before (s : State) (a b : Fin 32) : Prop :=
  (s.object a).config.priority < (s.object b).config.priority ∨
    (s.object a).config.priority = (s.object b).config.priority ∧ a ≤ b

theorem State.Before.refl (s : State) (a : Fin 32) : s.Before a a := .inr ⟨rfl, le_refl _⟩

theorem State.Before.trans {s : State} {a b c : Fin 32} (h : s.Before a b) (k : s.Before b c) : s.Before a c := by
  unfold State.Before at *
  simp only [BitVec.lt_def, ← BitVec.toNat_inj, Fin.le_def] at *
  omega

/-- The fold of `better` over a rising list gives its first element in the ordinary order. -/
theorem State.foldl_better (s : State) (l : List (Fin 32)) (hl : l.Pairwise (· < ·)) (m : Fin 32)
    (hm : ∀ n ∈ l, m < n) :
    ∃ w, l.foldl (fun best n => s.better best n) (some m) = some w ∧ (w = m ∨ w ∈ l) ∧ s.Before w m ∧
      ∀ n ∈ l, s.Before w n := by
  induction l generalizing m with
  | nil => exact ⟨m, rfl, .inl rfl, .refl s m, by simp⟩
  | cons a l ih =>
    rw [List.pairwise_cons] at hl
    have ha := hm a (by simp)
    simp only [List.foldl_cons]
    by_cases hb : (s.object a).config.priority < (s.object m).config.priority
    · have e : s.better (some m) a = some a := by simp [State.better, hb]
      rw [e]
      obtain ⟨w, h1, h2, h3, h4⟩ := ih hl.2 a (fun n hn => hl.1 n hn)
      refine ⟨w, h1, ?_, h3.trans (.inl hb), ?_⟩
      · rcases h2 with rfl | h2
        · exact .inr (by simp)
        · exact .inr (by simp [h2])
      · intro n hn
        rcases List.mem_cons.mp hn with rfl | hn
        · exact h3
        · exact h4 n hn
    · have e : s.better (some m) a = some m := by simp [State.better, hb]
      rw [e]
      obtain ⟨w, h1, h2, h3, h4⟩ := ih hl.2 m (fun n hn => hm n (by simp [hn]))
      refine ⟨w, h1, ?_, h3, ?_⟩
      · rcases h2 with rfl | h2
        · exact .inl rfl
        · exact .inr (by simp [h2])
      · intro n hn
        rcases List.mem_cons.mp hn with rfl | hn
        · refine h3.trans ?_
          unfold State.Before
          simp only [BitVec.lt_def, ← BitVec.toNat_inj, Fin.le_def, Fin.lt_def] at *
          omega
        · exact h4 n hn

/-- The ordinary winner is a candidate that goes before every candidate, and there is one when there is a candidate (R118,
R119). -/
theorem State.ordinaryWinner_cases (s : State) (e : Entry) :
    (s.ordinaryWinner e = none ∧ ∀ n, s.ordinaryCandidate e n = false) ∨
    ∃ w, s.ordinaryWinner e = some w ∧ s.ordinaryCandidate e w = true ∧
      ∀ n, s.ordinaryCandidate e n = true → s.Before w n := by
  unfold State.ordinaryWinner
  have hp : (objectNumbers.filter (fun n => s.ordinaryCandidate e n)).Pairwise (· < ·) :=
    (List.pairwise_lt_finRange 32).filter _
  have hmem : ∀ n, n ∈ objectNumbers.filter (fun n => s.ordinaryCandidate e n) ↔ s.ordinaryCandidate e n = true := by
    intro n; simp [objectNumbers]
  generalize objectNumbers.filter (fun n => s.ordinaryCandidate e n) = l at hp hmem
  cases l with
  | nil =>
    refine .inl ⟨rfl, fun n => ?_⟩
    have := hmem n
    simpa using this
  | cons a l =>
    rw [List.pairwise_cons] at hp
    obtain ⟨w, h1, h2, h3, h4⟩ := s.foldl_better l hp.2 a (fun n hn => hp.1 n hn)
    refine .inr ⟨w, h1, ?_, ?_⟩
    · rcases h2 with rfl | h2
      · exact (hmem _).mp (by simp)
      · exact (hmem _).mp (by simp [h2])
    · intro n hn
      rcases List.mem_cons.mp ((hmem n).mpr hn) with rfl | hn
      · exact h3
      · exact h4 n hn

/-- What the winner of a look meets: a window is in force, the winner is PENDING and not held, its W fits, and it is the slot's
occupant in a window that opens a class, or its own class is open and its node not SILENT (R118). -/
theorem State.winner_fits {s : State} {n : Fin 32} (h : s.winner = some n) :
    ∃ e, s.openEntry = some e ∧ (s.object n).state = .pending ∧ (s.object n).held = false ∧ s.worst n ≤ s.remaining ∧
      (s.slot = some n ∧ e.classes ≠ 0 ∨
        s.isSilent (s.object n).config.node = false ∧ e.classes.getLsbD (s.object n).config.cls.toNat = true) := by
  unfold State.winner at h
  split at h
  · cases h
  · rename_i e he
    refine ⟨e, he, ?_⟩
    have hord : s.ordinaryWinner e = some n → (s.object n).state = .pending ∧ (s.object n).held = false ∧
        s.worst n ≤ s.remaining ∧ (s.slot = some n ∧ e.classes ≠ 0 ∨
        s.isSilent (s.object n).config.node = false ∧ e.classes.getLsbD (s.object n).config.cls.toNat = true) := by
      intro ho
      rcases s.ordinaryWinner_cases e with ⟨h1, -⟩ | ⟨w, h1, h2, -⟩
      · rw [h1] at ho; cases ho
      · rw [h1] at ho; injection ho with ho; subst ho
        simp [State.ordinaryCandidate] at h2
        exact ⟨h2.1.1.1.1, h2.1.1.1.2, h2.2, .inr ⟨h2.1.1.2, h2.1.2⟩⟩
    split at h
    · rename_i m hm
      split at h
      · rename_i hc
        injection h with h; subst h
        simp [State.slotCandidate] at hc
        exact ⟨hc.1.1.1, hc.1.2, hc.2, .inl ⟨hm, hc.1.1.2⟩⟩
      · exact hord h
    · exact hord h

end Sys2Proof.Machine
end

