-- ==== Sys2Proof/Laws/Cycle.lean ====
section
/-! SUPPORT. What the Cycle Timer's operations can do, said once: a window end (R20), a cycle start (R28, R36, R37), a switch
instant's roles (R66, R67), the next window (R30). -/

namespace Sys2Proof.Machine

/-! ### A window end -/

/-- A window end reaches the Line Engine alone (R20). -/
theorem State.signalWindowEnd_eq (s : State) : s.signalWindowEnd = { s with engine := s.signalWindowEnd.engine } := by
  unfold State.signalWindowEnd
  split
  · split <;> rfl
  · rfl

@[simp] theorem State.signalWindowEnd_port (s : State) : s.signalWindowEnd.port = s.port := by
  rw [State.signalWindowEnd_eq]

@[simp] theorem State.signalWindowEnd_lineTime (s : State) : s.signalWindowEnd.lineTime = s.lineTime := by
  rw [State.signalWindowEnd_eq]

@[simp] theorem State.signalWindowEnd_config (s : State) : s.signalWindowEnd.config = s.config := by
  rw [State.signalWindowEnd_eq]

@[simp] theorem State.signalWindowEnd_bankA (s : State) : s.signalWindowEnd.bankA = s.bankA := by
  rw [State.signalWindowEnd_eq]

@[simp] theorem State.signalWindowEnd_bankB (s : State) : s.signalWindowEnd.bankB = s.bankB := by
  rw [State.signalWindowEnd_eq]

@[simp] theorem State.signalWindowEnd_activeBank (s : State) : s.signalWindowEnd.activeBank = s.activeBank := by
  rw [State.signalWindowEnd_eq]

@[simp] theorem State.signalWindowEnd_figures (s : State) : s.signalWindowEnd.figures = s.figures := by
  rw [State.signalWindowEnd_eq]

@[simp] theorem State.signalWindowEnd_sw (s : State) : s.signalWindowEnd.sw = s.sw := by
  rw [State.signalWindowEnd_eq]

@[simp] theorem State.signalWindowEnd_sched (s : State) : s.signalWindowEnd.sched = s.sched := by
  rw [State.signalWindowEnd_eq]

@[simp] theorem State.signalWindowEnd_cycle (s : State) : s.signalWindowEnd.cycle = s.cycle := by
  rw [State.signalWindowEnd_eq]

@[simp] theorem State.signalWindowEnd_objects (s : State) : s.signalWindowEnd.objects = s.objects := by
  rw [State.signalWindowEnd_eq]

@[simp] theorem State.signalWindowEnd_slot (s : State) : s.signalWindowEnd.slot = s.slot := by
  rw [State.signalWindowEnd_eq]

@[simp] theorem State.signalWindowEnd_supersede (s : State) : s.signalWindowEnd.supersede = s.supersede := by
  rw [State.signalWindowEnd_eq]

@[simp] theorem State.signalWindowEnd_nodes (s : State) : s.signalWindowEnd.nodes = s.nodes := by
  rw [State.signalWindowEnd_eq]

@[simp] theorem State.signalWindowEnd_queue (s : State) : s.signalWindowEnd.queue = s.queue := by
  rw [State.signalWindowEnd_eq]

@[simp] theorem State.signalWindowEnd_lost (s : State) : s.signalWindowEnd.lost = s.lost := by
  rw [State.signalWindowEnd_eq]

@[simp] theorem State.signalWindowEnd_flags (s : State) : s.signalWindowEnd.flags = s.flags := by
  rw [State.signalWindowEnd_eq]

@[simp] theorem State.signalWindowEnd_enables (s : State) : s.signalWindowEnd.enables = s.enables := by
  rw [State.signalWindowEnd_eq]

@[simp] theorem State.signalWindowEnd_pending (s : State) : s.signalWindowEnd.pending = s.pending := by
  rw [State.signalWindowEnd_eq]

@[simp] theorem State.signalWindowEnd_bank (s : State) (b : BankId) : s.signalWindowEnd.bank b = s.bank b := by
  cases b <;> simp [State.bank]

@[simp] theorem State.signalWindowEnd_syncLate (s : State) : s.signalWindowEnd.engine.syncLate = s.engine.syncLate := by
  unfold State.signalWindowEnd
  split
  · split <;> rfl
  · rfl

/-- The flight after a window end: the same but for its counted overrun, which is set only in an exchange (R20). -/
theorem State.signalWindowEnd_flight (s : State) :
    s.signalWindowEnd.engine.flight = s.engine.flight ∨
      ∃ fl n kind, s.engine.flight = some fl ∧ fl.carried = .exchange n kind ∧
        s.signalWindowEnd.engine.flight = some { fl with overran := true } := by
  unfold State.signalWindowEnd
  split
  · rename_i fl hw hf
    split
    · rename_i ho
      have hx : ∃ n kind, fl.carried = .exchange n kind := by
        cases hc : fl.carried with
        | sync => simp [Flight.overruns, hc] at ho
        | exchange n kind => exact ⟨n, kind, rfl⟩
      obtain ⟨n, kind, hc⟩ := hx
      exact .inr ⟨fl, n, kind, hf, hc, rfl⟩
    · exact .inl rfl
  · exact .inl rfl

/-- What a window end does to the engine depends on the window, the engine and Line Time alone. -/
theorem State.signalWindowEnd_engine_congr {s t : State} (hw : t.cycle.window = s.cycle.window)
    (he : t.engine = s.engine) (hl : t.lineTime = s.lineTime) : t.signalWindowEnd.engine = s.signalWindowEnd.engine := by
  unfold State.signalWindowEnd
  rw [hw, he, hl]
  split
  · split
    · rfl
    · exact he
  · exact he

/-- Whether the line is busy at a cycle start does not depend on a counted overrun (R37). -/
@[simp] theorem State.signalWindowEnd_busyAtCycleStart (s : State) :
    s.signalWindowEnd.busyAtCycleStart = s.busyAtCycleStart := by
  unfold State.signalWindowEnd
  split
  · split
    · simp [State.busyAtCycleStart, *, Flight.gapEndsAt]
    · rfl
  · rfl

theorem State.busyAtCycleStart_congr {s t : State} (he : t.engine = s.engine) (hl : t.lineTime = s.lineTime) :
    t.busyAtCycleStart = s.busyAtCycleStart := by
  unfold State.busyAtCycleStart; rw [he, hl]

/-! ### The next window -/

/-- A window boundary reaches the window and the window end alone (R30). -/
theorem State.nextWindow_eq (s : State) (b : BankId) (w : Fin 64) :
    s.nextWindow b w = { s with cycle := { s.cycle with
      window := (s.nextWindow b w).cycle.window, windowEnd := (s.nextWindow b w).cycle.windowEnd } } := by
  unfold State.nextWindow
  split
  · split <;> rfl
  · rfl

/-- The next entry's window begins when the entry is used (R30). -/
theorem State.nextWindow_used {s : State} {b : BankId} {w v : Fin 64} {d : Nat} (hv : v.val = w.val + 1)
    (h : (s.bank b).effective v.val = some d) :
    s.nextWindow b w = { s with cycle := { s.cycle with
      window := some v, windowEnd := s.lineTime + BitVec.ofNat 48 d } } := by
  unfold State.nextWindow
  rw [← hv, h]
  simp only [v.isLt, dif_pos]

/-- The idle tail begins when it is not (R30). -/
theorem State.nextWindow_unused {s : State} {b : BankId} {w : Fin 64} (h : (s.bank b).effective (w.val + 1) = none) :
    s.nextWindow b w = { s with cycle := { s.cycle with window := none } } := by
  unfold State.nextWindow
  rw [h]

/-! ### A cycle start and a switch instant -/

/-- A cycle start reaches the Cycle Timer, the sync-late counter and the CYCLE_START flag alone (R28, R36, R37, R159). -/
theorem State.beginCycle_eq (s : State) (b : BankId) (number : BitVec 32) :
    s.beginCycle b number = { s with
      cycle := (s.beginCycle b number).cycle
      engine := { s.engine with syncLate := (s.beginCycle b number).engine.syncLate }
      flags := { s.flags with cycleStart := true } } := rfl

@[simp] theorem State.beginCycle_bank (s : State) (b c : BankId) (number : BitVec 32) :
    (s.beginCycle b number).bank c = s.bank c := by
  cases c <;> rfl

@[simp] theorem State.beginCycle_flight (s : State) (b : BankId) (number : BitVec 32) :
    (s.beginCycle b number).engine.flight = s.engine.flight := rfl

@[simp] theorem State.takeRoles_bank (s : State) (b c : BankId) : (s.takeRoles b).bank c = s.bank c := by
  cases c <;> rfl

@[simp] theorem State.recordSwitch_bank (s : State) (c : BankId) : s.recordSwitch.bank c = s.bank c := by
  cases c <;> rfl

end Sys2Proof.Machine
end

