-- ==== Sys2Proof/Laws/Results.lean ====
section
/-! SUPPORT. What the report of an attempt can do, said once: the Node Table's part (R144 to R147), the Object Table's part
(R103 to R106), and the line fault, the end of STOPPING and the look at GAP_END (R12, R77, R121). -/

namespace Sys2Proof.Machine

/-! ### The Node Table's part -/

/-- A report reaches the node records and the two flags of the Node Table alone (R144, R147). -/
theorem State.nodeReport_eq (s : State) (kind : ExchangeKind) (address : BitVec 5) (r : AttemptResult) :
    s.nodeReport kind address r = { s with
      nodes := (s.nodeReport kind address r).nodes
      flags := { s.flags with
        attention := (s.nodeReport kind address r).flags.attention
        nodeSilent := (s.nodeReport kind address r).flags.nodeSilent } } := by
  unfold State.nodeReport State.nodeAnswered State.nodeMissed
  cases r <;> simp only
  case noReply =>
    split
    · rfl
    · split <;> rfl
  all_goals first | rfl | (split <;> rfl)

@[simp] theorem State.nodeReport_objects (s : State) (k : ExchangeKind) (a : BitVec 5) (r : AttemptResult) :
    (s.nodeReport k a r).objects = s.objects := by rw [State.nodeReport_eq]

@[simp] theorem State.nodeReport_object (s : State) (k : ExchangeKind) (a : BitVec 5) (r : AttemptResult) (n : Fin 32) :
    (s.nodeReport k a r).object n = s.object n := by unfold State.object; simp

@[simp] theorem State.nodeReport_slot (s : State) (k : ExchangeKind) (a : BitVec 5) (r : AttemptResult) :
    (s.nodeReport k a r).slot = s.slot := by rw [State.nodeReport_eq]

@[simp] theorem State.nodeReport_engine (s : State) (k : ExchangeKind) (a : BitVec 5) (r : AttemptResult) :
    (s.nodeReport k a r).engine = s.engine := by rw [State.nodeReport_eq]

@[simp] theorem State.nodeReport_config (s : State) (k : ExchangeKind) (a : BitVec 5) (r : AttemptResult) :
    (s.nodeReport k a r).config = s.config := by rw [State.nodeReport_eq]

@[simp] theorem State.nodeReport_figures (s : State) (k : ExchangeKind) (a : BitVec 5) (r : AttemptResult) :
    (s.nodeReport k a r).figures = s.figures := by rw [State.nodeReport_eq]

@[simp] theorem State.nodeReport_sched (s : State) (k : ExchangeKind) (a : BitVec 5) (r : AttemptResult) :
    (s.nodeReport k a r).sched = s.sched := by rw [State.nodeReport_eq]

@[simp] theorem State.nodeReport_sw (s : State) (k : ExchangeKind) (a : BitVec 5) (r : AttemptResult) :
    (s.nodeReport k a r).sw = s.sw := by rw [State.nodeReport_eq]

@[simp] theorem State.nodeReport_cycle (s : State) (k : ExchangeKind) (a : BitVec 5) (r : AttemptResult) :
    (s.nodeReport k a r).cycle = s.cycle := by rw [State.nodeReport_eq]

@[simp] theorem State.nodeReport_activeBank (s : State) (k : ExchangeKind) (a : BitVec 5) (r : AttemptResult) :
    (s.nodeReport k a r).activeBank = s.activeBank := by rw [State.nodeReport_eq]

@[simp] theorem State.nodeReport_bank (s : State) (k : ExchangeKind) (a : BitVec 5) (r : AttemptResult) (b : BankId) :
    (s.nodeReport k a r).bank b = s.bank b := by
  cases b <;> (unfold State.bank; simp only; rw [State.nodeReport_eq])

@[simp] theorem State.nodeReport_lineTime (s : State) (k : ExchangeKind) (a : BitVec 5) (r : AttemptResult) :
    (s.nodeReport k a r).lineTime = s.lineTime := by rw [State.nodeReport_eq]

@[simp] theorem State.nodeReport_port (s : State) (k : ExchangeKind) (a : BitVec 5) (r : AttemptResult) :
    (s.nodeReport k a r).port = s.port := by rw [State.nodeReport_eq]

@[simp] theorem State.nodeReport_queue (s : State) (k : ExchangeKind) (a : BitVec 5) (r : AttemptResult) :
    (s.nodeReport k a r).queue = s.queue := by rw [State.nodeReport_eq]

@[simp] theorem State.nodeReport_pending (s : State) (k : ExchangeKind) (a : BitVec 5) (r : AttemptResult) :
    (s.nodeReport k a r).pending = s.pending := by rw [State.nodeReport_eq]

@[simp] theorem State.nodeReport_enables (s : State) (k : ExchangeKind) (a : BitVec 5) (r : AttemptResult) :
    (s.nodeReport k a r).enables = s.enables := by rw [State.nodeReport_eq]

@[simp] theorem State.nodeReport_supersede (s : State) (k : ExchangeKind) (a : BitVec 5) (r : AttemptResult) :
    (s.nodeReport k a r).supersede = s.supersede := by rw [State.nodeReport_eq]

/-- The address of the node with index i names its record (R143). -/
theorem nodeIndex_address {address : BitVec 5} {i : Fin 30} (h : i.val + 1 = address.toNat) :
    nodeIndex address = some i := by
  unfold nodeIndex
  have := i.isLt
  rw [dif_pos (by omega)]
  congr 1
  apply Fin.ext; simp; omega

/-- The record of a node that is not addressed stays (R144). -/
theorem State.nodeReport_other (s : State) (k : ExchangeKind) {a : BitVec 5} (r : AttemptResult) {i : Fin 30}
    (h : i.val + 1 ≠ a.toNat) : (s.nodeReport k a r).nodeRecord i = s.nodeRecord i := by
  have ha : ∀ j, nodeIndex a = some j → j ≠ i := by
    rintro j hj rfl
    unfold nodeIndex at hj
    split at hj
    · injection hj with hj; subst hj; simp at h; omega
    · cases hj
  unfold State.nodeReport State.nodeAnswered State.nodeMissed
  cases r <;> simp only
  case noReply =>
    split
    · rfl
    · rename_i j hj
      have e := ha j hj
      split <;> simp [State.nodeRecord, State.setNode, Fin.val_inj, e]
  all_goals first
    | rfl
    | (split
       · rfl
       · rename_i j hj
         have e := ha j hj
         simp [State.nodeRecord, State.setNode, Fin.val_inj, e])

/-! ### The Object Table's part -/

/-- Applying a result that does not silence the node is work on its object (R103). -/
theorem State.workOn_applyResult (s : State) (n : Fin 32) (a : BitVec 5) (r : AttemptResult) :
    s.WorkOn (s.applyResult n a r false) n := by
  have h := s.workOn_modifyObject n (fun o => { o with
    attempts := o.attempts + 1, delivered := o.delivered || r != .collision }) rfl rfl
  unfold State.applyResult
  cases r <;> simp only [Bool.false_eq_true, if_false]
  case data =>
    exact (h.trans (State.workOn_modifyObject _ n _ rfl rfl)).trans (State.workOn_finish _ n _)
  case ack => exact h.trans (State.workOn_finish _ n _)
  case nakReject => exact h.trans (State.workOn_finish _ n _)
  all_goals exact h.trans (State.workOn_retryOr _ n _)

/-- Finishing every request to a SILENT node is work on the table (R106). -/
theorem State.workOnTable_finishAllTo (s : State) (n : Fin 32) (a : BitVec 5) : s.WorkOnTable (s.finishAllTo n a) := by
  unfold State.finishAllTo
  refine (s.workOn_finish n .nodeSilent).onTable.trans (State.workOnTable_forEachObject (fun m t => ?_) _)
  split
  · exact (t.workOn_finish m _).onTable
  · exact .refl t

/-- Applying a result is work on the table (R103, R106). -/
theorem State.workOnTable_applyResult (s : State) (n : Fin 32) (a : BitVec 5) (r : AttemptResult) (silent : Bool) :
    s.WorkOnTable (s.applyResult n a r silent) := by
  cases silent with
  | false => exact (s.workOn_applyResult n a r).onTable
  | true =>
    unfold State.applyResult
    exact (s.workOn_modifyObject n (fun o => { o with
      attempts := o.attempts + 1, delivered := o.delivered || r != .collision }) rfl rfl).onTable.trans
      (State.workOnTable_finishAllTo _ n a)

/-! ### The end of GAP -/

/-- No line fault but at a third collision (R12). -/
theorem State.raiseFault_none (s : State) {r : AttemptResult} (h : ¬(r = .collision ∧ s.engine.collisions = 3)) :
    s.raiseFault r = s := by
  unfold State.raiseFault; rw [if_neg h]

/-- Nothing ends but STOPPING (R77). -/
theorem State.endStopping_none (s : State) (h : s.sched ≠ .stopping) : s.endStopping = s := by
  unfold State.endStopping; rw [if_neg h]

/-- The end of an attempt leaves what `afterLineIdle` writes out (R12, R77, R121). -/
theorem State.endOfAttempt_eq (s : State) (r : AttemptResult) :
    ((s.raiseFault r).endStopping).look = s.afterLineIdle (decide (r = .collision ∧ s.engine.collisions = 3)) := by
  by_cases hf : r = .collision ∧ s.engine.collisions = 3
  · have e : s.raiseFault r = { s with
        flags := { s.flags with lineFault := true }, sched := if s.sched = .running then .halted else s.sched } := by
      unfold State.raiseFault; rw [if_pos hf]
    rw [e, decide_eq_true hf]
    unfold State.afterLineIdle State.endStopping
    by_cases hs : s.sched = .stopping
    · simp only [hs, reduceCtorEq, if_false, if_true]
      rw [State.look_of_not_running (by simp [State.goOff])]
      simp [State.goOff]
    · have h1 : (if s.sched = .running then SchedState.halted else s.sched) ≠ .stopping := by split <;> simp_all
      have h2 : (if s.sched = .running then SchedState.halted else s.sched) ≠ .running := by split <;> simp_all
      simp only [if_neg hs, if_neg h1, if_true]
      exact State.look_of_not_running h2
  · rw [State.raiseFault_none s hf, decide_eq_false hf]
    unfold State.afterLineIdle State.endStopping
    by_cases hs : s.sched = .stopping
    · simp only [if_pos hs]
      rw [State.look_of_not_running (by simp [State.goOff])]
      simp [State.goOff]
    · simp only [if_neg hs, Bool.false_eq_true, if_false]

/-- GAP_END at its tick is the end of the attempt (R18). -/
theorem execGapEnd_eq {s : State} {fl : Flight} {r : AttemptResult} (hf : s.engine.flight = some fl)
    (hp : fl.phase = .gap r) (ht : fl.mark + BitVec.ofNat 48 (4 * fl.bitRate.ticksPerBit) = s.lineTime) :
    execGapEnd s = .next (s.endGap fl r) := by
  unfold execGapEnd
  rw [hf]
  simp only [hp, State.bitsUp, afterBits, Config.gapBits, ht, beq_self_eq_true, if_true]

end Sys2Proof.Machine
end

