-- ==== Sys2Proof/Laws/Schedule.lean ====
section
/-! SUPPORT. What the layout of a bank's entries and the largest usable duration are, said once (R29, R53). -/

namespace Sys2Proof.Machine

/-- The sum of the Durations of the entries before entry i. -/
def durationsBefore (es : List Entry) (i : Nat) : Nat := ((es.take i).map (fun e => e.duration.toNat)).sum

@[simp] theorem durationsBefore_zero (es : List Entry) : durationsBefore es 0 = 0 := rfl

@[simp] theorem durationsBefore_nil (i : Nat) : durationsBefore [] i = 0 := by simp [durationsBefore]

@[simp] theorem durationsBefore_cons (e : Entry) (es : List Entry) (i : Nat) :
    durationsBefore (e :: es) (i + 1) = e.duration.toNat + durationsBefore es i := by simp [durationsBefore]

/-- Entry i of a layout: used while the Durations before it do not fill the cycle, and cut at the cycle end (R29). -/
theorem layout_getElem? (es : List Entry) (left i : Nat) :
    (layout left es)[i]? = es[i]?.bind (fun e =>
      if durationsBefore es i < left then some (e, min e.duration.toNat (left - durationsBefore es i)) else none) := by
  induction es generalizing left i with
  | nil => simp [layout]
  | cons e es ih =>
    unfold layout
    by_cases h : left = 0
    · simp [h]
    · cases i with
      | zero => simp [h, Nat.pos_of_ne_zero h]
      | succ i =>
        simp only [h, if_false, List.getElem?_cons_succ, ih, durationsBefore_cons]
        cases es[i]? with
        | none => rfl
        | some x =>
          simp only [Option.bind_some]
          by_cases h1 : durationsBefore es i < left - min e.duration.toNat left
          · rw [if_pos h1, if_pos (by omega)]
            congr 3; omega
          · rw [if_neg h1, if_neg (by omega)]

/-- Entry i of the list, below List Length (R29). -/
theorem Bank.listed_getElem? (bk : Bank) (i : Fin 64) :
    bk.listed[i.val]? = if i.val < bk.listLength.toNat then some bk.entries[i.val] else none := by
  unfold Bank.listed
  rw [List.getElem?_take]
  split
  · rw [List.getElem?_eq_getElem (by simp)]; simp
  · rfl

/-- A used entry with its effective duration (R29). -/
theorem Bank.used_getElem? (bk : Bank) (i : Fin 64) :
    bk.used[i.val]? = (bk.effective i.val).map (fun d => (bk.entries[i.val], d)) := by
  unfold Bank.effective Bank.used
  rw [layout_getElem?, Bank.listed_getElem?]
  split
  · simp only [Option.bind_some]; split <;> rfl
  · rfl

/-- The effective duration of entry i (R29). -/
theorem Bank.effective_eq (bk : Bank) (i : Fin 64) :
    bk.effective i.val =
      if i.val < bk.listLength.toNat ∧ durationsBefore bk.listed i.val < bk.cycleTime.toNat then
        some (min (bk.entries[i.val]).duration.toNat (bk.cycleTime.toNat - durationsBefore bk.listed i.val))
      else none := by
  unfold Bank.effective Bank.used
  rw [layout_getElem?, Bank.listed_getElem?]
  by_cases h : i.val < bk.listLength.toNat
  · by_cases h1 : durationsBefore bk.listed i.val < bk.cycleTime.toNat <;> simp [h, h1]
  · simp [h]

theorem layout_length_le (left : Nat) (es : List Entry) : (layout left es).length ≤ es.length := by
  induction es generalizing left with
  | nil => simp [layout]
  | cons e es ih =>
    unfold layout
    split
    · simp
    · simp only [List.length_cons]; have := ih (left - min e.duration.toNat left); omega

/-- No entry past the last is used. -/
theorem Bank.effective_past (bk : Bank) {i : Nat} (h : 64 ≤ i) : bk.effective i = none := by
  have h1 := layout_length_le bk.cycleTime.toNat bk.listed
  have h2 : bk.listed.length ≤ 64 := by simp [Bank.listed]
  unfold Bank.effective Bank.used
  rw [List.getElem?_eq_none (by omega)]; rfl

/-- The used entries are the effective durations of the 64 entries that have one (R29). -/
theorem Bank.mem_used (bk : Bank) (u : Entry × Nat) :
    u ∈ bk.used ↔ ∃ i : Fin 64, bk.effective i.val = some u.2 ∧ u.1 = bk.entries[i.val] := by
  rw [List.mem_iff_getElem?]
  constructor
  · rintro ⟨i, hi⟩
    have h64 : i < 64 := by
      by_contra hc
      have := bk.effective_past (i := i) (by omega)
      unfold Bank.effective at this; rw [hi] at this; cases this
    refine ⟨⟨i, h64⟩, ?_, ?_⟩
    · unfold Bank.effective; rw [hi]; rfl
    · have h := bk.used_getElem? ⟨i, h64⟩
      simp only at h
      rw [hi] at h
      cases he : bk.effective i with
      | none => rw [he] at h; cases h
      | some d => rw [he] at h; injection h with h; rw [h]
  · rintro ⟨i, hi, he⟩
    exact ⟨i.val, by rw [bk.used_getElem?, hi, ← he]; rfl⟩

/-- The usable duration of entry i (R52). -/
theorem Bank.usable_getElem? (bk : Bank) (rate : BitRate) (i : Fin 64) :
    (bk.usable rate)[i.val]? = (bk.effective i.val).map (fun d =>
      (bk.entries[i.val], if i.val = 0 ∧ bk.sync = true then d - syncTime rate else d)) := by
  have h := bk.used_getElem? i
  unfold Bank.usable
  cases hu : bk.used with
  | nil =>
    rw [hu] at h
    simp only [List.getElem?_nil] at h ⊢
    cases he : bk.effective i.val with
    | none => rfl
    | some d => rw [he] at h; cases h
  | cons u rest =>
    rw [hu] at h
    obtain ⟨e, d⟩ := u
    by_cases h0 : i.val = 0
    · simp only [h0, List.getElem?_cons_zero] at h ⊢
      cases he : bk.effective 0 with
      | none => rw [he] at h; cases h
      | some d' =>
        rw [he] at h
        simp only [Option.map_some, Option.some.injEq, Prod.mk.injEq] at h ⊢
        simp [h.1, h.2]
    · obtain ⟨k, hk⟩ := Nat.exists_eq_succ_of_ne_zero h0
      simp only [hk, Nat.succ_eq_add_one, List.getElem?_cons_succ] at h ⊢
      simpa using h

theorem longest_foldl (p : Entry → Bool) (us : List (Entry × Nat)) (m : Nat) :
    m ≤ us.foldl (fun m u => if p u.1 then max m u.2 else m) m ∧
    (∀ u ∈ us, p u.1 = true → u.2 ≤ us.foldl (fun m u => if p u.1 then max m u.2 else m) m) ∧
    (us.foldl (fun m u => if p u.1 then max m u.2 else m) m = m ∨
      ∃ u ∈ us, p u.1 = true ∧ u.2 = us.foldl (fun m u => if p u.1 then max m u.2 else m) m) := by
  induction us generalizing m with
  | nil => simp
  | cons u us ih =>
    simp only [List.foldl_cons, List.mem_cons, forall_eq_or_imp, exists_eq_or_imp]
    obtain ⟨h1, h2, h3⟩ := ih (if p u.1 then max m u.2 else m)
    by_cases hp : p u.1 = true
    · simp only [hp, if_true] at h1 h2 h3 ⊢
      refine ⟨by omega, ⟨fun _ => by omega, h2⟩, ?_⟩
      rcases h3 with h3 | h3
      · by_cases hm : u.2 ≤ m
        · exact .inl (by omega)
        · exact .inr (.inl ⟨trivial, by omega⟩)
      · exact .inr (.inr h3)
    · simp only [hp, if_false, Bool.false_eq_true] at h1 h2 h3 ⊢
      exact ⟨h1, ⟨by simp, h2⟩, by simpa using h3⟩

/-- The largest usable duration among the admitted entries bounds each, and is one of them unless none is admitted (R53). -/
theorem longest_spec (us : List (Entry × Nat)) (p : Entry → Bool) :
    (∀ u ∈ us, p u.1 = true → u.2 ≤ longest us p) ∧
    ((∃ u ∈ us, p u.1 = true ∧ u.2 = longest us p) ∨ longest us p = 0 ∧ ∀ u ∈ us, p u.1 = false) := by
  obtain ⟨-, h2, h3⟩ := longest_foldl p us 0
  refine ⟨h2, ?_⟩
  by_cases hn : ∃ u ∈ us, p u.1 = true
  · obtain ⟨u, hu, hp⟩ := hn
    refine .inl ?_
    rcases h3 with h3 | h3
    · have := h2 u hu hp
      exact ⟨u, hu, hp, by unfold longest; omega⟩
    · exact h3
  · refine .inr ⟨?_, fun u hu => by by_contra hc; exact hn ⟨u, hu, by simpa using hc⟩⟩
    rcases h3 with h3 | ⟨u, hu, hp, -⟩
    · exact h3
    · exact absurd ⟨u, hu, hp⟩ hn

end Sys2Proof.Machine
end

