-- ==== Sys2Proof/Tests/Slice0.lean ====
section
/-! SUPPORT. Tests of the model by evaluation: ill-formed terms, bus writes, the manual's worked figures and one step of each
kind; then, for each statement with hypotheses, states and operands that meet them. -/

namespace Sys2Proof.Tests

open Sys2Proof.Machine

set_option maxRecDepth 20000

/-! ## Helpers -/

/-- The next state of an outcome; the reset state where there is none. -/
def after (o : Host.Outcome State Fault Refusal) : State :=
  match o with
  | .next t => t
  | .fault _ | .refused _ => State.reset

/-- The five entries of the example of section 2.4. -/
def exampleEntries : Vector Entry 64 :=
  Vector.ofFn (fun i : Fin 64 =>
    match i.val with
    | 0 => { duration := 1200, classes := 1 }
    | 1 => { duration := 2000, classes := 6 }
    | 2 => { duration := 1500, classes := 8 }
    | 3 => { duration := 800, classes := 1 }
    | 4 => { duration := 600, classes := 2 }
    | _ => { duration := 0, classes := 0 })

/-- The bank of the example of section 2.4 under a setting of Cycle Time and List Length. -/
def exampleBank (cycle : BitVec 24) (length : BitVec 7) (sync : Bool) : Bank :=
  { baseTime := 0, cycleTime := cycle, listLength := length, sync := sync, entries := exampleEntries }

/-- Object 9 of section 5.6: a COMMAND with Length 8 to node 6, in class 1, with Attempt Limit 4. -/
def commandConfig : ObjConfig :=
  { kind := .command, node := 6, cls := 1, priority := 4, attemptLimit := 4, length := 8, replyLength := 0, lifetime := 0
    trigger := .host, period := 0, phase := 0, holdUnread := false }

/-- A POLL with Reply Length 16 to node 12 in class 3. -/
def pollConfig : ObjConfig :=
  { commandConfig with kind := .poll, node := 12, cls := 3, length := 0, replyLength := 16, holdUnread := true }

/-- Object n with a configuration and a state. -/
def withObject (s : State) (n : Fin 32) (c : ObjConfig) (st : ObjState) : State :=
  s.setObject n { s.object n with config := c, state := st }

/-- RUNNING on Bank A with the first layout of section 2.4, in window 1, the line idle and no SYNC owed. -/
def running : State :=
  { State.reset with
    bankA := exampleBank 5000 4 true, activeBank := some .bankA
    figures := some ((exampleBank 5000 4 true).figures .mbit1), sched := .running, lineTime := 1300
    cycle := { CycleTimer.reset with cycleNumber := 200, cycleEnd := 5000, window := some 1, windowEnd := 3200 } }

/-- Another scheduler state. -/
def inState (s : State) (x : SchedState) : State := { s with sched := x }

/-- Another Line Time. -/
def atTime (s : State) (t : Tick) : State := { s with lineTime := t }

/-- A switch pending toward a bank. -/
def withPending (s : State) (b : BankId) (instant : Tick) : State :=
  { s with sw := { s.sw with pending := true, target := some b, instant := instant } }

/-- ARMED toward Bank A with the instant at 5000. -/
def armed : State :=
  withPending (inState { State.reset with bankA := exampleBank 5000 4 true } .armed) .bankA 5000

/-- Object 9's exchange in flight from 1300 in a given state of the engine, whose count runs from `mark`. -/
def exchange (phase : Phase) (mark : Tick) : Flight :=
  { (withObject running 9 commandConfig .active).flightOf 9 with phase := phase, mark := mark }

/-- RUNNING with a flight in flight; object 9 ACTIVE. -/
def inFlight (fl : Flight) (now : Tick) : State :=
  let s := withObject running 9 commandConfig .active
  { s with lineTime := now, engine := { s.engine with flight := some fl } }

/-- A SYNC frame in flight. -/
def syncFlight (phase : Phase) (mark : Tick) : Flight :=
  { exchange phase mark with carried := .sync, node := 31, frame := syncFrame 200 }

/-- RUNNING with object 9's frame begun. -/
def busy : State := inFlight (exchange .sending 1300) 1300

/-- A staging buffer with a number of bytes received and given fields. -/
def heard (count : Nat) (address : BitVec 5) (type : BitVec 3) (tag : BitVec 5) (length : BitVec 8) : Staging :=
  { Staging.empty with address := address, type := type, tag := tag, length := length, count := count }

/-- A state with that staging buffer. -/
def hearing (fl : Flight) (now : Tick) (g : Staging) : State :=
  let s := inFlight fl now
  { s with engine := { s.engine with staging := g } }

/-! ## Ill-formed terms -/

theorem test_listed_code_is_no_unknown_command : (Instr.unknownCommand 0x11 0).wellFormed = false := by decide

theorem test_writable_offset_is_no_register_write : (Instr.registerWrite 52 0).wellFormed = false := by decide

theorem test_other_row_is_refused :
    exec (.unknownCommand 0x11 0) State.reset = .refused .otherRow ∧
      exec (.registerWrite 52 0) State.reset = .refused .otherRow := ⟨rfl, rfl⟩

/-! ## Bus writes (R162, register map 11.4) -/

theorem test_bus_write_switch_b : busWrite 0 0x0101 = .switch 1 := by decide

theorem test_bus_write_obj_request_9 : busWrite 0 0x090A = .objRequest 9 := by decide

theorem test_bus_write_unlisted_code : busWrite 0 0x0506 = .unknownCommand 6 5 := by decide

theorem test_bus_write_duration_high : busWrite 16 0x0F0F = .bankWrite .durationHigh 0x0F0F := by decide

theorem test_bus_write_last_payload : busWrite 33 0xABCD = .payloadWrite 7 0xABCD := by decide

theorem test_bus_write_unmapped : busWrite 64 1 = .registerWrite 64 1 := by decide

theorem test_table_words_have_no_bits : decodeTableWord 16 0x0101 = none := rfl

/-! ## The manual's worked figures -/

/-- The check value of R5. -/
theorem test_crc_check_value : crcOf [0x31, 0x32, 0x33, 0x34, 0x35, 0x36, 0x37, 0x38, 0x39] = 0x29B1 := by decide

/-- The four exchanges at 1 Mbit/s (section 1.8). -/
theorem test_worst_durations :
    (withObject running 0 commandConfig .idle).worst 0 = 904 ∧ (withObject running 0 pollConfig .idle).worst 0 = 1184 ∧
      (withObject running 0 { commandConfig with node := 31 } .idle).worst 0 = 536 ∧ syncTime .mbit1 = 296 := by decide

/-- The three layouts of section 2.4. -/
theorem test_layouts :
    (List.range 5).map (exampleBank 5000 4 true).effective = [some 1200, some 2000, some 1500, some 300, none] ∧
      (List.range 5).map (exampleBank 5000 3 true).effective = [some 1200, some 2000, some 1500, none, none] ∧
      (List.range 5).map (exampleBank 3000 4 true).effective = [some 1200, some 1800, none, none, none] := by decide

/-- The figures of section 3.6 at 1 Mbit/s and, in the first setting, at 500 kbit/s. -/
theorem test_figures :
    (exampleBank 5000 4 true).figures .mbit1 = { maxOpen := #v[904, 2000, 2000, 1500], maxAny := 2000 } ∧
      (exampleBank 3000 4 true).figures .mbit1 = { maxOpen := #v[904, 1800, 1800, 0], maxAny := 1800 } ∧
      ((exampleBank 5000 4 true).figures .kbit500).maxOpen[0] = 608 := by decide

/-- Entries 0 to 2 of a bank of section 3.5's table. -/
def threeEntries (a b c : Entry) : Vector Entry 64 :=
  ((Bank.reset.entries.set 0 a).set 1 b).set 2 c

/-- The examples of validation of section 3.5. -/
theorem test_validation :
    Bank.reset.firstFault .mbit1 = some .length ∧
      ({ Bank.reset with
        listLength := 3, cycleTime := 50, entries := threeEntries ⟨16, 0⟩ ⟨16, 0⟩ ⟨10, 0⟩ } : Bank).firstFault .mbit1 =
          some .cycle ∧
      ({ Bank.reset with
        listLength := 3, cycleTime := 3000, entries := threeEntries ⟨1200, 0⟩ ⟨1800, 0⟩ ⟨10, 8⟩ } : Bank).firstFault
          .mbit1 = some .entry ∧
      ({ Bank.reset with
        listLength := 3, cycleTime := 3000, entries := threeEntries ⟨1200, 0⟩ ⟨1800, 0⟩ ⟨1500, 8⟩ } : Bank).firstFault
          .mbit1 = some .allClosed := by decide

/-- The last two of those examples. -/
theorem test_validation_sync_room :
    ({ Bank.reset with
      listLength := 2, cycleTime := 3000, sync := true
      entries := threeEntries ⟨200, 1⟩ ⟨2800, 2⟩ ⟨0, 0⟩ } : Bank).firstFault .mbit1 = some .syncRoom ∧
      ({ Bank.reset with
        listLength := 2, cycleTime := 3000, sync := true
        entries := threeEntries ⟨200, 1⟩ ⟨2800, 2⟩ ⟨0, 0⟩ } : Bank).firstFault .mbit2 = none ∧
      ({ Bank.reset with
        listLength := 2, cycleTime := 3000, sync := true
        entries := threeEntries ⟨300, 1⟩ ⟨2800, 2⟩ ⟨0, 0⟩ } : Bank).firstFault .mbit1 = none := by decide

/-- The late counts and instants of section 4.9. -/
theorem test_late_counts :
    (reckon 2502000 1000000 4000).1 = 376 ∧ reckon 2504404 2300000 4000 = (52, 2508000) ∧
      (reckon 2503900 2300000 4000).1 = 51 := by decide

/-! ## One step -/

theorem test_step_takes_front_command :
    (after (step { State.reset with pending := [.eventEnablesWrite 0x01FF, .pinReset] })).enables = 0x1FF ∧
      (after (step { State.reset with pending := [.eventEnablesWrite 0x01FF, .pinReset] })).pending = [.pinReset] := by
  decide

theorem test_request_in_an_open_window_goes_out :
    ((after (exec (.objRequest 9) (withObject running 9 commandConfig .idle))).object 9).state = .active ∧
      ((after (exec (.objRequest 9) (withObject running 9 commandConfig .idle))).engine.flight.map (·.frameBound)) =
        some 2204 := by decide

/-- The POLL's W of 1184 ticks is above the 904 of class 0 (section 3.6). -/
theorem test_request_that_never_fits :
    (after (exec (.objRequest 3) (withObject running 3 { pollConfig with cls := 0 } .idle))).queue.map (·.outcome) =
      [.noFit] := by decide

theorem test_node_select_wraps :
    (after (exec (.selectWrite .node 0) State.reset)).readHalfword 42 = 30 ∧
      (after (exec (.selectWrite .node 31) State.reset)).readHalfword 42 = 1 := by decide

theorem test_reply_timeout_coerced :
    (after (exec (.lineConfigurationWrite .timeoutAndLate 0xFF07) State.reset)).readHalfword 8 = 0xFF08 := by decide

theorem test_first_start : (after (exec .switchInstant (atTime armed 5000))).sched = .running ∧
    (after (exec .switchInstant (atTime armed 5000))).cycle.cycleNumber = 0 ∧
    (after (exec .switchInstant (atTime armed 5000))).ldeAsserted = true := by decide

theorem test_reset_map :
    (after (exec .pinReset busy)).readHalfword 7 = 0x0301 ∧ (after (exec .pinReset busy)).readHalfword 59 = 0x00FF ∧
      (after (exec .pinReset busy)).readHalfword 43 = 0x0080 := by decide

/-- The port with RESET# high and a number of ticks to wait (R167). -/
def waiting (n : Nat) : State := { State.reset with port := { HostPort.reset with wait := n } }

/-- The port with RESET# low. -/
def held : State := { State.reset with port := { HostPort.reset with resetLow := true } }

/-- Reads at the offsets whose pin reset value is not 0000h, before and after the 2 µs are over (R167, register map). -/
theorem test_reads_around_reset :
    [7, 8, 42, 43, 59].map (waiting 1).hostRead = List.replicate 5 (some 0) ∧
      [7, 8, 42, 43, 59].map held.hostRead = List.replicate 5 none ∧
      [7, 8, 42, 43, 59].map (waiting 0).hostRead = [some 0x0301, some 0x0020, some 1, some 0x0080, some 0x00FF] := by
  decide

/-- RUNNING (2) with Bank A ACTIVE, in window 1; object 9 ACTIVE, seen through the object select (register map). -/
theorem test_status_reads :
    running.readHalfword 1 = 0x000A ∧ running.readHalfword 59 = 1 ∧
      ({ busy with port := { busy.port with objectSelect := 9 } } : State).readHalfword 22 = 0x0003 := by decide

/-- The head record of object 31, DONE, in no window (register map). -/
theorem test_head_reads :
    let s : State := { State.reset with queue := [State.reset.completionOf 31 .done] }
    s.readHalfword 46 = 0x803F ∧ s.readHalfword 48 = 0x00FF := by decide

/-! ## Where the hypotheses of the statements are met -/

theorem test_met_StepRunsFrontCommand : State.reset.pending = [] ∧
    ({ State.reset with pending := [.schedStop] } : State).pending = .schedStop :: [] := by decide

theorem test_met_BusWritesAndCommandsAgree :
    (Instr.switch 255).wellFormed = true ∧ busWord (.switch 255) = some (0, 0xFF01) ∧
      (Instr.registerWrite 127 7).wellFormed = true ∧ busWord (.registerWrite 127 7) = some (127, 7) ∧
      (1 : BitVec 7) ≠ 0 := by decide

theorem test_met_CommandsOfTheirRowComplete :
    (Instr.unknownCommand 0x00 0).wellFormed = true ∧ (Instr.unknownCommand 0xFF 0).wellFormed = true ∧
      (Instr.registerWrite 1 0).wellFormed = true ∧ (Instr.registerWrite 127 0).wellFormed = true ∧
      (Instr.unknownCommand 0x01 0).wellFormed = false ∧ (Instr.registerWrite 0 0).wellFormed = false := by decide

theorem test_met_ReadsAnswerAndIgnoredAccessesChangeNothing :
    (waiting 1).portAnswers = false ∧ (waiting 1).port.resetLow = false ∧
      (busWord (.objRequest 3)).isSome = true ∧ (Instr.objRequest 3).wellFormed = true ∧
      held.portAnswers = false ∧ held.port.resetLow = true ∧ (waiting 0).portAnswers = true ∧
      64 ≤ (64 : BitVec 7).toNat ∧ 64 ≤ (127 : BitVec 7).toNat ∧
      isWritableOffset 1 = false ∧ isWritableOffset 6 = false ∧ isWritableOffset 54 = false ∧
      isWritableOffset 127 = false := by decide

/-- RESET# held low with a rise and a number of ticks waiting. -/
def heldLow (n : Nat) : State :=
  { State.reset with
    port := { HostPort.reset with resetLow := true }, pending := .resetRelease :: List.replicate n .lineTimeTick }

theorem test_met_ResetReleaseAndTicks :
    (heldLow 0).port.resetLow = true ∧ State.reset.port.resetLow = false ∧
      (heldLow 0).pending = .resetRelease :: List.replicate 0 .lineTimeTick ∧
      (heldLow 7).pending = .resetRelease :: List.replicate 7 .lineTimeTick ∧
      (heldLow 8).pending = .resetRelease :: List.replicate 8 .lineTimeTick := by decide

theorem test_met_LineTimeReadLatches :
    ({ State.reset with
      lineTime := 0xFFFFFFFFFFFF, pending := .lineTimeLowRead :: List.replicate 1 .lineTimeTick } : State).portAnswers =
        true ∧
      ({ State.reset with
        lineTime := 0xFFFFFFFFFFFF, pending := .lineTimeLowRead :: List.replicate 1 .lineTimeTick } : State).pending =
        .lineTimeLowRead :: List.replicate 1 .lineTimeTick := by decide

/-- Each clause on a used entry has one: entry 0 of the example opens class 0 and not class 1. -/
theorem test_met_FiguresAreLongestWindows :
    (exampleBank 5000 4 true).effective 0 = some 1200 ∧
      ((exampleBank 5000 4 true).entries[0]).classes.getLsbD 0 = true ∧
      ((exampleBank 5000 4 true).entries[0]).classes ≠ 0 := by decide

/-- The frame bound 0, 1, 2^47 and 2^47 + 1 ticks ahead of Line Time. -/
theorem test_met_InstantIsFirstGridPoint_reference :
    State.reset.engine.flight = none ∧
      (inFlight (exchange .sending 1300) 2203).engine.flight = some (exchange .sending 1300) ∧
      ((exchange .sending 1300).frameBound - (2203 : Tick)).toNat = 1 ∧
      ((exchange .sending 1300).frameBound - (2204 : Tick)).toNat = 0 ∧
      ((exchange .sending 1300).frameBound - ((exchange .sending 1300).frameBound - BitVec.ofNat 48 (2 ^ 47))).toNat =
        2 ^ 47 ∧
      ((exchange .sending 1300).frameBound - ((exchange .sending 1300).frameBound - BitVec.ofNat 48 (2 ^ 47 + 1))).toNat =
        2 ^ 47 + 1 := by decide

/-- The Base Time at U, one tick behind it, and half the range behind it, at both ends of the Cycle Time. -/
theorem test_met_InstantIsFirstGridPoint :
    reckon 100 100 64 = (0, 100) ∧ reckon 101 100 64 = (1, 164) ∧
      reckon 101 100 (2 ^ 24 - 1) = (1, BitVec.ofNat 48 (100 + (2 ^ 24 - 1))) ∧
      reckon (BitVec.ofNat 48 (2 ^ 47)) 0 64 = (0, 0) ∧ (reckon (BitVec.ofNat 48 (2 ^ 47 - 1)) 0 64).1 = 2 ^ 41 := by decide

theorem test_met_SwitchRefusedOrFailed_refused :
    State.reset.portAnswers = true ∧ 2 ≤ (2 : BitVec 8).toNat ∧ (0 : BitVec 8) = BankId.bankA.argument ∧
      armed.sched = .armed ∧ (inState busy .stopping).sched = .stopping ∧
      (withPending running .bankB 9000).sw.pending = true ∧
      (running.sched ≠ .armed ∧ running.sched ≠ .stopping ∧ running.sw.pending = false ∧
        running.activeBank = some .bankA) := by decide

/-- One tick after a Base Time of 0 with a Late Limit of 0. -/
def oneTickLate (limit : BitVec 8) : State :=
  { State.reset with
    bankA := exampleBank 5000 4 true, lineTime := 1, config := { LineConfig.reset with lateLimit := limit } }

theorem test_met_SwitchRefusedOrFailed_failed :
    (State.reset.portAnswers = true ∧ State.reset.sched ≠ .armed ∧ State.reset.sched ≠ .stopping ∧
      State.reset.sw.pending = false ∧ State.reset.activeBank ≠ some .bankA ∧
      (State.reset.bank .bankA).firstFault State.reset.config.bitRate = some .length) ∧
    ((oneTickLate 0).portAnswers = true ∧ (oneTickLate 0).sched ≠ .armed ∧ (oneTickLate 0).sched ≠ .stopping ∧
      (oneTickLate 0).sw.pending = false ∧ (oneTickLate 0).activeBank ≠ some .bankA ∧
      ((oneTickLate 0).bank .bankA).firstFault (oneTickLate 0).config.bitRate = none ∧
      reckon (oneTickLate 0).referenceTime ((oneTickLate 0).bank .bankA).baseTime
        ((oneTickLate 0).bank .bankA).cycleTime.toNat = (1, 5000) ∧
      (oneTickLate 0).config.lateLimit.toNat < 1) := by decide

theorem test_met_SwitchPasses :
    ((oneTickLate 1).portAnswers = true ∧ (oneTickLate 1).sched ≠ .armed ∧ (oneTickLate 1).sched ≠ .stopping ∧
      (oneTickLate 1).sw.pending = false ∧ (oneTickLate 1).activeBank ≠ some .bankA ∧
      ((oneTickLate 1).bank .bankA).firstFault (oneTickLate 1).config.bitRate = none ∧
      reckon (oneTickLate 1).referenceTime ((oneTickLate 1).bank .bankA).baseTime
        ((oneTickLate 1).bank .bankA).cycleTime.toNat = (1, 5000) ∧
      1 ≤ (oneTickLate 1).config.lateLimit.toNat ∧ (5000 : Tick) ≠ (oneTickLate 1).lineTime) ∧
    (reckon (atTime (oneTickLate 0) 0).referenceTime ((oneTickLate 0).bank .bankA).baseTime
        ((oneTickLate 0).bank .bankA).cycleTime.toNat = (0, 0) ∧
      (0 : Tick) = (atTime (oneTickLate 0) 0).lineTime) := by decide

theorem test_met_SwitchInstantStartsBank :
    (atTime armed 5000).sw.pending = true ∧ (atTime armed 5000).sw.target = some .bankA ∧
      (atTime armed 5000).sw.instant = (atTime armed 5000).lineTime ∧
      ((atTime armed 5000).bank .bankA).effective 0 = some 1200 := by decide

theorem test_met_SwitchCancelEndsPending :
    armed.portAnswers = true ∧ armed.sw.pending = true ∧ State.reset.portAnswers = true ∧
      State.reset.sw.pending = false := by decide

theorem test_met_SchedStopAndResumeByState :
    State.reset.portAnswers = true ∧ State.reset.sched = .off ∧ armed.portAnswers = true ∧ armed.sched = .armed ∧
      running.portAnswers = true ∧ running.sched = .running ∧ running.engine.flight = none ∧ busy.portAnswers = true ∧
      busy.sched = .running ∧ busy.engine.flight ≠ none ∧ (inState running .halted).portAnswers = true ∧
      (inState running .halted).sched = .halted := by decide

theorem test_met_LineResetClearsLineSide : busy.portAnswers = true ∧ (busy.object 9).state = .active := by decide

theorem test_met_CycleStartOnGrid :
    (atTime running 5000).activeBank = some .bankA ∧ (atTime running 5000).cycle.cycleEnd = (atTime running 5000).lineTime ∧
      ¬((atTime running 5000).sw.pending = true ∧ (atTime running 5000).sw.instant = (atTime running 5000).lineTime) ∧
      ((atTime running 5000).bank .bankA).effective 0 = some 1200 := by decide

/-- Window 2 of the second layout, whose end begins the idle tail. -/
def lastWindow : State :=
  { atTime running 4700 with
    bankA := exampleBank 5000 3 true, cycle := { running.cycle with window := some 2, windowEnd := 4700 } }

theorem test_met_WindowsEndAndPulsesEnd_boundary :
    ((atTime running 3200).activeBank = some .bankA ∧ (atTime running 3200).cycle.window = some 1 ∧
      (atTime running 3200).cycle.windowEnd = (atTime running 3200).lineTime ∧
      (atTime running 3200).cycle.cycleEnd ≠ (atTime running 3200).lineTime ∧
      ¬((atTime running 3200).sw.pending = true ∧ (atTime running 3200).sw.instant = (atTime running 3200).lineTime) ∧
      (2 : Fin 64).val = (1 : Fin 64).val + 1 ∧
      ((atTime running 3200).bank .bankA).effective (2 : Fin 64).val = some 1500) ∧
    (lastWindow.activeBank = some .bankA ∧ lastWindow.cycle.window = some 2 ∧
      lastWindow.cycle.windowEnd = lastWindow.lineTime ∧ lastWindow.cycle.cycleEnd ≠ lastWindow.lineTime ∧
      ¬(lastWindow.sw.pending = true ∧ lastWindow.sw.instant = lastWindow.lineTime) ∧
      (lastWindow.bank .bankA).effective ((2 : Fin 64).val + 1) = none) := by decide

theorem test_met_WindowsEndAndPulsesEnd_overrun :
    State.reset.cycle.window = none ∧ running.engine.flight = none ∧
      (inFlight (syncFlight .sending 1300) 1300).engine.flight = some (syncFlight .sending 1300) ∧
      (syncFlight .sending 1300).carried = .sync ∧
      ({ exchange .sending 1300 with overran := true } : Flight).overran = true ∧
      (exchange (.gap .badReply) 3184).phase = .gap .badReply ∧
      (exchange (.gap .badReply) 3184).mark + BitVec.ofNat 48 (4 * (exchange (.gap .badReply) 3184).bitRate.ticksPerBit) =
        (inFlight (exchange (.gap .badReply) 3184) 3200).lineTime := by decide

theorem test_met_WindowsEndAndPulsesEnd_counted :
    (inFlight (exchange .draining 3000) 3200).cycle.window ≠ none ∧
      (exchange .draining 3000).carried = .exchange 9 .command ∧ (exchange .draining 3000).overran = false ∧
      (∀ r, (exchange .draining 3000).phase = .gap r →
        (exchange .draining 3000).mark + BitVec.ofNat 48 (4 * (exchange .draining 3000).bitRate.ticksPerBit) ≠
          (inFlight (exchange .draining 3000) 3200).lineTime) ∧
      ({ running with cycle := { running.cycle with pulseEnd := some 1300 } } : State).cycle.pulseEnd =
        some running.lineTime := by
  refine ⟨by decide, by decide, by decide, ?_, by decide⟩
  intro r h
  cases h

/-- The bounds of each field that OBJ_ENABLE checks. -/
def widestCommand : ObjConfig :=
  { commandConfig with
    node := 31, length := 16, replyLength := 31, attemptLimit := 8, trigger := .cyclic, period := 64, phase := 63 }

/-- The same of a POLL. -/
def widestPoll : ObjConfig :=
  { widestCommand with kind := .poll, node := 30, length := 31, replyLength := 16, attemptLimit := 1, period := 1, phase := 0 }

theorem test_met_ObjEnableJudgesConfiguration_accepted :
    State.reset.portAnswers = true ∧ ((withObject State.reset 31 widestCommand .disabled).object 31).state = .disabled ∧
      (1 ≤ widestCommand.node.toNat ∧ widestCommand.length.toNat ≤ 16 ∧
        (1 ≤ widestCommand.attemptLimit.toNat ∧ widestCommand.attemptLimit.toNat ≤ 8) ∧
        (widestCommand.trigger = .cyclic → 1 ≤ widestCommand.period.toNat ∧ widestCommand.period.toNat ≤ 64 ∧
          widestCommand.phase.toNat < widestCommand.period.toNat)) ∧
      ((1 ≤ widestPoll.node.toNat ∧ widestPoll.node.toNat ≤ 30) ∧ widestPoll.replyLength.toNat ≤ 16 ∧
        (1 ≤ widestPoll.attemptLimit.toNat ∧ widestPoll.attemptLimit.toNat ≤ 8) ∧
        (widestPoll.trigger = .cyclic → 1 ≤ widestPoll.period.toNat ∧ widestPoll.period.toNat ≤ 64 ∧
          widestPoll.phase.toNat < widestPoll.period.toNat)) := by decide

theorem test_met_ObjEnableJudgesConfiguration_turned_away :
    ¬(1 ≤ ({ widestPoll with node := 31 } : ObjConfig).node.toNat ∧ ({ widestPoll with node := 31 } : ObjConfig).node.toNat ≤ 30) ∧
      ¬(({ widestCommand with length := 17 } : ObjConfig).length.toNat ≤ 16) ∧
      ¬(({ widestCommand with attemptLimit := 9 } : ObjConfig).attemptLimit.toNat ≤ 8) ∧
      ¬(({ widestCommand with phase := 64 } : ObjConfig).phase.toNat < widestCommand.period.toNat) ∧
      ((withObject State.reset 31 widestCommand .idle).object 31).state ≠ .disabled := by decide

/-- Every object state, for the statements by state. -/
theorem test_met_ObjDisableByState :
    running.portAnswers = true ∧ ((withObject running 0 commandConfig .idle).object 0).state = .idle ∧
      ((withObject running 0 commandConfig .pending).object 0).state = .pending ∧
      ((withObject running 31 commandConfig .active).object 31).state = .active ∧ (running.object 31).state = .disabled := by
  decide

/-- Object 9 with its node SILENT. -/
def silentNode : State :=
  (withObject running 9 commandConfig .idle).setNode 5 { NodeRecord.reset with state := .silent, missCount := 3 }

/-- Object 9 in a state with some status fields. -/
def object9 (st : ObjState) (f : MsgObject → MsgObject) : State :=
  let s := withObject running 9 commandConfig st
  s.setObject 9 (f (s.object 9))

theorem test_met_ObjRequestByState :
    running.portAnswers = true ∧ (running.object 9).state = .disabled ∧
      ((silentNode.object 9).state = .idle ∧ silentNode.isSilent (silentNode.object 9).config.node = true) ∧
      ((withObject running 3 { pollConfig with cls := 0 } .idle).isSilent 12 = false ∧
        ((exampleBank 5000 4 true).figures .mbit1).maxOpen[0] <
          (withObject running 3 { pollConfig with cls := 0 } .idle).worst 3) ∧
      (withObject running 9 commandConfig .idle).worst 9 ≤ ((exampleBank 5000 4 true).figures .mbit1).maxOpen[1] ∧
      ((object9 .pending id).object 9).state = .pending ∧
      (((object9 .active id).object 9).state = .active ∧ ((object9 .active id).object 9).reRequest = false) ∧
      ((object9 .active (fun o => { o with reRequest := true })).object 9).reRequest = true := by decide

theorem test_met_ObjWithdrawByState :
    running.portAnswers = true ∧
      (((object9 .pending id).object 9).state = .pending ∧ ((object9 .pending id).object 9).reRequest = false) ∧
      ((object9 .active id).object 9).state = .active ∧ ((object9 .idle id).object 9).state = .idle ∧
      (running.object 9).state = .disabled := by decide

/-- A held POLL object, PENDING. -/
def heldPoll : State :=
  let s := withObject running 3 pollConfig .pending
  s.setObject 3 { s.object 3 with fresh := true }

theorem test_met_ObjReleaseClearsFresh :
    running.portAnswers = true ∧ (running.object 9).state = .disabled ∧
      ((heldPoll.object 3).state ≠ .disabled ∧ (heldPoll.object 3).state = .pending ∧
        (heldPoll.object 3).config.kind = .poll ∧ (heldPoll.object 3).config.holdUnread = true ∧
        (heldPoll.object 3).fresh = true) ∧
      ((object9 .pending id).object 9).config.kind ≠ .poll := by decide

/-- Object 9 PENDING with an occupant of the slot. -/
def withSlot (m : Fin 32) : State :=
  let s := withObject (object9 .pending id) m commandConfig .pending
  { s.setObject m { s.object m with inSlot := true } with slot := some m }

theorem test_met_ObjInsertByState :
    running.portAnswers = true ∧
      (((withSlot 9).object 9).state = .pending ∧ (withSlot 9).slot = some 9) ∧
      (((withObject running 3 { pollConfig with replyLength := 31 } .pending).object 3).state = .pending ∧
        ((exampleBank 64 1 false).figures .mbit1).maxAny = 64 ∧
        64 < (withObject running 3 { pollConfig with replyLength := 31 } .pending).worst 3) ∧
      ((object9 .pending id).slot = none ∧
        (object9 .pending id).worst 9 ≤ ((exampleBank 5000 4 true).figures .mbit1).maxAny) ∧
      (((withSlot 8).object 9).state = .pending ∧ (withSlot 8).slot = some 8 ∧ (8 : Fin 32) ≠ 9) ∧
      ((object9 .idle id).object 9).state = .idle ∧ ((object9 .active id).object 9).state = .active ∧
      (running.object 9).state = .disabled := by decide

theorem test_met_BadArgumentsAndCodes :
    running.portAnswers = true ∧ 32 ≤ (32 : BitVec 8).toNat ∧ 32 ≤ (255 : BitVec 8).toNat ∧ (0 : BitVec 8) = 0 ∧
      31 ≤ (31 : BitVec 8).toNat ∧ isListedCode 0x00 = false ∧ isListedCode 0x06 = false ∧ isListedCode 0xFF = false := by
  decide

theorem test_met_NodeReviveByState :
    silentNode.portAnswers = true ∧ (silentNode.nodeRecord 5).state = .silent ∧ (silentNode.nodeRecord 0).state ≠ .silent ∧
      (silentNode.nodeRecord 29).state ≠ .silent := by decide

theorem test_met_QueuePopRemovesHead :
    State.reset.portAnswers = true ∧ State.reset.queue = [] ∧
      (46 ≤ (46 : BitVec 7).toNat ∧ (46 : BitVec 7).toNat ≤ 50) ∧ (46 ≤ (50 : BitVec 7).toNat ∧ (50 : BitVec 7).toNat ≤ 50) ∧
      ({ State.reset with queue := [State.reset.completionOf 31 .done] } : State).queue =
        State.reset.completionOf 31 .done :: [] := by decide

theorem test_met_CountersClearTwoCounters : (inState running .halted).portAnswers = true := by decide

theorem test_met_LineConfigurationWriteInOff :
    State.reset.portAnswers = true ∧ State.reset.sched = .off ∧ running.portAnswers = true ∧ running.sched ≠ .off := by decide

theorem test_met_BankWriteReachesShadowOnly :
    running.portAnswers = true ∧ running.activeBank = some running.port.bankSelect ∧
      (armed.activeBank ≠ some armed.port.bankSelect ∧ armed.sw.pending = true ∧
        armed.sw.target = some armed.port.bankSelect) ∧
      (State.reset.activeBank ≠ some State.reset.port.bankSelect ∧
        ¬(State.reset.sw.pending = true ∧ State.reset.sw.target = some State.reset.port.bankSelect)) := by decide

theorem test_met_ObjectWritesByState :
    running.portAnswers = true ∧ (running.object running.port.objectSelect).state = .disabled ∧
      ((withObject running 0 commandConfig .idle).object 0).state = .idle ∧
      ((withObject running 0 commandConfig .pending).object 0).state = .pending ∧
      ((withObject running 0 commandConfig .active).object 0).state = .active ∧ running.port.objectSelect = 0 := by decide

theorem test_met_SelectsAreReduced :
    State.reset.portAnswers = true ∧ 1 ≤ (1 : Halfword).toNat ∧ (30 : Halfword).toNat ≤ 30 ∧ (0 : Halfword).toNat = 0 ∧
      ¬(31 : Halfword).toNat ≤ 30 := by decide

theorem test_met_DenialsAreRecordedAndCleared :
    (0 : BitVec 7).toNat < 64 ∧ (63 : BitVec 7).toNat < 64 ∧ State.reset.portAnswers = true := by decide

theorem test_met_EventWritesDriveInterrupt : State.reset.portAnswers = true := by decide

/-- The first byte of object 9's frame, ending 40 ticks after it began; and the last. -/
def lastByte : Flight := { exchange .sending 1300 with sent := 12 }

theorem test_met_ByteSentChecksEcho :
    (inFlight (exchange .sending 1300) 1340).engine.flight = some (exchange .sending 1300) ∧
      (exchange .sending 1300).phase = .sending ∧
      (exchange .sending 1300).mark + BitVec.ofNat 48 (10 * (exchange .sending 1300).bitRate.ticksPerBit) = 1340 ∧
      (exchange .sending 1300).sent + 1 < (exchange .sending 1300).frame.length ∧
      lastByte.sent < lastByte.frame.length ∧ lastByte.sent + 1 = lastByte.frame.length ∧
      (syncFlight .sending 1300).carried = .sync ∧ lastByte.carried = .exchange 9 .command := by decide

/-- The header of object 9's frame is COMMAND to node 6, 26h: its ten bits agree with themselves and not with a stop bit 0. -/
theorem test_met_ByteSentChecksEcho_echo :
    (exchange .sending 1300).frame.getD 0 0 = 0x26 ∧
      ((1#1 ++ (0x26 : Byte) ++ 0#1 : BitVec 10).getLsbD 0 = false ∧
        (∀ k : Fin 8, (1#1 ++ (0x26 : Byte) ++ 0#1 : BitVec 10).getLsbD (k.val + 1) = (0x26 : Byte).getLsbD k.val) ∧
        (1#1 ++ (0x26 : Byte) ++ 0#1 : BitVec 10).getLsbD 9 = true) ∧
      (0#1 ++ (0x26 : Byte) ++ 0#1 : BitVec 10).getLsbD 9 = false := by decide

theorem test_met_ReplyPhaseBeginsAndEnds :
    (inFlight (exchange .awaitReply 1300) 1428).engine.flight = some (exchange .awaitReply 1300) ∧
      ((1428 : Tick) - (exchange .awaitReply 1300).mark).toNat ≤
        (exchange .awaitReply 1300).replyTimeout.toNat * (exchange .awaitReply 1300).bitRate.ticksPerBit ∧
      (exchange .awaitReply 1300).replyTimeout.toNat * (exchange .awaitReply 1300).bitRate.ticksPerBit <
        ((1429 : Tick) - (exchange .awaitReply 1300).mark).toNat ∧
      (exchange .awaitReply 1300).mark +
          BitVec.ofNat 48 ((exchange .awaitReply 1300).replyTimeout.toNat * (exchange .awaitReply 1300).bitRate.ticksPerBit) =
        (inFlight (exchange .awaitReply 1300) 1428).lineTime ∧
      (exchange .receiving 1300).phase = .receiving ∧
      (hearing (exchange .receiving 1300) 1380 (heard 1 6 4 0 0)).engine.staging.count ≠ 0 ∧
      (exchange .receiving 1300).mark + BitVec.ofNat 48 (20 * (exchange .receiving 1300).bitRate.ticksPerBit) =
        (hearing (exchange .receiving 1300) 1380 (heard 1 6 4 0 0)).lineTime ∧
      (exchange .draining 1300).phase = .draining := by decide

/-- A reply to object 9 with a number of bytes received, at a tick at which the next can end. -/
def nextByte (g : Staging) : State := hearing (exchange .receiving 1300) 1340 g

theorem test_met_ReplyBytesAreChecked :
    (nextByte Staging.empty).engine.flight = some (exchange .receiving 1300) ∧
      (exchange .receiving 1300).carried = .exchange 9 .command ∧ (exchange .receiving 1300).phase = .receiving ∧
      (nextByte Staging.empty).byteInTime (exchange .receiving 1300) = true ∧
      (Staging.empty.store 0x86).count = 1 ∧ (Staging.empty.store 0x86).address = (exchange .receiving 1300).node ∧
      (Staging.empty.store 0x86).type = typeAck ∧ (Staging.empty.store 0x87).address ≠ (exchange .receiving 1300).node ∧
      (nextByte (heard 1 6 4 0 0)).byteInTime (exchange .receiving 1300) = true ∧
      ((heard 1 6 4 0 0).store 0x09).count = 2 ∧ ((heard 1 6 4 0 0).store 0x09).tag.toNat = (9 : Fin 32).val ∧
      ((heard 1 6 4 0 0).store 0x0A).tag.toNat ≠ (9 : Fin 32).val := by decide

theorem test_met_ReplyBytesAreChecked_lengths :
    ((heard 2 6 4 9 0).store 0).count = 3 ∧ ((heard 2 6 4 9 0).store 0).type = typeAck ∧
      ((heard 2 6 4 9 0).store 0).length = 0 ∧ ((heard 2 6 4 9 0).store 1).length ≠ 0 ∧
      ((heard 2 6 5 9 0).store 1).type = typeNak ∧ ((heard 2 6 5 9 0).store 1).length = 1 ∧
      ((heard 2 6 6 9 0).store 0).type = typeData ∧
      ((heard 2 6 6 9 0).store 0).length.toNat ≤ (exchange .receiving 1300).replyLength.toNat ∧
      (4 ≤ ((heard 3 6 4 9 0).store 0).count ∧
        ((heard 3 6 4 9 0).store 0).count ≠ ((heard 3 6 4 9 0).store 0).length.toNat + 5) ∧
      ((heard 4 6 4 9 0).store 0).count = ((heard 4 6 4 9 0).store 0).length.toNat + 5 := by decide

/-- A buffer whose last byte brings the CRC register to 0, with given type and NAK code; the type DATA has no payload. -/
def wholeReply (type : BitVec 3) (code : Byte) (last : Byte) : Staging :=
  let g := heard 5 6 type 9 1
  { g with payload := g.payload.set 0 code, crc := last.setWidth 16 <<< 8 }

theorem test_met_ReplyBytesAreChecked_results :
    ((wholeReply 5 1 0x55).store 0x55).crc = 0 ∧ ((wholeReply 5 1 0x55).store 0x55).count = 6 ∧
      ((wholeReply 5 1 0x55).store 0x55).length.toNat + 5 = 6 ∧ ((wholeReply 5 1 0x55).store 0x55).payload[0] = 1 ∧
      ((wholeReply 5 2 0x55).store 0x55).payload[0] = 2 ∧ ((wholeReply 5 3 0x55).store 0x55).payload[0] = 3 ∧
      ((wholeReply 6 0 0x55).store 0x55).type = typeData ∧ ((wholeReply 4 0 0x55).store 0x55).type = typeAck ∧
      ((wholeReply 5 1 0x55).store 0x54).crc ≠ 0 := by decide

theorem test_met_ReplyBytesAreStored :
    ([0x86, 0x09, 0x00, 0x12, 0x34] : List Byte).length = (0 : Fin 17).val + 5 ∧
      ([0x86, 0x09, 0x00, 0x12, 0x34] : List Byte).getD 2 0 = BitVec.ofNat 8 (0 : Fin 17).val ∧
      ((0xCC : Byte) :: 0x05 :: 16 :: List.replicate 18 0xFF).length = (16 : Fin 17).val + 5 ∧
      ((0xCC : Byte) :: 0x05 :: 16 :: List.replicate 18 0xFF).getD 2 0 = BitVec.ofNat 8 (16 : Fin 17).val := by decide

/-- Object 9's GAP ending at 1316 with a result. -/
def gapEnding (r : AttemptResult) : State := inFlight (exchange (.gap r) 1300) 1316

/-- A third collision of an exchange or a SYNC. -/
def thirdCollision (fl : Flight) : State :=
  let s := inFlight fl 1316
  { s with engine := { s.engine with collisions := 3 } }

theorem test_met_GapEndAppliesResult :
    (gapEnding .ack).engine.flight = some (exchange (.gap .ack) 1300) ∧
      (exchange (.gap .ack) 1300).carried = .exchange 9 .command ∧ (exchange (.gap .ack) 1300).phase = .gap .ack ∧
      (exchange (.gap .ack) 1300).mark + BitVec.ofNat 48 (4 * (exchange (.gap .ack) 1300).bitRate.ticksPerBit) =
        (gapEnding .ack).lineTime ∧
      ¬(AttemptResult.noReply = .noReply ∧ (gapEnding .noReply).missesLimit (exchange (.gap .noReply) 1300).node = true) := by
  decide

/-- The same in STOPPING, and at a third consecutive collision. -/
theorem test_met_GapEndAppliesResult_stop_and_fault :
    (inState (gapEnding .ack) .stopping).engine.flight = some (exchange (.gap .ack) 1300) ∧
      (inState (gapEnding .ack) .stopping).lineTime = (gapEnding .ack).lineTime ∧
      (inState (gapEnding .ack) .stopping).sched = .stopping ∧
      (thirdCollision (exchange (.gap .collision) 1300)).engine.flight = some (exchange (.gap .collision) 1300) ∧
      (thirdCollision (exchange (.gap .collision) 1300)).engine.collisions = 3 ∧
      (exchange (.gap .collision) 1300).phase = .gap .collision := by decide

/-- The exchange applied before the halt, and before the stop: one attempt of four used, the object PENDING again (R140,
R77). -/
theorem test_exchange_applied_at_fault_and_stop :
    ((after (exec .gapEnd (thirdCollision (exchange (.gap .collision) 1300)))).object 9).state = .pending ∧
      ((after (exec .gapEnd (thirdCollision (exchange (.gap .collision) 1300)))).object 9).attempts = 1 ∧
      (after (exec .gapEnd (thirdCollision (exchange (.gap .collision) 1300)))).sched = .halted ∧
      (after (exec .gapEnd (inState (gapEnding .ack) .stopping))).queue.map (·.outcome) = [.done] ∧
      (after (exec .gapEnd (inState (gapEnding .ack) .stopping))).sched = .off := by decide

/-- The last attempt, one before it, a request grown too long, and a re-request behind it. -/
theorem test_met_GapEndAppliesResult_retries :
    ((gapEnding .noReply).object 9).attempts + 1 < ((gapEnding .noReply).object 9).config.attemptLimit ∧
      ¬((gapEnding .noReply).setObject 9 { (gapEnding .noReply).object 9 with attempts := 3 } |>.object 9).attempts + 1 <
        ((gapEnding .noReply).object 9).config.attemptLimit ∧
      ((exampleBank 64 1 false).figures .mbit1).maxOpen[1] < (gapEnding .noReply).worst 9 ∧
      ¬((exampleBank 5000 4 true).figures .mbit1).maxOpen[1] < (gapEnding .noReply).worst 9 ∧
      ((gapEnding .noReply).object 9).reRequest = false := by decide

/-- Node 6 with two misses under a Miss Limit of 3. -/
def lastMiss : State := (gapEnding .noReply).setNode 5 { NodeRecord.reset with missCount := 2 }

theorem test_met_GapEndSilencesNode :
    lastMiss.engine.flight = some (exchange (.gap .noReply) 1300) ∧
      (exchange (.gap .noReply) 1300).carried = .exchange 9 .command ∧
      (exchange (.gap .noReply) 1300).phase = .gap .noReply ∧
      (exchange (.gap .noReply) 1300).mark + BitVec.ofNat 48 (4 * (exchange (.gap .noReply) 1300).bitRate.ticksPerBit) =
        lastMiss.lineTime ∧
      (5 : Fin 30).val + 1 = (exchange (.gap .noReply) 1300).node.toNat ∧
      (lastMiss.object 9).config.node = (exchange (.gap .noReply) 1300).node ∧
      (lastMiss.nodeRecord 5).missCount + 1 = lastMiss.config.missLimit ∧
      (inState lastMiss .stopping).engine.flight = lastMiss.engine.flight ∧
      ((inState lastMiss .stopping).nodeRecord 5).missCount + 1 = (inState lastMiss .stopping).config.missLimit := by decide

theorem test_met_GapEndFaultsAndStops :
    (inFlight (syncFlight (.gap .ack) 1300) 1316).engine.flight = some (syncFlight (.gap .ack) 1300) ∧
      (syncFlight (.gap .ack) 1300).phase = .gap .ack ∧
      (syncFlight (.gap .ack) 1300).mark + BitVec.ofNat 48 (4 * (syncFlight (.gap .ack) 1300).bitRate.ticksPerBit) =
        (inFlight (syncFlight (.gap .ack) 1300) 1316).lineTime ∧
      (syncFlight (.gap .ack) 1300).carried = .sync ∧ (inFlight (syncFlight (.gap .ack) 1300) 1316).sched = .running ∧
      (thirdCollision (syncFlight (.gap .collision) 1300)).engine.collisions = 3 ∧
      (thirdCollision (exchange (.gap .collision) 1300)).sched = .running ∧
      (inState (thirdCollision (exchange (.gap .collision) 1300)) .stopping).sched = .stopping := by decide

theorem test_met_ReportUpdatesNodeRecord :
    (5 : Fin 30).val + 1 = (6 : BitVec 5).toNat ∧ (0 : Fin 30).val + 1 = (1 : BitVec 5).toNat ∧
      (29 : Fin 30).val + 1 = (30 : BitVec 5).toNat ∧ (4 : Fin 30).val + 1 ≠ (6 : BitVec 5).toNat ∧
      ¬(1 ≤ (0 : BitVec 5).toNat ∧ (0 : BitVec 5).toNat ≤ 30) ∧ ¬(1 ≤ (31 : BitVec 5).toNat ∧ (31 : BitVec 5).toNat ≤ 30) := by
  decide

/-- One happening of each kind one tick early. -/
theorem test_met_HappeningsOutOfTimeDoNothing :
    ¬((atTime armed 4999).sw.pending = true ∧ (atTime armed 4999).sw.instant = (atTime armed 4999).lineTime) ∧
      (atTime running 4999).cycle.cycleEnd ≠ (atTime running 4999).lineTime ∧
      (atTime running 3199).cycle.windowEnd ≠ (atTime running 3199).lineTime ∧
      running.cycle.pulseEnd ≠ some running.lineTime ∧ running.engine.flight = none ∧
      ¬((exchange .sending 1300).mark + BitVec.ofNat 48 (10 * (exchange .sending 1300).bitRate.ticksPerBit) = 1339) ∧
      (exchange .sending 1300).phase ≠ .awaitReply ∧ (exchange .sending 1300).phase ≠ .receiving ∧
      (hearing (exchange .receiving 1300) 1300 Staging.empty).engine.staging.count = 0 ∧
      (exchange .sending 1300).phase ≠ .draining ∧ (syncFlight .sending 1300).carried = .sync ∧
      ¬((exchange (.gap .ack) 1300).mark + BitVec.ofNat 48 (4 * (exchange (.gap .ack) 1300).bitRate.ticksPerBit) = 1315) := by
  decide

/-- A SYNC owed, with a pending Instant 296 ticks ahead, which is SYNC time. -/
def syncOwed : State := withPending { running with cycle := { running.cycle with syncOwed := true } } .bankB 1596

theorem test_met_LookStartsAtMostOneFrame :
    State.reset.sched ≠ .running ∧ busy.engine.flight ≠ none ∧ syncOwed.sched = .running ∧ syncOwed.engine.flight = none ∧
      syncOwed.cycle.syncOwed = true ∧
      ¬(syncOwed.sw.pending = true ∧ (syncOwed.sw.instant - syncOwed.lineTime).toNat < 74 * syncOwed.config.bitRate.ticksPerBit) ∧
      ((atTime syncOwed 1301).sw.instant - (atTime syncOwed 1301).lineTime).toNat <
        74 * syncOwed.config.bitRate.ticksPerBit ∧
      running.winner = none ∧ (object9 .pending id).winner = some 9 := by decide

/-- A window in which object 9's W of 904 ticks has no tick to spare, and one tick later. -/
theorem test_met_WinnerIsBestCandidate :
    State.reset.activeBank = none ∧ running.activeBank = some .bankA ∧ running.cycle.window = some 1 ∧
      (atTime (object9 .pending id) 2296).winner = some 9 ∧ (atTime (object9 .pending id) 2297).winner = none ∧
      (withSlot 8).slot = some 8 ∧ (withSlot 8).winner = some 8 := by decide

/-- A COMMAND to a node, a broadcast and a POLL with valid configurations. -/
theorem test_met_FramesAndWorstCase :
    ((withObject running 9 commandConfig .idle).object 9).config.valid = true ∧ commandConfig.kind = .command ∧
      commandConfig.node ≠ 31 ∧ widestCommand.valid = true ∧ widestCommand.kind = .command ∧ widestCommand.node = 31 ∧
      pollConfig.valid = true ∧ pollConfig.kind = .poll ∧ (7 : Fin 16).val < commandConfig.length.toNat := by decide

/-- A CYCLIC configuration that triggers at Cycle Number 200, with Lifetime 1. -/
def cyclicConfig : ObjConfig := { commandConfig with trigger := .cyclic, period := 64, phase := 8, lifetime := 1 }

theorem test_met_ObjectStepsAtCycleStart :
    ((withObject running 9 cyclicConfig .idle).object 9).state ≠ .pending ∧
      (((withObject running 9 cyclicConfig .pending).object 9).state = .pending ∧ cyclicConfig.lifetime ≠ 0 ∧
        cyclicConfig.lifetime.toNat ≤ (((withObject running 9 cyclicConfig .pending).object 9).age + 1).toNat ∧
        ((withObject running 9 cyclicConfig .pending).object 9).reRequest = false) ∧
      ¬(({ cyclicConfig with lifetime := 2 } : ObjConfig).lifetime.toNat ≤ (1 : BitVec 8).toNat) ∧
      (cyclicConfig.trigger = .cyclic ∧ running.cycle.cycleNumber.toNat % cyclicConfig.period.toNat = cyclicConfig.phase.toNat) ∧
      (running.object 9).state = .disabled ∧ ((withObject running 9 cyclicConfig .active).object 9).state = .active ∧
      silentNode.isSilent commandConfig.node = true ∧ running.isSilent commandConfig.node = false ∧
      running.figures = some ((exampleBank 5000 4 true).figures .mbit1) ∧
      ((exampleBank 5000 4 true).figures .mbit1).maxOpen[0] <
        (withObject running 3 { pollConfig with cls := 0 } .pending).worst 3 := by decide

/-! ## The kept conditions at a running state and at the reset state -/

theorem test_met_SlotAgrees : (withSlot 8).SlotAgrees ∧ step (withSlot 8) = .next (withSlot 8) := by
  refine ⟨⟨by decide, ?_⟩, rfl⟩
  intro n h
  have h8 : n = 8 := by injection h.symm
  subst h8
  decide

theorem test_met_ActiveInFlight : busy.ActiveInFlight ∧ step busy = .next busy := by
  refine ⟨?_, rfl⟩
  have h : ∀ n, (busy.object n).state = .active ↔ n = 9 := by decide
  intro n
  rw [h]
  constructor
  · rintro rfl; exact ⟨_, .command, rfl, rfl⟩
  · rintro ⟨fl, kind, hf, hc⟩
    injection hf with hf
    subst hf
    injection hc with hc _
    exact hc.symm

theorem test_met_SchedulerAgrees : running.SchedulerAgrees ∧ running.BanksJudged := by
  refine ⟨⟨by decide, by decide, by decide, by decide, ?_, by decide, by decide, by decide⟩, ?_, ?_, ?_⟩
  · intro h; cases h
  · intro b f hb hf
    injection hb with hb; subst hb
    injection hf with hf; exact hf.symm
  · intro b hb
    injection hb with hb; subst hb
    decide
  · intro b h; cases h

theorem test_met_RequestsSound : busy.RequestsSound := ⟨by decide, by decide, by decide⟩

theorem test_met_NodesSound : busy.NodesSound := by
  refine ⟨by decide, by decide, by decide, by decide, ?_⟩
  intro fl n kind hf hc
  injection hf with hf
  subst hf
  injection hc with hc _
  subst hc
  decide

theorem test_met_CycleWorkIsPerObject : running.RequestsSound := ⟨by decide, by decide, by decide⟩

/-- Before and after a request that goes out. -/
theorem test_met_FramesStartOnlyWhereTheyFit :
    let s : State := { withObject running 9 commandConfig .idle with pending := [.objRequest 9] }
    s.ldeAsserted = false ∧ (after (step s)).ldeAsserted = true ∧
      ((after (step s)).engine.flight.map (·.carried)) = some (.exchange 9 .command) ∧
      ((after (step s)).engine.flight.map (·.phase)) = some .sending := by decide

/-- A bank write that changes its bank, and a byte sent in the middle of a frame. -/
theorem test_met_StepsReachOnlyWhatTheyOwn :
    let s : State := { State.reset with pending := [.bankWrite .cycleLow 5000] }
    let u : State := { inFlight (exchange .sending 1300) 1340 with pending := [.byteSent (drivenBits 0x26)] }
    (after (step s)).bank .bankA ≠ s.bank .bankA ∧ u.engine.flight ≠ none ∧ (after (step u)).engine.flight ≠ none ∧
      u.pending.head? ≠ some .gapEnd := by decide

theorem test_met_QueueIsFirstInFirstOut :
    let s : State := { object9 .pending id with pending := [.objWithdraw 9] }
    s.pending = .objWithdraw 9 :: [] ∧ (after (step s)).queue.length = 1 := by decide

/-- A node becomes SILENT at GAP_END, and leaves SILENT by NODE_REVIVE. -/
theorem test_met_SilentChangesByItsRules :
    let s : State := { lastMiss with pending := [.gapEnd] }
    let u : State := { silentNode with pending := [.nodeRevive 6] }
    (s.nodeRecord 5).state ≠ .silent ∧ ((after (step s)).nodeRecord 5).state = .silent ∧
      (u.nodeRecord 5).state = .silent ∧ ((after (step u)).nodeRecord 5).state ≠ .silent := by decide

/-- The second half's conditions at the state before NODE_REVIVE. -/
theorem test_met_SilentChangesByItsRules_conditions : silentNode.ActiveInFlight ∧ silentNode.NodesSound := by
  refine ⟨?_, by decide, by decide, by decide, by decide, ?_⟩
  · have h : ∀ n, (silentNode.object n).state ≠ .active := by decide
    intro n
    exact ⟨fun e => absurd e (h n), fun ⟨fl, _, hf, _⟩ => by cases hf⟩
  · intro fl n kind hf
    cases hf

end Sys2Proof.Tests
end

