-- ==== Sys2Proof/Proofs/LineTime.lean ====
section
/-! Line Time as the host reads it (R23, R24): one step as its command's effect, a run of LINE_TIME_TICK, and the three
halfwords that offsets 54 to 56 give. -/

namespace Sys2Proof.Machine

/-! ### Steps and runs -/

/-- A step runs the command at the front with the queue's rest (log 16). -/
theorem step_of_pending {s : State} {c : Instr} {rest : List Instr} (h : s.pending = c :: rest) :
    step s = exec c { s with pending := rest } := by
  unfold step; rw [h]

@[simp] theorem State.runSteps_zero (s : State) : s.runSteps 0 = .next s := rfl

theorem State.runSteps_succ {s t : State} (h : step s = .next t) (k : Nat) : s.runSteps (k + 1) = t.runSteps k := by
  simp only [State.runSteps, h]

/-! ### The commands that move Line Time or the latch -/

theorem State.resetLow_of_answers {s : State} (h : s.portAnswers = true) : s.port.resetLow = false := by
  unfold State.portAnswers at h
  cases hl : s.port.resetLow <;> simp_all

/-- With RESET# high a tick raises Line Time by 1 and counts down the wait of the port (R23, R167). -/
theorem exec_lineTimeTick {s : State} (h : s.port.resetLow = false) :
    exec .lineTimeTick s = .next { s with
      lineTime := s.lineTime + 1
      port := { s.port with wait := s.port.wait - 1 }
      engine := { s.engine with gapEndedNow := false } } := by
  simp [exec, execLineTimeTick, h]

/-- A read of the low halfword that the port answers (R24). -/
theorem exec_lineTimeLowRead {s : State} (h : s.portAnswers = true) :
    exec .lineTimeLowRead s = .next { s with port := { s.port with
      readData := some (s.lineTime.extractLsb' 0 16), latch := s.lineTime.extractLsb' 16 32 } } := by
  simp [exec, execLineTimeLowRead_eq, h, State.resetLow_of_answers h]

/-- A write to a halfword that no write reaches is ignored (R161). -/
theorem exec_registerWrite {offset : BitVec 7} (h : isWritableOffset offset = false) (data : Halfword) (s : State) :
    exec (.registerWrite offset data) s = .next s := by
  simp [exec, execRegisterWrite, h]

/-- Pin reset clears the latch (R24). -/
theorem exec_pinReset_latch (s : State) : ∃ t, exec .pinReset s = .next t ∧ t.port.latch = 0 := ⟨_, rfl, rfl⟩

/-- LINE_RESET clears nothing of the Host Port (R82). -/
@[simp] theorem State.lineReset_port (s : State) : s.lineReset.port = s.port := State.endPending_port s .stopped

/-- LINE_RESET keeps the latch, taken or not (R82, R167). -/
theorem exec_lineReset_latch (s : State) : ∃ t, exec .lineReset s = .next t ∧ t.port.latch = s.port.latch := by
  refine ⟨_, rfl, ?_⟩
  unfold State.takeCommand
  split <;> simp

/-! ### Their steps -/

theorem step_lineTimeTick {s : State} {rest : List Instr} (hlow : s.port.resetLow = false)
    (hpend : s.pending = .lineTimeTick :: rest) :
    ∃ t : State, step s = .next t ∧ t.pending = rest ∧ t.lineTime = s.lineTime + 1 ∧
      t.port = { s.port with wait := s.port.wait - 1 } :=
  ⟨_, (step_of_pending hpend).trans (exec_lineTimeTick hlow), rfl, rfl, rfl⟩

theorem step_lineTimeLowRead {s : State} {rest : List Instr} (hans : s.portAnswers = true)
    (hpend : s.pending = .lineTimeLowRead :: rest) :
    ∃ t : State, step s = .next t ∧ t.pending = rest ∧ t.lineTime = s.lineTime ∧
      t.port = { s.port with
        readData := some (s.lineTime.extractLsb' 0 16), latch := s.lineTime.extractLsb' 16 32 } :=
  ⟨_, (step_of_pending hpend).trans (exec_lineTimeLowRead hans), rfl, rfl, rfl⟩

/-! ### Ticks that pass -/

/-- With RESET# high, a run of n ticks moves Line Time by n and nothing of the Host Port but its wait (R23). -/
theorem State.runSteps_ticks (n : Nat) (s : State) (hlow : s.port.resetLow = false)
    (hpend : s.pending = List.replicate n .lineTimeTick) :
    ∃ t : State, s.runSteps n = .next t ∧ t.lineTime = s.lineTime + BitVec.ofNat 48 n ∧
      t.port = { s.port with wait := s.port.wait - n } := by
  induction n generalizing s with
  | zero => exact ⟨s, s.runSteps_zero, by simp, by simp⟩
  | succ n ih =>
    obtain ⟨u, hstep, hrest, htick, hwait⟩ := step_lineTimeTick hlow hpend
    obtain ⟨t, hrun, htime, hport⟩ := ih u (by rw [hwait]; exact hlow) hrest
    refine ⟨t, (State.runSteps_succ hstep n).trans hrun, ?_, ?_⟩
    · rw [htime, htick, BitVec.add_assoc, Nat.add_comm n 1, BitVec.ofNat_add]; rfl
    · rw [hport, hwait, Nat.sub_sub, Nat.add_comm]

/-! ### The three halfwords -/

/-- The register map at offsets 54 to 56 (R24). -/
@[simp] theorem State.readHalfword_lineTime (s : State) : s.readHalfword 54 = s.lineTime.extractLsb' 0 16 := rfl
@[simp] theorem State.readHalfword_latchLow (s : State) : s.readHalfword 55 = s.port.latch.extractLsb' 0 16 := rfl
@[simp] theorem State.readHalfword_latchHigh (s : State) : s.readHalfword 56 = s.port.latch.extractLsb' 16 16 := rfl

/-- The halves of the upper 32 bits and the low halfword, put together, are the whole value (R24). -/
theorem latchHalves_append_low (x : Tick) :
    (x.extractLsb' 16 32).extractLsb' 16 16 ++ (x.extractLsb' 16 32).extractLsb' 0 16 ++ x.extractLsb' 0 16 = x := by
  have hupper : (x.extractLsb' 16 32).extractLsb' 16 16 ++ (x.extractLsb' 16 32).extractLsb' 0 16 =
      x.extractLsb' 16 32 := BitVec.extractLsb'_append_extractLsb' (w := 16) (len := 16)
  rw [hupper]
  exact BitVec.extractLsb'_append_extractLsb' (w := 32) (len := 16)

/-- However many ticks follow the read of the low halfword, the three halfwords give Line Time at the tick of that read
(R24). -/
theorem State.lineTimeRead_then_ticks (s : State) (n : Nat) (hans : s.portAnswers = true)
    (hpend : s.pending = .lineTimeLowRead :: List.replicate n .lineTimeTick) :
    ∃ t : State, s.runSteps (n + 1) = .next t ∧ t.lineTime = s.lineTime + BitVec.ofNat 48 n ∧
      t.readHalfword 56 ++ t.readHalfword 55 ++ (t.port.readData.getD 0) = s.lineTime := by
  obtain ⟨u, hread, hrest, hkept, hlatch⟩ := step_lineTimeLowRead hans hpend
  have hlow : u.port.resetLow = false := by rw [hlatch]; exact State.resetLow_of_answers hans
  obtain ⟨t, hrun, htime, hport⟩ := State.runSteps_ticks n u hlow hrest
  refine ⟨t, (State.runSteps_succ hread n).trans hrun, by rw [htime, hkept], ?_⟩
  rw [State.readHalfword_latchHigh, State.readHalfword_latchLow, hport, hlatch]
  exact latchHalves_append_low s.lineTime

/-- Settles O7: the read's effect, the register map, and the run of ticks that leaves the latch and the answer as the read
set them. -/
theorem lineTimeReadLatches : Obligations.LineTimeReadLatches := by
  unfold Obligations.LineTimeReadLatches
  refine ⟨fun _ => exec_lineTimeLowRead,
    fun s => ⟨s.readHalfword_lineTime, s.readHalfword_latchLow, s.readHalfword_latchHigh⟩,
    State.lineTimeRead_then_ticks,
    exec_pinReset_latch, exec_lineReset_latch, fun s data => ⟨?low, ?middle, ?high⟩⟩
  case low | middle | high => exact exec_registerWrite (by decide) data s

end Sys2Proof.Machine
end

