-- ==== Sys2Proof/Proofs/AccessDenied.lean ====
section
/-! The Access-Denied Record (R46, R47) and its halfword at offset 63 (R165): fields placed side by side in a halfword, what a
denied write records, and the commands that clear the record or the flag. -/

namespace Sys2Proof.Machine

/-! ### Counts and fields as numbers -/

/-- A saturating counter stops at its largest value (00_scope.md, Conventions). -/
theorem satInc_toNat {w : Nat} (x : BitVec w) : (satInc x).toNat = min (2 ^ w - 1) (x.toNat + 1) := by
  have hx := x.isLt
  unfold satInc
  split
  next htop => rw [htop, BitVec.toNat_allOnes]; omega
  next hlow =>
    have hne : x.toNat ≠ 2 ^ w - 1 := fun h => hlow (BitVec.eq_of_toNat_eq (h.trans BitVec.toNat_allOnes.symm))
    have hroom : x.toNat + 1 < 2 ^ w := by omega
    rw [BitVec.toNat_add, BitVec.ofNat_eq_ofNat, BitVec.toNat_ofNat, Nat.add_mod_mod, Nat.mod_eq_of_lt hroom]
    omega

/-- A field that fits above what stands below it adds its value times its place. -/
theorem toNat_or_fieldAt {w low : Nat} {x : Halfword} {v : BitVec w} (hbelow : x.toNat < 2 ^ low)
    (hfits : 2 ^ low * v.toNat < 2 ^ 16) : (x ||| fieldAt low v).toNat = x.toNat + 2 ^ low * v.toNat := by
  have hv : v.toNat < 2 ^ 16 := lt_of_le_of_lt (Nat.le_mul_of_pos_left _ (Nat.two_pow_pos low)) hfits
  have hfield : (fieldAt low v).toNat = 2 ^ low * v.toNat := by
    rw [fieldAt, BitVec.toNat_shiftLeft, BitVec.toNat_setWidth, Nat.mod_eq_of_lt hv, Nat.shiftLeft_eq, Nat.mul_comm,
      Nat.mod_eq_of_lt hfits]
  rw [BitVec.toNat_or, hfield, Nat.or_comm, ← Nat.two_pow_add_eq_or_of_lt hbelow, Nat.add_comm]

theorem DenyCause.code_toNat_lt (c : DenyCause) : c.code.toNat < 4 := by cases c <;> decide

/-- The record's halfword: Offset in bits 5 to 0, Cause in bits 7 and 6, Denied Count above them (R165). -/
theorem DeniedRecord.word_toNat (offset : BitVec 6) (c : DenyCause) (count : BitVec 8) :
    (DeniedRecord.word { offset, cause := some c, count }).toNat =
      offset.toNat + 64 * c.code.toNat + 256 * count.toNat := by
  have hoffset := offset.isLt
  have hcause := c.code_toNat_lt
  have hcount := count.isLt
  have hlow : (fieldAt 0 offset).toNat = offset.toNat := by
    rw [fieldAt, BitVec.shiftLeft_zero, BitVec.toNat_setWidth_of_le (by decide)]
  have hmid : (fieldAt 0 offset ||| fieldAt 6 c.code).toNat = offset.toNat + 64 * c.code.toNat := by
    rw [toNat_or_fieldAt] <;> omega
  show ((fieldAt 0 offset ||| fieldAt 6 c.code) ||| fieldAt 8 count).toNat = _
  rw [toNat_or_fieldAt] <;> omega

/-- A cleared record reads 0 (R47, R165). -/
@[simp] theorem DeniedRecord.word_reset : DeniedRecord.reset.word = 0 := by decide

@[simp] theorem State.readHalfword_denied (s : State) : s.readHalfword 63 = s.port.denied.word := rfl

/-! ### A denied write -/

@[simp] theorem State.deny_denied (s : State) (offset : BitVec 7) (cause : DenyCause) :
    (s.deny offset cause).port.denied =
      { offset := offset.setWidth 6, cause := some cause, count := satInc s.port.denied.count } := rfl

/-- The halfword that shows a denial holds the denied offset, the code of its cause and the raised count (R46, R165). -/
theorem State.deny_readHalfword (s : State) {offset : BitVec 7} (hoffset : offset.toNat < 64) (cause : DenyCause) :
    ((s.deny offset cause).readHalfword 63).toNat =
      offset.toNat + 64 * cause.code.toNat + 256 * min 255 (s.port.denied.count.toNat + 1) := by
  have hkept : (offset.setWidth 6).toNat = offset.toNat := by
    rw [BitVec.toNat_setWidth, Nat.mod_eq_of_lt hoffset]
  rw [State.readHalfword_denied, State.deny_denied, DeniedRecord.word_toNat, hkept, satInc_toNat]; rfl

/-- The first denial after a clear counts 1 (R47). -/
theorem State.deny_after_clear {s : State} (h : s.port.denied = DeniedRecord.reset) (offset : BitVec 7)
    (cause : DenyCause) :
    (s.deny offset cause).port.denied = { offset := offset.setWidth 6, cause := some cause, count := 1 } := by
  rw [State.deny_denied, h]; rfl

/-! ### The commands that clear the record or the flag -/

/-- A write to offset 63 clears the record whatever it writes, and moves nothing else (R47). -/
theorem exec_accessDeniedRecordClear {s : State} (h : s.portAnswers = true) (data : Halfword) :
    exec (.accessDeniedRecordClear data) s = .next { s with port := { s.port with denied := DeniedRecord.reset } } :=
  congrArg Host.Outcome.next (State.takeWrite_answers h _)

/-- Pin reset clears the record (R47). -/
theorem exec_pinReset_denied (s : State) : ∃ t, exec .pinReset s = .next t ∧ t.port.denied = DeniedRecord.reset :=
  ⟨_, rfl, rfl⟩

theorem State.lineReset_flags (s : State) : s.lineReset.flags = EventFlags.clear := rfl

/-- LINE_RESET clears the flag and keeps the record (R47, R82). -/
theorem exec_lineReset_denied {s : State} (h : s.portAnswers = true) :
    ∃ t, exec .lineReset s = .next t ∧ t.port.denied = s.port.denied ∧ t.flags.accessDenied = false := by
  refine ⟨_, congrArg Host.Outcome.next (State.takeCommand_answers h _ _), ?record, ?flag⟩
  case record => show s.lineReset.port.denied = _; rw [State.lineReset_port]
  case flag => show s.lineReset.flags.accessDenied = _; rw [State.lineReset_flags]; rfl

/-- Settles O34: what a denied write records and how it reads back, then the three commands that clear the record or its
flag. -/
theorem denialsAreRecordedAndCleared : Obligations.DenialsAreRecordedAndCleared := by
  unfold Obligations.DenialsAreRecordedAndCleared
  refine ⟨fun s offset cause hoffset => ⟨rfl, rfl, satInc_toNat _, rfl, rfl, ?readBack⟩,
    fun s => ⟨fun data h => ⟨_, exec_accessDeniedRecordClear h data, rfl, DeniedRecord.word_reset,
        State.deny_after_clear rfl⟩,
      exec_pinReset_denied s, exec_lineReset_denied⟩⟩
  case readBack =>
    refine (s.deny_readHalfword hoffset cause).trans ?_
    cases cause <;> rfl

end Sys2Proof.Machine
end

