-- ==== Sys2Proof/Proofs/SwitchCancel.lean ====
section
/-! SWITCH_CANCEL (R68): the end of a pending switch with the unlock it brings, and the command's two rows. -/

namespace Sys2Proof.Machine

/-! ### The end of a pending switch -/

theorem State.endPending_of_pending {s : State} (h : s.sw.pending = true) (r : SwitchResult) :
    s.endPending r = { s with sw := { s.sw with pending := false, lastResult := r, cause := .noCause } } :=
  if_pos h

/-- The lock of a bank is the pending switch: with none pending, no bank is locked (R42). -/
theorem State.isLocked_of_not_pending {s : State} (h : s.sw.pending = false) (b : BankId) : s.isLocked b = false := by
  rw [State.isLocked, h, Bool.false_and]

/-! ### The two rows of the command -/

theorem State.cancelSwitch_of_pending {s : State} (h : s.sw.pending = true) :
    s.cancelSwitch = ((s.endPending .cancelled).disarm.look, .ok) :=
  if_pos h

theorem State.cancelSwitch_of_not_pending {s : State} (h : s.sw.pending = false) : s.cancelSwitch = (s, .tooLate) :=
  if_neg (Bool.eq_false_iff.mp h)

/-- SWITCH_CANCEL taken: the effects of the row and its answer (R68, R162). -/
theorem exec_switchCancel {s : State} (h : s.portAnswers = true) :
    exec .switchCancel s = .next (s.cancelSwitch.1.answer 0x02 s.cancelSwitch.2) :=
  congrArg Host.Outcome.next (State.takeCommand_answers h _ _)

/-- Settles O15, by the two rows of R68. A pending switch ends CANCELLED, which unlocks its target, and ARMED becomes OFF
before the look; with none pending the command answers TOO_LATE and moves nothing else. -/
theorem switchCancelEndsPending : Obligations.SwitchCancelEndsPending := by
  unfold Obligations.SwitchCancelEndsPending
  refine fun s hans => ⟨fun hpend => ⟨State.isLocked_of_not_pending rfl, ?cancelled⟩, fun hnone => ?tooLate⟩
  case cancelled =>
    rw [exec_switchCancel hans, State.cancelSwitch_of_pending hpend, State.endPending_of_pending hpend]; rfl
  case tooLate => rw [exec_switchCancel hans, State.cancelSwitch_of_not_pending hnone]

end Sys2Proof.Machine
end

