-- ==== Sys2Proof/Proofs/Winner.lean ====
section
/-! The winner of a look (R118, R119): the candidates' conditions with the limits of R116 written out, the first of the
ordinary order, and the precedence of the slot. -/

namespace Sys2Proof.Machine

/-! ### The candidates -/

/-- A duration fits in the remaining time exactly when it fits before each limit in force (R116). -/
theorem State.le_remaining_iff (s : State) (d : Nat) :
    d ≤ s.remaining ↔
      d ≤ (s.cycle.windowEnd - s.lineTime).toNat ∧ d ≤ (s.cycle.cycleEnd - s.lineTime).toNat ∧
        (s.sw.pending = true → d ≤ (s.sw.instant - s.lineTime).toNat) := by
  unfold State.remaining ticksUntil
  split
  next hpend => simp [hpend]
  next hnone => simp [hnone]

theorem MsgObject.held_iff (o : MsgObject) :
    o.held = true ↔ o.config.kind = .poll ∧ o.config.holdUnread = true ∧ o.fresh = true := by
  simp only [MsgObject.held, Bool.and_eq_true, beq_iff_eq, and_assoc]

theorem State.slotCandidate_iff (s : State) (e : Entry) (n : Fin 32) :
    s.slotCandidate e n = true ↔
      (s.object n).state = .pending ∧ e.classes ≠ 0 ∧ ¬(s.object n).held = true ∧ s.worst n ≤ s.remaining := by
  simp [State.slotCandidate, and_assoc]

theorem State.ordinaryCandidate_iff (s : State) (e : Entry) (n : Fin 32) :
    s.ordinaryCandidate e n = true ↔
      (s.object n).state = .pending ∧ ¬(s.object n).held = true ∧ s.isSilent (s.object n).config.node = false ∧
        e.classes.getLsbD (s.object n).config.cls.toNat = true ∧ s.worst n ≤ s.remaining := by
  simp [State.ordinaryCandidate, and_assoc]

/-! ### The ordinary order -/

/-- No two objects share a place in the ordinary order: equal priorities are told apart by the number (R119). -/
theorem State.Before.antisymm {s : State} {a b : Fin 32} (hab : s.Before a b) (hba : s.Before b a) : a = b := by
  unfold State.Before at hab hba
  simp only [BitVec.lt_def, ← BitVec.toNat_inj, Fin.le_def] at hab hba
  omega

theorem State.ordinaryWinner_eq_none_iff (s : State) (e : Entry) :
    s.ordinaryWinner e = none ↔ ∀ n, ¬s.ordinaryCandidate e n = true := by
  rcases s.ordinaryWinner_cases e with ⟨hnone, hempty⟩ | ⟨w, hsome, hw, -⟩
  · simp [hnone, hempty]
  · exact ⟨fun h => absurd (hsome.symm.trans h) (by simp), fun h => absurd hw (h w)⟩

/-- The ordinary winner is the one candidate that goes before every candidate (R119). -/
theorem State.ordinaryWinner_eq_some_iff (s : State) (e : Entry) (n : Fin 32) :
    s.ordinaryWinner e = some n ↔
      s.ordinaryCandidate e n = true ∧ ∀ m, s.ordinaryCandidate e m = true → s.Before n m := by
  rcases s.ordinaryWinner_cases e with ⟨hnone, hempty⟩ | ⟨w, hsome, hw, hfirst⟩
  · simp [hnone, hempty]
  · rw [hsome, Option.some_inj]
    constructor
    · rintro rfl
      exact ⟨hw, hfirst⟩
    · rintro ⟨hn, hbest⟩
      exact (hfirst n hn).antisymm (hbest w hw)

/-! ### The winner, by the window and the slot -/

theorem State.openEntry_of_window {s : State} {b : BankId} {w : Fin 64} (hb : s.activeBank = some b)
    (hw : s.cycle.window = some w) : s.openEntry = some (s.bank b).entries[w.val] := by
  simp only [State.openEntry, hb, hw]

theorem State.openEntry_of_no_window {s : State} (h : s.activeBank = none ∨ s.cycle.window = none) :
    s.openEntry = none := by
  unfold State.openEntry
  split
  next hb hw => simp [hb, hw] at h
  next => rfl

theorem State.winner_of_no_openEntry {s : State} (h : s.openEntry = none) : s.winner = none := by
  simp only [State.winner, h]

/-- A slot occupant that is a candidate wins (R118, step 1). -/
theorem State.winner_of_slotCandidate {s : State} {e : Entry} {n : Fin 32} (he : s.openEntry = some e)
    (hslot : s.slot = some n) (hcand : s.slotCandidate e n = true) : s.winner = some n := by
  simp only [State.winner, he, hslot, hcand, if_true]

/-- With no candidate in the slot, the ordinary order gives the winner (R118, step 2). -/
theorem State.winner_of_no_slotCandidate {s : State} {e : Entry} (he : s.openEntry = some e)
    (hnone : ∀ n, ¬(s.slot = some n ∧ s.slotCandidate e n = true)) : s.winner = s.ordinaryWinner e := by
  simp only [State.winner, he]
  split
  next n hslot => exact if_neg fun hcand => hnone n ⟨hslot, hcand⟩
  next => rfl

/-- Settles O46: the written-out conditions are those of the model's two kinds of candidate; then the slot's precedence, and
the first of the ordinary order when no slot occupant is a candidate. -/
theorem winnerIsBestCandidate : Obligations.WinnerIsBestCandidate := by
  unfold Obligations.WinnerIsBestCandidate
  refine fun s => ⟨fun h => State.winner_of_no_openEntry (State.openEntry_of_no_window h), ?_⟩
  intro b w hb hw e inTime held inserted candidate
  have he : s.openEntry = some e := State.openEntry_of_window hb hw
  have hinserted : ∀ n, inserted n ↔ s.slot = some n ∧ s.slotCandidate e n = true := fun n => by
    rw [s.slotCandidate_iff, MsgObject.held_iff, s.le_remaining_iff]
  have hcandidate : ∀ n, candidate n ↔ s.ordinaryCandidate e n = true := fun n => by
    rw [s.ordinaryCandidate_iff, MsgObject.held_iff, s.le_remaining_iff]
  simp only [hinserted, hcandidate]
  refine ⟨fun n ⟨hslot, hcand⟩ => State.winner_of_slotCandidate he hslot hcand, fun hnone => ?_⟩
  rw [State.winner_of_no_slotCandidate he hnone]
  exact ⟨s.ordinaryWinner_eq_none_iff e, s.ordinaryWinner_eq_some_iff e⟩

end Sys2Proof.Machine
end

