-- ==== Sys2Proof/Proofs/TableWork.lean ====
section
/-! What the Object Table's work leaves of one object and of the Insert Slot, said once: `MsgObject.Worked` of an object that
the work goes through, `MsgObject.Finished` of one whose request is finished or taken, and `State.Works` of the whole table. -/

namespace Sys2Proof.Machine

/-! ### One object -/

/-- `p` is `o` but for its status: configuration, payload and reply are as they were. -/
def MsgObject.SameButStatus (o p : MsgObject) : Prop :=
  p = { o with
    lastOutcome := p.lastOutcome, state := p.state, attempts := p.attempts, age := p.age, reRequest := p.reRequest
    inSlot := p.inSlot, mergeCount := p.mergeCount, delivered := p.delivered }

theorem MsgObject.SameButStatus.refl (o : MsgObject) : o.SameButStatus o := rfl

theorem MsgObject.SameButStatus.trans {o p q : MsgObject} (h : o.SameButStatus p) (k : p.SameButStatus q) :
    o.SameButStatus q := by
  unfold MsgObject.SameButStatus at *
  rw [k, h]

theorem MsgObject.SameButStatus.config {o p : MsgObject} (h : o.SameButStatus p) : p.config = o.config := by
  unfold MsgObject.SameButStatus at h; rw [h]

theorem MsgObject.SameButStatus.payload {o p : MsgObject} (h : o.SameButStatus p) : p.payload = o.payload := by
  unfold MsgObject.SameButStatus at h; rw [h]

theorem MsgObject.SameButStatus.reply {o p : MsgObject} (h : o.SameButStatus p) : p.reply = o.reply := by
  unfold MsgObject.SameButStatus at h; rw [h]

/-- What the table's work makes of an object: DISABLED and ACTIVE are neither entered nor left; a standing request is the one
that stood, or a new one with Attempts 0 to a node that is not SILENT; Re-request is set only in ACTIVE. -/
structure MsgObject.Worked (silent : Bool) (o p : MsgObject) : Prop where
  kept : o.SameButStatus p
  disabled : p.state = .disabled ↔ o.state = .disabled
  active : p.state = .active ↔ o.state = .active
  standing : p.state = .pending ∨ p.state = .active →
    p.state = o.state ∧ p.attempts = o.attempts ∨ p.state = .pending ∧ p.attempts = 0 ∧ silent = false
  reRequest : p.reRequest = true → o.reRequest = true ∨ p.state = .active

theorem MsgObject.Worked.refl (silent : Bool) (o : MsgObject) : o.Worked silent o where
  kept := .refl o
  disabled := .rfl
  active := .rfl
  standing _ := .inl ⟨rfl, rfl⟩
  reRequest := .inl

theorem MsgObject.Worked.trans {silent : Bool} {o p q : MsgObject} (h : o.Worked silent p) (k : p.Worked silent q) :
    o.Worked silent q where
  kept := h.kept.trans k.kept
  disabled := k.disabled.trans h.disabled
  active := k.active.trans h.active
  standing hq := by
    rcases k.standing hq with ⟨hstate, hattempts⟩ | hnew
    · rw [hstate, hattempts]; exact h.standing (hstate ▸ hq)
    · exact .inr hnew
  reRequest hq := by
    rcases k.reRequest hq with hp | hactive
    · rcases h.reRequest hp with ho | hactive
      · exact .inl ho
      · exact .inr (k.active.mpr hactive)
    · exact .inr hactive

/-- A demand merged, or another change that leaves state, Attempts and Re-request, is work on the object (R93, R100). -/
theorem MsgObject.worked_of_same {silent : Bool} {o p : MsgObject} (kept : o.SameButStatus p) (hs : p.state = o.state)
    (ha : p.attempts = o.attempts) (hr : p.reRequest = o.reRequest) : o.Worked silent p where
  kept := kept
  disabled := by rw [hs]
  active := by rw [hs]
  standing _ := .inl ⟨hs, ha⟩
  reRequest h := .inl (hr ▸ h)

/-- What finishing or taking a request makes of an object: IDLE, or PENDING by a request taken anew (R94, R108, R109). -/
structure MsgObject.Finished (silent : Bool) (o p : MsgObject) : Prop where
  kept : o.SameButStatus p
  state : p.state = .idle ∨ p.state = .pending ∧ p.attempts = 0 ∧ silent = false
  reRequest : p.reRequest = true → o.reRequest = true

theorem MsgObject.Finished.not_active {silent : Bool} {o p : MsgObject} (h : o.Finished silent p) : p.state ≠ .active := by
  rcases h.state with h | ⟨h, -⟩ <;> simp [h]

/-- Finishing or taking the request of an object that waits or is IDLE is work on it. -/
theorem MsgObject.Finished.worked {silent : Bool} {o p : MsgObject} (h : o.Finished silent p)
    (ho : o.state = .idle ∨ o.state = .pending) : o.Worked silent p where
  kept := h.kept
  disabled := by rcases h.state with h | ⟨h, -⟩ <;> rcases ho with ho | ho <;> simp [h, ho]
  active := by rcases h.state with h | ⟨h, -⟩ <;> rcases ho with ho | ho <;> simp [h, ho]
  standing hp := by
    rcases h.state with hs | hs
    · rw [hs] at hp; rcases hp with hp | hp <;> cases hp
    · exact .inr hs
  reRequest hp := .inl (h.reRequest hp)

theorem State.afterFinish_object_self (s : State) (n : Fin 32) (outcome : RequestOutcome) (next : ObjState) :
    (s.afterFinish n outcome next).object n = { s.object n with
      lastOutcome := some outcome, state := next
      inSlot := if s.slot = some n then false else (s.object n).inSlot } := by
  rw [State.afterFinish_object, if_pos rfl]

/-- A request finished leaves the object IDLE (R107, R108). -/
theorem State.finished_afterFinish (s : State) (n : Fin 32) (outcome : RequestOutcome) (silent : Bool) :
    (s.object n).Finished silent ((s.afterFinish n outcome .idle).object n) := by
  rw [State.afterFinish_object_self]
  exact ⟨rfl, .inl rfl, id⟩

/-- A request taken stands with Attempts 0, or is finished at once (R94). -/
theorem State.finished_afterRequest (s : State) (n : Fin 32) :
    (s.object n).Finished (s.isSilent (s.object n).config.node) ((s.afterRequest n).object n) := by
  unfold State.afterRequest
  simp only
  split
  next hsilent => rw [State.afterFinish_object_self, State.object_setObject_self]; exact ⟨rfl, .inl rfl, id⟩
  next hheard =>
    split
    next => rw [State.afterFinish_object_self, State.object_setObject_self]; exact ⟨rfl, .inl rfl, id⟩
    next => rw [State.object_setObject_self]; exact ⟨rfl, .inr ⟨rfl, rfl, Bool.eq_false_iff.mpr hheard⟩, id⟩

theorem State.afterOutcome_of_reRequest {s : State} {n : Fin 32} (h : (s.object n).reRequest = true)
    (outcome : RequestOutcome) : s.afterOutcome n outcome =
      ((s.afterFinish n outcome .idle).setObject n
        { (s.afterFinish n outcome .idle).object n with reRequest := false }).afterRequest n :=
  if_pos h

theorem State.afterOutcome_of_no_reRequest {s : State} {n : Fin 32} (h : (s.object n).reRequest = false)
    (outcome : RequestOutcome) : s.afterOutcome n outcome = s.afterFinish n outcome .idle :=
  if_neg (Bool.eq_false_iff.mp h)

/-- A request finished, with its re-request taken, leaves the object IDLE or PENDING anew, and no re-request (R108, R109). -/
theorem State.finished_afterOutcome (s : State) (n : Fin 32) (outcome : RequestOutcome) :
    (s.object n).Finished (s.isSilent (s.object n).config.node) ((s.afterOutcome n outcome).object n) ∧
      ((s.afterOutcome n outcome).object n).reRequest = false := by
  cases hre : (s.object n).reRequest with
  | false =>
    rw [State.afterOutcome_of_no_reRequest hre]
    refine ⟨s.finished_afterFinish n outcome _, ?_⟩
    rw [State.afterFinish_object_self]; exact hre
  | true =>
    rw [State.afterOutcome_of_reRequest hre]
    generalize hu : (s.afterFinish n outcome .idle).setObject n _ = u
    have hobj : (s.object n).SameButStatus (u.object n) ∧ (u.object n).reRequest = false := by
      rw [← hu, State.object_setObject_self, State.afterFinish_object_self]; exact ⟨rfl, rfl⟩
    have hsilent : u.isSilent (u.object n).config.node = s.isSilent (s.object n).config.node := by
      rw [hobj.1.config, ← hu]; exact (s.workOn_afterFinish n outcome .idle).isSilent _
    obtain ⟨hkept, hstate, hre'⟩ := u.finished_afterRequest n
    have hnone : ((u.afterRequest n).object n).reRequest = false :=
      Bool.eq_false_iff.mpr fun h => by rw [hobj.2] at hre'; exact absurd (hre' h) (by decide)
    exact ⟨⟨hobj.1.trans hkept, hsilent ▸ hstate, fun h => by rw [hnone] at h; cases h⟩, hnone⟩

/-! ### The slot -/

theorem State.SlotAgrees.congr {s t : State} (h : s.SlotAgrees) (hobjects : t.objects = s.objects)
    (hslot : t.slot = s.slot) : t.SlotAgrees := by
  unfold State.SlotAgrees State.object at *
  rw [hobjects, hslot]; exact h

/-- Changing an object's status keeps the slot's agreement while an occupant stays PENDING. -/
theorem State.SlotAgrees.setObject {s : State} {n : Fin 32} {o : MsgObject} (h : s.SlotAgrees)
    (hin : o.inSlot = (s.object n).inSlot) (hpend : s.slot = some n → o.state = .pending) :
    (s.setObject n o).SlotAgrees := by
  obtain ⟨hflags, hoccupant⟩ := h
  refine ⟨fun m => ?_, fun m hm => ?_⟩ <;> rw [State.object_setObject] <;> split
  next e => rw [e, hin]; exact hflags n
  next => exact hflags m
  next e => exact hpend (e ▸ hm)
  next => exact hoccupant m hm

/-- Finishing a request takes its object out of the slot (R125). -/
theorem State.SlotAgrees.afterFinish {s : State} (h : s.SlotAgrees) (n : Fin 32) (outcome : RequestOutcome)
    (next : ObjState) : (s.afterFinish n outcome next).SlotAgrees := by
  obtain ⟨hflags, hoccupant⟩ := h
  by_cases hn : s.slot = some n
  · refine ⟨fun m => ?_, fun m hm => by simp [hn] at hm⟩
    rw [State.afterFinish_object, State.afterFinish_slot]
    split
    next => simp
    next hm => simpa [hn, Ne.symm hm] using hflags m
  · have hslot : (s.afterFinish n outcome next).slot = s.slot := by rw [State.afterFinish_slot, if_neg hn]
    refine ⟨fun m => ?_, fun m hm => ?_⟩
    · rw [State.afterFinish_object, hslot]
      split
      next e => rw [e]; exact hflags n
      next => exact hflags m
    · rw [hslot] at hm
      have hmn : m ≠ n := fun e => hn (e ▸ hm)
      rw [State.afterFinish_object, if_neg hmn]
      exact hoccupant m hm

theorem State.SlotAgrees.afterRequest {s : State} (h : s.SlotAgrees) (n : Fin 32) : (s.afterRequest n).SlotAgrees := by
  have htaken := h.setObject (n := n)
    (o := { s.object n with state := .pending, attempts := 0, age := 0, delivered := false }) rfl fun _ => rfl
  unfold State.afterRequest
  simp only
  split
  next => exact htaken.afterFinish n _ _
  next =>
    split
    next => exact htaken.afterFinish n _ _
    next => exact htaken

theorem State.SlotAgrees.afterOutcome {s : State} (h : s.SlotAgrees) (n : Fin 32) (outcome : RequestOutcome) :
    (s.afterOutcome n outcome).SlotAgrees := by
  have hfin := h.afterFinish n outcome .idle
  cases hre : (s.object n).reRequest with
  | false => rw [State.afterOutcome_of_no_reRequest hre]; exact hfin
  | true =>
    rw [State.afterOutcome_of_reRequest hre]
    have hleft : (s.afterFinish n outcome .idle).slot ≠ some n := by rw [State.afterFinish_slot]; split <;> simp_all
    exact (hfin.setObject (o := { (s.afterFinish n outcome .idle).object n with reRequest := false }) rfl
      fun hn => absurd hn hleft).afterRequest n

/-! ### The table -/

/-- What the table's work leaves: nothing but the tables, each object worked, and the slot in agreement. -/
structure State.Works (s t : State) : Prop where
  table : s.WorkOnTable t
  objects : ∀ m, (s.object m).Worked (s.isSilent (s.object m).config.node) (t.object m)
  slot : s.SlotAgrees → t.SlotAgrees

theorem State.Works.refl (s : State) : s.Works s := ⟨.refl s, fun _ => .refl _ _, id⟩

theorem State.Works.trans {s t u : State} (h : s.Works t) (k : t.Works u) : s.Works u where
  table := h.table.trans k.table
  objects m := by
    have hk := k.objects m
    rw [h.table.isSilent, h.table.configs m] at hk
    exact (h.objects m).trans hk
  slot := k.slot ∘ h.slot

/-- Work on one object, with what it leaves of that object and of the slot, is work of the table. -/
theorem State.WorkOn.works {s t : State} {n : Fin 32} (h : s.WorkOn t n)
    (hobj : (s.object n).Worked (s.isSilent (s.object n).config.node) (t.object n))
    (hslot : s.SlotAgrees → t.SlotAgrees) : s.Works t where
  table := h.onTable
  objects m := by
    by_cases e : m = n
    · rw [e]; exact hobj
    · rw [h.others m e]; exact .refl _ _
  slot := hslot

/-- A change of status that leaves state, Attempts, Re-request and In Slot is work of the table. -/
theorem State.works_setObject {s : State} {n : Fin 32} {o : MsgObject} (kept : (s.object n).SameButStatus o)
    (hs : o.state = (s.object n).state) (ha : o.attempts = (s.object n).attempts)
    (hr : o.reRequest = (s.object n).reRequest) (hin : o.inSlot = (s.object n).inSlot) : s.Works (s.setObject n o) :=
  (s.workOn_setObject n o kept.config kept.payload).works
    (by rw [State.object_setObject_self]; exact MsgObject.worked_of_same kept hs ha hr)
    fun h => h.setObject hin fun hn => hs.trans (h.2 n hn)

/-- Finishing a waiting request, with its re-request taken, is work of the table. -/
theorem State.works_finish {s : State} {n : Fin 32} (h : (s.object n).state = .pending) (outcome : RequestOutcome) :
    s.Works (s.finish n outcome) := by
  rw [State.finish_eq]
  exact (s.workOn_afterOutcome n outcome).works ((s.finished_afterOutcome n outcome).1.worked (.inr h))
    fun hslot => hslot.afterOutcome n outcome

/-- A request by the object's state is work of the table (R93). -/
theorem State.works_request (s : State) (n : Fin 32) : s.Works (s.request n) := by
  unfold State.request
  split
  next => exact .refl s
  next hidle =>
    rw [State.takeRequest_eq]
    exact (s.workOn_afterRequest n).works ((s.finished_afterRequest n).worked (.inl hidle)) fun h => h.afterRequest n
  next => exact State.works_setObject rfl rfl rfl rfl rfl
  next hactive =>
    cases hre : (s.object n).reRequest with
    | true =>
      simp only [State.modifyObject, hre, if_true]
      exact State.works_setObject rfl rfl rfl rfl rfl
    | false =>
      simp only [State.modifyObject, hre, Bool.false_eq_true, if_false]
      refine (s.workOn_setObject n { s.object n with reRequest := true } rfl rfl).works ?_
        fun h => h.setObject rfl fun hn => h.2 n hn
      rw [State.object_setObject_self]
      exact ⟨rfl, .rfl, .rfl, fun _ => .inl ⟨rfl, rfl⟩, fun _ => .inr hactive⟩

/-- The ageing step is work of the table (R100). -/
theorem State.works_ageStep (s : State) (n : Fin 32) : s.Works (s.ageStep n) := by
  unfold State.ageStep
  split
  next hpend =>
    have haged : s.Works (s.modifyObject n fun o => { o with age := satInc o.age }) :=
      State.works_setObject rfl rfl rfl rfl rfl
    simp only
    split
    next => exact haged.trans (State.works_finish (by simpa [State.modifyObject] using hpend) _)
    next => exact haged
  next => exact .refl s

/-- The trigger step is work of the table (R101, R149). -/
theorem State.works_triggerStep (s : State) (n : Fin 32) : s.Works (s.triggerStep n) := by
  have hwork := s.workOn_triggerStep n
  revert hwork
  unfold State.triggerStep
  simp only
  split
  next =>
    split
    next =>
      intro hwork
      have hobj := State.object_congr (s.modifyNode_objects (s.object n).config.node NodeRecord.skip)
      exact hwork.works (by rw [hobj]; exact .refl _ _)
        fun h => h.congr (State.modifyNode_objects _ _ _) (State.modifyNode_slot _ _ _)
    next => exact fun _ => s.works_request n
  next => exact fun _ => .refl s

/-- The re-check of one object is work of the table (R110). -/
theorem State.works_recheckStep (s : State) (n : Fin 32) : s.Works (s.recheckStep n) := by
  unfold State.recheckStep
  split
  next hpend =>
    split
    next =>
      split
      next =>
        split
        next => exact State.works_finish hpend _
        next => exact .refl s
      next => exact .refl s
    next =>
      split
      next => exact State.works_finish hpend _
      next => exact .refl s
  next => exact .refl s

/-- Going through the objects with work on each is work of the table (R99). -/
theorem State.works_forEachObject {f : Fin 32 → State → State} (hf : ∀ n s, State.Works s (f n s)) (s : State) :
    s.Works (s.forEachObject f) :=
  State.forEachObject_induction (P := fun t => s.Works t) (fun n t h => h.trans (hf n t)) s (.refl s)

theorem State.works_cycleWork (s : State) : s.Works s.cycleWork :=
  State.works_forEachObject (fun n t => (t.works_ageStep n).trans ((t.ageStep n).works_triggerStep n)) s

theorem State.works_recheck (s : State) : s.Works s.recheck :=
  State.works_forEachObject (fun n t => t.works_recheckStep n) s

end Sys2Proof.Machine
end

