-- ==== Sys2Proof/Proofs/Effects.lean ====
section
/-! What each command can do to the state, said once: `State.Effect` lists the effects, before the look that may follow and
apart from the command result register, and `exec_does` says that every command has one of its own. -/

namespace Sys2Proof.Machine

/-! ### The effects -/

/-- `t` differs from `s` at most in the Host Port, Line Time, the flags, the enable mask, the CYC pulse and the counters of the
Line Engine. -/
def State.Quiet (s t : State) : Prop :=
  t = { s with
    port := t.port, lineTime := t.lineTime, flags := t.flags, enables := t.enables
    cycle := { s.cycle with pulseEnd := t.cycle.pulseEnd }
    engine := { s.engine with
      overrun := t.engine.overrun, syncLate := t.engine.syncLate, gapEndedNow := t.engine.gapEndedNow } }

/-- What was fixed when the frame in flight was taken is as it was (R129). -/
structure Flight.SameTaken (fl fl' : Flight) : Prop where
  carried : fl'.carried = fl.carried
  node : fl'.node = fl.node
  replyLength : fl'.replyLength = fl.replyLength
  frame : fl'.frame = fl.frame
  toggle : fl'.toggle = fl.toggle
  resync : fl'.resync = fl.resync
  bitRate : fl'.bitRate = fl.bitRate
  replyTimeout : fl'.replyTimeout = fl.replyTimeout
  frameBound : fl'.frameBound = fl.frameBound

/-- The bytes sent, the counted overrun, the engine's state and its mark are not fixed at the taking. -/
theorem Flight.sameTaken (fl : Flight) (sent : Nat) (overran : Bool) (phase : Phase) (mark : Tick) :
    fl.SameTaken { fl with sent := sent, overran := overran, phase := phase, mark := mark } :=
  ⟨rfl, rfl, rfl, rfl, rfl, rfl, rfl, rfl, rfl⟩

/-- The work of a switch instant, the look apart (R65 to R67, R127). -/
def State.instantWork (s : State) (b : BankId) : State :=
  (((s.recordSwitch.signalWindowEnd).takeRoles b).beginCycle b s.instantNumber).cycleWork.recheck

/-- The work of a grid cycle start, the look apart (R28, R31). -/
def State.gridWork (s : State) (b : BankId) : State :=
  (s.signalWindowEnd.beginCycle b (s.cycle.cycleNumber + 1)).cycleWork

/-- The attempt ended and its report applied (R18, R19). -/
def State.reported (s : State) (fl : Flight) (r : AttemptResult) : State :=
  match fl.carried with
  | .sync => s.enterIdle
  | .exchange n kind => s.enterIdle.report n kind fl.node r

theorem State.takeInstant_eq (s : State) (b : BankId) : s.takeInstant b = (s.instantWork b).look := rfl

theorem State.gridCycleStart_eq (s : State) (b : BankId) : s.gridCycleStart b = (s.gridWork b).look := rfl

theorem State.endGap_eq (s : State) (fl : Flight) (r : AttemptResult) :
    s.endGap fl r = ((s.reported fl r).raiseFault r).endStopping.look := by
  unfold State.endGap State.reported
  cases fl.carried <;> rfl

/-- The effects of the commands on a state, before the look that may follow and apart from the command result register. -/
inductive State.Effect (s : State) : Instr → State → Prop
  | quiet {c : Instr} {t : State} (same : s.Quiet t)
      (time : t.lineTime ≠ s.lineTime → c = .lineTimeTick ∧ t.lineTime = s.lineTime + 1)
      (enables : t.enables ≠ s.enables → ∃ data, c = .eventEnablesWrite data) : s.Effect c t
  | pinReset : s.Effect .pinReset s.holdReset
  | lineReset : s.Effect .lineReset s.lineReset
  | switchFailed {arg : BitVec 8} {b : BankId} (accepted : s.switchRefusal b = none) (cause : SwitchCause)
      (late : BitVec 8) :
      s.Effect (.switch arg) (s.failSwitch b cause late)
  | switchArmed {arg : BitVec 8} {b : BankId} {k : Nat} {instant : Tick} (accepted : s.switchRefusal b = none)
      (passed : s.judge b = .ok (k, instant)) : s.Effect (.switch arg) (s.armSwitch b instant (lateField k))
  | switchMade {arg : BitVec 8} {b : BankId} {k : Nat} {instant : Tick} (accepted : s.switchRefusal b = none)
      (passed : s.judge b = .ok (k, instant)) :
      s.Effect (.switch arg) ((s.armSwitch b instant (lateField k)).instantWork b)
  | instant {b : BankId} (pending : s.sw.pending = true) (target : s.sw.target = some b) :
      s.Effect .switchInstant (s.instantWork b)
  | cancelled (pending : s.sw.pending = true) : s.Effect .switchCancel (s.endPending .cancelled).disarm
  | stopArmed (state : s.sched = .armed) : s.Effect .schedStop { s.endPending .stopped with sched := .off }
  | stopIdle (state : s.sched = .running ∧ s.engine.flight = none ∨ s.sched = .halted) :
      s.Effect .schedStop (s.endPending .stopped).goOff
  | stopBusy (state : s.sched = .running) (busy : s.engine.flight ≠ none) :
      s.Effect .schedStop { s.endPending .stopped with sched := .stopping }
  | resumed (state : s.sched = .halted) :
      s.Effect .schedResume { s with sched := .running, engine := { s.engine with collisions := 0 } }
  | enabled {arg : BitVec 8} {n : Fin 32} (state : (s.object n).state = .disabled)
      (valid : (s.object n).config.valid = true) :
      s.Effect (.objEnable arg) (s.setObject n { s.object n with state := .idle })
  | disabled {arg : BitVec 8} {n : Fin 32} (state : (s.object n).state = .idle) :
      s.Effect (.objDisable arg) (s.setObject n { s.object n with state := .disabled })
  | retired {arg : BitVec 8} {n : Fin 32} (state : (s.object n).state = .pending) :
      s.Effect (.objDisable arg) (s.retire n .withdrawn .disabled)
  | requested {arg : BitVec 8} (n : Fin 32) : s.Effect (.objRequest arg) (s.request n)
  | withdrawn {arg : BitVec 8} {n : Fin 32} (state : (s.object n).state = .pending) :
      s.Effect (.objWithdraw arg) (s.finish n .withdrawn)
  | reRequestDropped {arg : BitVec 8} {n : Fin 32} (state : (s.object n).state = .active) :
      s.Effect (.objWithdraw arg) (s.setObject n { s.object n with reRequest := false })
  | released {arg : BitVec 8} (n : Fin 32) :
      s.Effect (.objRelease arg) (s.setObject n { s.object n with fresh := false })
  | inserted {n : Fin 32} (state : (s.object n).state = .pending) (outside : s.slot ≠ some n) :
      s.Effect (.objInsert (BitVec.ofNat 8 n.val)) (s.enterSlot n)
  | revived {i : Fin 30} (state : (s.nodeRecord i).state = .silent) :
      s.Effect (.nodeRevive (BitVec.ofNat 8 (i.val + 1)))
        (s.setNode i { s.nodeRecord i with state := .unknown, missCount := 0, toggle := none })
  | popped {head : Completion} {rest : List Completion} (queue : s.queue = head :: rest) :
      s.Effect .queuePop { s with queue := rest }
  | lineConfigured {reg : LineReg} {data : Halfword} (state : s.sched = .off) :
      s.Effect (.lineConfigurationWrite reg data) (s.writeLineConfig reg data)
  | bankWritten {reg : BankReg} {data : Halfword} (shadow : s.activeBank ≠ some s.port.bankSelect)
      (unlocked : s.isLocked s.port.bankSelect = false) (bk : Bank) :
      s.Effect (.bankWrite reg data) (s.setBank s.port.bankSelect bk)
  | objectConfigured {reg : ObjReg} {data : Halfword} (state : (s.object s.port.objectSelect).state = .disabled)
      (config : ObjConfig) :
      s.Effect (.objectConfigurationWrite reg data)
        (s.setObject s.port.objectSelect { s.object s.port.objectSelect with config := config })
  | payloadWritten {k : BitVec 3} {data : Halfword}
      (state : (s.object s.port.objectSelect).state = .disabled ∨ (s.object s.port.objectSelect).state = .idle)
      (payload : Vector Byte 16) :
      s.Effect (.payloadWrite k data)
        (s.setObject s.port.objectSelect { s.object s.port.objectSelect with payload := payload })
  | cycleStarted {b : BankId} (active : s.activeBank = some b) : s.Effect .cycleStart (s.gridWork b)
  | boundary {b : BankId} {w : Fin 64} (active : s.activeBank = some b) :
      s.Effect .windowBoundary (s.signalWindowEnd.nextWindow b w)
  | onLine {c : Instr} {fl fl' : Flight} (staging : Staging) (collisions : BitVec 2)
      (flight : s.engine.flight = some fl) (taken : fl.SameTaken fl')
      (sending : fl'.phase = .sending → fl.phase = .sending) :
      s.Effect c { s with engine := { s.engine with
        flight := some fl', staging := staging, collisions := collisions } }
  | gapEnded {fl : Flight} {r : AttemptResult} (flight : s.engine.flight = some fl) :
      s.Effect .gapEnd ((s.reported fl r).raiseFault r).endStopping

/-- What may follow an effect in its command: a look, and the answer in the command result register. -/
inductive State.Reaches (u : State) : State → Prop
  | plain : u.Reaches u
  | looked : u.Reaches u.look
  | answered {v : State} (code : BitVec 8) (r : ResultCode) (h : u.Reaches v) : u.Reaches (v.answer code r)

/-- A command takes `s` to `t` by one of its effects and what may follow it. -/
def State.Does (s : State) (c : Instr) (t : State) : Prop := ∃ u, s.Effect c u ∧ u.Reaches t

/-! ### Each command has an effect -/

theorem State.Effect.does {s u : State} {c : Instr} (h : s.Effect c u) : s.Does c u := ⟨u, h, .plain⟩

theorem State.Effect.looks {s u : State} {c : Instr} (h : s.Effect c u) : s.Does c u.look := ⟨u, h, .looked⟩

theorem State.quiet_refl (s : State) : s.Quiet s := rfl

theorem State.effect_nothing (s : State) (c : Instr) : s.Effect c s :=
  .quiet s.quiet_refl (fun h => absurd rfl h) fun h => absurd rfl h

theorem State.does_nothing (s : State) (c : Instr) : s.Does c s := (s.effect_nothing c).does

/-- A quiet change that leaves Line Time and the enable mask. -/
theorem State.does_quiet {s t : State} (c : Instr) (same : s.Quiet t) (time : t.lineTime = s.lineTime)
    (enables : t.enables = s.enables) : s.Does c t :=
  (State.Effect.quiet same (fun h => absurd time h) fun h => absurd enables h).does

theorem State.does_deny (s : State) (c : Instr) (offset : BitVec 7) (cause : DenyCause) :
    s.Does c (s.deny offset cause) := State.does_quiet c rfl rfl rfl

/-- A command taken does what its effects do, and one not taken does nothing (R162, R167). -/
theorem State.does_takeCommand {s : State} {c : Instr} (code : BitVec 8) {f : State → State × ResultCode}
    (h : s.Does c (f s).1) : s.Does c (s.takeCommand code f) := by
  unfold State.takeCommand
  split
  next => exact h.imp fun _ ⟨heffect, hreaches⟩ => ⟨heffect, hreaches.answered _ _⟩
  next => exact s.does_nothing c

theorem State.does_takeWrite {s : State} {c : Instr} {f : State → State} (h : s.Does c (f s)) :
    s.Does c (s.takeWrite f) := by
  unfold State.takeWrite
  split
  next => exact h
  next => exact s.does_nothing c

theorem State.does_onObject {s : State} {c : Instr} {arg : BitVec 8} {f : Fin 32 → State → State × ResultCode}
    (h : ∀ n, arg = BitVec.ofNat 8 n.val → s.Does c (f n s).1) : s.Does c (s.onObject arg f).1 := by
  unfold State.onObject
  split
  next => exact s.does_nothing c
  next n hn => exact h n (objectArgument_eq_some.mp hn)

theorem State.switchTo_does (s : State) (arg : BitVec 8) (b : BankId) : s.Does (.switch arg) (s.switchTo b).1 := by
  unfold State.switchTo
  split
  next => exact s.does_nothing _
  next haccepted =>
    split
    next f hfail => exact (State.Effect.switchFailed haccepted f.1 f.2).does
    next k instant hpass =>
      simp only
      split
      next =>
        simp only [State.takeInstant_eq]
        exact (State.Effect.switchMade haccepted hpass).looks
      next => exact (State.Effect.switchArmed haccepted hpass).looks

theorem State.stop_does (s : State) : s.Does .schedStop s.stop.1 := by
  unfold State.stop
  split
  next => exact s.does_nothing _
  next => exact s.does_nothing _
  next h => exact (State.Effect.stopArmed h).does
  next h =>
    unfold State.lineIdle
    cases hf : s.engine.flight with
    | none => exact (State.Effect.stopIdle (.inl ⟨h, hf⟩)).does
    | some fl => exact (State.Effect.stopBusy h (by rw [hf]; exact Option.some_ne_none fl)).does
  next h => exact (State.Effect.stopIdle (.inr h)).does

theorem State.enable_does (s : State) (arg : BitVec 8) (n : Fin 32) : s.Does (.objEnable arg) (s.enable n).1 := by
  unfold State.enable
  split
  next h =>
    split
    next hvalid => exact (State.Effect.enabled h hvalid).does
    next => exact s.does_nothing _
  all_goals exact s.does_nothing _

theorem State.disable_does (s : State) (arg : BitVec 8) (n : Fin 32) : s.Does (.objDisable arg) (s.disable n).1 := by
  unfold State.disable
  split
  next h => exact (State.Effect.disabled h).does
  next h => exact (State.Effect.retired h).does
  all_goals exact s.does_nothing _

theorem State.hostRequest_does (s : State) (arg : BitVec 8) (n : Fin 32) :
    s.Does (.objRequest arg) (s.hostRequest n).1 := by
  have hrequested : s.Effect (.objRequest arg) (s.request n) := .requested n
  unfold State.hostRequest
  split
  next => exact s.does_nothing _
  next =>
    simp only
    split
    next => exact hrequested.looks
    next => exact hrequested.does
  all_goals exact hrequested.does

theorem State.withdraw_does (s : State) (arg : BitVec 8) (n : Fin 32) : s.Does (.objWithdraw arg) (s.withdraw n).1 := by
  unfold State.withdraw
  split
  next h => exact (State.Effect.withdrawn h).does
  next h => exact (State.Effect.reRequestDropped h).does
  all_goals exact s.does_nothing _

theorem State.release_does (s : State) (arg : BitVec 8) (n : Fin 32) : s.Does (.objRelease arg) (s.release n).1 := by
  have hreleased : s.Effect (.objRelease arg) (s.modifyObject n fun o => { o with fresh := false }) := .released n
  unfold State.release
  split
  next => exact s.does_nothing _
  all_goals
    simp only
    split
    next => exact hreleased.looks
    next => exact hreleased.does

theorem State.insert_does (s : State) (n : Fin 32) :
    s.Does (.objInsert (BitVec.ofNat 8 n.val)) (s.insert n).1 := by
  unfold State.insert
  split
  next h =>
    split
    next => exact (s.effect_nothing _).looks
    next hout =>
      split
      next => exact s.does_nothing _
      next => exact (State.Effect.inserted h hout).looks
  all_goals exact s.does_nothing _

theorem State.revive_does (s : State) (i : Fin 30) :
    s.Does (.nodeRevive (BitVec.ofNat 8 (i.val + 1))) (s.revive i).1 := by
  unfold State.revive
  simp only
  split
  next h => exact (State.Effect.revived h).does
  next => exact s.does_nothing _

theorem State.pop_does (s : State) : s.Does .queuePop s.pop.1 := by
  unfold State.pop
  split
  next => exact s.does_nothing _
  next h => exact (State.Effect.popped h).does

theorem State.writeBank_does (s : State) (reg : BankReg) (data : Halfword) :
    s.Does (.bankWrite reg data) (s.writeBank reg data) := by
  unfold State.writeBank
  simp only
  split
  next => exact s.does_deny _ _ _
  next hshadow =>
    split
    next => exact s.does_deny _ _ _
    next hlock => exact (State.Effect.bankWritten hshadow (Bool.eq_false_iff.mpr hlock) _).does

theorem State.writeLineConfig_does (s : State) (reg : LineReg) (data : Halfword) :
    s.Does (.lineConfigurationWrite reg data) (s.writeLineConfig reg data) := by
  by_cases h : s.sched = .off
  · exact (State.Effect.lineConfigured h).does
  · unfold State.writeLineConfig
    rw [if_neg h]; exact s.does_deny _ _ _

theorem State.writeObjConfig_does (s : State) (reg : ObjReg) (data : Halfword) :
    s.Does (.objectConfigurationWrite reg data) (s.writeObjConfig reg data) := by
  unfold State.writeObjConfig
  simp only
  split
  next h => exact (State.Effect.objectConfigured h _).does
  next => exact s.does_deny _ _ _

theorem State.writePayloadHalf_does (s : State) (k : BitVec 3) (data : Halfword) :
    s.Does (.payloadWrite k data) (s.writePayloadHalf k data) := by
  unfold State.writePayloadHalf
  simp only
  split
  next h => exact (State.Effect.payloadWritten h _).does
  next => exact s.does_deny _ _ _

theorem State.writeSelect_does (s : State) (reg : SelectReg) (data : Halfword) :
    s.Does (.selectWrite reg data) (s.writeSelect reg data) := by
  cases reg <;> exact State.does_quiet _ rfl rfl rfl

/-! ### The Line Engine -/

/-- A flight gone on to a state other than SENDING (section 1.5). -/
theorem State.does_goTo {s : State} {fl : Flight} (c : Instr) (h : s.engine.flight = some fl) {p : Phase}
    (hp : p ≠ .sending) (g : Staging) (k : BitVec 2) :
    s.Does c { s with engine := { s.engine with
      flight := some (fl.goTo p s.lineTime), staging := g, collisions := k } } :=
  (State.Effect.onLine (fl' := fl.goTo p s.lineTime) g k h (fl.sameTaken _ _ _ _) fun e => absurd e hp).does

theorem State.byteEnds_does {s : State} {fl : Flight} (h : s.engine.flight = some fl) (c : Instr) (echo : BitVec 10)
    (hp : fl.phase = .sending) : s.Does c (s.byteEnds fl echo) := by
  unfold State.byteEnds
  split
  next =>
    split
    next => exact (State.Effect.onLine (fl' := { fl with sent := fl.sent + 1, mark := s.lineTime })
      s.engine.staging s.engine.collisions h (fl.sameTaken _ _ _ _) fun _ => hp).does
    next =>
      unfold State.frameWhole
      split
      all_goals
        refine (State.Effect.onLine (fl' := { fl with sent := fl.sent + 1 }.goTo _ s.lineTime) _ _ h
          (fl.sameTaken _ _ _ _) fun e => ?_).does
        simp [Flight.goTo] at e
  next => exact State.does_goTo c h (by simp) _ _

theorem State.receiveByte_does {s : State} {fl : Flight} (h : s.engine.flight = some fl) (c : Instr) (n : Fin 32)
    (kind : ExchangeKind) (data : Byte) (stopBit : Bool) :
    s.Does c (s.receiveByte fl n kind data stopBit) := by
  unfold State.receiveByte
  split
  next =>
    simp only
    split
    next => exact (State.Effect.onLine (fl' := { fl with mark := s.lineTime }) _ _ h (fl.sameTaken _ _ _ _) id).does
    all_goals exact State.does_goTo c h (by simp) _ _
  next => exact State.does_goTo c h (by simp) _ _

/-- BYTE_SENT to DRAIN_COUNT_RESTART let the flight go on, or do nothing (section 1.5). -/
theorem execByteSent_does (s : State) (echo : BitVec 10) :
    ∃ t, execByteSent echo s = .next t ∧ s.Does (.byteSent echo) t := by
  refine ⟨_, rfl, ?_⟩
  split
  next fl hf =>
    split
    next h => exact State.byteEnds_does hf _ echo h.1
    next => exact s.does_nothing _
  next => exact s.does_nothing _

theorem execReplyStart_does (s : State) : ∃ t, execReplyStart s = .next t ∧ s.Does .replyStart t := by
  refine ⟨_, rfl, ?_⟩
  split
  next fl hf =>
    split
    next => exact State.does_goTo _ hf (by simp) _ _
    next => exact s.does_nothing _
  next => exact s.does_nothing _

theorem execReplyTimeout_does (s : State) : ∃ t, execReplyTimeout s = .next t ∧ s.Does .replyTimeout t := by
  refine ⟨_, rfl, ?_⟩
  split
  next fl hf =>
    split
    next => exact State.does_goTo _ hf (by simp) _ _
    next => exact s.does_nothing _
  next => exact s.does_nothing _

theorem execReplyByteReceived_does (s : State) (data : Byte) (stopBit : Bool) :
    ∃ t, execReplyByteReceived data stopBit s = .next t ∧ s.Does (.replyByteReceived data stopBit) t := by
  refine ⟨_, rfl, ?_⟩
  split
  next fl hf =>
    split
    next n kind _ =>
      split
      next => exact State.receiveByte_does hf _ n kind data stopBit
      next => exact s.does_nothing _
    next => exact s.does_nothing _
  next => exact s.does_nothing _

theorem execTruncatedReply_does (s : State) : ∃ t, execTruncatedReply s = .next t ∧ s.Does .truncatedReply t := by
  refine ⟨_, rfl, ?_⟩
  split
  next fl hf =>
    split
    next => exact State.does_goTo _ hf (by simp) _ _
    next => exact s.does_nothing _
  next => exact s.does_nothing _

theorem execDrainEnd_does (s : State) : ∃ t, execDrainEnd s = .next t ∧ s.Does .drainEnd t := by
  refine ⟨_, rfl, ?_⟩
  split
  next fl hf =>
    split
    next => exact State.does_goTo _ hf (by simp) _ _
    next => exact s.does_nothing _
  next => exact s.does_nothing _

theorem execDrainCountRestart_does (s : State) :
    ∃ t, execDrainCountRestart s = .next t ∧ s.Does .drainCountRestart t := by
  refine ⟨_, rfl, ?_⟩
  split
  next fl hf =>
    split
    next =>
      exact (State.Effect.onLine (fl' := { fl with mark := s.lineTime }) _ _ hf (fl.sameTaken _ _ _ _) id).does
    next => exact s.does_nothing _
  next => exact s.does_nothing _

theorem execGapEnd_does (s : State) : ∃ t, execGapEnd s = .next t ∧ s.Does .gapEnd t := by
  refine ⟨_, rfl, ?_⟩
  split
  next fl hf =>
    split
    next r _ =>
      split
      next => rw [State.endGap_eq]; exact (State.Effect.gapEnded hf).looks
      next => exact s.does_nothing _
    next => exact s.does_nothing _
  next => exact s.does_nothing _

/-! ### The Cycle Timer, the clock and the reset pin -/

theorem execSwitchInstant_does (s : State) : ∃ t, execSwitchInstant s = .next t ∧ s.Does .switchInstant t := by
  refine ⟨_, rfl, ?_⟩
  split
  next b htarget =>
    split
    next hdue =>
      have hpend : s.sw.pending = true := by
        unfold State.instantDue at hdue; exact (Bool.and_eq_true_iff.mp hdue).1
      rw [State.takeInstant_eq]; exact (State.Effect.instant hpend htarget).looks
    next => exact s.does_nothing _
  next => exact s.does_nothing _

theorem execCycleStart_does (s : State) : ∃ t, execCycleStart s = .next t ∧ s.Does .cycleStart t := by
  refine ⟨_, rfl, ?_⟩
  split
  next b hb =>
    split
    next => rw [State.gridCycleStart_eq]; exact (State.Effect.cycleStarted hb).looks
    next => exact s.does_nothing _
  next => exact s.does_nothing _

theorem execWindowBoundary_does (s : State) : ∃ t, execWindowBoundary s = .next t ∧ s.Does .windowBoundary t := by
  refine ⟨_, rfl, ?_⟩
  split
  next b w hb hw =>
    split
    next =>
      have hboundary : s.Effect .windowBoundary (s.signalWindowEnd.nextWindow b w) := .boundary hb
      unfold State.boundary
      simp only
      split
      next => exact hboundary.looks
      next => exact hboundary.does
    next => exact s.does_nothing _
  next => exact s.does_nothing _

theorem execCycPulseEnd_does (s : State) : ∃ t, execCycPulseEnd s = .next t ∧ s.Does .cycPulseEnd t := by
  refine ⟨_, rfl, ?_⟩
  split
  next => exact State.does_quiet _ rfl rfl rfl
  next => exact s.does_nothing _

theorem execLineTimeTick_does (s : State) : ∃ t, execLineTimeTick s = .next t ∧ s.Does .lineTimeTick t := by
  refine ⟨_, rfl, ?_⟩
  split
  next => exact s.does_nothing _
  next => exact State.Effect.does (.quiet rfl (fun _ => ⟨rfl, rfl⟩) fun h => absurd rfl h)

theorem execResetRelease_does (s : State) : ∃ t, execResetRelease s = .next t ∧ s.Does .resetRelease t := by
  refine ⟨_, rfl, ?_⟩
  split
  next => exact State.does_quiet _ rfl rfl rfl
  next => exact s.does_nothing _

theorem execLineTimeLowRead_does (s : State) :
    ∃ t, execLineTimeLowRead s = .next t ∧ s.Does .lineTimeLowRead t := by
  refine ⟨_, rfl, ?_⟩
  split
  next => exact State.does_quiet _ rfl rfl rfl
  next => exact s.does_nothing _

/-! ### Every command -/

theorem execSwitch_does (s : State) (arg : BitVec 8) : ∃ t, execSwitch arg s = .next t ∧ s.Does (.switch arg) t := by
  refine ⟨_, rfl, State.does_takeCommand _ ?_⟩
  split
  next => exact s.does_nothing _
  next b _ => exact s.switchTo_does arg b

theorem execNodeRevive_does (s : State) (arg : BitVec 8) :
    ∃ t, execNodeRevive arg s = .next t ∧ s.Does (.nodeRevive arg) t := by
  refine ⟨_, rfl, State.does_takeCommand _ ?_⟩
  split
  next => exact s.does_nothing _
  next i hi => rw [nodeArgument_eq_some.mp hi]; exact s.revive_does i

theorem State.cancelSwitch_does (s : State) : s.Does .switchCancel s.cancelSwitch.1 := by
  unfold State.cancelSwitch
  split
  next h => exact (State.Effect.cancelled h).looks
  next => exact s.does_nothing _

theorem State.resume_does (s : State) : s.Does .schedResume s.resume.1 := by
  unfold State.resume
  split
  next h => exact (State.Effect.resumed h).looks
  next => exact s.does_nothing _

/-- Every command that answers a next state has one of its effects, then perhaps a look, then perhaps its answer. -/
theorem exec_does {s t : State} {c : Instr} (h : exec c s = .next t) : s.Does c t := by
  have ofNext : ∀ {o : Host.Outcome State Fault Refusal}, (∃ u, o = .next u ∧ s.Does c u) → o = .next t →
      s.Does c t := by
    rintro _ ⟨u, rfl, hu⟩ e
    injection e with e
    exact e ▸ hu
  refine ofNext ?_ h
  cases c with
  | pinReset => exact ⟨_, rfl, State.Effect.pinReset.does⟩
  | resetRelease => exact execResetRelease_does s
  | switch arg => exact execSwitch_does s arg
  | switchCancel => exact ⟨_, rfl, State.does_takeCommand _ s.cancelSwitch_does⟩
  | schedStop => exact ⟨_, rfl, State.does_takeCommand _ s.stop_does⟩
  | schedResume => exact ⟨_, rfl, State.does_takeCommand _ s.resume_does⟩
  | lineReset => exact ⟨_, rfl, State.does_takeCommand _ State.Effect.lineReset.does⟩
  | objEnable arg => exact ⟨_, rfl, State.does_takeCommand _ (State.does_onObject fun n _ => s.enable_does arg n)⟩
  | objDisable arg => exact ⟨_, rfl, State.does_takeCommand _ (State.does_onObject fun n _ => s.disable_does arg n)⟩
  | objRequest arg => exact ⟨_, rfl, State.does_takeCommand _ (State.does_onObject fun n _ => s.hostRequest_does arg n)⟩
  | objWithdraw arg => exact ⟨_, rfl, State.does_takeCommand _ (State.does_onObject fun n _ => s.withdraw_does arg n)⟩
  | objRelease arg => exact ⟨_, rfl, State.does_takeCommand _ (State.does_onObject fun n _ => s.release_does arg n)⟩
  | objInsert arg =>
    exact ⟨_, rfl, State.does_takeCommand _ (State.does_onObject fun n hn => hn ▸ s.insert_does n)⟩
  | nodeRevive arg => exact execNodeRevive_does s arg
  | queuePop => exact ⟨_, rfl, State.does_takeCommand _ s.pop_does⟩
  | countersClear => exact ⟨_, rfl, State.does_takeCommand _ (State.does_quiet _ rfl rfl rfl)⟩
  | unknownCommand code arg =>
    cases hcode : isListedCode code with
    | true => simp [exec, execUnknownCommand, hcode] at h
    | false =>
      refine ⟨_, by simp only [exec, execUnknownCommand, hcode, Bool.false_eq_true, if_false]; rfl, ?_⟩
      exact State.does_takeCommand _ (s.does_nothing _)
  | lineTimeLowRead => exact execLineTimeLowRead_does s
  | lineConfigurationWrite reg data => exact ⟨_, rfl, State.does_takeWrite (s.writeLineConfig_does reg data)⟩
  | bankWrite reg data => exact ⟨_, rfl, State.does_takeWrite (s.writeBank_does reg data)⟩
  | objectConfigurationWrite reg data => exact ⟨_, rfl, State.does_takeWrite (s.writeObjConfig_does reg data)⟩
  | payloadWrite k data => exact ⟨_, rfl, State.does_takeWrite (s.writePayloadHalf_does k data)⟩
  | selectWrite reg data => exact ⟨_, rfl, State.does_takeWrite (s.writeSelect_does reg data)⟩
  | eventFlagsWrite data => exact ⟨_, rfl, State.does_takeWrite (State.does_quiet _ rfl rfl rfl)⟩
  | eventEnablesWrite data =>
    exact ⟨_, rfl, State.does_takeWrite
      (State.Effect.does (.quiet rfl (fun h => absurd rfl h) fun _ => ⟨data, rfl⟩))⟩
  | accessDeniedRecordClear data => exact ⟨_, rfl, State.does_takeWrite (State.does_quiet _ rfl rfl rfl)⟩
  | registerWrite offset data =>
    cases hoffset : isWritableOffset offset with
    | true => simp [exec, execRegisterWrite, hoffset] at h
    | false => exact ⟨s, exec_registerWrite hoffset data s, s.does_nothing _⟩
  | switchInstant => exact execSwitchInstant_does s
  | cycleStart => exact execCycleStart_does s
  | windowBoundary => exact execWindowBoundary_does s
  | cycPulseEnd => exact execCycPulseEnd_does s
  | byteSent echo => exact execByteSent_does s echo
  | replyStart => exact execReplyStart_does s
  | replyTimeout => exact execReplyTimeout_does s
  | replyByteReceived data stopBit => exact execReplyByteReceived_does s data stopBit
  | truncatedReply => exact execTruncatedReply_does s
  | drainEnd => exact execDrainEnd_does s
  | gapEnd => exact execGapEnd_does s
  | lineTimeTick => exact execLineTimeTick_does s
  | drainCountRestart => exact execDrainCountRestart_does s

/-- A step is an effect of the command at the front, with the rest of the queue left; with an empty queue the block idles. -/
theorem step_cases {s t : State} (h : step s = .next t) :
    s.pending = [] ∧ t = s ∨
      ∃ c rest, s.pending = c :: rest ∧ ({ s with pending := rest } : State).Does c t := by
  unfold step at h
  split at h
  next hnone => injection h with h; exact .inl ⟨hnone, h.symm⟩
  next c rest hpend => exact .inr ⟨c, rest, hpend, exec_does h⟩

/-- A condition that the queue of commands and the command result register do not bear on is kept by every step, if every look
and every effect keeps it. -/
theorem step_keeps {P : State → Prop} (queue : ∀ {s : State} rest, P s → P { s with pending := rest })
    (answer : ∀ {s : State} code r, P s → P (s.answer code r)) (look : ∀ {s : State}, P s → P s.look)
    (effect : ∀ {s t : State} {c : Instr}, s.Effect c t → P s → P t) {s t : State} (hs : P s) (h : step s = .next t) :
    P t := by
  rcases step_cases h with ⟨-, rfl⟩ | ⟨c, rest, -, u, heffect, hreaches⟩
  · exact hs
  · have hu : P u := effect heffect (queue rest hs)
    clear h
    induction hreaches with
    | plain => exact hu
    | looked => exact look hu
    | answered code r _ ih => exact answer code r ih

end Sys2Proof.Machine
end

