-- ==== Sys2Proof/Proofs/Happenings.lean ====
section
/-! What the larger effects leave of each field: a quiet change, LINE_RESET, the work of a cycle start and of a switch instant,
and the end of an attempt. -/

namespace Sys2Proof.Machine

/-! ### A quiet change -/

theorem State.Quiet.config {s t : State} (h : s.Quiet t) : t.config = s.config := by unfold State.Quiet at h; rw [h]
theorem State.Quiet.bank {s t : State} (h : s.Quiet t) (b : BankId) : t.bank b = s.bank b := by
  unfold State.Quiet at h; rw [h]; cases b <;> rfl
theorem State.Quiet.activeBank {s t : State} (h : s.Quiet t) : t.activeBank = s.activeBank := by
  unfold State.Quiet at h; rw [h]
theorem State.Quiet.figures {s t : State} (h : s.Quiet t) : t.figures = s.figures := by unfold State.Quiet at h; rw [h]
theorem State.Quiet.sw {s t : State} (h : s.Quiet t) : t.sw = s.sw := by unfold State.Quiet at h; rw [h]
theorem State.Quiet.sched {s t : State} (h : s.Quiet t) : t.sched = s.sched := by unfold State.Quiet at h; rw [h]
theorem State.Quiet.window {s t : State} (h : s.Quiet t) : t.cycle.window = s.cycle.window := by
  unfold State.Quiet at h; rw [h]
theorem State.Quiet.syncOwed {s t : State} (h : s.Quiet t) : t.cycle.syncOwed = s.cycle.syncOwed := by
  unfold State.Quiet at h; rw [h]
theorem State.Quiet.objects {s t : State} (h : s.Quiet t) : t.objects = s.objects := by unfold State.Quiet at h; rw [h]
theorem State.Quiet.slot {s t : State} (h : s.Quiet t) : t.slot = s.slot := by unfold State.Quiet at h; rw [h]
theorem State.Quiet.flight {s t : State} (h : s.Quiet t) : t.engine.flight = s.engine.flight := by
  unfold State.Quiet at h; rw [h]
theorem State.Quiet.nodes {s t : State} (h : s.Quiet t) : t.nodes = s.nodes := by unfold State.Quiet at h; rw [h]
theorem State.Quiet.queue {s t : State} (h : s.Quiet t) : t.queue = s.queue := by unfold State.Quiet at h; rw [h]
theorem State.Quiet.pending {s t : State} (h : s.Quiet t) : t.pending = s.pending := by unfold State.Quiet at h; rw [h]

/-! ### LINE_RESET -/

theorem State.lineReset_object (s : State) (n : Fin 32) : s.lineReset.object n = (s.object n).lineReset := by
  simp [State.lineReset, State.object]

/-- An object after LINE_RESET: no request stands, and what R111 keeps is kept. -/
theorem MsgObject.lineReset_of_standing {o : MsgObject} (h : o.state = .pending ∨ o.state = .active) :
    o.lineReset = { o with
      state := .idle, attempts := 0, age := 0, reRequest := false, inSlot := false, delivered := false } := by
  unfold MsgObject.lineReset
  rcases h with h | h <;> simp [h]

theorem MsgObject.lineReset_of_not_standing {o : MsgObject} (h : ¬(o.state = .pending ∨ o.state = .active)) :
    o.lineReset = o := by
  unfold MsgObject.lineReset
  split <;> simp_all

theorem MsgObject.lineReset_state (o : MsgObject) :
    o.lineReset.state = .idle ∨ o.lineReset.state = .disabled ∧ o.state = .disabled := by
  unfold MsgObject.lineReset
  split <;> simp_all

theorem MsgObject.lineReset_config (o : MsgObject) : o.lineReset.config = o.config := by
  unfold MsgObject.lineReset; split <;> rfl

theorem MsgObject.lineReset_payload (o : MsgObject) : o.lineReset.payload = o.payload := by
  unfold MsgObject.lineReset; split <;> rfl

theorem MsgObject.lineReset_reply (o : MsgObject) : o.lineReset.reply = o.reply := by
  unfold MsgObject.lineReset; split <;> rfl

theorem State.lineReset_nodeRecord (s : State) (i : Fin 30) : s.lineReset.nodeRecord i = NodeRecord.reset := by
  simp [State.lineReset, State.nodeRecord]

@[simp] theorem State.lineReset_lineTime (s : State) : s.lineReset.lineTime = s.lineTime := s.endPending_lineTime _
@[simp] theorem State.lineReset_config (s : State) : s.lineReset.config = s.config := s.endPending_config _
@[simp] theorem State.lineReset_enables (s : State) : s.lineReset.enables = s.enables := s.endPending_enables _
@[simp] theorem State.lineReset_pending (s : State) : s.lineReset.pending = s.pending := s.endPending_pending _
@[simp] theorem State.lineReset_sw_pending (s : State) : s.lineReset.sw.pending = false := s.endPending_sw_pending _
@[simp] theorem State.lineReset_bank (s : State) (b : BankId) : s.lineReset.bank b = s.bank b := by
  cases b
  · exact s.endPending_bankA _
  · exact s.endPending_bankB _

@[simp] theorem State.endPending_bank (s : State) (r : SwitchResult) (b : BankId) : (s.endPending r).bank b = s.bank b := by
  cases b
  · exact s.endPending_bankA _
  · exact s.endPending_bankB _

/-! ### A cycle start and a switch instant -/

/-- The new cycle of a switch instant, before the Object Table's work (R65 to R67, R28). -/
def State.instantBase (s : State) (b : BankId) : State :=
  ((s.recordSwitch.signalWindowEnd).takeRoles b).beginCycle b s.instantNumber

/-- The new cycle of the grid, before the Object Table's work (R31, R28). -/
def State.gridBase (s : State) (b : BankId) : State := s.signalWindowEnd.beginCycle b (s.cycle.cycleNumber + 1)

theorem State.works_instantWork (s : State) (b : BankId) : (s.instantBase b).Works (s.instantWork b) :=
  (State.works_cycleWork _).trans (State.works_recheck _)

theorem State.works_gridWork (s : State) (b : BankId) : (s.gridBase b).Works (s.gridWork b) := State.works_cycleWork _

@[simp] theorem State.recordSwitch_flight (s : State) : s.recordSwitch.engine = s.engine := rfl

@[simp] theorem State.instantBase_objects (s : State) (b : BankId) : (s.instantBase b).objects = s.objects := by
  simp [State.instantBase, State.recordSwitch]
@[simp] theorem State.instantBase_slot (s : State) (b : BankId) : (s.instantBase b).slot = s.slot := by
  simp [State.instantBase, State.recordSwitch]
@[simp] theorem State.instantBase_nodes (s : State) (b : BankId) : (s.instantBase b).nodes = s.nodes := by
  simp [State.instantBase, State.recordSwitch]
@[simp] theorem State.instantBase_queue (s : State) (b : BankId) : (s.instantBase b).queue = s.queue := by
  simp [State.instantBase, State.recordSwitch]
@[simp] theorem State.instantBase_config (s : State) (b : BankId) : (s.instantBase b).config = s.config := by
  simp [State.instantBase, State.recordSwitch]
@[simp] theorem State.instantBase_lineTime (s : State) (b : BankId) : (s.instantBase b).lineTime = s.lineTime := by
  simp [State.instantBase, State.recordSwitch]
@[simp] theorem State.instantBase_enables (s : State) (b : BankId) : (s.instantBase b).enables = s.enables := by
  simp [State.instantBase, State.recordSwitch]
@[simp] theorem State.instantBase_pending (s : State) (b : BankId) : (s.instantBase b).pending = s.pending := by
  simp [State.instantBase, State.recordSwitch]
@[simp] theorem State.instantBase_bank (s : State) (b c : BankId) : (s.instantBase b).bank c = s.bank c := by
  simp [State.instantBase]
@[simp] theorem State.instantBase_activeBank (s : State) (b : BankId) : (s.instantBase b).activeBank = some b := rfl
@[simp] theorem State.instantBase_figures (s : State) (b : BankId) :
    (s.instantBase b).figures = some ((s.bank b).figures s.config.bitRate) := by
  simp [State.instantBase]
@[simp] theorem State.instantBase_sw_pending (s : State) (b : BankId) : (s.instantBase b).sw.pending = false := by
  simp [State.instantBase, State.recordSwitch]
@[simp] theorem State.instantBase_sched (s : State) (b : BankId) :
    (s.instantBase b).sched = if s.sched = .armed then .running else s.sched := by
  simp [State.instantBase, State.recordSwitch]
@[simp] theorem State.instantBase_flight (s : State) (b : BankId) :
    (s.instantBase b).engine.flight = s.signalWindowEnd.engine.flight := by
  show s.recordSwitch.signalWindowEnd.engine.flight = _
  rw [State.signalWindowEnd_engine_congr (s := s) (t := s.recordSwitch) rfl rfl rfl]

@[simp] theorem State.gridBase_objects (s : State) (b : BankId) : (s.gridBase b).objects = s.objects := by
  simp [State.gridBase]
@[simp] theorem State.gridBase_slot (s : State) (b : BankId) : (s.gridBase b).slot = s.slot := by simp [State.gridBase]
@[simp] theorem State.gridBase_nodes (s : State) (b : BankId) : (s.gridBase b).nodes = s.nodes := by
  simp [State.gridBase]
@[simp] theorem State.gridBase_queue (s : State) (b : BankId) : (s.gridBase b).queue = s.queue := by
  simp [State.gridBase]
@[simp] theorem State.gridBase_config (s : State) (b : BankId) : (s.gridBase b).config = s.config := by
  simp [State.gridBase]
@[simp] theorem State.gridBase_lineTime (s : State) (b : BankId) : (s.gridBase b).lineTime = s.lineTime := by
  simp [State.gridBase]
@[simp] theorem State.gridBase_enables (s : State) (b : BankId) : (s.gridBase b).enables = s.enables := by
  simp [State.gridBase]
@[simp] theorem State.gridBase_pending (s : State) (b : BankId) : (s.gridBase b).pending = s.pending := by
  simp [State.gridBase]
@[simp] theorem State.gridBase_bank (s : State) (b c : BankId) : (s.gridBase b).bank c = s.bank c := by
  simp [State.gridBase]
@[simp] theorem State.gridBase_activeBank (s : State) (b : BankId) : (s.gridBase b).activeBank = s.activeBank := by
  simp [State.gridBase]
@[simp] theorem State.gridBase_figures (s : State) (b : BankId) : (s.gridBase b).figures = s.figures := by
  simp [State.gridBase]
@[simp] theorem State.gridBase_sw (s : State) (b : BankId) : (s.gridBase b).sw = s.sw := by simp [State.gridBase]
@[simp] theorem State.gridBase_sched (s : State) (b : BankId) : (s.gridBase b).sched = s.sched := by
  simp [State.gridBase]
@[simp] theorem State.gridBase_flight (s : State) (b : BankId) :
    (s.gridBase b).engine.flight = s.signalWindowEnd.engine.flight := rfl

/-! ### A window boundary -/

/-- The window boundary reaches the window, its end and the engine's overrun count alone (R20, R30). -/
theorem State.boundary_eq (s : State) (b : BankId) (w : Fin 64) :
    s.signalWindowEnd.nextWindow b w = { s with
      cycle := { s.cycle with
        window := (s.signalWindowEnd.nextWindow b w).cycle.window
        windowEnd := (s.signalWindowEnd.nextWindow b w).cycle.windowEnd }
      engine := s.signalWindowEnd.engine } := by
  rw [State.nextWindow_eq, State.signalWindowEnd_eq]

/-! ### The end of an attempt -/

/-- The scheduler's part of the end of an attempt reaches the scheduler state, the roles, the figures, the timer and LINE_FAULT
alone (R12, R77, R79). -/
theorem State.closing_eq (s : State) (r : AttemptResult) :
    (s.raiseFault r).endStopping = { s with
      sched := (s.raiseFault r).endStopping.sched
      activeBank := (s.raiseFault r).endStopping.activeBank
      figures := (s.raiseFault r).endStopping.figures
      cycle := (s.raiseFault r).endStopping.cycle
      flags := { s.flags with lineFault := (s.raiseFault r).endStopping.flags.lineFault } } := by
  have hfault : s.raiseFault r = { s with
      sched := (s.raiseFault r).sched
      flags := { s.flags with lineFault := (s.raiseFault r).flags.lineFault } } := by
    unfold State.raiseFault; split <;> rfl
  generalize s.raiseFault r = u at hfault
  have hstop : u.endStopping = { u with
      sched := u.endStopping.sched, activeBank := u.endStopping.activeBank, figures := u.endStopping.figures
      cycle := u.endStopping.cycle } := by
    unfold State.endStopping State.goOff; split <;> rfl
  generalize u.endStopping = v at hstop
  rw [hstop, hfault]

@[simp] theorem State.closing_port (s : State) (r : AttemptResult) : (s.raiseFault r).endStopping.port = s.port := by
  rw [State.closing_eq]
@[simp] theorem State.closing_objects (s : State) (r : AttemptResult) :
    (s.raiseFault r).endStopping.objects = s.objects := by rw [State.closing_eq]
@[simp] theorem State.closing_slot (s : State) (r : AttemptResult) : (s.raiseFault r).endStopping.slot = s.slot := by
  rw [State.closing_eq]
@[simp] theorem State.closing_supersede (s : State) (r : AttemptResult) :
    (s.raiseFault r).endStopping.supersede = s.supersede := by rw [State.closing_eq]
@[simp] theorem State.closing_nodes (s : State) (r : AttemptResult) : (s.raiseFault r).endStopping.nodes = s.nodes := by
  rw [State.closing_eq]
@[simp] theorem State.closing_queue (s : State) (r : AttemptResult) : (s.raiseFault r).endStopping.queue = s.queue := by
  rw [State.closing_eq]
@[simp] theorem State.closing_config (s : State) (r : AttemptResult) :
    (s.raiseFault r).endStopping.config = s.config := by rw [State.closing_eq]
@[simp] theorem State.closing_lineTime (s : State) (r : AttemptResult) :
    (s.raiseFault r).endStopping.lineTime = s.lineTime := by rw [State.closing_eq]
@[simp] theorem State.closing_enables (s : State) (r : AttemptResult) :
    (s.raiseFault r).endStopping.enables = s.enables := by rw [State.closing_eq]
@[simp] theorem State.closing_pending (s : State) (r : AttemptResult) :
    (s.raiseFault r).endStopping.pending = s.pending := by rw [State.closing_eq]
@[simp] theorem State.closing_sw (s : State) (r : AttemptResult) : (s.raiseFault r).endStopping.sw = s.sw := by
  rw [State.closing_eq]
@[simp] theorem State.closing_engine (s : State) (r : AttemptResult) :
    (s.raiseFault r).endStopping.engine = s.engine := by rw [State.closing_eq]
@[simp] theorem State.closing_nodeSilent (s : State) (r : AttemptResult) :
    (s.raiseFault r).endStopping.flags.nodeSilent = s.flags.nodeSilent := by rw [State.closing_eq]
@[simp] theorem State.closing_bank (s : State) (r : AttemptResult) (b : BankId) :
    (s.raiseFault r).endStopping.bank b = s.bank b := by rw [State.closing_eq]; cases b <;> rfl

theorem State.reported_of_sync {fl : Flight} (h : fl.carried = .sync) (s : State) (r : AttemptResult) :
    s.reported fl r = s.enterIdle := by unfold State.reported; rw [h]

theorem State.reported_of_exchange {fl : Flight} {n : Fin 32} {kind : ExchangeKind}
    (h : fl.carried = .exchange n kind) (s : State) (r : AttemptResult) :
    s.reported fl r = s.enterIdle.report n kind fl.node r := by unfold State.reported; rw [h]

/-- The report of an exchange is work on the table, once the Node Table has taken it (R18, R103). -/
theorem State.workOnTable_report (s : State) (n : Fin 32) (kind : ExchangeKind) (a : BitVec 5) (r : AttemptResult) :
    (s.nodeReport kind a r).WorkOnTable (s.report n kind a r) := State.workOnTable_applyResult _ n a r _

/-- Whatever was in flight, its report is work on the table, from a state that differs from the one before in the node records,
their flags and the engine's return to IDLE alone. -/
theorem State.reported_table (s : State) (fl : Flight) (r : AttemptResult) :
    ∃ u : State, u.WorkOnTable (s.reported fl r) ∧ u = { s with
      engine := { s.engine with flight := none, gapEndedNow := true }
      nodes := u.nodes
      flags := { s.flags with attention := u.flags.attention, nodeSilent := u.flags.nodeSilent } } := by
  cases hc : fl.carried with
  | sync => exact ⟨s.enterIdle, by rw [State.reported_of_sync hc]; exact .refl _, rfl⟩
  | exchange n kind =>
    rw [State.reported_of_exchange hc]
    exact ⟨s.enterIdle.nodeReport kind fl.node r, State.workOnTable_report _ n kind fl.node r,
      State.nodeReport_eq s.enterIdle kind fl.node r⟩

end Sys2Proof.Machine
end

