-- ==== Sys2Proof/Proofs/SlotAgreesKept.lean ====
section
/-! The Insert Slot and the In Slot flags agree over every step (R112): each effect and each look keeps the agreement. -/

namespace Sys2Proof.Machine

theorem State.SlotAgrees.instantWork {s : State} (h : s.SlotAgrees) (b : BankId) : (s.instantWork b).SlotAgrees :=
  (s.works_instantWork b).slot (h.congr (s.instantBase_objects b) (s.instantBase_slot b))

theorem State.SlotAgrees.gridWork {s : State} (h : s.SlotAgrees) (b : BankId) : (s.gridWork b).SlotAgrees :=
  (s.works_gridWork b).slot (h.congr (s.gridBase_objects b) (s.gridBase_slot b))

/-- An exchange started takes its object out of the slot (R102, R120). -/
theorem State.SlotAgrees.startExchange {s : State} (h : s.SlotAgrees) (n : Fin 32) : (s.startExchange n).SlotAgrees := by
  obtain ⟨hflags, hoccupant⟩ := h
  have hobj : ∀ m, (s.startExchange n).object m = if m = n then { s.object n with
      state := .active, inSlot := if s.slot = some n then false else (s.object n).inSlot } else s.object m := fun m => by
    rw [← State.object_setObject, State.startExchange_eq]; rfl
  have hslot : (s.startExchange n).slot = if s.slot = some n then none else s.slot := by rw [State.startExchange_eq]
  by_cases hn : s.slot = some n
  · rw [if_pos hn] at hslot
    refine ⟨fun m => ?_, fun m hm => by rw [hslot] at hm; cases hm⟩
    rw [hobj, hslot]
    split
    next => simp
    next hm => simpa [hn, Ne.symm hm] using hflags m
  · rw [if_neg hn] at hslot
    refine ⟨fun m => ?_, fun m hm => ?_⟩
    · rw [hobj, hslot]
      split
      next e => rw [e]; simpa [hn] using hflags n
      next => exact hflags m
    · rw [hslot] at hm
      have hmn : m ≠ n := fun e => hn (e ▸ hm)
      rw [hobj, if_neg hmn]
      exact hoccupant m hm

theorem State.SlotAgrees.look {s : State} (h : s.SlotAgrees) : s.look.SlotAgrees := by
  rcases s.look_cases with e | ⟨-, -, -, e⟩ | ⟨n, -, -, -, -, e⟩ <;> rw [e]
  · exact h
  · exact h.congr rfl rfl
  · exact h.startExchange n

/-- An insert leaves the one new occupant flagged (R122, R124). -/
theorem State.SlotAgrees.enterSlot {s : State} (h : s.SlotAgrees) {n : Fin 32} (hn : (s.object n).state = .pending)
    (hout : s.slot ≠ some n) : (s.enterSlot n).SlotAgrees := by
  obtain ⟨hflags, hoccupant⟩ := h
  have hslot : (s.enterSlot n).slot = some n := rfl
  have hobj : ∀ m, (s.enterSlot n).object m =
      if m = n then { s.object n with inSlot := true } else { s.object m with inSlot := false } := by
    intro m
    unfold State.enterSlot
    cases hs : s.slot with
    | none =>
      show (s.setObject n { s.object n with inSlot := true }).object m = _
      rw [State.object_setObject]
      split
      next => rfl
      next =>
        have hm : (s.object m).inSlot = false := Bool.eq_false_iff.mpr fun e => by
          rw [hflags m, hs] at e; cases e
        rw [← hm]
    | some k =>
      have hk : n ≠ k := fun e => hout (e ▸ hs)
      show ((s.setObject k { s.object k with inSlot := false }).setObject n
        { (s.setObject k { s.object k with inSlot := false }).object n with inSlot := true }).object m = _
      rw [State.object_setObject_ne _ _ hk, State.object_setObject, State.object_setObject]
      split
      next => rfl
      next =>
        split
        next e => rw [e]
        next hmk =>
          have hm : (s.object m).inSlot = false := Bool.eq_false_iff.mpr fun e => by
            rw [hflags m, hs] at e; injection e with e; exact hmk e.symm
          rw [← hm]
  refine ⟨fun m => ?_, fun m hm => ?_⟩ <;> rw [hobj]
  · rw [hslot]
    by_cases e : m = n
    · simp [e]
    · simp [e, Ne.symm e]
  · rw [hslot] at hm
    injection hm with hm
    simp [← hm, hn]

theorem State.SlotAgrees.finish {s : State} (h : s.SlotAgrees) (n : Fin 32) (outcome : RequestOutcome) :
    (s.finish n outcome).SlotAgrees := by rw [State.finish_eq]; exact h.afterOutcome n outcome

theorem State.SlotAgrees.retryOr {s : State} (h : s.SlotAgrees) (n : Fin 32) (outcome : RequestOutcome) :
    (s.retryOr n outcome).SlotAgrees := by
  unfold State.retryOr State.retry
  split
  next =>
    split
    next => exact h.finish n _
    next =>
      refine h.setObject ?_ fun _ => ?_ <;> simp only <;> split <;> rfl
  next => exact h.finish n outcome

@[simp] theorem MsgObject.copyReply_inSlot (o : MsgObject) (g : Staging) : (o.copyReply g).inSlot = o.inSlot := by
  simp only [MsgObject.copyReply]
@[simp] theorem MsgObject.copyReply_state (o : MsgObject) (g : Staging) : (o.copyReply g).state = o.state := by
  simp only [MsgObject.copyReply]

/-- The report of an attempt keeps the slot's agreement, whatever its result (R103, R106). -/
theorem State.SlotAgrees.applyResult {s : State} (h : s.SlotAgrees) (n : Fin 32) (a : BitVec 5) (r : AttemptResult)
    (silent : Bool) (hn : s.slot = some n → (s.object n).state = .pending) : (s.applyResult n a r silent).SlotAgrees := by
  unfold State.applyResult
  have htried := h.setObject (n := n) (o := { s.object n with
    attempts := (s.object n).attempts + 1, delivered := (s.object n).delivered || r != .collision }) rfl hn
  simp only [State.modifyObject]
  generalize s.setObject n _ = u at htried
  split
  next =>
    unfold State.finishAllTo
    refine State.forEachObject_induction (P := State.SlotAgrees) (fun m t ht => ?_) _ (htried.finish n _)
    split
    next => exact ht.finish m _
    next => exact ht
  next =>
    cases r with
    | ack | nakReject => exact htried.finish n _
    | data =>
      refine State.SlotAgrees.finish ?_ n _
      exact htried.setObject (MsgObject.copyReply_inSlot _ _) fun e =>
        (MsgObject.copyReply_state _ _).trans (htried.2 n e)
    | nakBusy | noReply | badReply | collision => exact htried.retryOr n _

theorem State.SlotAgrees.reported {s : State} (h : s.SlotAgrees) (fl : Flight) (r : AttemptResult) :
    (s.reported fl r).SlotAgrees := by
  cases hc : fl.carried with
  | sync => rw [State.reported_of_sync hc]; exact h.congr rfl rfl
  | exchange n kind =>
    rw [State.reported_of_exchange hc]
    have hreported : (s.enterIdle.nodeReport kind fl.node r).SlotAgrees :=
      h.congr (State.nodeReport_objects _ _ _ _) (State.nodeReport_slot _ _ _ _)
    exact hreported.applyResult n fl.node r _ fun e => hreported.2 n e

/-- LINE_RESET empties the slot and takes every request's flag with it (R111). -/
theorem State.SlotAgrees.lineReset {s : State} (h : s.SlotAgrees) : s.lineReset.SlotAgrees := by
  refine ⟨fun m => ?_, fun m hm => nomatch hm⟩
  rw [State.lineReset_object]
  refine ⟨fun e => ?_, fun e => nomatch e⟩
  by_cases hm : (s.object m).state = .pending ∨ (s.object m).state = .active
  · rw [MsgObject.lineReset_of_standing hm] at e; cases e
  · rw [MsgObject.lineReset_of_not_standing hm] at e
    exact absurd (.inl (h.2 m ((h.1 m).mp e))) hm

theorem State.slotAgrees_reset : State.reset.SlotAgrees := by
  have hobj : ∀ n, (State.reset.object n).inSlot = false := by decide
  exact ⟨fun n => by rw [hobj]; exact ⟨nofun, nofun⟩, nofun⟩

/-- Every effect keeps the slot's agreement. -/
theorem State.SlotAgrees.effect {s t : State} {c : Instr} (he : s.Effect c t) (h : s.SlotAgrees) : t.SlotAgrees := by
  have hout : ∀ {n}, (s.object n).state ≠ .pending → s.slot ≠ some n := fun hn e => hn (h.2 _ e)
  cases he with
  | quiet same => exact h.congr same.objects same.slot
  | pinReset => exact State.slotAgrees_reset.congr rfl rfl
  | lineReset => exact h.lineReset
  | switchFailed | switchArmed | resumed | popped | revived | onLine => exact h.congr rfl rfl
  | switchMade =>
    refine State.SlotAgrees.instantWork ?_ _
    exact h.congr rfl rfl
  | instant => exact h.instantWork _
  | cancelled => exact h.congr (by simp) (by simp)
  | stopArmed | stopBusy | stopIdle => exact h.congr (s.endPending_objects _) (s.endPending_slot _)
  | enabled hs => exact h.setObject rfl fun e => absurd e (hout (by simp [hs]))
  | disabled hs => exact h.setObject rfl fun e => absurd e (hout (by simp [hs]))
  | retired => rw [State.retire_eq]; exact h.afterFinish _ _ _
  | requested n => exact (s.works_request n).slot h
  | withdrawn => exact h.finish _ _
  | reRequestDropped | released | objectConfigured | payloadWritten => exact h.setObject rfl fun e => h.2 _ e
  | inserted hs hnew => exact h.enterSlot hs hnew
  | lineConfigured hs => unfold State.writeLineConfig; rw [if_pos hs]; exact h.congr rfl rfl
  | bankWritten => exact h.congr (State.setBank_objects _ _ _) (State.setBank_slot _ _ _)
  | cycleStarted => exact h.gridWork _
  | boundary => rw [State.boundary_eq]; exact h.congr rfl rfl
  | gapEnded => exact (h.reported _ _).congr (State.closing_objects _ _) (State.closing_slot _ _)

/-- Settles O50: the agreement is kept by every effect of a command, by the look that may follow, and by its answer. -/
theorem slotAgreesKept : Obligations.SlotAgreesKept := by
  unfold Obligations.SlotAgreesKept
  exact fun s t => step_keeps (P := State.SlotAgrees) (fun _ h => h) (fun _ _ h => h) (fun h => h.look) fun he => .effect he

end Sys2Proof.Machine
end

