-- ==== Sys2Proof/Proofs/Reports.lean ====
section
/-! What the report of an attempt leaves of the objects (R103 to R106): of the object reported on, and of the others when its
node became SILENT. -/

namespace Sys2Proof.Machine

/-! ### One object while the others are worked -/

/-- What work on other objects leaves that object n's own steps read. -/
structure State.Beside (s t : State) (n : Fin 32) : Prop where
  table : s.WorkOnTable t
  object : t.object n = s.object n
  slot : t.slot = some n ↔ s.slot = some n

theorem State.Beside.refl (s : State) (n : Fin 32) : s.Beside s n := ⟨.refl s, rfl, .rfl⟩

theorem State.Beside.work {s t u : State} {m n : Fin 32} (h : s.Beside t n) (hw : t.WorkOn u m) (hmn : n ≠ m) :
    s.Beside u n where
  table := h.table.trans hw.onTable
  object := (hw.others n hmn).trans h.object
  slot := by
    rw [← h.slot]
    rcases hw.slot with e | ⟨e, e'⟩
    · rw [e]
    · rw [e, e']; exact ⟨nofun, fun k => absurd (Option.some.inj k).symm hmn⟩

/-- Going through other objects leaves object n beside. -/
theorem State.beside_foldl {f : Fin 32 → State → State} (hf : ∀ m t, State.WorkOn t (f m t) m) {s : State} {n : Fin 32}
    (l : List (Fin 32)) (hl : n ∉ l) {t : State} (h : s.Beside t n) : s.Beside (l.foldl (fun t m => f m t) t) n := by
  induction l generalizing t with
  | nil => exact h
  | cons m l ih =>
    rw [List.mem_cons, not_or] at hl
    exact ih hl.2 (h.work (hf m t) hl.1)

/-- Going through the objects, object n meets its own step once, as it stood, and no other step reaches it (R99). -/
theorem State.forEachObject_object {f : Fin 32 → State → State} (hf : ∀ m t, State.WorkOn t (f m t) m) (s : State)
    (n : Fin 32) : ∃ t, s.Beside t n ∧ (s.forEachObject f).object n = (f n t).object n := by
  obtain ⟨before, behind, hsplit⟩ := List.append_of_mem (List.mem_finRange n)
  have hnodup := List.nodup_finRange 32
  rw [hsplit, List.nodup_append] at hnodup
  obtain ⟨-, hbehind, hbefore⟩ := hnodup
  have hbefore : n ∉ before := fun h => hbefore n h n List.mem_cons_self rfl
  rw [List.nodup_cons] at hbehind
  refine ⟨_, State.beside_foldl hf before hbefore (.refl s n), ?_⟩
  unfold State.forEachObject objectNumbers
  rw [hsplit, List.foldl_append, List.foldl_cons]
  exact (State.beside_foldl hf behind hbehind.1 (.refl _ n)).object

/-! ### The object reported on -/

/-- What a report makes of its object: IDLE, or PENDING with Attempts below the limit, or PENDING anew; no re-request. -/
structure MsgObject.Ended (silent : Bool) (o p : MsgObject) : Prop where
  config : p.config = o.config
  state : p.state = .idle ∨ p.state = .pending ∧
    (p.attempts = 0 ∧ silent = false ∨ p.attempts < p.config.attemptLimit)
  reRequest : p.reRequest = false

theorem MsgObject.Ended.not_active {silent : Bool} {o p : MsgObject} (h : o.Ended silent p) : p.state ≠ .active := by
  rcases h.state with h | ⟨h, -⟩ <;> simp [h]

/-- Finishing object n's request after its status was noted ends it. -/
theorem State.ended_finish {s : State} {n : Fin 32} {p : MsgObject} (hp : p.config = (s.object n).config)
    (outcome : RequestOutcome) :
    (s.object n).Ended (s.isSilent (s.object n).config.node) (((s.setObject n p).finish n outcome).object n) := by
  rw [State.finish_eq]
  have hfin := (s.setObject n p).finished_afterOutcome n outcome
  have hsilent : ∀ a, (s.setObject n p).isSilent a = s.isSilent a := fun _ => rfl
  rw [State.object_setObject_self, hsilent, hp] at hfin
  obtain ⟨⟨hkept, hstate, -⟩, hnone⟩ := hfin
  exact ⟨hkept.config.trans hp, hstate.imp_right fun ⟨h1, h2⟩ => ⟨h1, .inl h2⟩, hnone⟩

/-- Retrying or finishing after the attempt was counted ends the object's exchange (R103, R105). -/
theorem State.ended_retryOr {s : State} {n : Fin 32} {p : MsgObject} (hp : p.config = (s.object n).config)
    (outcome : RequestOutcome) :
    (s.object n).Ended (s.isSilent (s.object n).config.node) (((s.setObject n p).retryOr n outcome).object n) := by
  unfold State.retryOr State.retry
  split
  next hbelow =>
    rw [State.object_setObject_self] at hbelow
    split
    next => exact State.ended_finish hp _
    next =>
      rw [State.modifyObject, State.object_setObject_self, State.object_setObject_self]
      split
      next => exact ⟨hp, .inr ⟨rfl, .inr hbelow⟩, rfl⟩
      next hre => exact ⟨hp, .inr ⟨rfl, .inr hbelow⟩, Bool.eq_false_iff.mpr hre⟩
  next => exact State.ended_finish hp _

@[simp] theorem MsgObject.copyReply_config (o : MsgObject) (g : Staging) : (o.copyReply g).config = o.config := by
  simp only [MsgObject.copyReply]

/-- The report of an attempt that silences no node ends its object's exchange (R103). -/
theorem State.ended_applyResult (s : State) (n : Fin 32) (a : BitVec 5) (r : AttemptResult) :
    (s.object n).Ended (s.isSilent (s.object n).config.node) ((s.applyResult n a r false).object n) := by
  unfold State.applyResult
  simp only [Bool.false_eq_true, if_false, State.modifyObject]
  generalize hp : ({ s.object n with
    attempts := (s.object n).attempts + 1
    delivered := (s.object n).delivered || r != AttemptResult.collision } : MsgObject) = p
  have hconfig : p.config = (s.object n).config := by rw [← hp]
  cases r with
  | ack | nakReject => exact State.ended_finish hconfig _
  | data =>
    simp only [State.setObject_setObject, State.object_setObject_self]
    exact State.ended_finish ((p.copyReply_config _).trans hconfig) _
  | nakBusy | noReply | badReply | collision => exact State.ended_retryOr hconfig _

/-! ### A node that became SILENT -/

/-- The step of R106 for one object. -/
def State.finishTo (a : BitVec 5) (m : Fin 32) (t : State) : State :=
  if (t.object m).state = .pending ∧ (t.object m).config.node = a then t.finish m .nodeSilent else t

theorem State.finishAllTo_eq (s : State) (n : Fin 32) (a : BitVec 5) :
    s.finishAllTo n a = (s.finish n .nodeSilent).forEachObject (State.finishTo a) := rfl

theorem State.workOn_finishTo (a : BitVec 5) (m : Fin 32) (t : State) : t.WorkOn (State.finishTo a m t) m := by
  unfold State.finishTo
  split
  next => exact t.workOn_finish m _
  next => exact .refl t m

theorem State.works_finishTo (a : BitVec 5) (m : Fin 32) (t : State) : t.Works (State.finishTo a m t) := by
  unfold State.finishTo
  split
  next h => exact State.works_finish h.1 _
  next => exact .refl t

/-- Once every request to a SILENT node is finished, no object to it waits (R106). -/
theorem State.finishTo_none {s : State} {a : BitVec 5} (hsilent : s.isSilent a = true) {m : Fin 32}
    (hm : ((s.forEachObject (State.finishTo a)).object m).config.node = a) :
    ((s.forEachObject (State.finishTo a)).object m).state ≠ .pending := by
  obtain ⟨t, hbeside, hobj⟩ := State.forEachObject_object (State.workOn_finishTo a) s m
  rw [hobj] at hm ⊢
  rw [(State.workOn_finishTo a m t).config] at hm
  unfold State.finishTo
  by_cases hpend : (t.object m).state = .pending
  · rw [if_pos ⟨hpend, hm⟩, State.finish_eq]
    have hfin := (t.finished_afterOutcome m .nodeSilent).1.state
    rw [hm, hbeside.table.isSilent, hsilent] at hfin
    rcases hfin with h | ⟨-, -, h⟩
    · simp [h]
    · cases h
  · rw [if_neg (fun h => hpend h.1)]; exact hpend

/-- The report that silences a node leaves its own object with no request, if the object is to that node (R106). -/
theorem State.finishAllTo_object {s : State} {n : Fin 32} {a : BitVec 5} (hsilent : s.isSilent a = true)
    (hn : (s.object n).config.node = a) : ((s.finishAllTo n a).object n).state = .idle := by
  rw [State.finishAllTo_eq]
  have hfirst : ((s.finish n .nodeSilent).object n).state = .idle := by
    rw [State.finish_eq]
    have hfin := (s.finished_afterOutcome n .nodeSilent).1.state
    rw [hn, hsilent] at hfin
    rcases hfin with h | ⟨-, -, h⟩
    · exact h
    · cases h
  obtain ⟨t, hbeside, hobj⟩ := State.forEachObject_object (State.workOn_finishTo a) (s.finish n .nodeSilent) n
  rw [hobj, State.finishTo, hbeside.object, hfirst, if_neg (fun h => nomatch h.1), hbeside.object, hfirst]

/-- Work on the table after the report leaves the object as reported. -/
theorem MsgObject.Ended.worked {silent : Bool} {o p q : MsgObject} (h : o.Ended silent p) (k : p.Worked silent q) :
    o.Ended silent q where
  config := k.kept.config.trans h.config
  state := by
    have hstanding : ¬(q.state = .disabled ∨ q.state = .active) := by
      rw [k.disabled, k.active]
      rcases h.state with h | ⟨h, -⟩ <;> simp [h]
    cases hq : q.state with
    | idle => exact .inl rfl
    | disabled | active => simp [hq] at hstanding
    | pending =>
      refine .inr ⟨rfl, ?_⟩
      rcases k.standing (.inl hq) with ⟨hs, ha⟩ | ⟨-, hnew⟩
      · rw [ha, k.kept.config]
        rcases h.state with e | ⟨-, e⟩
        · rw [hs, e] at hq; cases hq
        · exact e
      · exact .inl hnew
  reRequest := Bool.eq_false_iff.mpr fun hq => by
    rcases k.reRequest hq with e | e
    · rw [h.reRequest] at e; cases e
    · exact h.not_active (k.active.mp e)

/-- Whatever its result, a report ends its object's exchange (R103, R106). -/
theorem State.applyResult_object (s : State) (n : Fin 32) (a : BitVec 5) (r : AttemptResult) (silent : Bool) :
    (s.object n).Ended (s.isSilent (s.object n).config.node) ((s.applyResult n a r silent).object n) := by
  cases silent with
  | false => exact s.ended_applyResult n a r
  | true =>
    unfold State.applyResult
    simp only [if_true, State.finishAllTo_eq, State.modifyObject]
    generalize hp : ({ s.object n with
      attempts := (s.object n).attempts + 1
      delivered := (s.object n).delivered || r != AttemptResult.collision } : MsgObject) = p
    have hconfig : p.config = (s.object n).config := by rw [← hp]
    have hended := State.ended_finish hconfig RequestOutcome.nodeSilent
    have hworked := (State.works_forEachObject (State.works_finishTo a)
      ((s.setObject n p).finish n .nodeSilent)).objects n
    rw [((s.setObject n p).workOn_finish n .nodeSilent).isSilent, hended.config] at hworked
    exact hended.worked hworked

/-- A report leaves the other objects worked, or as they were (R106). -/
theorem State.applyResult_others (s : State) {n m : Fin 32} (h : m ≠ n) (a : BitVec 5) (r : AttemptResult)
    (silent : Bool) :
    (s.object m).Worked (s.isSilent (s.object m).config.node) ((s.applyResult n a r silent).object m) := by
  cases silent with
  | false => rw [(s.workOn_applyResult n a r).others m h]; exact .refl _ _
  | true =>
    unfold State.applyResult
    simp only [if_true, State.finishAllTo_eq, State.modifyObject]
    generalize ({ s.object n with
      attempts := (s.object n).attempts + 1
      delivered := (s.object n).delivered || r != AttemptResult.collision } : MsgObject) = p
    have hfinish := (s.setObject n p).workOn_finish n .nodeSilent
    have hworked := (State.works_forEachObject (State.works_finishTo a)
      ((s.setObject n p).finish n .nodeSilent)).objects m
    have hsilent : (s.setObject n p).isSilent = s.isSilent := rfl
    rwa [hfinish.isSilent, hfinish.others m h, State.object_setObject_ne _ _ h, hsilent] at hworked

end Sys2Proof.Machine
end

