-- ==== Sys2Proof/Proofs/ActiveInFlightKept.lean ====
section
/-! An object is ACTIVE exactly while its exchange is in flight (R10, R102): each effect and each look keeps it. -/

namespace Sys2Proof.Machine

/-- The exchange in flight is object n's (R102). -/
def State.Carries (s : State) (n : Fin 32) : Prop := ∃ fl kind, s.engine.flight = some fl ∧ fl.carried = .exchange n kind

theorem State.activeInFlight_iff (s : State) :
    s.ActiveInFlight ↔ ∀ n, (s.object n).state = .active ↔ s.Carries n := .rfl

theorem State.not_carries_of_idle {s : State} (h : s.engine.flight = none) (n : Fin 32) : ¬s.Carries n := by
  rintro ⟨fl, kind, hf, -⟩
  rw [h] at hf; cases hf

theorem State.carries_iff {s : State} {fl : Flight} (h : s.engine.flight = some fl) (n : Fin 32) :
    s.Carries n ↔ ∃ kind, fl.carried = .exchange n kind := by
  unfold State.Carries
  rw [h]
  exact ⟨fun ⟨_, kind, hf, hc⟩ => ⟨kind, by injection hf with hf; rw [hf]; exact hc⟩,
    fun ⟨kind, hc⟩ => ⟨fl, kind, rfl, hc⟩⟩

theorem State.carries_congr {s t : State} (h : t.engine.flight = s.engine.flight) (n : Fin 32) :
    t.Carries n ↔ s.Carries n := by unfold State.Carries; rw [h]

/-- What is carried is fixed at the taking (R129). -/
theorem State.carries_of_carried {s t : State} {fl fl' : Flight} (h : s.engine.flight = some fl)
    (h' : t.engine.flight = some fl') (hc : fl'.carried = fl.carried) (n : Fin 32) : t.Carries n ↔ s.Carries n := by
  rw [State.carries_iff h, State.carries_iff h', hc]

/-- A window end does not change what is carried (R20). -/
theorem State.carries_signalWindowEnd {s t : State} (h : t.engine.flight = s.signalWindowEnd.engine.flight) (n : Fin 32) :
    t.Carries n ↔ s.Carries n := by
  rcases s.signalWindowEnd_flight with e | ⟨fl, -, -, hf, -, e⟩
  · exact State.carries_congr (h.trans e) n
  · exact State.carries_of_carried hf (h.trans e) rfl n

theorem State.ActiveInFlight.congr {s t : State} (h : s.ActiveInFlight)
    (hstate : ∀ n, (t.object n).state = .active ↔ (s.object n).state = .active)
    (hcarries : ∀ n, t.Carries n ↔ s.Carries n) : t.ActiveInFlight :=
  fun n => (hstate n).trans ((h n).trans (hcarries n).symm)

/-- The condition reads the object records and the flight alone. -/
theorem State.ActiveInFlight.congr_fields {s t : State} (h : s.ActiveInFlight) (hobjects : t.objects = s.objects)
    (hflight : t.engine.flight = s.engine.flight) : t.ActiveInFlight :=
  h.congr (fun n => by rw [State.object_congr hobjects]) (State.carries_congr hflight)

/-- A change of an object that neither makes nor ends ACTIVE. -/
theorem State.ActiveInFlight.setObject {s : State} {n : Fin 32} {o : MsgObject} (h : s.ActiveInFlight)
    (ho : o.state = .active ↔ (s.object n).state = .active) : (s.setObject n o).ActiveInFlight :=
  h.congr (fun m => by
    rw [State.object_setObject]
    split
    next e => rw [e]; exact ho
    next => exact .rfl) (State.carries_congr rfl)

theorem State.ActiveInFlight.works {s t : State} (h : s.ActiveInFlight) (hw : s.Works t) : t.ActiveInFlight :=
  h.congr (fun n => (hw.objects n).active) (State.carries_congr (by rw [hw.table.tables.engine]))

theorem State.ActiveInFlight.idle {s : State} (h : s.ActiveInFlight) (hidle : s.engine.flight = none) (n : Fin 32) :
    (s.object n).state ≠ .active := fun e => State.not_carries_of_idle hidle n ((h n).mp e)

/-- With no frame in flight and no object ACTIVE the condition holds. -/
theorem State.activeInFlight_of_idle {s : State} (hidle : s.engine.flight = none)
    (hnone : ∀ n, (s.object n).state ≠ .active) : s.ActiveInFlight :=
  fun n => ⟨fun e => absurd e (hnone n), fun e => absurd e (State.not_carries_of_idle hidle n)⟩

/-- The object of an exchange started, and the others (R102, R120). -/
theorem State.startExchange_object (s : State) (n m : Fin 32) :
    (s.startExchange n).object m = if m = n then { s.object n with
      state := .active, inSlot := if s.slot = some n then false else (s.object n).inSlot } else s.object m := by
  rw [← State.object_setObject, State.startExchange_eq]; rfl

theorem State.startExchange_flight (s : State) (n : Fin 32) :
    (s.startExchange n).engine.flight = some (s.flightOf n) := by rw [State.startExchange_eq]

theorem State.ActiveInFlight.look {s : State} (h : s.ActiveInFlight) : s.look.ActiveInFlight := by
  rcases s.look_cases with e | ⟨-, hidle, -, e⟩ | ⟨n, -, hidle, -, -, e⟩ <;> rw [e]
  · exact h
  · refine fun m => ⟨fun hm => absurd hm (h.idle hidle m), ?_⟩
    rintro ⟨fl, kind, hf, hc⟩
    injection hf with hf
    rw [← hf] at hc; cases hc
  · intro m
    rw [State.startExchange_object]
    refine .trans ?_ (State.carries_iff (s.startExchange_flight n) m).symm
    by_cases hm : m = n
    · rw [if_pos hm, hm]; exact ⟨fun _ => ⟨_, rfl⟩, fun _ => rfl⟩
    · rw [if_neg hm]
      refine ⟨fun e => absurd e (h.idle hidle m), fun ⟨kind, hc⟩ => ?_⟩
      injection hc with hc; exact absurd hc.symm hm

theorem State.ActiveInFlight.instantWork {s : State} (h : s.ActiveInFlight) (b : BankId) :
    (s.instantWork b).ActiveInFlight := by
  refine State.ActiveInFlight.works ?_ (s.works_instantWork b)
  exact h.congr (fun n => by rw [State.object_congr (s.instantBase_objects b)])
    (State.carries_signalWindowEnd (s.instantBase_flight b))

theorem State.ActiveInFlight.gridWork {s : State} (h : s.ActiveInFlight) (b : BankId) :
    (s.gridWork b).ActiveInFlight := by
  refine State.ActiveInFlight.works ?_ (s.works_gridWork b)
  exact h.congr (fun n => by rw [State.object_congr (s.gridBase_objects b)])
    (State.carries_signalWindowEnd (s.gridBase_flight b))

/-- An insert changes In Slot flags alone (R122). -/
theorem State.enterSlot_object (s : State) (n m : Fin 32) :
    ∃ b, (s.enterSlot n).object m = { s.object m with inSlot := b } := by
  have hset : ∀ (t : State) (k m : Fin 32) (x : Bool), ∃ b,
      (t.setObject k { t.object k with inSlot := x }).object m = { t.object m with inSlot := b } := by
    intro t k m x
    rw [State.object_setObject]
    split
    next e => exact ⟨x, by rw [e]⟩
    next => exact ⟨(t.object m).inSlot, rfl⟩
  unfold State.enterSlot
  split
  next k _ =>
    obtain ⟨b, hb⟩ := hset s k m false
    obtain ⟨c, hc⟩ := hset (s.setObject k { s.object k with inSlot := false }) n m true
    exact ⟨c, hc.trans (by rw [hb])⟩
  next => exact hset s n m true

/-- At the end of an attempt no object is ACTIVE any more (R102, R103). -/
theorem State.ActiveInFlight.reported_none {s : State} (h : s.ActiveInFlight) {fl : Flight}
    (hf : s.engine.flight = some fl) (r : AttemptResult) (m : Fin 32) : ((s.reported fl r).object m).state ≠ .active := by
  have hactive := (h m).trans (State.carries_iff hf m)
  cases hc : fl.carried with
  | sync =>
    rw [State.reported_of_sync hc]
    intro e
    obtain ⟨kind, e⟩ := hactive.mp e
    rw [hc] at e; cases e
  | exchange n kind =>
    rw [State.reported_of_exchange hc]
    unfold State.report
    generalize hu : s.enterIdle.nodeReport kind fl.node r = u
    have hobj : ∀ k, u.object k = s.object k := fun k => by rw [← hu, State.nodeReport_object]; rfl
    by_cases hm : m = n
    · rw [hm]; exact (u.applyResult_object n fl.node r _).not_active
    · intro e
      have hm' := (u.applyResult_others hm fl.node r _).active.mp e
      rw [hobj] at hm'
      obtain ⟨kind', e⟩ := hactive.mp hm'
      rw [hc] at e; injection e with e; exact hm e.symm

theorem State.reported_flight (s : State) (fl : Flight) (r : AttemptResult) :
    (s.reported fl r).engine.flight = none := by
  obtain ⟨u, hwork, hu⟩ := s.reported_table fl r
  rw [hwork.tables.engine, hu]

/-- Every effect keeps ACTIVE and the exchange in flight together. -/
theorem State.ActiveInFlight.effect {s t : State} {c : Instr} (he : s.Effect c t) (h : s.ActiveInFlight) :
    t.ActiveInFlight := by
  cases he with
  | quiet same => exact h.congr_fields same.objects same.flight
  | pinReset => exact State.activeInFlight_of_idle rfl (by decide : ∀ n, (State.reset.object n).state ≠ .active)
  | lineReset =>
    refine State.activeInFlight_of_idle rfl fun n => ?_
    rw [State.lineReset_object]
    rcases (s.object n).lineReset_state with e | ⟨e, -⟩ <;> simp [e]
  | switchFailed | switchArmed | resumed | popped | revived => exact h.congr_fields rfl rfl
  | switchMade =>
    refine State.ActiveInFlight.instantWork ?_ _
    exact h.congr_fields rfl rfl
  | instant => exact h.instantWork _
  | cancelled => exact h.congr_fields (by simp) (by simp)
  | stopArmed | stopBusy | stopIdle =>
    exact h.congr_fields (s.endPending_objects _) (congrArg LineEngine.flight (s.endPending_engine _))
  | enabled hs | disabled hs => exact h.setObject (by simp [hs])
  | retired hs =>
    rw [State.retire_eq]
    refine h.congr (fun m => ?_) (State.carries_congr rfl)
    rw [State.afterFinish_object]
    split
    next e => simp [e, hs]
    next => exact .rfl
  | requested n => exact h.works (s.works_request n)
  | withdrawn hs => exact h.works (State.works_finish hs _)
  | reRequestDropped | released | objectConfigured | payloadWritten => exact h.setObject .rfl
  | inserted =>
    refine h.congr (fun m => ?_) (State.carries_congr ?_)
    · obtain ⟨b, hb⟩ := s.enterSlot_object _ m
      rw [hb]
    · unfold State.enterSlot; cases s.slot <;> rfl
  | lineConfigured hs => unfold State.writeLineConfig; rw [if_pos hs]; exact h.congr_fields rfl rfl
  | bankWritten => exact h.congr_fields (State.setBank_objects _ _ _) (by rw [State.setBank_engine])
  | cycleStarted => exact h.gridWork _
  | boundary =>
    rw [State.boundary_eq]
    exact h.congr (fun n => .rfl) (State.carries_signalWindowEnd rfl)
  | onLine _ _ hf taken => exact h.congr (fun n => .rfl) (State.carries_of_carried hf rfl taken.carried)
  | gapEnded hf =>
    refine State.activeInFlight_of_idle (by rw [State.closing_engine, State.reported_flight]) fun n => ?_
    rw [State.object_congr (State.closing_objects _ _)]
    exact h.reported_none hf _ n

/-- Settles O51: kept by every effect of a command, by the look that may follow, and by its answer. -/
theorem activeInFlightKept : Obligations.ActiveInFlightKept := by
  unfold Obligations.ActiveInFlightKept
  exact fun s t => step_keeps (P := State.ActiveInFlight) (fun _ h => h) (fun _ _ h => h) (fun h => h.look)
    fun he => .effect he

end Sys2Proof.Machine
end

