-- ==== Sys2Proof/Proofs/SchedulerKept.lean ====
section
/-! The scheduler state, the roles, the figures, the pending switch and the Line Engine agree (R57, R54, R74), and the ACTIVE and
the locked bank stay valid (R42, R51, R53): each effect and each look keeps both. -/

namespace Sys2Proof.Machine

/-! ### The scheduler -/

/-- The condition reads the roles, the figures, the pending switch, the window, the owed SYNC and whether a frame is in
flight. -/
theorem State.SchedulerAgrees.congr {s t : State} (h : s.SchedulerAgrees) (hactive : t.activeBank = s.activeBank)
    (hsched : t.sched = s.sched) (hfigures : t.figures = s.figures) (hsw : t.sw = s.sw)
    (hflight : t.engine.flight.isSome = s.engine.flight.isSome) (hwindow : t.cycle.window = s.cycle.window)
    (howed : t.cycle.syncOwed = s.cycle.syncOwed) : t.SchedulerAgrees := by
  obtain ⟨h1, h2, h3, h4, h5, h6, h7, h8⟩ := h
  constructor <;> simp only [hactive, hsched, hfigures, hsw, hflight, hwindow, howed] <;> assumption

theorem State.SchedulerAgrees.tables {s t : State} (h : s.SchedulerAgrees) (k : s.SameButTables t) :
    t.SchedulerAgrees :=
  h.congr k.activeBank k.sched k.figures k.sw (by rw [k.engine]) (by rw [k.cycle]) (by rw [k.cycle])

/-- OFF, with nothing pending and no bank ACTIVE, agrees with an idle line. -/
theorem State.schedulerAgrees_off {s : State} (hsched : s.sched = .off) (hactive : s.activeBank = none)
    (hfigures : s.figures = none) (hpend : s.sw.pending = false) (hidle : s.engine.flight = none)
    (hwindow : s.cycle.window = none) (howed : s.cycle.syncOwed = false) : s.SchedulerAgrees := by
  constructor <;> simp [hsched, hactive, hfigures, hpend, hidle, hwindow, howed]

theorem State.SchedulerAgrees.idle_of_not_sending {s : State} (h : s.SchedulerAgrees) (hr : s.sched ≠ .running)
    (hs : s.sched ≠ .stopping) : s.engine.flight = none := by
  cases hf : s.engine.flight with
  | none => rfl
  | some fl => rcases h.flightStates (by rw [hf]; rfl) with e | e <;> contradiction

/-- In OFF and in ARMED no bank is ACTIVE (R57, R74). -/
theorem State.SchedulerAgrees.no_bank {s : State} (h : s.SchedulerAgrees) (hs : s.sched = .off ∨ s.sched = .armed) :
    s.activeBank = none := by
  cases hb : s.activeBank with
  | none => rfl
  | some b =>
    have := h.bankActive.mp (by rw [hb]; rfl)
    rcases hs with hs | hs <;> simp [hs] at this

theorem State.SchedulerAgrees.no_figures {s : State} (h : s.SchedulerAgrees) (hb : s.activeBank = none) :
    s.figures = none := by
  have := h.figuresFormed
  rw [hb] at this
  simpa using this

/-- In OFF and in STOPPING no switch is pending (R62, R70, R75). -/
theorem State.SchedulerAgrees.not_pending {s : State} (h : s.SchedulerAgrees) (hs : s.sched = .off ∨ s.sched = .stopping) :
    s.sw.pending = false :=
  Bool.eq_false_iff.mpr fun e => by
    have hstates := h.pendingStates e
    rcases hs with hs | hs <;> simp [hs] at hstates

theorem State.switchRefusal_eq_none {s : State} {b : BankId} (h : s.switchRefusal b = none) :
    s.sched ≠ .armed ∧ s.sched ≠ .stopping ∧ s.sw.pending = false ∧ s.activeBank ≠ some b := by
  unfold State.switchRefusal at h
  split at h
  next => cases h
  next hstate =>
    split at h
    next => cases h
    next hbank => simp only [not_or, Bool.not_eq_true] at hstate; exact ⟨hstate.1, hstate.2.1, hstate.2.2, hbank⟩

/-- A switch that passes is pending in ARMED, RUNNING or HALTED, toward a bank that is not ACTIVE (R62). -/
theorem State.SchedulerAgrees.armSwitch {s : State} (h : s.SchedulerAgrees) {b : BankId}
    (haccepted : s.switchRefusal b = none) (instant : Tick) (late : BitVec 8) :
    (s.armSwitch b instant late).SchedulerAgrees := by
  obtain ⟨harmed, hstopping, -, hbank⟩ := State.switchRefusal_eq_none haccepted
  obtain ⟨h1, h2, -, -, -, h6, -, h8⟩ := h
  have hsched : (s.armSwitch b instant late).sched = if s.sched = .off then .armed else s.sched := rfl
  have hpend : (s.armSwitch b instant late).sw.pending = true := rfl
  constructor
  case bankActive => rw [hsched]; exact h1.trans (by cases hs : s.sched <;> simp)
  case figuresFormed => exact h2
  case armedPending => exact fun _ => rfl
  case pendingStates =>
    intro _
    rw [hsched]
    cases hs : s.sched <;> simp_all
  case pendingTarget => exact fun _ => ⟨b, rfl, hbank⟩
  case flightStates =>
    intro hf
    rw [hsched]
    rcases h6 hf with e | e <;> simp [e]
  case stoppingBusy => rw [hsched]; cases hs : s.sched <;> simp_all
  case timerStopped => exact h8

theorem State.signalWindowEnd_flight_isSome (s : State) :
    s.signalWindowEnd.engine.flight.isSome = s.engine.flight.isSome := by
  rcases s.signalWindowEnd_flight with e | ⟨fl, -, -, hf, -, e⟩
  · rw [e]
  · rw [e, hf]; rfl

/-- A switch instant makes its bank ACTIVE and ARMED RUNNING, with nothing pending (R65 to R67). -/
theorem State.SchedulerAgrees.instantWork {s : State} (h : s.SchedulerAgrees) (hpend : s.sw.pending = true)
    (b : BankId) : (s.instantWork b).SchedulerAgrees := by
  refine State.SchedulerAgrees.tables ?_ (s.works_instantWork b).table.tables
  have hstates := h.pendingStates hpend
  have hsched : (s.instantBase b).sched = .running ∨ (s.instantBase b).sched = .halted := by
    rw [State.instantBase_sched]; rcases hstates with e | e | e <;> simp [e]
  have hflight := h.flightStates
  constructor
  case bankActive => exact ⟨fun _ => hsched.imp_right .inr, fun _ => rfl⟩
  case figuresFormed => rw [State.instantBase_figures]; rfl
  case armedPending => intro e; rcases hsched with k | k <;> rw [k] at e <;> cases e
  case pendingStates | pendingTarget => intro e; rw [State.instantBase_sw_pending] at e; cases e
  case flightStates =>
    rw [State.instantBase_flight, State.signalWindowEnd_flight_isSome]
    intro hf
    rw [State.instantBase_sched]
    rcases hflight hf with e | e <;> simp [e]
  case stoppingBusy => intro e; rcases hsched with k | k <;> rw [k] at e <;> cases e
  case timerStopped => exact nofun

theorem State.SchedulerAgrees.gridWork {s : State} (h : s.SchedulerAgrees) {b : BankId} (hb : s.activeBank = some b) :
    (s.gridWork b).SchedulerAgrees := by
  refine State.SchedulerAgrees.tables ?_ (s.works_gridWork b).table.tables
  obtain ⟨h1, h2, h3, h4, h5, h6, h7, -⟩ := h
  constructor
  case timerStopped => rw [State.gridBase_activeBank, hb]; exact nofun
  all_goals
    simp only [State.gridBase_activeBank, State.gridBase_sched, State.gridBase_figures, State.gridBase_sw,
      State.gridBase_flight, State.signalWindowEnd_flight_isSome]
    assumption

theorem State.SchedulerAgrees.look {s : State} (h : s.SchedulerAgrees) : s.look.SchedulerAgrees := by
  have taken : ∀ t : State, s.sched = .running → t.engine.flight.isSome = true → t.activeBank = s.activeBank →
      t.sched = s.sched → t.figures = s.figures → t.sw = s.sw → t.SchedulerAgrees := by
    intro t hrun hf hactive hsched hfigures hsw
    have hbank : s.activeBank ≠ none := fun e => by simpa [hrun, e] using h.bankActive
    obtain ⟨h1, h2, h3, h4, h5, h6, h7, h8⟩ := h
    constructor <;> simp only [hactive, hsched, hfigures, hsw, hf]
    case flightStates => exact fun _ => .inl hrun
    case stoppingBusy => exact fun _ => trivial
    case timerStopped => exact fun e => absurd e hbank
    all_goals assumption
  rcases s.look_cases with e | ⟨hrun, -, -, e⟩ | ⟨n, hrun, -, -, -, e⟩ <;> rw [e]
  · exact h
  · exact taken _ hrun rfl rfl rfl rfl rfl
  · exact taken _ hrun (by rw [State.startExchange_flight]; rfl) (by rw [State.startExchange_eq])
      (by rw [State.startExchange_eq]) (by rw [State.startExchange_eq]) (by rw [State.startExchange_eq])

/-- The states a pending switch can be cancelled in (R68). -/
theorem State.SchedulerAgrees.cancelled {s : State} (h : s.SchedulerAgrees) :
    (s.endPending .cancelled).disarm.SchedulerAgrees := by
  have hsched : (s.endPending .cancelled).disarm.sched = if s.sched = .armed then .off else s.sched := by
    unfold State.disarm; rw [State.endPending_sched]
  have hpend : (s.endPending .cancelled).disarm.sw.pending = false := by simp [State.disarm]
  have hflight : (s.endPending .cancelled).disarm.engine.flight = s.engine.flight := by simp
  have hactive : (s.endPending .cancelled).disarm.activeBank = s.activeBank := by simp
  have hfigures : (s.endPending .cancelled).disarm.figures = s.figures := by simp
  have hcycle : (s.endPending .cancelled).disarm.cycle = s.cycle := by simp
  obtain ⟨h1, h2, -, -, -, h6, h7, h8⟩ := h
  constructor <;> simp only [hsched, hpend, hflight, hactive, hfigures, hcycle]
  case bankActive => exact h1.trans (by cases s.sched <;> simp)
  case armedPending => cases s.sched <;> simp
  case flightStates => intro hf; rcases h6 hf with e | e <;> simp [e]
  case stoppingBusy => cases hs : s.sched <;> simp_all
  case pendingStates | pendingTarget => exact nofun
  case figuresFormed | timerStopped => assumption

/-- SCHED_STOP with a frame in flight (R75). -/
theorem State.SchedulerAgrees.stopBusy {s : State} (h : s.SchedulerAgrees) (hrun : s.sched = .running)
    (hbusy : s.engine.flight ≠ none) : ({ s.endPending .stopped with sched := .stopping } : State).SchedulerAgrees := by
  have hbank : s.activeBank.isSome = true := h.bankActive.mpr (.inl hrun)
  have hpend := s.endPending_sw_pending .stopped
  have hsome := Option.isSome_iff_ne_none.mpr hbusy
  constructor <;> simp only [State.endPending_activeBank, State.endPending_figures, hpend, State.endPending_engine,
    State.endPending_cycle, hbank, h.figuresFormed, hsome]
  case timerStopped => exact h.timerStopped
  all_goals simp

/-- The end of an attempt ends STOPPING, or makes RUNNING HALTED, or leaves RUNNING, with the line idle (R12, R77, R79). -/
theorem State.SchedulerAgrees.closing {s u : State} (h : s.SchedulerAgrees) (hf : s.engine.flight.isSome = true)
    (hactive : u.activeBank = s.activeBank) (hsched : u.sched = s.sched) (hfigures : u.figures = s.figures)
    (hsw : u.sw = s.sw) (hidle : u.engine.flight = none) (r : AttemptResult) :
    (u.raiseFault r).endStopping.SchedulerAgrees := by
  have hbank : s.activeBank.isSome = true := h.bankActive.mpr ((h.flightStates hf).imp_right .inl)
  rcases h.flightStates hf with hs | hs
  · have hne : (u.raiseFault r).sched ≠ .stopping := by
      unfold State.raiseFault; rw [hs] at hsched; split <;> simp [hsched]
    rw [State.endStopping_none _ hne]
    have hrun : (u.raiseFault r).sched = .running ∨ (u.raiseFault r).sched = .halted := by
      unfold State.raiseFault; rw [hs] at hsched; split <;> simp [hsched]
    have hsame : (u.raiseFault r).activeBank = s.activeBank ∧ (u.raiseFault r).figures = s.figures ∧
        (u.raiseFault r).sw = s.sw ∧ (u.raiseFault r).engine.flight = none := by
      unfold State.raiseFault; split <;> exact ⟨hactive, hfigures, hsw, hidle⟩
    obtain ⟨h1, h2, h3, h4⟩ := hsame
    have hnone : s.activeBank ≠ none := Option.isSome_iff_ne_none.mp hbank
    constructor <;> simp only [h1, h2, h3, h4, hbank, h.figuresFormed]
    case bankActive => simpa using hrun.imp_right .inr
    case armedPending | stoppingBusy => intro e; rcases hrun with k | k <;> rw [k] at e <;> cases e
    case pendingStates => exact fun _ => .inr hrun
    case pendingTarget => exact h.pendingTarget
    case timerStopped => exact fun e => absurd e hnone
    all_goals exact nofun
  · have hstop : (u.raiseFault r).sched = .stopping := by
      unfold State.raiseFault; rw [hs] at hsched; split <;> simp [hsched]
    have hpend := h.not_pending (.inr hs)
    have hsame : (u.raiseFault r).sw = s.sw ∧ (u.raiseFault r).engine.flight = none := by
      unfold State.raiseFault; split <;> exact ⟨hsw, hidle⟩
    unfold State.endStopping
    rw [if_pos hstop]
    refine State.schedulerAgrees_off rfl rfl rfl ?_ hsame.2 rfl rfl
    rw [State.goOff_sw, hsame.1, hpend]

/-- Every effect keeps the scheduler in agreement. -/
theorem State.SchedulerAgrees.effect {s t : State} {c : Instr} (he : s.Effect c t) (h : s.SchedulerAgrees) :
    t.SchedulerAgrees := by
  cases he with
  | quiet same =>
    exact h.congr same.activeBank same.sched same.figures same.sw (by rw [same.flight]) same.window same.syncOwed
  | pinReset => exact State.schedulerAgrees_off rfl rfl rfl rfl rfl rfl rfl
  | lineReset => exact State.schedulerAgrees_off rfl rfl rfl s.lineReset_sw_pending rfl rfl rfl
  | switchFailed haccepted =>
    have hpend := (State.switchRefusal_eq_none haccepted).2.2.1
    obtain ⟨h1, h2, h3, -, -, h6, h7, h8⟩ := h
    refine ⟨h1, h2, h3, fun e => ?_, fun e => ?_, h6, h7, h8⟩ <;> exact absurd (hpend.symm.trans e) (by decide)
  | switchArmed haccepted => exact h.armSwitch haccepted _ _
  | switchMade haccepted => exact (h.armSwitch haccepted _ _).instantWork rfl _
  | instant hpend => exact h.instantWork hpend _
  | cancelled => exact h.cancelled
  | stopArmed hs =>
    have hbank := h.no_bank (.inr hs)
    have htimer := h.timerStopped hbank
    refine State.schedulerAgrees_off rfl ((s.endPending_activeBank _).trans hbank)
      ((s.endPending_figures _).trans (h.no_figures hbank)) (s.endPending_sw_pending _) ?_ ?_ ?_
    · exact (congrArg LineEngine.flight (s.endPending_engine _)).trans
        (h.idle_of_not_sending (by simp [hs]) (by simp [hs]))
    · exact (congrArg CycleTimer.window (s.endPending_cycle _)).trans htimer.1
    · exact (congrArg CycleTimer.syncOwed (s.endPending_cycle _)).trans htimer.2
  | stopIdle hs =>
    have hidle : s.engine.flight = none := hs.elim And.right fun e => h.idle_of_not_sending (by simp [e]) (by simp [e])
    exact State.schedulerAgrees_off rfl rfl rfl (s.endPending_sw_pending _)
      ((congrArg LineEngine.flight (s.endPending_engine _)).trans hidle) rfl rfl
  | stopBusy hrun hbusy => exact h.stopBusy hrun hbusy
  | resumed hs =>
    have hidle := h.idle_of_not_sending (by simp [hs]) (by simp [hs])
    have hbank : s.activeBank.isSome = true := h.bankActive.mpr (.inr (.inr hs))
    obtain ⟨-, h2, -, -, h5, -, -, h8⟩ := h
    exact ⟨⟨fun _ => .inl rfl, fun _ => hbank⟩, h2, nofun, fun _ => .inr (.inl rfl), h5, fun _ => .inl rfl, nofun, h8⟩
  | enabled | disabled | reRequestDropped | released | objectConfigured | payloadWritten | revived | popped =>
    exact h.congr rfl rfl rfl rfl rfl rfl rfl
  | retired => rw [State.retire_eq]; exact h.tables rfl
  | requested n => exact h.tables (s.workOn_request n).tables
  | withdrawn => exact h.tables (s.workOn_finish _ _).tables
  | inserted => unfold State.enterSlot; split <;> exact h.congr rfl rfl rfl rfl rfl rfl rfl
  | lineConfigured hs => unfold State.writeLineConfig; rw [if_pos hs]; exact h.congr rfl rfl rfl rfl rfl rfl rfl
  | bankWritten => apply h.congr <;> simp
  | cycleStarted hb => exact h.gridWork hb
  | @boundary b w hb =>
    rw [State.boundary_eq]
    obtain ⟨h1, h2, h3, h4, h5, h6, h7, -⟩ := h
    have hsome := s.signalWindowEnd_flight_isSome
    exact ⟨h1, h2, h3, h4, h5, fun e => h6 (hsome.symm.trans e), fun e => hsome.trans (h7 e),
      fun e => absurd (hb.symm.trans e) nofun⟩
  | onLine _ _ hf => exact h.congr rfl rfl rfl rfl (by rw [hf]; rfl) rfl rfl
  | @gapEnded fl r hf =>
    obtain ⟨u, hwork, hu⟩ := s.reported_table fl r
    have k := hwork.tables
    refine h.closing (by rw [hf]; rfl) ?_ ?_ ?_ ?_ (s.reported_flight fl r) r
    · rw [k.activeBank, hu]
    · rw [k.sched, hu]
    · rw [k.figures, hu]
    · rw [k.sw, hu]

/-- Settles O52: kept by every effect of a command, by the look that may follow, and by its answer. -/
theorem schedulerAgreesKept : Obligations.SchedulerAgreesKept := by
  unfold Obligations.SchedulerAgreesKept
  exact fun s t => step_keeps (P := State.SchedulerAgrees) (fun _ h => h.congr rfl rfl rfl rfl rfl rfl rfl)
    (fun _ _ h => h.congr rfl rfl rfl rfl rfl rfl rfl) (fun h => h.look) fun he => .effect he

end Sys2Proof.Machine
end

