-- ==== Sys2Proof/Proofs/BanksJudgedKept.lean ====
section
/-! The ACTIVE bank and the target of a pending switch pass validation, and the figures are those of the ACTIVE bank (R42, R51,
R53): each effect and each look keeps it in states in which the scheduler agrees. -/

namespace Sys2Proof.Machine

/-- The condition reads the banks, the bit rate, the roles, the figures and the pending switch. -/
theorem State.BanksJudged.congr {s t : State} (h : s.BanksJudged) (hbank : ∀ b, t.bank b = s.bank b)
    (hrate : t.config.bitRate = s.config.bitRate) (hactive : t.activeBank = s.activeBank)
    (hfigures : t.figures = s.figures) (hpend : t.sw.pending = s.sw.pending) (htarget : t.sw.target = s.sw.target) :
    t.BanksJudged := by
  obtain ⟨h1, h2, h3⟩ := h
  constructor <;> simp only [hbank, hrate, hactive, hfigures, hpend, htarget] <;> assumption

theorem State.BanksJudged.tables {s t : State} (h : s.BanksJudged) (k : s.SameButTables t) : t.BanksJudged :=
  h.congr k.bank (by rw [k.config]) k.activeBank k.figures (by rw [k.sw]) (by rw [k.sw])

/-- With no switch pending, the condition on its target falls away (R68, R70). -/
theorem State.BanksJudged.unlocked {s t : State} (h : s.BanksJudged) (hbank : ∀ b, t.bank b = s.bank b)
    (hrate : t.config.bitRate = s.config.bitRate) (hactive : t.activeBank = s.activeBank)
    (hfigures : t.figures = s.figures) (hpend : t.sw.pending = false) : t.BanksJudged := by
  obtain ⟨h1, h2, -⟩ := h
  constructor <;> simp only [hbank, hrate, hactive, hfigures, hpend]
  case targetValid => exact fun _ => nofun
  all_goals assumption

/-- With no bank ACTIVE and no switch pending nothing is asked (R54). -/
theorem State.banksJudged_off {s : State} (hactive : s.activeBank = none) (hpend : s.sw.pending = false) :
    s.BanksJudged := by
  constructor <;> simp [hactive, hpend]

/-- A bank that SWITCH accepted passes the five checks (R49). -/
theorem State.judge_ok {s : State} {b : BankId} {r : Nat × Tick} (h : s.judge b = .ok r) :
    (s.bank b).firstFault s.config.bitRate = none := by
  unfold State.judge at h
  simp only at h
  split at h
  next => cases h
  next hnone => exact hnone

theorem State.BanksJudged.armSwitch {s : State} (h : s.BanksJudged) {b : BankId} {k : Nat} {instant : Tick}
    (hpass : s.judge b = .ok (k, instant)) (late : BitVec 8) : (s.armSwitch b instant late).BanksJudged where
  figuresOfActive := h.figuresOfActive
  activeValid := h.activeValid
  targetValid := by
    intro c _ hc
    injection hc with hc
    subst hc
    exact State.judge_ok hpass

/-- A switch instant makes the valid target ACTIVE and forms its figures (R41, R53). -/
theorem State.BanksJudged.instantWork {s : State} (h : s.BanksJudged) (hpend : s.sw.pending = true) {b : BankId}
    (htarget : s.sw.target = some b) : (s.instantWork b).BanksJudged := by
  refine State.BanksJudged.tables ?_ (s.works_instantWork b).table.tables
  constructor
  case figuresOfActive =>
    intro c f hc hf
    rw [State.instantBase_figures] at hf
    injection hc with hc; injection hf with hf
    rw [← hc, ← hf, State.instantBase_bank, State.instantBase_config]
  case activeValid =>
    intro c hc
    injection hc with hc
    rw [← hc, State.instantBase_bank, State.instantBase_config]
    exact h.targetValid b hpend htarget
  case targetValid => intro c e; rw [State.instantBase_sw_pending] at e; cases e

/-- The end of an attempt leaves the roles and the figures, or ends both (R77). -/
theorem State.BanksJudged.closing {s : State} (h : s.BanksJudged) (hsched : s.SchedulerAgrees) {u : State}
    (hbank : ∀ b, u.bank b = s.bank b) (hconfig : u.config = s.config) (hactive : u.activeBank = s.activeBank)
    (hfigures : u.figures = s.figures) (hsw : u.sw = s.sw) (hstate : u.sched = s.sched) (r : AttemptResult) :
    (u.raiseFault r).endStopping.BanksJudged := by
  have hfault : (u.raiseFault r).BanksJudged := by
    unfold State.raiseFault
    split <;>
      exact h.congr hbank (by rw [hconfig]) hactive hfigures (congrArg SwitchRecord.pending hsw)
        (congrArg SwitchRecord.target hsw)
  unfold State.endStopping
  split
  next hstop =>
    refine State.banksJudged_off rfl ?_
    have hs : s.sched = .stopping := by
      rw [← hstate]
      unfold State.raiseFault at hstop
      split at hstop
      · simp only at hstop; split at hstop
        · cases hstop
        · exact hstop
      · exact hstop
    have hsame : (u.raiseFault r).sw = s.sw := by unfold State.raiseFault; split <;> exact hsw
    rw [State.goOff_sw, hsame]
    exact hsched.not_pending (.inr hs)
  next => exact hfault

/-- Every effect keeps the banks judged where the scheduler agrees. -/
theorem State.BanksJudged.effect {s t : State} {c : Instr} (he : s.Effect c t) (hsched : s.SchedulerAgrees)
    (h : s.BanksJudged) : t.BanksJudged := by
  cases he with
  | quiet same =>
    exact h.congr same.bank (by rw [same.config]) same.activeBank same.figures (by rw [same.sw]) (by rw [same.sw])
  | pinReset => exact State.banksJudged_off rfl rfl
  | lineReset => exact State.banksJudged_off rfl s.lineReset_sw_pending
  | switchFailed haccepted =>
    have hpend := (State.switchRefusal_eq_none haccepted).2.2.1
    exact h.unlocked (fun b => by cases b <;> rfl) rfl rfl rfl hpend
  | switchArmed _ hpass => exact h.armSwitch hpass _
  | switchMade _ hpass => exact (h.armSwitch hpass _).instantWork rfl rfl
  | instant hpend htarget => exact h.instantWork hpend htarget
  | cancelled =>
    have hbank := s.endPending_bank .cancelled
    exact h.unlocked (fun b => (by cases b <;> rfl : _ = (s.endPending .cancelled).bank b).trans (hbank b))
      (by simp) (by simp) (by simp) (by simp [State.disarm])
  | stopArmed hs =>
    exact State.banksJudged_off ((s.endPending_activeBank _).trans (hsched.no_bank (.inr hs))) (s.endPending_sw_pending _)
  | stopIdle => exact State.banksJudged_off rfl (s.endPending_sw_pending _)
  | stopBusy =>
    have hbank := s.endPending_bank .stopped
    exact h.unlocked (fun b => (by cases b <;> rfl : _ = (s.endPending .stopped).bank b).trans (hbank b))
      (congrArg LineConfig.bitRate (s.endPending_config _)) (s.endPending_activeBank _) (s.endPending_figures _)
      (s.endPending_sw_pending _)
  | resumed | revived | popped | onLine | enabled | disabled | reRequestDropped | released | objectConfigured
  | payloadWritten => exact h.congr (fun b => by cases b <;> rfl) rfl rfl rfl rfl rfl
  | retired => rw [State.retire_eq]; exact h.tables rfl
  | requested n => exact h.tables (s.workOn_request n).tables
  | withdrawn => exact h.tables (s.workOn_finish _ _).tables
  | inserted => unfold State.enterSlot; split <;> exact h.congr (fun b => by cases b <;> rfl) rfl rfl rfl rfl rfl
  | lineConfigured hs =>
    refine State.banksJudged_off ?_ ?_ <;> unfold State.writeLineConfig <;> rw [if_pos hs]
    · exact hsched.no_bank (.inl hs)
    · exact hsched.not_pending (.inl hs)
  | bankWritten hshadow hunlocked bk =>
    have hother : ∀ b, b ≠ s.port.bankSelect → (s.setBank s.port.bankSelect bk).bank b = s.bank b :=
      fun b hb => s.bank_setBank_ne bk hb
    have hactive : ∀ b, s.activeBank = some b → b ≠ s.port.bankSelect := fun b hb e => hshadow (e ▸ hb)
    have htarget : ∀ b, s.sw.pending = true → s.sw.target = some b → b ≠ s.port.bankSelect := by
      rintro b hp hb rfl
      simp [State.isLocked, hp, hb] at hunlocked
    constructor <;> simp only [State.setBank_activeBank, State.setBank_figures, State.setBank_config, State.setBank_sw]
    case figuresOfActive => intro b f hb hf; rw [hother b (hactive b hb)]; exact h.figuresOfActive b f hb hf
    case activeValid => intro b hb; rw [hother b (hactive b hb)]; exact h.activeValid b hb
    case targetValid => intro b hp hb; rw [hother b (htarget b hp hb)]; exact h.targetValid b hp hb
  | @cycleStarted b =>
    refine State.BanksJudged.tables ?_ (s.works_gridWork b).table.tables
    exact h.congr (s.gridBase_bank b) (by simp) (by simp) (by simp) (by simp) (by simp)
  | boundary => rw [State.boundary_eq]; exact h.congr (fun b => by cases b <;> rfl) rfl rfl rfl rfl rfl
  | @gapEnded fl r =>
    obtain ⟨u, hwork, hu⟩ := s.reported_table fl r
    have k := hwork.tables
    refine h.closing hsched (fun b => ?_) ?_ ?_ ?_ ?_ ?_ r
    · rw [k.bank, hu]; cases b <;> rfl
    · rw [k.config, hu]
    · rw [k.activeBank, hu]
    · rw [k.figures, hu]
    · rw [k.sw, hu]
    · rw [k.sched, hu]

theorem State.BanksJudged.look {s : State} (h : s.BanksJudged) : s.look.BanksJudged :=
  h.congr s.look_bank (by simp) (by simp) (by simp) (by simp) (by simp)

/-- Settles O53: with the scheduler's agreement, itself kept (O52), by every effect of a command, by the look that may follow,
and by its answer. -/
theorem banksJudgedKept : Obligations.BanksJudgedKept := by
  unfold Obligations.BanksJudgedKept
  intro s t hsched hbanks hstep
  refine (step_keeps (P := fun u => u.SchedulerAgrees ∧ u.BanksJudged) ?queue ?answer ?look ?effect ⟨hsched, hbanks⟩
    hstep).2
  case queue | answer =>
    intros
    rename_i h
    exact ⟨h.1.congr rfl rfl rfl rfl rfl rfl rfl, h.2.congr (fun b => by cases b <;> rfl) rfl rfl rfl rfl rfl⟩
  case look => exact fun h => ⟨h.1.look, h.2.look⟩
  case effect => exact fun he h => ⟨.effect he h.1, .effect he h.1 h.2⟩

end Sys2Proof.Machine
end

