-- ==== Sys2Proof/Proofs/RequestsSoundKept.lean ====
section
/-! Enabled objects are valid, Attempts of a standing request is below its limit, and Re-request is set only in ACTIVE (R86, R93,
R103): kept object by object. -/

namespace Sys2Proof.Machine

/-- What is asked of one object (R86, R93, R103). -/
structure MsgObject.Sound (o : MsgObject) : Prop where
  enabledValid : o.state ≠ .disabled → o.config.valid = true
  attemptsBelow : o.state = .pending ∨ o.state = .active → o.attempts < o.config.attemptLimit
  reRequestActive : o.reRequest = true → o.state = .active

theorem State.requestsSound_iff (s : State) : s.RequestsSound ↔ ∀ n, (s.object n).Sound :=
  ⟨fun ⟨h1, h2, h3⟩ n => ⟨h1 n, h2 n, h3 n⟩, fun h => ⟨fun n => (h n).1, fun n => (h n).2, fun n => (h n).3⟩⟩

/-- A valid configuration has an Attempt Limit of at least 1 (R86). -/
theorem ObjConfig.attemptLimit_pos {c : ObjConfig} (h : c.valid = true) : 0 < c.attemptLimit := by
  unfold ObjConfig.valid at h
  simp only [Bool.and_eq_true, decide_eq_true_eq] at h
  rw [BitVec.lt_def]
  exact h.1.2.1

/-- Work keeps an object sound: a new request has Attempts 0 (R94, R103). -/
theorem MsgObject.Sound.worked {silent : Bool} {o p : MsgObject} (h : o.Sound) (k : o.Worked silent p) : p.Sound where
  enabledValid hp := by rw [k.kept.config]; exact h.enabledValid fun e => hp (k.disabled.mpr e)
  attemptsBelow hp := by
    rw [k.kept.config]
    rcases k.standing hp with ⟨hs, ha⟩ | ⟨hs, ha, -⟩
    · rw [ha]; exact h.attemptsBelow (hs ▸ hp)
    · rw [ha]
      refine ObjConfig.attemptLimit_pos (h.enabledValid fun e => ?_)
      have := k.disabled.mpr e
      rw [hs] at this; cases this
  reRequestActive hp := by
    rcases k.reRequest hp with e | e
    · exact k.active.mpr (h.reRequestActive e)
    · exact e

/-- The end of an exchange leaves its object sound (R103, R105). -/
theorem MsgObject.Sound.ended {silent : Bool} {o p : MsgObject} (h : o.Sound) (ho : o.state ≠ .disabled)
    (k : o.Ended silent p) : p.Sound where
  enabledValid _ := by rw [k.config]; exact h.enabledValid ho
  attemptsBelow hp := by
    rcases k.state with e | ⟨-, ⟨e, -⟩ | e⟩
    · rw [e] at hp; rcases hp with hp | hp <;> cases hp
    · rw [e, k.config]; exact ObjConfig.attemptLimit_pos (h.enabledValid ho)
    · exact e
  reRequestActive hp := by rw [k.reRequest] at hp; cases hp

theorem State.RequestsSound.works {s t : State} (h : s.RequestsSound) (k : s.Works t) : t.RequestsSound :=
  t.requestsSound_iff.mpr fun n => (s.requestsSound_iff.mp h n).worked (k.objects n)

theorem State.RequestsSound.congr {s t : State} (h : s.RequestsSound) (hobjects : t.objects = s.objects) :
    t.RequestsSound :=
  t.requestsSound_iff.mpr fun n => by rw [State.object_congr hobjects]; exact s.requestsSound_iff.mp h n

theorem State.RequestsSound.setObject {s : State} (h : s.RequestsSound) {n : Fin 32} {o : MsgObject} (ho : o.Sound) :
    (s.setObject n o).RequestsSound :=
  State.requestsSound_iff _ |>.mpr fun m => by
    rw [State.object_setObject]
    split
    next => exact ho
    next => exact s.requestsSound_iff.mp h m

theorem State.RequestsSound.look {s : State} (h : s.RequestsSound) : s.look.RequestsSound := by
  rcases s.look_cases with e | ⟨-, -, -, e⟩ | ⟨n, -, -, -, hwin, e⟩ <;> rw [e]
  · exact h
  · exact h.congr rfl
  · obtain ⟨-, -, hpend, -⟩ := State.winner_fits hwin
    refine State.requestsSound_iff _ |>.mpr fun m => ?_
    rw [State.startExchange_object]
    have hsound := s.requestsSound_iff.mp h
    split
    next =>
      exact ⟨fun _ => (hsound n).enabledValid (by simp [hpend]), fun _ => (hsound n).attemptsBelow (.inl hpend), fun _ => rfl⟩
    next => exact hsound m

/-- The report of an attempt leaves every object sound: its own is ACTIVE when it comes (R102, R103). -/
theorem State.RequestsSound.reported {s : State} (h : s.RequestsSound) (hactive : s.ActiveInFlight) {fl : Flight}
    (hf : s.engine.flight = some fl) (r : AttemptResult) : (s.reported fl r).RequestsSound := by
  have hsound := s.requestsSound_iff.mp h
  cases hc : fl.carried with
  | sync => rw [State.reported_of_sync hc]; exact h.congr rfl
  | exchange n kind =>
    have hn : (s.object n).state = .active := (hactive n).mpr ⟨fl, kind, hf, hc⟩
    rw [State.reported_of_exchange hc]
    unfold State.report
    generalize hu : s.enterIdle.nodeReport kind fl.node r = u
    have hobj : ∀ k, u.object k = s.object k := fun k => by rw [← hu, State.nodeReport_object]; rfl
    refine State.requestsSound_iff _ |>.mpr fun m => ?_
    by_cases hm : m = n
    · have hended := u.applyResult_object n fl.node r (r == .noReply && s.enterIdle.missesLimit fl.node)
      rw [hm]
      rw [hobj] at hended
      exact (hsound n).ended (by simp [hn]) hended
    · have hworked := u.applyResult_others hm fl.node r (r == .noReply && s.enterIdle.missesLimit fl.node)
      rw [hobj] at hworked
      exact (hsound m).worked hworked

theorem State.requestsSound_reset : State.reset.RequestsSound := ⟨by decide, by decide, by decide⟩

/-- Every effect keeps the requests sound where ACTIVE and the exchange in flight go together. -/
theorem State.RequestsSound.effect {s t : State} {c : Instr} (he : s.Effect c t) (hactive : s.ActiveInFlight)
    (h : s.RequestsSound) : t.RequestsSound := by
  have hsound := s.requestsSound_iff.mp h
  cases he with
  | quiet same => exact h.congr same.objects
  | pinReset => exact State.requestsSound_reset.congr rfl
  | lineReset =>
    refine State.requestsSound_iff _ |>.mpr fun n => ?_
    rw [State.lineReset_object]
    by_cases hn : (s.object n).state = .pending ∨ (s.object n).state = .active
    · rw [MsgObject.lineReset_of_standing hn]
      refine ⟨fun _ => (hsound n).enabledValid ?_, nofun, nofun⟩
      rcases hn with e | e <;> simp [e]
    · rw [MsgObject.lineReset_of_not_standing hn]; exact hsound n
  | switchFailed | switchArmed | resumed | popped | revived | onLine => exact h.congr rfl
  | @switchMade _ b =>
    refine State.RequestsSound.works ?_ (State.works_instantWork _ b)
    exact h.congr (State.instantBase_objects _ b)
  | @instant b => exact (h.congr (s.instantBase_objects b)).works (s.works_instantWork b)
  | cancelled => exact h.congr (by simp)
  | stopArmed | stopBusy | stopIdle => exact h.congr (s.endPending_objects _)
  | @enabled _ n hs hvalid =>
    have hn := hsound n
    exact h.setObject ⟨fun _ => hvalid, nofun, fun e => by rw [hn.reRequestActive e] at hs; cases hs⟩
  | @disabled _ n hs =>
    have hn := hsound n
    exact h.setObject ⟨fun e => absurd rfl e, nofun, fun e => by rw [hn.reRequestActive e] at hs; cases hs⟩
  | @retired _ n hs =>
    rw [State.retire_eq]
    refine State.requestsSound_iff _ |>.mpr fun m => ?_
    rw [State.afterFinish_object]
    split
    next =>
      exact ⟨fun e => absurd rfl e, nofun, fun e => by rw [(hsound n).reRequestActive e] at hs; cases hs⟩
    next => exact hsound m
  | requested n => exact h.works (s.works_request n)
  | withdrawn hs => exact h.works (State.works_finish hs _)
  | @reRequestDropped _ n hs => exact h.setObject ⟨(hsound n).1, (hsound n).2, nofun⟩
  | released n => exact h.setObject ⟨(hsound n).1, (hsound n).2, (hsound n).3⟩
  | @payloadWritten k data hs p =>
    have hn := hsound s.port.objectSelect
    exact h.setObject ⟨hn.1, hn.2, hn.3⟩
  | objectConfigured hs =>
    have hn := hsound s.port.objectSelect
    refine h.setObject ⟨fun e => absurd hs e, fun e => ?_, hn.3⟩
    rw [hs] at e; rcases e with e | e <;> cases e
  | @inserted n =>
    refine State.requestsSound_iff _ |>.mpr fun m => ?_
    obtain ⟨b, hb⟩ := s.enterSlot_object n m
    rw [hb]
    exact ⟨(hsound m).1, (hsound m).2, (hsound m).3⟩
  | lineConfigured hs => unfold State.writeLineConfig; rw [if_pos hs]; exact h.congr rfl
  | bankWritten => exact h.congr (State.setBank_objects _ _ _)
  | @cycleStarted b => exact (h.congr (s.gridBase_objects b)).works (s.works_gridWork b)
  | boundary => rw [State.boundary_eq]; exact h.congr rfl
  | gapEnded hf => exact (h.reported hactive hf _).congr (State.closing_objects _ _)

/-- Settles O54: with ACTIVE in flight, itself kept (O51), by every effect of a command, by the look that may follow, and by its
answer. -/
theorem requestsSoundKept : Obligations.RequestsSoundKept := by
  unfold Obligations.RequestsSoundKept
  intro s t hactive hsound hstep
  exact (step_keeps (P := fun u => u.ActiveInFlight ∧ u.RequestsSound) (fun _ h => ⟨h.1, h.2.congr rfl⟩)
    (fun _ _ h => ⟨h.1, h.2.congr rfl⟩) (fun h => ⟨h.1.look, h.2.look⟩)
    (fun he h => ⟨.effect he h.1, .effect he h.1 h.2⟩) ⟨hactive, hsound⟩ hstep).2

end Sys2Proof.Machine
end

