-- ==== Sys2Proof/Proofs/NodeReports.lean ====
section
/-! The Node Table's update from a report (R133, R138, R144 to R147): the addressed record, the two flags, and nothing else. -/

namespace Sys2Proof.Machine

/-- A miss at a node with a record reaches the Miss Limit when its raised count is the limit (R146, R147). -/
theorem State.missesLimit_of_index {s : State} {a : BitVec 5} {i : Fin 30} (h : i.val + 1 = a.toNat) :
    s.missesLimit a = ((s.nodeRecord i).missCount + 1 == s.config.missLimit) := by
  unfold State.missesLimit
  rw [nodeIndex_eq_some.mpr h]

/-- An address without a record brings no count to its limit. -/
theorem State.missesLimit_index {s : State} {a : BitVec 5} (h : s.missesLimit a = true) :
    ∃ i : Fin 30, i.val + 1 = a.toNat ∧ (s.nodeRecord i).missCount + 1 = s.config.missLimit := by
  unfold State.missesLimit at h
  split at h
  next => cases h
  next i hi => exact ⟨i, nodeIndex_eq_some.mp hi, by simpa using h⟩

theorem State.nodeAnswered_of_index {s : State} {a : BitVec 5} {i : Fin 30} (h : i.val + 1 = a.toNat)
    (toggle : Option Bool) : s.nodeAnswered a toggle =
      { s.setNode i ((s.nodeRecord i).answered s.engine.staging.attention toggle
          (s.cycle.cycleNumber.extractLsb' 0 16)) with
        flags := { s.flags with
          attention := s.flags.attention || (s.engine.staging.attention && !(s.nodeRecord i).attention) } } := by
  unfold State.nodeAnswered
  rw [nodeIndex_eq_some.mpr h]; rfl

/-- The record put last. -/
theorem State.nodeRecord_of_nodes {s t : State} {i : Fin 30} {rec : NodeRecord} (h : t.nodes = (s.setNode i rec).nodes) :
    t.nodeRecord i = rec := by rw [State.nodeRecord_congr h, State.nodeRecord_setNode_self]

/-- A valid reply at its node's record: ALIVE, no misses, Attention and Last Reply Cycle taken, and the Toggle of an ACK to a
COMMAND (R133, R144, R145). -/
theorem State.nodeReport_answered {s : State} {kind : ExchangeKind} {a : BitVec 5} {r : AttemptResult} {i : Fin 30}
    (h : i.val + 1 = a.toNat) (hr : r = .ack ∨ r = .nakReject ∨ r = .nakBusy ∨ r = .data) :
    (s.nodeReport kind a r).nodeRecord i = { s.nodeRecord i with
      state := .alive, missCount := 0, attention := s.engine.staging.attention
      lastReplyCycle := s.cycle.cycleNumber.extractLsb' 0 16
      toggle := if r = .ack ∧ kind = .command then some s.engine.staging.toggle else (s.nodeRecord i).toggle } ∧
    (s.nodeReport kind a r).flags.attention =
      (s.flags.attention || (s.engine.staging.attention && !(s.nodeRecord i).attention)) := by
  rcases hr with rfl | rfl | rfl | rfl
  case inl =>
    unfold State.nodeReport
    simp only [State.nodeAnswered_of_index h]
    refine ⟨(State.nodeRecord_of_nodes rfl).trans ?_, trivial⟩
    by_cases hk : kind = .command <;> simp [hk, NodeRecord.answered]
  all_goals
    unfold State.nodeReport
    simp only [State.nodeAnswered_of_index h]
    exact ⟨(State.nodeRecord_of_nodes rfl).trans (by simp [NodeRecord.answered]), trivial⟩

/-- A miss at its node's record: one more, and SILENT with NODE_SILENT at the Miss Limit (R146, R147). -/
theorem State.nodeReport_missed {s : State} (kind : ExchangeKind) {a : BitVec 5} {i : Fin 30} (h : i.val + 1 = a.toNat) :
    (s.nodeReport kind a .noReply).nodeRecord i = { s.nodeRecord i with
      missCount := (s.nodeRecord i).missCount + 1
      state := if (s.nodeRecord i).missCount + 1 = s.config.missLimit then .silent else (s.nodeRecord i).state } ∧
    (s.nodeReport kind a .noReply).flags.nodeSilent =
      (s.flags.nodeSilent || decide ((s.nodeRecord i).missCount + 1 = s.config.missLimit)) := by
  unfold State.nodeReport State.nodeMissed
  simp only [nodeIndex_eq_some.mpr h, State.missesLimit_of_index h, beq_iff_eq]
  split
  next hlimit =>
    exact ⟨State.nodeRecord_of_nodes rfl, by rw [decide_eq_true hlimit, Bool.or_true]⟩
  next hbelow => exact ⟨State.nodeRecord_of_nodes rfl, by rw [decide_eq_false hbelow, Bool.or_false]; rfl⟩

/-- A report for an address without a record reaches nothing (R138). -/
theorem State.nodeReport_no_record {s : State} (kind : ExchangeKind) {a : BitVec 5} (r : AttemptResult)
    (h : ∀ i : Fin 30, i.val + 1 ≠ a.toNat) : s.nodeReport kind a r = s := by
  have hnone : nodeIndex a = none := Option.eq_none_iff_forall_ne_some.mpr fun i e => h i (nodeIndex_eq_some.mp e)
  unfold State.nodeReport State.nodeAnswered State.nodeMissed
  cases r <;> simp only [hnone]

/-- A broken or failed reply reaches nothing (R144). -/
theorem State.nodeReport_unheard (s : State) (kind : ExchangeKind) (a : BitVec 5) {r : AttemptResult}
    (h : r = .badReply ∨ r = .collision) : s.nodeReport kind a r = s := by
  rcases h with rfl | rfl <;> rfl

/-- Settles O43: the record addressed by the result, the others and the rest as they were. -/
theorem reportUpdatesNodeRecord : Obligations.ReportUpdatesNodeRecord := by
  unfold Obligations.ReportUpdatesNodeRecord
  intro s kind a r t g answered
  refine ⟨fun i hi => s.nodeReport_other kind r hi, fun i hi => ⟨fun hr => ?_, ?_, s.nodeReport_unheard kind a⟩,
    fun ha => ?_, s.nodeReport_eq kind a r⟩
  · obtain ⟨hrecord, hflag⟩ := State.nodeReport_answered (s := s) (kind := kind) hi hr
    refine ⟨hrecord, ?_⟩
    rw [hflag]
    simp [g]
  · rintro rfl
    obtain ⟨hrecord, hflag⟩ := s.nodeReport_missed kind hi
    refine ⟨hrecord, ?_⟩
    rw [hflag]
    simp
  · exact s.nodeReport_no_record kind r fun i hi => ha ⟨by omega, by have := i.isLt; omega⟩

end Sys2Proof.Machine
end

