-- ==== Sys2Proof/Proofs/NodesSoundKept.lean ====
section
/-! Miss Counts are within the Miss Limit and no request to a SILENT node stands (R106, R143, R147): each effect and each look
keeps it in states in which ACTIVE and the exchange in flight go together. -/

namespace Sys2Proof.Machine

/-! ### Node records -/

/-- A record within a Miss Limit (R143). -/
structure NodeRecord.Within (limit : BitVec 4) (r : NodeRecord) : Prop where
  silentCount : r.state = .silent → r.missCount ≤ limit
  heardCount : r.state ≠ .silent → r.missCount < limit

theorem NodeRecord.Within.congr {limit : BitVec 4} {r q : NodeRecord} (h : r.Within limit) (hs : q.state = r.state)
    (hm : q.missCount = r.missCount) : q.Within limit := by
  obtain ⟨h1, h2⟩ := h
  constructor <;> rw [hs, hm] <;> assumption

/-- A record with no misses is within every limit but 0. -/
theorem NodeRecord.within_of_zero {limit : BitVec 4} {r : NodeRecord} (hl : limit ≠ 0) (hm : r.missCount = 0) :
    r.Within limit := by
  have hpos : 0 < limit := by bv_omega
  constructor <;> rw [hm] <;> intro _
  · rw [BitVec.le_def]; exact Nat.zero_le _
  · exact hpos

/-- A miss keeps a record that is not SILENT within the limit, SILENT at the limit itself (R146, R147). -/
theorem NodeRecord.Within.missed {limit : BitVec 4} {r q : NodeRecord} (h : r.Within limit) (hs : r.state ≠ .silent)
    (hq : q.missCount = r.missCount + 1) (hstate : q.state = if r.missCount + 1 = limit then .silent else r.state) :
    q.Within limit := by
  have hbelow := h.heardCount hs
  by_cases hl : r.missCount + 1 = limit
  · rw [if_pos hl] at hstate
    refine ⟨fun _ => ?_, fun e => absurd hstate e⟩
    rw [hq, hl]; exact BitVec.le_refl _
  · rw [if_neg hl] at hstate
    refine ⟨fun e => absurd (hstate.symm.trans e) hs, fun _ => ?_⟩
    rw [hq]; bv_omega

/-- A record brought within a new limit is within it (R85). -/
theorem NodeRecord.within_withinLimit {limit : BitVec 4} (hl : limit ≠ 0) (r : NodeRecord) :
    (r.withinLimit limit).Within limit := by
  unfold NodeRecord.withinLimit
  split
  next hs =>
    split
    next => exact ⟨fun _ => BitVec.le_refl _, fun e => absurd hs e⟩
    next hle => exact ⟨fun _ => BitVec.not_lt.mp hle, fun e => absurd hs e⟩
  next hs =>
    split
    next => exact ⟨fun e => absurd e hs, fun _ => by show limit - 1 < limit; bv_omega⟩
    next hlt => exact ⟨fun e => absurd e hs, fun _ => BitVec.not_le.mp hlt⟩

theorem NodeRecord.withinLimit_state (limit : BitVec 4) (r : NodeRecord) : (r.withinLimit limit).state = r.state := by
  unfold NodeRecord.withinLimit; split <;> split <;> rfl

/-! ### The condition, clause by clause -/

theorem State.NodesSound.within {s : State} (h : s.NodesSound) (i : Fin 30) :
    (s.nodeRecord i).Within s.config.missLimit := ⟨h.silentCount i, h.heardCount i⟩

theorem State.nodesSound_of {s : State} (hl : s.config.missLimit ≠ 0)
    (hnodes : ∀ i, (s.nodeRecord i).Within s.config.missLimit)
    (hnone : ∀ n, (s.object n).state = .pending ∨ (s.object n).state = .active →
      s.isSilent (s.object n).config.node = false)
    (hflight : ∀ fl n kind, s.engine.flight = some fl → fl.carried = .exchange n kind →
      fl.node = (s.object n).config.node) : s.NodesSound :=
  ⟨hl, fun i => (hnodes i).1, fun i => (hnodes i).2, hnone, hflight⟩

/-- A change of the objects alone: no configuration, and every request that stands goes to a node that is not SILENT. -/
theorem State.NodesSound.objects {s t : State} (h : s.NodesSound) (hconfig : t.config = s.config)
    (hnodes : t.nodes = s.nodes) (hflight : t.engine.flight = s.engine.flight)
    (hconfigs : ∀ n, (t.object n).config = (s.object n).config)
    (hstanding : ∀ n, (t.object n).state = .pending ∨ (t.object n).state = .active →
      s.isSilent (s.object n).config.node = false) : t.NodesSound := by
  have hrec := State.nodeRecord_congr hnodes
  refine State.nodesSound_of (by rw [hconfig]; exact h.limitPositive)
    (fun i => by rw [hrec, hconfig]; exact h.within i) (fun n hn => ?_) fun fl n kind hf hc => ?_
  · rw [hconfigs, State.isSilent_congr (s := s) _ fun i => by rw [hrec]]; exact hstanding n hn
  · rw [hconfigs]; exact h.flightNode fl n kind (hflight ▸ hf) hc

theorem State.NodesSound.congr {s t : State} (h : s.NodesSound) (hconfig : t.config = s.config)
    (hnodes : t.nodes = s.nodes) (hflight : t.engine.flight = s.engine.flight) (hobjects : t.objects = s.objects) :
    t.NodesSound :=
  h.objects hconfig hnodes hflight (fun n => by rw [State.object_congr hobjects])
    fun n hn => h.noneToSilent n (by rwa [State.object_congr hobjects] at hn)

/-- A change of one object that keeps its configuration and makes no request stand. -/
theorem State.NodesSound.setObject {s : State} (h : s.NodesSound) {n : Fin 32} {o : MsgObject}
    (hconfig : o.config = (s.object n).config)
    (hstanding : o.state = .pending ∨ o.state = .active →
      (s.object n).state = .pending ∨ (s.object n).state = .active) : (s.setObject n o).NodesSound := by
  refine h.objects rfl rfl rfl (fun m => ?_) fun m hm => h.noneToSilent m ?_
  · rw [State.object_setObject]; split
    next e => rw [e, hconfig]
    next => rfl
  · rw [State.object_setObject] at hm; split at hm
    next e => rw [e]; exact hstanding hm
    next => exact hm

/-- Work on the table, with every request that then stands to a node that is not SILENT. -/
theorem State.NodesSound.onTable {s t : State} (h : s.NodesSound) (k : s.WorkOnTable t)
    (hstanding : ∀ n, (t.object n).state = .pending ∨ (t.object n).state = .active →
      s.isSilent (s.object n).config.node = false) : t.NodesSound := by
  have hsame : ∀ i, (t.nodeRecord i).state = (s.nodeRecord i).state ∧
      (t.nodeRecord i).missCount = (s.nodeRecord i).missCount := fun i => by
    obtain ⟨x, y, e⟩ := k.nodes i
    rw [e]; exact ⟨rfl, rfl⟩
  have hconfig := k.tables.config
  refine State.nodesSound_of (by rw [hconfig]; exact h.limitPositive)
    (fun i => by rw [hconfig]; exact (h.within i).congr (hsame i).1 (hsame i).2) (fun n hn => ?_)
    fun fl n kind hf hc => ?_
  · rw [k.isSilent, k.configs]; exact hstanding n hn
  · rw [k.tables.engine] at hf
    rw [k.configs]; exact h.flightNode fl n kind hf hc

theorem State.NodesSound.works {s t : State} (h : s.NodesSound) (k : s.Works t) : t.NodesSound :=
  h.onTable k.table fun n hn => by
    rcases (k.objects n).standing hn with ⟨e, -⟩ | ⟨-, -, e⟩
    · exact h.noneToSilent n (e ▸ hn)
    · exact e

/-- A window end does not change the node a frame is for (R20). -/
theorem State.NodesSound.signalled {s t : State} (h : s.NodesSound) (hconfig : t.config = s.config)
    (hnodes : t.nodes = s.nodes) (hflight : t.engine.flight = s.signalWindowEnd.engine.flight)
    (hobjects : t.objects = s.objects) : t.NodesSound := by
  have hidle := h.congr (t := { t with engine := s.engine }) hconfig hnodes rfl hobjects
  refine ⟨hidle.1, hidle.2, hidle.3, hidle.4, fun fl n kind hf hc => ?_⟩
  rw [State.object_congr hobjects]
  rw [hflight] at hf
  rcases s.signalWindowEnd_flight with e | ⟨fl', n', kind', hf', -, e⟩ <;> rw [e] at hf
  · exact h.flightNode fl n kind hf hc
  · injection hf with hf
    rw [← hf] at hc ⊢
    exact h.flightNode fl' n kind hf' hc

theorem State.NodesSound.look {s : State} (h : s.NodesSound) : s.look.NodesSound := by
  rcases s.look_cases with e | ⟨-, -, -, e⟩ | ⟨n, -, -, -, hwin, e⟩ <;> rw [e]
  · exact h
  · refine ⟨h.1, h.2, h.3, h.4, fun fl n kind hf hc => ?_⟩
    injection hf with hf
    rw [← hf] at hc; cases hc
  · obtain ⟨-, -, hpend, -⟩ := State.winner_fits hwin
    have hconfigs : ∀ m, ((s.startExchange n).object m).config = (s.object m).config := fun m => by
      rw [State.startExchange_object]; split
      next e => rw [e]
      next => rfl
    have hnodes : (s.startExchange n).nodes = s.nodes := by rw [State.startExchange_eq]
    have hconfig : (s.startExchange n).config = s.config := by rw [State.startExchange_eq]
    have hrec := State.nodeRecord_congr hnodes
    refine State.nodesSound_of (by rw [hconfig]; exact h.limitPositive)
      (fun i => by rw [hrec, hconfig]; exact h.within i) (fun m hm => ?_) fun fl m kind hf hc => ?_
    · rw [hconfigs, State.isSilent_congr (s := s) _ fun i => by rw [hrec]]
      rw [State.startExchange_object] at hm
      refine h.noneToSilent m ?_
      split at hm
      next e => rw [e]; exact .inl hpend
      next => exact hm
    · rw [State.startExchange_flight] at hf
      injection hf with hf
      rw [hconfigs, ← hf]
      rw [← hf] at hc
      injection hc with hc
      rw [← hc]; rfl

/-! ### The report of an attempt -/

/-- A report to a node that is not SILENT keeps every record within the limit (R144 to R147). -/
theorem State.within_nodeReport {s : State} (hl : s.config.missLimit ≠ 0)
    (h : ∀ i, (s.nodeRecord i).Within s.config.missLimit) {a : BitVec 5} (ha : s.isSilent a = false)
    (kind : ExchangeKind) (r : AttemptResult) (i : Fin 30) :
    ((s.nodeReport kind a r).nodeRecord i).Within s.config.missLimit := by
  by_cases hi : i.val + 1 = a.toNat
  · have hheard : (s.nodeRecord i).state ≠ .silent := fun e => by
      rw [(s.isSilent_iff a).mpr ⟨i, hi, e⟩] at ha; cases ha
    have hanswered : r = .ack ∨ r = .nakReject ∨ r = .nakBusy ∨ r = .data →
        ((s.nodeReport kind a r).nodeRecord i).Within s.config.missLimit := fun hr => by
      rw [(State.nodeReport_answered hi hr).1]; exact NodeRecord.within_of_zero hl rfl
    cases r with
    | ack | nakReject | nakBusy | data => exact hanswered (by simp)
    | noReply =>
      have hmissed := (s.nodeReport_missed kind hi).1
      exact (h i).missed hheard (by rw [hmissed]) (by rw [hmissed])
    | badReply | collision => exact h i
  · rw [s.nodeReport_other kind r hi]; exact h i

/-- Only a miss that reaches the limit makes a node SILENT, and only the node it is for (R147). -/
theorem State.isSilent_of_nodeReport {s : State} {kind : ExchangeKind} {a b : BitVec 5} {r : AttemptResult}
    (h : (s.nodeReport kind a r).isSilent b = true) :
    s.isSilent b = true ∨ b = a ∧ r = .noReply ∧ s.missesLimit a = true := by
  obtain ⟨i, hi, hs⟩ := (State.isSilent_iff _ _).mp h
  by_cases ha : i.val + 1 = a.toNat
  · have hba : b = a := BitVec.eq_of_toNat_eq (hi.symm.trans ha)
    have hanswered : ¬(r = .ack ∨ r = .nakReject ∨ r = .nakBusy ∨ r = .data) := fun hr => by
      rw [(State.nodeReport_answered ha hr).1] at hs; cases hs
    cases r with
    | ack | nakReject | nakBusy | data => simp at hanswered
    | noReply =>
      rw [(s.nodeReport_missed kind ha).1] at hs
      simp only at hs
      split at hs
      next hl => exact .inr ⟨hba, rfl, by rw [State.missesLimit_of_index ha, hl, beq_self_eq_true]⟩
      next => exact .inl ((State.isSilent_iff _ _).mpr ⟨i, hi, hs⟩)
    | badReply | collision => exact .inl h
  · rw [s.nodeReport_other kind r ha] at hs
    exact .inl ((State.isSilent_iff _ _).mpr ⟨i, hi, hs⟩)

/-- A miss that reaches the limit makes its node SILENT (R147). -/
theorem State.isSilent_nodeReport {s : State} (kind : ExchangeKind) {a : BitVec 5} (h : s.missesLimit a = true) :
    (s.nodeReport kind a .noReply).isSilent a = true := by
  obtain ⟨i, hi, hl⟩ := State.missesLimit_index h
  refine (State.isSilent_iff _ _).mpr ⟨i, hi, ?_⟩
  rw [(s.nodeReport_missed kind hi).1]
  simp only [hl, if_true]

/-- After the report of object n's exchange no request to a SILENT node stands (R94, R106, R147). -/
theorem State.report_noneToSilent {s : State} {n : Fin 32} {kind : ExchangeKind} {a : BitVec 5} (r : AttemptResult)
    (hnone : ∀ m, (s.object m).state = .pending ∨ (s.object m).state = .active →
      s.isSilent (s.object m).config.node = false)
    (hn : (s.object n).state = .active) (hnode : a = (s.object n).config.node)
    (hothers : ∀ m, m ≠ n → (s.object m).state ≠ .active) (m : Fin 32)
    (hm : ((s.report n kind a r).object m).state = .pending ∨ ((s.report n kind a r).object m).state = .active) :
    (s.report n kind a r).isSilent ((s.report n kind a r).object m).config.node = false := by
  have htable := s.workOnTable_report n kind a r
  rw [htable.isSilent, htable.configs, State.nodeReport_object]
  unfold State.report at hm
  generalize hu : s.nodeReport kind a r = u at hm
  have hobj : ∀ k, u.object k = s.object k := fun k => by rw [← hu, State.nodeReport_object]
  have hkept : ∀ {b}, s.isSilent b = false → u.isSilent b = true → b = a ∧ r = .noReply ∧ s.missesLimit a = true := by
    intro b hb hub
    rw [← hu] at hub
    rcases State.isSilent_of_nodeReport hub with e | e
    · rw [hb] at e; cases e
    · exact e
  have hnotActive : ((u.applyResult n a r (r == .noReply && s.missesLimit a)).object m).state ≠ .active := by
    by_cases e : m = n
    · rw [e]; exact (u.applyResult_object n a r _).not_active
    · rw [Ne, (u.applyResult_others e a r _).active, hobj]; exact hothers m e
  have hpend := hm.resolve_right hnotActive
  refine Bool.eq_false_iff.mpr fun hsilent => ?_
  by_cases hlimit : r = .noReply ∧ s.missesLimit a = true
  · have hsil : (r == .noReply && s.missesLimit a) = true := by simp [hlimit.1, hlimit.2]
    have hua : u.isSilent a = true := by rw [← hu, hlimit.1]; exact State.isSilent_nodeReport kind hlimit.2
    have heq : u.applyResult n a r true = (u.modifyObject n fun o => { o with
        attempts := o.attempts + 1, delivered := o.delivered || r != .collision }).finishAllTo n a := by
      unfold State.applyResult; rfl
    have hwork := u.workOnTable_applyResult n a r true
    rw [hsil] at hpend
    by_cases hma : (s.object m).config.node = a
    · rw [heq, State.finishAllTo_eq] at hpend
      refine State.finishTo_none ?_ ?_ hpend
      · rw [(State.workOn_finish _ n .nodeSilent).isSilent]; exact hua
      · have := hwork.configs m
        rw [heq, State.finishAllTo_eq] at this
        rw [this, hobj, hma]
    · have hmn : m ≠ n := fun e => hma (by rw [e, hnode])
      have hworked := u.applyResult_others hmn a r true
      rw [hobj] at hworked
      rcases hworked.standing (.inl hpend) with ⟨e, -⟩ | ⟨-, -, e⟩
      · exact hma (hkept (hnone m (.inl (e.symm.trans hpend))) hsilent).1
      · rw [hsilent] at e; cases e
  · have hsame : ∀ {b}, s.isSilent b = false → u.isSilent b = false := fun hb =>
      Bool.eq_false_iff.mpr fun e => hlimit (hkept hb e).2
    by_cases e : m = n
    · rw [e] at hsilent
      rw [hsame (hnone n (.inr hn))] at hsilent; cases hsilent
    · have hworked := u.applyResult_others e a r (r == .noReply && s.missesLimit a)
      rw [hobj] at hworked
      rcases hworked.standing (.inl hpend) with ⟨k, -⟩ | ⟨-, -, k⟩
      · rw [hsame (hnone m (.inl (k.symm.trans hpend)))] at hsilent; cases hsilent
      · rw [hsilent] at k; cases k

theorem State.NodesSound.reported {s : State} (h : s.NodesSound) (hactive : s.ActiveInFlight) {fl : Flight}
    (hf : s.engine.flight = some fl) (r : AttemptResult) : (s.reported fl r).NodesSound := by
  have hidle := s.reported_flight fl r
  have hnoFlight : ∀ fl' n kind, (s.reported fl r).engine.flight = some fl' → fl'.carried = .exchange n kind →
      fl'.node = ((s.reported fl r).object n).config.node := by
    intro fl' n kind e; rw [hidle] at e; cases e
  cases hc : fl.carried with
  | sync =>
    rw [State.reported_of_sync hc] at *
    exact State.nodesSound_of h.limitPositive h.within h.noneToSilent hnoFlight
  | exchange n kind =>
    rw [State.reported_of_exchange hc] at *
    have hn : (s.object n).state = .active := (hactive n).mpr ⟨fl, kind, hf, hc⟩
    have hnode := h.flightNode fl n kind hf hc
    have hothers : ∀ m, m ≠ n → (s.object m).state ≠ .active := fun m hm e => by
      obtain ⟨kind', e⟩ := (State.carries_iff hf m).mp ((hactive m).mp e)
      rw [hc] at e; injection e with e; exact hm e.symm
    have htable := State.workOnTable_report s.enterIdle n kind fl.node r
    have hconfig : (s.enterIdle.report n kind fl.node r).config = s.config := by
      rw [htable.tables.config, State.nodeReport_config]; rfl
    refine State.nodesSound_of (by rw [hconfig]; exact h.limitPositive) (fun i => ?_)
      (State.report_noneToSilent (s := s.enterIdle) r h.noneToSilent hn hnode hothers) hnoFlight
    obtain ⟨x, y, e⟩ := htable.nodes i
    rw [hconfig]
    have hwithin := State.within_nodeReport (s := s.enterIdle) h.limitPositive h.within
      (hnode ▸ h.noneToSilent n (.inr hn)) kind r i
    exact hwithin.congr (by rw [e]) (by rw [e])

/-! ### Every effect -/

theorem State.nodesSound_reset : State.reset.NodesSound :=
  ⟨by decide, by decide, by decide, by decide, fun _ _ _ e => by
    have hidle : State.reset.engine.flight = none := rfl
    rw [hidle] at e; cases e⟩

/-- The Line Configuration's limit is never 0 (R84). -/
theorem LineConfig.write_missLimit {c : LineConfig} (h : c.missLimit ≠ 0) (reg : LineReg) (data : Halfword) :
    (c.write reg data).missLimit ≠ 0 := by
  cases reg with
  | rateAndMiss =>
    unfold LineConfig.write
    simp only
    split
    next => decide
    next hm => exact hm
  | timeoutAndLate => exact h

theorem State.NodesSound.writeLineConfig {s : State} (h : s.NodesSound) (hs : s.sched = .off) (reg : LineReg)
    (data : Halfword) : (s.writeLineConfig reg data).NodesSound := by
  have hl := LineConfig.write_missLimit h.limitPositive reg data
  unfold State.writeLineConfig
  rw [if_pos hs]
  simp only
  generalize s.config.write reg data = c at hl
  split
  next hsame =>
    exact State.nodesSound_of hl (fun i => by rw [hsame]; exact h.within i) h.noneToSilent h.flightNode
  next =>
    have hrec : ∀ i, ({ s with config := c, nodes := s.nodes.map (NodeRecord.withinLimit c.missLimit) } :
        State).nodeRecord i = (s.nodeRecord i).withinLimit c.missLimit := fun i => by simp [State.nodeRecord]
    refine State.nodesSound_of hl (fun i => ?_) (fun n hn => ?_) h.flightNode
    · rw [hrec]; exact NodeRecord.within_withinLimit hl _
    · rw [State.isSilent_congr (s := s) _ fun i => by rw [hrec, NodeRecord.withinLimit_state]]
      exact h.noneToSilent n hn

/-- NODE_REVIVE takes a SILENT node back, which no standing request can be to (R150). -/
theorem State.NodesSound.revive {s : State} (h : s.NodesSound) (i : Fin 30) :
    (s.setNode i { s.nodeRecord i with state := .unknown, missCount := 0, toggle := none }).NodesSound := by
  refine State.nodesSound_of h.limitPositive (fun j => ?_) (fun n hn => ?_) h.flightNode
  · rw [State.nodeRecord_setNode]
    split
    next => exact NodeRecord.within_of_zero h.limitPositive rfl
    next => exact h.within j
  · refine Bool.eq_false_iff.mpr fun e => ?_
    obtain ⟨j, hj, hs⟩ := (State.isSilent_iff _ _).mp e
    rw [State.nodeRecord_setNode] at hs
    split at hs
    next => cases hs
    next =>
      have hsilent := (s.isSilent_iff _).mpr ⟨j, hj, hs⟩
      exact Bool.false_ne_true ((h.noneToSilent n hn).symm.trans hsilent)

/-- A new configuration of a DISABLED object bears on no standing request and on no exchange in flight (R86). -/
theorem State.NodesSound.configured {s : State} (h : s.NodesSound) (hactive : s.ActiveInFlight) {n : Fin 32}
    (hs : (s.object n).state = .disabled) (config : ObjConfig) :
    (s.setObject n { s.object n with config := config }).NodesSound := by
  have hother : ∀ m, m ≠ n → (s.setObject n { s.object n with config := config }).object m = s.object m := fun m hm => by
    rw [State.object_setObject, if_neg hm]
  refine State.nodesSound_of h.limitPositive h.within (fun m hm => ?_) fun fl m kind hf hc => ?_
  · by_cases e : m = n
    · rw [e, State.object_setObject_self] at hm
      simp only [hs, reduceCtorEq, or_self] at hm
    · rw [hother m e] at hm ⊢; exact h.noneToSilent m hm
  · have hm : m ≠ n := fun e => by
      have := (hactive m).mpr ⟨fl, kind, hf, hc⟩
      rw [e, hs] at this; cases this
    rw [hother m hm]; exact h.flightNode fl m kind hf hc

/-- Every effect keeps the nodes sound where ACTIVE and the exchange in flight go together. -/
theorem State.NodesSound.effect {s t : State} {c : Instr} (he : s.Effect c t) (hactive : s.ActiveInFlight)
    (h : s.NodesSound) : t.NodesSound := by
  cases he with
  | quiet same => exact h.congr same.config same.nodes same.flight same.objects
  | pinReset => exact State.nodesSound_reset.congr rfl rfl rfl rfl
  | lineReset =>
    have hconfig := s.lineReset_config
    refine State.nodesSound_of (by rw [hconfig]; exact h.limitPositive)
      (fun i => by rw [s.lineReset_nodeRecord, hconfig]; exact NodeRecord.within_of_zero h.limitPositive rfl)
      (fun n hn => ?_) fun fl n kind e => by
        have hidle : s.lineReset.engine.flight = none := rfl
        rw [hidle] at e; cases e
    rw [s.lineReset_object] at hn
    rcases (s.object n).lineReset_state with e | ⟨e, -⟩ <;> simp [e] at hn
  | switchFailed | switchArmed | resumed | popped => exact h.congr rfl rfl rfl rfl
  | @switchMade _ b =>
    refine State.NodesSound.works ?_ (State.works_instantWork _ b)
    refine State.NodesSound.signalled ?_ (State.instantBase_config _ b) (State.instantBase_nodes _ b)
      (State.instantBase_flight _ b) (State.instantBase_objects _ b)
    exact h.congr rfl rfl rfl rfl
  | @instant b =>
    exact (h.signalled (s.instantBase_config b) (s.instantBase_nodes b) (s.instantBase_flight b)
      (s.instantBase_objects b)).works (s.works_instantWork b)
  | cancelled => exact h.congr (by simp) (by simp) (by simp) (by simp)
  | stopArmed | stopBusy | stopIdle =>
    exact h.congr (s.endPending_config _) (s.endPending_nodes _) (congrArg LineEngine.flight (s.endPending_engine _))
      (s.endPending_objects _)
  | enabled | disabled => exact h.setObject rfl (by simp)
  | @retired _ n hs =>
    rw [State.retire_eq]
    refine h.onTable (s.workOn_afterFinish n .withdrawn .disabled).onTable fun m hm => h.noneToSilent m ?_
    rw [State.afterFinish_object] at hm
    split at hm
    next => rcases hm with hm | hm <;> cases hm
    next => exact hm
  | requested n => exact h.works (s.works_request n)
  | withdrawn hs => exact h.works (State.works_finish hs _)
  | reRequestDropped | released | payloadWritten => exact h.setObject rfl id
  | @inserted n =>
    refine h.objects ?_ ?_ ?_ (fun m => ?_) fun m hm => h.noneToSilent m ?_
    · unfold State.enterSlot; cases s.slot <;> rfl
    · unfold State.enterSlot; cases s.slot <;> rfl
    · unfold State.enterSlot; cases s.slot <;> rfl
    all_goals obtain ⟨b, hb⟩ := s.enterSlot_object n m
    · rw [hb]
    · rwa [hb] at hm
  | revived => exact h.revive _
  | lineConfigured hs => exact h.writeLineConfig hs _ _
  | bankWritten => exact h.congr (by simp) (by simp) (by simp) (by simp)
  | objectConfigured hs config => exact h.configured hactive hs config
  | @cycleStarted b =>
    exact (h.signalled (s.gridBase_config b) (s.gridBase_nodes b) (s.gridBase_flight b)
      (s.gridBase_objects b)).works (s.works_gridWork b)
  | boundary => rw [State.boundary_eq]; exact h.signalled rfl rfl rfl rfl
  | @onLine _ fl fl' _ _ hf taken =>
    refine ⟨h.1, h.2, h.3, h.4, fun fl'' n kind e hc => ?_⟩
    injection e with e
    rw [← e] at hc ⊢
    rw [taken.node]
    exact h.flightNode fl n kind hf (taken.carried ▸ hc)
  | gapEnded hf =>
    exact (h.reported hactive hf _).congr (State.closing_config _ _) (State.closing_nodes _ _)
      (congrArg LineEngine.flight (State.closing_engine _ _)) (State.closing_objects _ _)

/-- Settles O55: with ACTIVE in flight, itself kept (O51), by every effect of a command, by the look that may follow, and by its
answer. -/
theorem nodesSoundKept : Obligations.NodesSoundKept := by
  unfold Obligations.NodesSoundKept
  intro s t hactive hsound hstep
  exact (step_keeps (P := fun u => u.ActiveInFlight ∧ u.NodesSound) (fun _ h => ⟨h.1, h.2.congr rfl rfl rfl rfl⟩)
    (fun _ _ h => ⟨h.1, h.2.congr rfl rfl rfl rfl⟩) (fun h => ⟨h.1.look, h.2.look⟩)
    (fun he h => ⟨.effect he h.1, .effect he h.1 h.2⟩) ⟨hactive, hsound⟩ hstep).2

/-- Settles O56: the six kept conditions of the pin reset state, five of them lemmas of their own parts. -/
theorem conditionsHoldAtReset : Obligations.ConditionsHoldAtReset :=
  ⟨State.slotAgrees_reset, State.activeInFlight_of_idle rfl (by decide), State.schedulerAgrees_off rfl rfl rfl rfl rfl rfl rfl,
    State.banksJudged_off rfl rfl, State.requestsSound_reset, State.nodesSound_reset⟩

end Sys2Proof.Machine
end

