-- ==== Sys2Proof/Proofs/FlightsAndOwners.lean ====
section
/-! What a step leaves of a frame in flight and of the state that commands own: where a frame begins (R74, R118), what stays fixed
while it is in flight (R129), and which command alone changes which part of the state (R23, R40, R85 to R87, R104, R158). -/

namespace Sys2Proof.Machine

/-- A step with a command waiting does what that command does. -/
theorem step_does {s t : State} {c : Instr} {rest : List Instr} (hpend : s.pending = c :: rest) (h : step s = .next t) :
    ({ s with pending := rest } : State).Does c t := by
  rcases step_cases h with ⟨e, -⟩ | ⟨c', rest', e, hdoes⟩ <;> rw [hpend] at e
  · cases e
  · injection e with hc hrest
    rw [hc, hrest]; exact hdoes

/-! ### The frame in flight -/

theorem Flight.SameTaken.refl (fl : Flight) : fl.SameTaken fl := fl.sameTaken fl.sent fl.overran fl.phase fl.mark

theorem State.ldeAsserted_iff (s : State) :
    s.ldeAsserted = true ↔ ∃ fl, s.engine.flight = some fl ∧ fl.phase = .sending := by
  unfold State.ldeAsserted
  cases s.engine.flight <;> simp

/-- What an effect can do to the attempt in flight: nothing, the count of an overrun, its end, or its next step. -/
theorem State.Effect.flight_cases {s u : State} {c : Instr} (he : s.Effect c u) :
    u.engine.flight = s.engine.flight ∨ u.engine.flight = s.signalWindowEnd.engine.flight ∨
      (u.engine.flight = none ∧ (c = .gapEnd ∨ u.sched = .off)) ∨
      ∃ fl fl', s.engine.flight = some fl ∧ u.engine.flight = some fl' ∧ fl.SameTaken fl' ∧
        (fl'.phase = .sending → fl.phase = .sending) := by
  cases he with
  | quiet same => exact .inl same.flight
  | pinReset | lineReset => exact .inr (.inr (.inl ⟨rfl, .inr rfl⟩))
  | switchFailed | switchArmed | resumed | popped | revived | enabled | disabled | reRequestDropped | released
  | objectConfigured | payloadWritten => exact .inl rfl
  | @switchMade _ b k instant =>
    refine .inr (.inl ?_)
    rw [(State.works_instantWork _ b).table.tables.engine, State.instantBase_flight]
    exact congrArg LineEngine.flight (State.signalWindowEnd_engine_congr rfl rfl rfl)
  | @instant b =>
    refine .inr (.inl ?_)
    rw [(s.works_instantWork b).table.tables.engine, State.instantBase_flight]
  | cancelled => exact .inl (by simp)
  | stopArmed | stopBusy | stopIdle => exact .inl (congrArg LineEngine.flight (s.endPending_engine _))
  | @retired _ n =>
    rw [State.retire_eq]
    exact .inl (by rw [(s.workOn_afterFinish n .withdrawn .disabled).tables.engine])
  | requested n => exact .inl (by rw [(s.works_request n).table.tables.engine])
  | withdrawn hs => exact .inl (by rw [(State.works_finish hs _).table.tables.engine])
  | inserted => exact .inl (by unfold State.enterSlot; cases s.slot <;> rfl)
  | lineConfigured hs => exact .inl (by unfold State.writeLineConfig; rw [if_pos hs])
  | bankWritten => exact .inl (by rw [State.setBank_engine])
  | @cycleStarted b =>
    refine .inr (.inl ?_)
    rw [(s.works_gridWork b).table.tables.engine, State.gridBase_flight]
  | boundary => exact .inr (.inl (by rw [State.boundary_eq]))
  | @onLine _ fl fl' _ _ hf taken sending => exact .inr (.inr (.inr ⟨fl, fl', hf, rfl, taken, sending⟩))
  | gapEnded => exact .inr (.inr (.inl ⟨by rw [State.closing_engine, State.reported_flight], .inl rfl⟩))

/-- A frame in flight after an effect was in flight before it, with what was fixed at its taking; none begins to send. -/
theorem State.Effect.goesOn {s u : State} {c : Instr} (he : s.Effect c u) {fl' : Flight}
    (hu : u.engine.flight = some fl') :
    ∃ fl, s.engine.flight = some fl ∧ fl.SameTaken fl' ∧ (fl'.phase = .sending → fl.phase = .sending) := by
  rcases he.flight_cases with e | e | ⟨e, -⟩ | ⟨fl, fl'', hf, e, taken, sending⟩ <;> rw [e] at hu
  · exact ⟨fl', hu, .refl _, id⟩
  · rcases s.signalWindowEnd_flight with k | ⟨fl, n, kind, hf, -, k⟩ <;> rw [k] at hu
    · exact ⟨fl', hu, .refl _, id⟩
    · injection hu with hu
      rw [← hu]
      exact ⟨fl, hf, fl.sameTaken _ true _ _, id⟩
  · cases hu
  · injection hu with hu
    rw [← hu]
    exact ⟨fl, hf, taken, sending⟩

/-- Only GAP_END leaves the line idle after a frame in RUNNING (R74, R129). -/
theorem State.Effect.idle {s u : State} {c : Instr} (he : s.Effect c u) (hc : c ≠ .gapEnd) {fl : Flight}
    (hf : s.engine.flight = some fl) (hu : u.engine.flight = none) : u.sched ≠ .running := by
  rcases he.flight_cases with e | e | ⟨-, e | e⟩ | ⟨-, fl', -, e, -⟩
  · rw [hu, hf] at e; cases e
  · rcases s.signalWindowEnd_flight with k | ⟨fl', n, kind, -, -, k⟩
    · rw [hu, k, hf] at e; cases e
    · rw [hu, k] at e; cases e
  · exact absurd e hc
  · simp [e]
  · rw [hu] at e; cases e

theorem State.Effect.not_ldeAsserted {s u : State} {c : Instr} (he : s.Effect c u) (h : s.ldeAsserted = false) :
    u.ldeAsserted = false := by
  refine Bool.eq_false_iff.mpr fun hu => ?_
  obtain ⟨fl', hf', hp⟩ := u.ldeAsserted_iff.mp hu
  obtain ⟨fl, hf, -, sending⟩ := he.goesOn hf'
  rw [s.ldeAsserted_iff.mpr ⟨fl, hf, sending hp⟩] at h
  cases h

/-! ### Where a frame begins -/

/-- An object in the slot after an effect was in it before, or is the one inserted (R122). -/
theorem State.Effect.slot {s u : State} {c : Instr} (he : s.Effect c u) {n : Fin 32} (hu : u.slot = some n) :
    s.slot = some n ∨ c = .objInsert (BitVec.ofNat 8 n.val) := by
  have ofWork : ∀ {v : State}, v.slot = s.slot → v.WorkOnTable u → s.slot = some n := fun hv k => by
    rcases k.slot with e | e <;> rw [hu] at e
    · rw [← hv, ← e]
    · cases e
  cases he with
  | quiet same => exact .inl (same.slot ▸ hu)
  | pinReset | lineReset => cases hu
  | switchFailed | switchArmed | resumed | popped | revived | enabled | disabled | reRequestDropped | released
  | objectConfigured | payloadWritten | onLine => exact .inl hu
  | @switchMade _ b k instant =>
    have hslot := State.instantBase_slot (s.armSwitch b instant (lateField k)) b
    exact .inl (ofWork hslot (State.works_instantWork _ b).table)
  | @instant b => exact .inl (ofWork (s.instantBase_slot b) (s.works_instantWork b).table)
  | cancelled => exact .inl (by simpa using hu)
  | stopArmed | stopBusy | stopIdle => exact .inl ((s.endPending_slot _).symm.trans hu)
  | @retired _ m =>
    rw [State.retire_eq] at ofWork
    exact .inl (ofWork rfl (s.workOn_afterFinish m .withdrawn .disabled).onTable)
  | requested m => exact .inl (ofWork rfl (s.works_request m).table)
  | withdrawn hs => exact .inl (ofWork rfl (State.works_finish hs _).table)
  | @inserted m =>
    have hm : (s.enterSlot m).slot = some m := by unfold State.enterSlot; cases s.slot <;> rfl
    rw [hm] at hu
    injection hu with hu
    exact .inr (by rw [hu])
  | lineConfigured hs => exact .inl (by unfold State.writeLineConfig at hu; rwa [if_pos hs] at hu)
  | bankWritten => exact .inl (by simpa using hu)
  | @cycleStarted b => exact .inl (ofWork (s.gridBase_slot b) (s.works_gridWork b).table)
  | boundary => rw [State.boundary_eq] at hu; exact .inl hu
  | @gapEnded fl r =>
    rw [State.closing_slot] at hu
    obtain ⟨v, hwork, hv⟩ := s.reported_table fl r
    rcases hwork.slot with e | e <;> rw [hu] at e
    · rw [hv] at e; exact .inl e.symm
    · cases e

/-- A frame that a state without one asserts: it was begun in RUNNING, and an exchange fits in its window (R74, R118). -/
def State.Begun (s t : State) (c : Instr) : Prop :=
  (t.ldeAsserted = true → t.sched = .running) ∧
    ∀ fl n kind, t.engine.flight = some fl → fl.phase = .sending → fl.carried = .exchange n kind →
      t.cycle.syncOwed = false ∧ (t.object n).state = .active ∧ (t.object n).held = false ∧
      fl.frameBound = t.lineTime + BitVec.ofNat 48 (t.worst n) ∧
      ∃ b w, t.activeBank = some b ∧ t.cycle.window = some w ∧
        t.worst n ≤ (t.cycle.windowEnd - t.lineTime).toNat ∧
        t.worst n ≤ (t.cycle.cycleEnd - t.lineTime).toNat ∧
        (t.sw.pending = true → t.worst n ≤ (t.sw.instant - t.lineTime).toNat) ∧
        ((t.bank b).entries[w.val]).classes ≠ 0 ∧
        (((t.bank b).entries[w.val]).classes.getLsbD (t.object n).config.cls.toNat = true ∧
            t.isSilent (t.object n).config.node = false ∨
          s.slot = some n ∨ c = .objInsert (BitVec.ofNat 8 n.val))

theorem State.begun_of_not_asserted {s t : State} (c : Instr) (h : t.ldeAsserted = false) : s.Begun t c := by
  refine ⟨fun e => absurd e (Bool.eq_false_iff.mp h), fun fl n kind hf hp => ?_⟩
  have hasserted := t.ldeAsserted_iff.mpr ⟨fl, hf, hp⟩
  rw [h] at hasserted; cases hasserted

/-- A look that takes the winner's exchange finds room for its W in the window in force (R117, R118). -/
theorem State.begun_startExchange {s u : State} {c : Instr} {n : Fin 32}
    (hslot : ∀ m, u.slot = some m → s.slot = some m ∨ c = .objInsert (BitVec.ofNat 8 m.val))
    (hsched : u.sched = .running) (howed : u.cycle.syncOwed = false) (hwin : u.winner = some n) :
    s.Begun (u.startExchange n) c := by
  have hworst : (u.startExchange n).worst n = u.worst n := by
    unfold State.worst; rw [State.startExchange_object, if_pos rfl, State.startExchange_eq]
  have hsilent : ∀ a, (u.startExchange n).isSilent a = u.isSilent a := fun a => by
    refine State.isSilent_congr a fun i => ?_
    rw [State.startExchange_eq]; rfl
  refine ⟨fun _ => by rw [State.startExchange_eq]; exact hsched, fun fl m kind hf _ hc => ?_⟩
  rw [State.startExchange_flight] at hf
  injection hf with hf
  rw [← hf] at hc
  injection hc with hm
  subst hm
  obtain ⟨e, he, -, hheld, hfits, hreason⟩ := State.winner_fits hwin
  obtain ⟨b, w, hb, hw, rfl⟩ : ∃ b w, u.activeBank = some b ∧ u.cycle.window = some w ∧
      (u.bank b).entries[w.val] = e := by
    unfold State.openEntry at he
    split at he
    next b w hb hw => injection he with he; exact ⟨b, w, hb, hw, he⟩
    next => cases he
  obtain ⟨hwindow, hcycle, hinstant⟩ := (u.le_remaining_iff _).mp hfits
  have hbank : ∀ b, (u.startExchange n).bank b = u.bank b := fun b => by
    rw [State.startExchange_eq]; cases b <;> rfl
  simp only [hworst, hsilent, State.startExchange_object, if_pos, hbank]
  simp only [State.startExchange_eq]
  refine ⟨howed, trivial, hheld, by rw [← hf]; rfl, b, w, hb, hw, hwindow, hcycle, hinstant, ?_, ?_⟩
  · rcases hreason with ⟨-, hopen⟩ | ⟨-, hcls⟩
    · exact hopen
    · intro hzero; rw [hzero] at hcls; simp at hcls
  · rcases hreason with ⟨hs, -⟩ | ⟨hheard, hcls⟩
    · exact .inr (hslot n hs)
    · exact .inl ⟨hcls, hheard⟩

theorem State.begun_look {s u : State} {c : Instr}
    (hslot : ∀ n, u.slot = some n → s.slot = some n ∨ c = .objInsert (BitVec.ofNat 8 n.val))
    (hu : u.ldeAsserted = false) : s.Begun u.look c := by
  rcases u.look_cases with e | ⟨hsched, -, -, e⟩ | ⟨n, hsched, -, howed, hwin, e⟩ <;> rw [e]
  · exact State.begun_of_not_asserted c hu
  · refine ⟨fun _ => hsched, fun fl n kind hf _ hc => ?_⟩
    injection hf with hf
    rw [← hf] at hc; cases hc
  · exact State.begun_startExchange hslot hsched howed hwin

/-- Settles O57: no effect begins a frame; a look does, and the answer changes nothing that a frame is judged by. -/
theorem framesStartOnlyWhereTheyFit : Obligations.FramesStartOnlyWhereTheyFit := by
  unfold Obligations.FramesStartOnlyWhereTheyFit
  intro s t hidle hstep
  rcases step_cases hstep with ⟨-, rfl⟩ | ⟨c, rest, hpend, u, heffect, hreaches⟩
  · have hnone := Bool.eq_false_iff.mp hidle
    exact ⟨fun e => absurd e hnone, fun fl n kind hf hp => absurd (t.ldeAsserted_iff.mpr ⟨fl, hf, hp⟩) hnone⟩
  · have hbegun : s.Begun t c := by
      clear hstep
      induction hreaches with
      | plain => exact State.begun_of_not_asserted c (heffect.not_ldeAsserted hidle)
      | looked => exact State.begun_look (fun n => heffect.slot) (heffect.not_ldeAsserted hidle)
      | answered code r _ ih => exact ih
    rw [hpend, List.head?_cons]
    simp only [Option.some_inj]
    exact hbegun

/-! ### What commands own -/

/-- `t` agrees with `s` in every part of the state that a command owns, and in the commands waiting. -/
structure State.SameOwned (s t : State) : Prop where
  pending : t.pending = s.pending
  lineTime : t.lineTime = s.lineTime
  bank : ∀ b, t.bank b = s.bank b
  config : t.config = s.config
  configs : ∀ n, (t.object n).config = (s.object n).config
  payloads : ∀ n, (t.object n).payload = (s.object n).payload
  replies : ∀ n, (t.object n).reply = (s.object n).reply
  enables : t.enables = s.enables

theorem State.SameOwned.trans {s t u : State} (h : s.SameOwned t) (k : t.SameOwned u) : s.SameOwned u where
  pending := k.pending.trans h.pending
  lineTime := k.lineTime.trans h.lineTime
  bank b := (k.bank b).trans (h.bank b)
  config := k.config.trans h.config
  configs n := (k.configs n).trans (h.configs n)
  payloads n := (k.payloads n).trans (h.payloads n)
  replies n := (k.replies n).trans (h.replies n)
  enables := k.enables.trans h.enables

theorem State.sameOwned_of_objects {s t : State} (pending : t.pending = s.pending) (lineTime : t.lineTime = s.lineTime)
    (bank : ∀ b, t.bank b = s.bank b) (config : t.config = s.config) (objects : t.objects = s.objects)
    (enables : t.enables = s.enables) : s.SameOwned t :=
  ⟨pending, lineTime, bank, config, fun n => by rw [State.object_congr objects], fun n => by rw [State.object_congr objects],
    fun n => by rw [State.object_congr objects], enables⟩

theorem State.Works.sameOwned {s t : State} (h : s.Works t) : s.SameOwned t where
  pending := h.table.tables.pending
  lineTime := h.table.tables.lineTime
  bank := h.table.tables.bank
  config := h.table.tables.config
  configs := h.table.configs
  payloads := h.table.payloads
  replies n := (h.objects n).kept.reply
  enables := h.table.tables.enables

/-- A change of one object's status. -/
theorem State.sameOwned_setObject {s : State} {n : Fin 32} {o : MsgObject} (hconfig : o.config = (s.object n).config)
    (hpayload : o.payload = (s.object n).payload) (hreply : o.reply = (s.object n).reply) :
    s.SameOwned (s.setObject n o) := by
  have hobj : ∀ m, ((s.setObject n o).object m).config = (s.object m).config ∧
      ((s.setObject n o).object m).payload = (s.object m).payload ∧
      ((s.setObject n o).object m).reply = (s.object m).reply := fun m => by
    rw [State.object_setObject]
    split
    next e => rw [e]; exact ⟨hconfig, hpayload, hreply⟩
    next => exact ⟨rfl, rfl, rfl⟩
  exact ⟨rfl, rfl, fun b => by cases b <;> rfl, rfl, fun m => (hobj m).1, fun m => (hobj m).2.1, fun m => (hobj m).2.2, rfl⟩

theorem State.sameOwned_look (s : State) : s.SameOwned s.look := by
  have hobj : ∀ m, (s.look.object m).config = (s.object m).config ∧ (s.look.object m).payload = (s.object m).payload ∧
      (s.look.object m).reply = (s.object m).reply := fun m => by
    rcases s.look_cases with e | ⟨-, -, -, e⟩ | ⟨n, -, -, -, -, e⟩ <;> rw [e]
    · exact ⟨rfl, rfl, rfl⟩
    · exact ⟨rfl, rfl, rfl⟩
    · rw [State.startExchange_object]
      split
      next e => rw [e]; exact ⟨rfl, rfl, rfl⟩
      next => exact ⟨rfl, rfl, rfl⟩
  exact ⟨s.look_pending, s.look_lineTime, s.look_bank, s.look_config, fun m => (hobj m).1, fun m => (hobj m).2.1,
    fun m => (hobj m).2.2, s.look_enables⟩

/-- What a command may change belongs to it: the first half of O58, for one command. -/
structure State.Owns (s t : State) (c : Instr) : Prop where
  pending : t.pending = s.pending
  lineTime : t.lineTime ≠ s.lineTime → c = .pinReset ∨ c = .lineTimeTick ∧ t.lineTime = s.lineTime + 1
  bank : ∀ b, t.bank b ≠ s.bank b → c = .pinReset ∨
    (∃ reg data, c = .bankWrite reg data) ∧ s.port.bankSelect = b ∧ s.activeBank ≠ some b ∧ s.isLocked b = false
  config : t.config ≠ s.config → c = .pinReset ∨ (∃ reg data, c = .lineConfigurationWrite reg data) ∧ s.sched = .off
  configs : ∀ n, (t.object n).config ≠ (s.object n).config → c = .pinReset ∨
    (∃ reg data, c = .objectConfigurationWrite reg data) ∧ s.port.objectSelect = n ∧ (s.object n).state = .disabled
  payloads : ∀ n, (t.object n).payload ≠ (s.object n).payload → c = .pinReset ∨
    (∃ k data, c = .payloadWrite k data) ∧ s.port.objectSelect = n ∧
      ((s.object n).state = .disabled ∨ (s.object n).state = .idle)
  replies : ∀ n, (t.object n).reply ≠ (s.object n).reply → c = .pinReset ∨ c = .gapEnd
  enables : t.enables ≠ s.enables → c = .pinReset ∨ ∃ data, c = .eventEnablesWrite data

theorem State.SameOwned.owns {s t : State} (h : s.SameOwned t) (c : Instr) : s.Owns t c where
  pending := h.pending
  lineTime e := absurd h.lineTime e
  bank b e := absurd (h.bank b) e
  config e := absurd h.config e
  configs n e := absurd (h.configs n) e
  payloads n e := absurd (h.payloads n) e
  replies n e := absurd (h.replies n) e
  enables e := absurd h.enables e

theorem State.Owns.same {s t u : State} {c : Instr} (h : s.Owns t c) (k : t.SameOwned u) : s.Owns u c := by
  obtain ⟨k1, k2, k3, k4, k5, k6, k7, k8⟩ := k
  obtain ⟨h1, h2, h3, h4, h5, h6, h7, h8⟩ := h
  constructor <;> simp only [k1, k2, k3, k4, k5, k6, k7, k8] <;> assumption

/-- A change of anything but the objects, part by part. -/
theorem State.owns_of_objects {s t : State} {c : Instr} (pending : t.pending = s.pending)
    (lineTime : t.lineTime ≠ s.lineTime → c = .lineTimeTick ∧ t.lineTime = s.lineTime + 1)
    (bank : ∀ b, t.bank b ≠ s.bank b → (∃ reg data, c = .bankWrite reg data) ∧ s.port.bankSelect = b ∧
      s.activeBank ≠ some b ∧ s.isLocked b = false)
    (config : t.config ≠ s.config → (∃ reg data, c = .lineConfigurationWrite reg data) ∧ s.sched = .off)
    (objects : t.objects = s.objects) (enables : t.enables ≠ s.enables → ∃ data, c = .eventEnablesWrite data) :
    s.Owns t c := by
  have hobj := fun n => State.object_congr objects n
  exact ⟨pending, fun e => .inr (lineTime e), fun b e => .inr (bank b e), fun e => .inr (config e),
    fun n e => absurd (by rw [hobj]) e, fun n e => absurd (by rw [hobj]) e, fun n e => absurd (by rw [hobj]) e,
    fun e => .inr (enables e)⟩

/-- A change of one object's configuration or payload, which keeps its reply. -/
theorem State.owns_setObject {s : State} {c : Instr} {n : Fin 32} {o : MsgObject}
    (config : o.config ≠ (s.object n).config → (∃ reg data, c = .objectConfigurationWrite reg data) ∧
      s.port.objectSelect = n ∧ (s.object n).state = .disabled)
    (payload : o.payload ≠ (s.object n).payload → (∃ k data, c = .payloadWrite k data) ∧ s.port.objectSelect = n ∧
      ((s.object n).state = .disabled ∨ (s.object n).state = .idle))
    (reply : o.reply = (s.object n).reply) : s.Owns (s.setObject n o) c := by
  have hself : (s.setObject n o).object n = o := State.object_setObject_self _ _ _
  have hother : ∀ m, m ≠ n → (s.setObject n o).object m = s.object m := fun m hm => by
    rw [State.object_setObject, if_neg hm]
  refine ⟨rfl, fun e => absurd rfl e, fun b e => absurd (by cases b <;> rfl) e, fun e => absurd rfl e, fun m e => ?_,
    fun m e => ?_, fun m e => ?_, fun e => absurd rfl e⟩ <;> by_cases hm : m = n
  · rw [hm, hself] at e; rw [hm]; exact .inr (config e)
  · rw [hother m hm] at e; exact absurd rfl e
  · rw [hm, hself] at e; rw [hm]; exact .inr (payload e)
  · rw [hother m hm] at e; exact absurd rfl e
  · rw [hm, hself] at e; exact absurd reply e
  · rw [hother m hm] at e; exact absurd rfl e

theorem State.sameOwned_instantBase (s : State) (b : BankId) : s.SameOwned (s.instantBase b) :=
  State.sameOwned_of_objects (s.instantBase_pending b) (s.instantBase_lineTime b) (s.instantBase_bank b)
    (s.instantBase_config b) (s.instantBase_objects b) (s.instantBase_enables b)

theorem State.sameOwned_gridBase (s : State) (b : BankId) : s.SameOwned (s.gridBase b) :=
  State.sameOwned_of_objects (s.gridBase_pending b) (s.gridBase_lineTime b) (s.gridBase_bank b)
    (s.gridBase_config b) (s.gridBase_objects b) (s.gridBase_enables b)

theorem State.sameOwned_endPending (s : State) (r : SwitchResult) : s.SameOwned (s.endPending r) :=
  State.sameOwned_of_objects (s.endPending_pending r) (s.endPending_lineTime r) (s.endPending_bank r)
    (s.endPending_config r) (s.endPending_objects r) (s.endPending_enables r)

theorem State.sameOwned_lineReset (s : State) : s.SameOwned s.lineReset :=
  ⟨s.lineReset_pending, s.lineReset_lineTime, s.lineReset_bank, s.lineReset_config,
    fun n => by rw [State.lineReset_object, MsgObject.lineReset_config],
    fun n => by rw [State.lineReset_object, MsgObject.lineReset_payload],
    fun n => by rw [State.lineReset_object, MsgObject.lineReset_reply], s.lineReset_enables⟩

/-- A request retired leaves its object's configuration, payload and reply (R92). -/
theorem State.sameOwned_afterFinish (s : State) (n : Fin 32) (outcome : RequestOutcome) (next : ObjState) :
    s.SameOwned (s.afterFinish n outcome next) := by
  have k := (s.workOn_afterFinish n outcome next).onTable
  refine ⟨k.tables.pending, k.tables.lineTime, k.tables.bank, k.tables.config, k.configs, k.payloads, fun m => ?_,
    k.tables.enables⟩
  rw [State.afterFinish_object]
  split
  next e => rw [e]
  next => rfl

/-- An insert changes In Slot flags and the slot alone (R122). -/
theorem State.sameOwned_enterSlot (s : State) (n : Fin 32) : s.SameOwned (s.enterSlot n) := by
  have hobj : ∀ m, ((s.enterSlot n).object m).SameButStatus (s.object m) := fun m => by
    obtain ⟨b, hb⟩ := s.enterSlot_object n m
    rw [hb]; rfl
  refine ⟨?_, ?_, fun b => ?_, ?_, fun m => (hobj m).config.symm, fun m => (hobj m).payload.symm,
    fun m => (hobj m).reply.symm, ?_⟩
  all_goals unfold State.enterSlot; cases s.slot
  case refine_3.none | refine_3.some => cases b <;> rfl
  all_goals rfl

theorem State.Effect.owns {s u : State} {c : Instr} (he : s.Effect c u) : s.Owns u c := by
  have ofSame : s.SameOwned u → s.Owns u c := fun h => h.owns c
  cases he with
  | quiet same time enables =>
    exact State.owns_of_objects same.pending time (fun b e => absurd (same.bank b) e)
      (fun e => absurd same.config e) same.objects enables
  | pinReset =>
    exact ⟨rfl, fun _ => .inl rfl, fun _ _ => .inl rfl, fun _ => .inl rfl, fun _ _ => .inl rfl, fun _ _ => .inl rfl,
      fun _ _ => .inl rfl, fun _ => .inl rfl⟩
  | lineReset => exact ofSame s.sameOwned_lineReset
  | switchFailed | switchArmed | resumed | popped | revived | onLine =>
    exact ofSame (State.sameOwned_of_objects rfl rfl (fun b => by cases b <;> rfl) rfl rfl rfl)
  | @switchMade _ b k instant =>
    have harmed : s.SameOwned (s.armSwitch b instant (lateField k)) :=
      State.sameOwned_of_objects rfl rfl (fun b => by cases b <;> rfl) rfl rfl rfl
    exact ofSame ((harmed.trans (State.sameOwned_instantBase _ b)).trans (State.works_instantWork _ b).sameOwned)
  | @instant b => exact ofSame ((s.sameOwned_instantBase b).trans (s.works_instantWork b).sameOwned)
  | cancelled =>
    have hdisarmed : (s.endPending .cancelled).SameOwned (s.endPending .cancelled).disarm :=
      State.sameOwned_of_objects (by simp) (by simp) (fun b => by unfold State.disarm; split <;> cases b <;> rfl) (by simp)
        (by simp) (by simp)
    exact ofSame ((s.sameOwned_endPending _).trans hdisarmed)
  | stopArmed | stopBusy | stopIdle =>
    exact ofSame ((s.sameOwned_endPending .stopped).trans
      (State.sameOwned_of_objects rfl rfl (fun b => by cases b <;> rfl) rfl rfl rfl))
  | enabled | disabled | reRequestDropped | released => exact ofSame (State.sameOwned_setObject rfl rfl rfl)
  | retired => rw [State.retire_eq]; exact (s.sameOwned_afterFinish _ _ _).owns _
  | requested n => exact ofSame (s.works_request n).sameOwned
  | withdrawn hs => exact ofSame (State.works_finish hs _).sameOwned
  | inserted => exact ofSame (s.sameOwned_enterSlot _)
  | @lineConfigured reg data hs =>
    unfold State.writeLineConfig
    rw [if_pos hs]
    exact State.owns_of_objects rfl (fun e => absurd rfl e) (fun b e => absurd (by cases b <;> rfl) e)
      (fun _ => ⟨⟨reg, data, rfl⟩, hs⟩) rfl (fun e => absurd rfl e)
  | @bankWritten reg data shadow unlocked bk =>
    refine State.owns_of_objects (by simp) (fun e => absurd (by simp) e) (fun b e => ?_) (fun e => absurd (by simp) e)
      (State.setBank_objects _ _ _) (fun e => absurd (by simp) e)
    have hb : b = s.port.bankSelect := Decidable.byContradiction fun hb => e (s.bank_setBank_ne bk hb)
    exact ⟨⟨reg, data, rfl⟩, hb.symm, hb ▸ shadow, hb ▸ unlocked⟩
  | @objectConfigured reg data hs config =>
    exact State.owns_setObject (fun _ => ⟨⟨reg, data, rfl⟩, rfl, hs⟩) (fun e => absurd rfl e) rfl
  | @payloadWritten k data hs payload =>
    exact State.owns_setObject (fun e => absurd rfl e) (fun _ => ⟨⟨k, data, rfl⟩, rfl, hs⟩) rfl
  | @cycleStarted b => exact ofSame ((s.sameOwned_gridBase b).trans (s.works_gridWork b).sameOwned)
  | boundary =>
    rw [State.boundary_eq] at ofSame ⊢
    exact ofSame (State.sameOwned_of_objects rfl rfl (fun b => by cases b <;> rfl) rfl rfl rfl)
  | @gapEnded fl r =>
    obtain ⟨v, hwork, hv⟩ := s.reported_table fl r
    have hobj := fun n => State.object_congr (State.closing_objects (s.reported fl r) r) n
    have hvobj : ∀ n, v.object n = s.object n := fun n => State.object_congr (by rw [hv]) n
    have htables := hwork.tables
    refine ⟨?_, fun e => absurd ?_ e, fun b e => absurd ?_ e, fun e => absurd ?_ e, fun n e => absurd ?_ e,
      fun n e => absurd ?_ e, fun _ _ => .inr rfl, fun e => absurd ?_ e⟩
    · rw [State.closing_pending, htables.pending, hv]
    · rw [State.closing_lineTime, htables.lineTime, hv]
    · rw [State.closing_bank, htables.bank, hv]; cases b <;> rfl
    · rw [State.closing_config, htables.config, hv]
    · rw [hobj, hwork.configs, hvobj]
    · rw [hobj, hwork.payloads, hvobj]
    · rw [State.closing_enables, htables.enables, hv]

/-- Settles O58: the first half by the effect of the command, to which the look and the answer add nothing that a command owns;
the second by what an effect leaves of a frame, since a look waits for an idle line. -/
theorem stepsReachOnlyWhatTheyOwn : Obligations.StepsReachOnlyWhatTheyOwn := by
  unfold Obligations.StepsReachOnlyWhatTheyOwn
  refine ⟨fun s t c rest hpend hstep => ?_, fun s t fl fl' hf hstep hf' hhead => ?_⟩
  · obtain ⟨u, heffect, hreaches⟩ := step_does hpend hstep
    have howns : ({ s with pending := rest } : State).Owns t c := by
      clear hstep
      induction hreaches with
      | plain => exact heffect.owns
      | looked => exact heffect.owns.same u.sameOwned_look
      | answered code r _ ih =>
        exact ih.same (State.sameOwned_of_objects rfl rfl (fun b => by cases b <;> rfl) rfl rfl rfl)
    obtain ⟨h1, h2, h3, h4, h5, h6, h7, h8⟩ := howns
    exact ⟨h1, h2, h3, h4, h5, h6, h7, h8⟩
  · suffices h : fl.SameTaken fl' by
      obtain ⟨h1, h2, h3, h4, h5, h6, h7, h8, h9⟩ := h
      exact ⟨h1, h2, h3, h4, h5, h6, h7, h8, h9⟩
    rcases step_cases hstep with ⟨-, rfl⟩ | ⟨c, rest, hpend, u, heffect, hreaches⟩
    · rw [hf] at hf'; injection hf' with e; rw [e]; exact .refl _
    · have hc : c ≠ .gapEnd := fun e => hhead (by rw [hpend, e]; rfl)
      have hkept : ∀ fl'', u.engine.flight = some fl'' → fl.SameTaken fl'' := fun fl'' e => by
        obtain ⟨fl0, e0, taken, -⟩ := heffect.goesOn e
        rw [show fl0 = fl from Option.some.inj (e0.symm.trans hf)] at taken
        exact taken
      clear hstep
      induction hreaches with
      | plain => exact hkept _ hf'
      | looked =>
        cases hu : u.engine.flight with
        | none => rw [State.look_of_not_running (heffect.idle hc hf hu), hu] at hf'; cases hf'
        | some fl0 => rw [State.look_of_busy (by rw [hu]; exact Option.some_ne_none _)] at hf'; exact hkept _ hf'
      | answered code r _ ih => exact ih hf'

end Sys2Proof.Machine
end

