-- ==== Sys2Proof/Proofs/QueueAndSilentNodes.lean ====
section
/-! The Completion Queue is first in, first out (R152, R153, R155), and a node becomes SILENT and leaves SILENT by its rules
alone (R147). -/

namespace Sys2Proof.Machine

/-! ### The Completion Queue -/

/-- What an effect makes of the queue: emptied, its head popped, or records joined behind it. -/
theorem State.Effect.queue {s u : State} {c : Instr} (he : s.Effect c u) :
    (u.queue = [] ∧ (c = .pinReset ∨ c = .lineReset)) ∨ (c = .queuePop ∧ ∃ head, s.queue = head :: u.queue) ∨
      ∃ made, u.queue = s.queue ++ made ∧ (made ≠ [] → u.queue.length ≤ 32) := by
  have same : u.queue = s.queue → ∃ made, u.queue = s.queue ++ made ∧ (made ≠ [] → u.queue.length ≤ 32) :=
    fun e => ⟨[], by rw [e, List.append_nil], fun h => absurd rfl h⟩
  have ofWork : ∀ {v : State}, v.queue = s.queue → v.WorkOnTable u →
      ∃ made, u.queue = s.queue ++ made ∧ (made ≠ [] → u.queue.length ≤ 32) := fun hv k => hv ▸ k.queue
  cases he with
  | quiet h => exact .inr (.inr (same h.queue))
  | pinReset => exact .inl ⟨rfl, .inl rfl⟩
  | lineReset => exact .inl ⟨rfl, .inr rfl⟩
  | @popped head rest h => exact .inr (.inl ⟨rfl, head, h⟩)
  | switchFailed | switchArmed | resumed | revived | onLine | enabled | disabled | reRequestDropped | released
  | objectConfigured | payloadWritten => exact .inr (.inr (same rfl))
  | @switchMade _ b k instant =>
    have hqueue := State.instantBase_queue (s.armSwitch b instant (lateField k)) b
    exact .inr (.inr (ofWork hqueue (State.works_instantWork _ b).table))
  | @instant b => exact .inr (.inr (ofWork (s.instantBase_queue b) (s.works_instantWork b).table))
  | cancelled => exact .inr (.inr (same (by simp)))
  | stopArmed | stopBusy | stopIdle => exact .inr (.inr (same (s.endPending_queue _)))
  | @retired _ n =>
    rw [State.retire_eq]
    exact .inr (.inr (s.workOn_afterFinish n .withdrawn .disabled).onTable.queue)
  | requested n => exact .inr (.inr (s.works_request n).table.queue)
  | withdrawn hs => exact .inr (.inr (State.works_finish hs _).table.queue)
  | inserted => exact .inr (.inr (same (by unfold State.enterSlot; cases s.slot <;> rfl)))
  | lineConfigured hs => exact .inr (.inr (same (by unfold State.writeLineConfig; rw [if_pos hs])))
  | bankWritten => exact .inr (.inr (same (by simp)))
  | @cycleStarted b => exact .inr (.inr (ofWork (s.gridBase_queue b) (s.works_gridWork b).table))
  | boundary => rw [State.boundary_eq]; exact .inr (.inr ⟨[], (List.append_nil _).symm, fun h => absurd rfl h⟩)
  | @gapEnded fl r =>
    obtain ⟨v, hwork, hv⟩ := s.reported_table fl r
    rw [State.closing_queue]
    have hqueue : v.queue = s.queue := by rw [hv]
    exact .inr (.inr (hqueue ▸ hwork.queue))

/-- Settles O59: by the effect of the command; the look and the answer leave the queue. -/
theorem queueIsFirstInFirstOut : Obligations.QueueIsFirstInFirstOut := by
  unfold Obligations.QueueIsFirstInFirstOut
  intro s t c rest hpend hstep
  obtain ⟨u, heffect, hreaches⟩ := step_does hpend hstep
  have hqueue : t.queue = u.queue := by
    clear hstep
    induction hreaches with
    | plain => rfl
    | looked => exact u.look_queue
    | answered code r _ ih => exact ih
  rw [hqueue]
  exact heffect.queue

/-! ### SILENT nodes -/

/-- A report that makes a node SILENT sets NODE_SILENT (R147). -/
theorem State.nodeSilent_of_nodeReport {s : State} {kind : ExchangeKind} {a : BitVec 5} {r : AttemptResult} {i : Fin 30}
    (h : (s.nodeRecord i).state ≠ .silent) (hr : ((s.nodeReport kind a r).nodeRecord i).state = .silent) :
    (s.nodeReport kind a r).flags.nodeSilent = true := by
  by_cases hi : i.val + 1 = a.toNat
  · have hnot : ¬(r = .ack ∨ r = .nakReject ∨ r = .nakBusy ∨ r = .data) := fun e => by
      rw [(State.nodeReport_answered hi e).1] at hr; cases hr
    cases r with
    | ack | nakReject | nakBusy | data => simp at hnot
    | noReply =>
      obtain ⟨hrecord, hflag⟩ := s.nodeReport_missed kind hi
      rw [hrecord] at hr
      simp only at hr
      split at hr
      next hl => rw [hflag, decide_eq_true hl, Bool.or_true]
      next => exact absurd hr h
    | badReply | collision => exact absurd hr h
  · rw [s.nodeReport_other kind r hi] at hr; exact absurd hr h

/-- The table's work leaves every node's state. -/
theorem State.WorkOnTable.nodeState {s t : State} (h : s.WorkOnTable t) (i : Fin 30) :
    (t.nodeRecord i).state = (s.nodeRecord i).state := by
  obtain ⟨x, y, e⟩ := h.nodes i
  rw [e]

/-- What an effect makes of the nodes' states. -/
theorem State.Effect.nodes {s u : State} {c : Instr} (he : s.Effect c u) :
    (∀ i, (u.nodeRecord i).state = (s.nodeRecord i).state) ∨
      ((c = .pinReset ∨ c = .lineReset) ∧ ∀ i, (u.nodeRecord i).state ≠ .silent) ∨
      (∃ j : Fin 30, c = .nodeRevive (BitVec.ofNat 8 (j.val + 1)) ∧ (u.nodeRecord j).state ≠ .silent ∧
        ∀ i, i ≠ j → (u.nodeRecord i).state = (s.nodeRecord i).state) ∨
      (c = .gapEnd ∧ ∃ fl r, s.engine.flight = some fl ∧ u = ((s.reported fl r).raiseFault r).endStopping) := by
  have same : u.nodes = s.nodes → ∀ i, (u.nodeRecord i).state = (s.nodeRecord i).state :=
    fun e i => by rw [State.nodeRecord_congr e]
  have ofWork : ∀ {v : State}, v.nodes = s.nodes → v.WorkOnTable u →
      ∀ i, (u.nodeRecord i).state = (s.nodeRecord i).state := fun hv k i => by
    rw [k.nodeState, State.nodeRecord_congr hv]
  cases he with
  | quiet h => exact .inl (same h.nodes)
  | pinReset => exact .inr (.inl ⟨.inl rfl, (by decide : ∀ i, (State.reset.nodeRecord i).state ≠ .silent)⟩)
  | lineReset =>
    exact .inr (.inl ⟨.inr rfl, fun i => by rw [State.lineReset_nodeRecord]; decide⟩)
  | @revived j h =>
    refine .inr (.inr (.inl ⟨j, rfl, ?_, fun i hi => ?_⟩))
    · rw [State.nodeRecord_setNode_self]; exact nofun
    · rw [State.nodeRecord_setNode, if_neg hi]
  | @gapEnded fl r hf => exact .inr (.inr (.inr ⟨rfl, fl, r, hf, rfl⟩))
  | switchFailed | switchArmed | resumed | popped | onLine | enabled | disabled | reRequestDropped | released
  | objectConfigured | payloadWritten => exact .inl (same rfl)
  | @switchMade _ b k instant =>
    have hnodes := State.instantBase_nodes (s.armSwitch b instant (lateField k)) b
    exact .inl (ofWork hnodes (State.works_instantWork _ b).table)
  | @instant b => exact .inl (ofWork (s.instantBase_nodes b) (s.works_instantWork b).table)
  | cancelled => exact .inl (same (by simp))
  | stopArmed | stopBusy | stopIdle => exact .inl (same (s.endPending_nodes _))
  | @retired _ n =>
    rw [State.retire_eq]
    exact .inl (s.workOn_afterFinish n .withdrawn .disabled).onTable.nodeState
  | requested n => exact .inl (s.works_request n).table.nodeState
  | withdrawn hs => exact .inl (State.works_finish hs _).table.nodeState
  | inserted => exact .inl (same (by unfold State.enterSlot; cases s.slot <;> rfl))
  | lineConfigured hs =>
    refine .inl fun i => ?_
    unfold State.writeLineConfig
    rw [if_pos hs]
    simp only [State.nodeRecord]
    split
    next => rfl
    next => simp [NodeRecord.withinLimit_state]
  | bankWritten => exact .inl (same (by simp))
  | @cycleStarted b => exact .inl (ofWork (s.gridBase_nodes b) (s.works_gridWork b).table)
  | boundary => rw [State.boundary_eq]; exact .inl fun _ => rfl

/-- The end of an attempt makes a node SILENT only with NODE_SILENT set (R147). -/
theorem State.nodeSilent_of_reported {s : State} {fl : Flight} {r : AttemptResult} {i : Fin 30}
    (h : (s.nodeRecord i).state ≠ .silent) (hr : ((s.reported fl r).nodeRecord i).state = .silent) :
    (s.reported fl r).flags.nodeSilent = true := by
  cases hc : fl.carried with
  | sync => rw [State.reported_of_sync hc] at hr; exact absurd hr h
  | exchange n kind =>
    rw [State.reported_of_exchange hc] at hr ⊢
    have hwork := State.workOnTable_report s.enterIdle n kind fl.node r
    rw [hwork.nodeState] at hr
    rw [hwork.tables.flags_nodeSilent]
    exact State.nodeSilent_of_nodeReport (s := s.enterIdle) h hr

/-- The end of an attempt leaves a SILENT node SILENT, since no exchange to it was in flight (R102, R106). -/
theorem State.reported_keeps_silent {s : State} (hactive : s.ActiveInFlight) (hsound : s.NodesSound) {fl : Flight}
    (hf : s.engine.flight = some fl) (r : AttemptResult) {i : Fin 30} (h : (s.nodeRecord i).state = .silent) :
    ((s.reported fl r).nodeRecord i).state = .silent := by
  cases hc : fl.carried with
  | sync => rw [State.reported_of_sync hc]; exact h
  | exchange n kind =>
    rw [State.reported_of_exchange hc]
    have hwork := State.workOnTable_report s.enterIdle n kind fl.node r
    rw [hwork.nodeState]
    have hn : (s.object n).state = .active := (hactive n).mpr ⟨fl, kind, hf, hc⟩
    have hheard := hsound.noneToSilent n (.inr hn)
    rw [← hsound.flightNode fl n kind hf hc] at hheard
    have hi : i.val + 1 ≠ fl.node.toNat := fun e => by
      rw [(s.isSilent_iff _).mpr ⟨i, e, h⟩] at hheard; cases hheard
    rw [State.nodeReport_other _ kind r hi]
    exact h

/-- Settles O60: by what the effect of the command makes of the nodes' states; the look and the answer leave them. -/
theorem silentChangesByItsRules : Obligations.SilentChangesByItsRules := by
  unfold Obligations.SilentChangesByItsRules
  intro s t i c rest hpend hstep
  obtain ⟨u, heffect, hreaches⟩ := step_does hpend hstep
  have hsame : (t.nodeRecord i).state = (u.nodeRecord i).state ∧ t.flags.nodeSilent = u.flags.nodeSilent := by
    clear hstep
    induction hreaches with
    | plain => exact ⟨rfl, rfl⟩
    | looked => exact ⟨by rw [State.look_nodeRecord], by rw [State.look_flags]⟩
    | answered code r _ ih => exact ih
  rw [hsame.1, hsame.2]
  rcases heffect.nodes with hkept | ⟨hc, hnone⟩ | ⟨j, hc, hj, hothers⟩ | ⟨hc, fl, r, hf, rfl⟩
  · exact ⟨fun h h' => absurd ((hkept i).symm.trans h') h, fun _ _ h h' => absurd ((hkept i).trans h) h'⟩
  · exact ⟨fun _ h' => absurd h' (hnone i), fun _ _ _ _ => .inr hc.symm⟩
  · by_cases hi : i = j
    · exact ⟨fun _ h' => absurd (hi ▸ h') hj, fun _ _ _ _ => .inl (hi ▸ hc)⟩
    · exact ⟨fun h h' => absurd ((hothers i hi).symm.trans h') h, fun _ _ h h' => absurd ((hothers i hi).trans h) h'⟩
  · rw [State.nodeRecord_congr (State.closing_nodes _ _), State.closing_nodeSilent]
    exact ⟨fun h h' => ⟨hc, State.nodeSilent_of_reported h h'⟩, fun hactive hsound h h' =>
      absurd (State.reported_keeps_silent (s := { s with pending := rest }) hactive
        (hsound.congr rfl rfl rfl rfl) hf r h) h'⟩

end Sys2Proof.Machine
end

