-- ==== Sys2Proof/Proofs/AttemptEnds.lean ====
section
/-! The end of an attempt (R18, R19): each result at its object, the node that becomes SILENT by it, the line fault, and the end of
STOPPING. -/

namespace Sys2Proof.Machine

/-! ### GAP_END -/

theorem exec_gapEnd {s : State} {fl : Flight} {r : AttemptResult} (hf : s.engine.flight = some fl)
    (hp : fl.phase = .gap r) (ht : fl.mark + BitVec.ofNat 48 (4 * fl.bitRate.ticksPerBit) = s.lineTime) :
    exec .gapEnd s =
      .next ((s.reported fl r).afterLineIdle (decide (r = .collision ∧ s.engine.collisions = 3))) := by
  have hcollisions : (s.reported fl r).engine.collisions = s.engine.collisions := by
    obtain ⟨u, hwork, hu⟩ := s.reported_table fl r
    rw [hwork.tables.engine, hu]
  show execGapEnd s = _
  rw [execGapEnd_eq hf hp ht, State.endGap_eq, State.endOfAttempt_eq, hcollisions]

/-! ### Each result at its object -/

theorem State.retryOr_of_last {s : State} {n : Fin 32} (h : ¬(s.object n).attempts < (s.object n).config.attemptLimit)
    (outcome : RequestOutcome) : s.retryOr n outcome = s.afterOutcome n outcome := by
  unfold State.retryOr; rw [if_neg h, State.finish_eq]

theorem State.retryOr_of_noFit {s : State} {n : Fin 32} (h : (s.object n).attempts < (s.object n).config.attemptLimit)
    (hfit : s.noFit n = true) (outcome : RequestOutcome) : s.retryOr n outcome = s.afterOutcome n .noFit := by
  unfold State.retryOr State.retry; rw [if_pos h, if_pos hfit, State.finish_eq]

theorem State.retryOr_again {s : State} {n : Fin 32} (h : (s.object n).attempts < (s.object n).config.attemptLimit)
    (hfit : s.noFit n = false) (outcome : RequestOutcome) : s.retryOr n outcome = s.setObject n
      (if (s.object n).reRequest then { (s.object n).merge with state := .pending, reRequest := false }
      else { s.object n with state := .pending }) := by
  unfold State.retryOr State.retry
  rw [if_pos h, if_neg (Bool.eq_false_iff.mp hfit)]; rfl

/-- A reply copied into its object, the overwrite count held at 255 (R104). -/
theorem MsgObject.copyReply_eq (o : MsgObject) (g : Staging) : o.copyReply g = { o with
    reply := Vector.ofFn (fun j : Fin 16 => if j.val < g.length.toNat then g.payload[j.val] else 0)
    receivedLength := g.length.setWidth 5
    replyCount := o.replyCount + 1
    overwriteCount := if o.fresh = true ∧ o.overwriteCount ≠ 255 then o.overwriteCount + 1 else o.overwriteCount
    fresh := true } := by
  have hcount : (if o.fresh = true then satInc o.overwriteCount else o.overwriteCount) =
      if o.fresh = true ∧ o.overwriteCount ≠ 255 then o.overwriteCount + 1 else o.overwriteCount := by
    rw [satInc_eq8]
    split <;> split <;> simp_all
  unfold MsgObject.copyReply
  rw [hcount]

/-- What a result that silences no node makes of its object: the row of R103 for it. -/
theorem State.applyResult_eq (s : State) (n : Fin 32) (a : BitVec 5) (r : AttemptResult) :
    s.applyResult n a r false =
      let tried := s.setObject n { s.object n with
        attempts := (s.object n).attempts + 1, delivered := (s.object n).delivered || r != .collision }
      match r with
      | .ack => tried.afterOutcome n .done
      | .data => (s.setObject n ((tried.object n).copyReply s.engine.staging)).afterOutcome n .done
      | .nakReject => tried.afterOutcome n .nakReject
      | .nakBusy => tried.retryOr n .busy
      | .noReply => tried.retryOr n .noReply
      | .badReply => tried.retryOr n .badReply
      | .collision => tried.retryOr n .collision := by
  unfold State.applyResult
  cases r <;> simp [State.finish_eq, State.modifyObject, State.setObject_setObject]

/-- A result that does not bring the node to its Miss Limit silences none (R147). -/
theorem State.report_eq_of_no_limit {s : State} {n : Fin 32} {kind : ExchangeKind} {a : BitVec 5} {r : AttemptResult}
    (h : ¬(r = .noReply ∧ s.missesLimit a = true)) :
    s.enterIdle.report n kind a r = (s.enterIdle.nodeReport kind a r).applyResult n a r false := by
  have hsilences : (r == .noReply && s.enterIdle.missesLimit a) = false :=
    Bool.eq_false_iff.mpr fun e => h (by
      obtain ⟨hr, hlimit⟩ := Bool.and_eq_true_iff.mp e
      exact ⟨beq_iff_eq.mp hr, hlimit⟩)
  unfold State.report
  rw [hsilences]

/-- Settles O40: GAP_END is the row of R103 for the result, then the scheduler's part. -/
theorem gapEndAppliesResult : Obligations.GapEndAppliesResult := by
  unfold Obligations.GapEndAppliesResult
  intro s fl n kind r hf hc hp ht hkeeps fault u o o' g tried copied oversized retries
  have hexec : exec .gapEnd s = .next ((u.applyResult n fl.node r false).afterLineIdle fault) := by
    rw [exec_gapEnd hf hp ht, State.reported_of_exchange hc, State.report_eq_of_no_limit hkeeps]
    rfl
  have huobj : u.object n = o := State.nodeReport_object _ kind fl.node r n
  have hstaging : u.engine.staging = g := by rw [show u.engine = _ from State.nodeReport_engine _ kind fl.node r]
  have htried : tried.object n = o' := State.object_setObject_self _ _ _
  have hfit : tried.noFit n = true ↔ oversized := by
    have hconfig : (tried.object n).config = (s.object n).config := by rw [htried]
    rw [State.noFit_congr (s := s) hconfig (State.nodeReport_config _ kind fl.node r)
      (State.nodeReport_figures _ kind fl.node r)]
    exact s.noFit_iff n
  rw [State.applyResult_eq, huobj, hstaging] at hexec
  have hretry : ∀ outcome, exec .gapEnd s = .next ((tried.retryOr n outcome).afterLineIdle fault) → retries outcome := by
    intro outcome hrun
    refine ⟨fun hmore hover => ?_, fun hmore hover hre => ?_, fun hmore hover hre => ?_, fun hlast => ?_⟩ <;> rw [hrun]
    · rw [State.retryOr_of_noFit (htried ▸ hmore) (hfit.mpr hover)]
    · rw [State.retryOr_again (htried ▸ hmore) (Bool.eq_false_iff.mpr (mt hfit.mp hover)), htried, if_neg (by simp [o', hre])]
      exact congrArg (fun v => Host.Outcome.next (State.afterLineIdle v fault)) (State.setObject_setObject _ _ _ _)
    · rw [State.retryOr_again (htried ▸ hmore) (Bool.eq_false_iff.mpr (mt hfit.mp hover)), htried, if_pos hre,
        ← satInc_eq8]
      exact congrArg (fun v => Host.Outcome.next (State.afterLineIdle v fault)) (State.setObject_setObject _ _ _ _)
    · rw [State.retryOr_of_last (htried ▸ hlast)]
  refine ⟨?_, ?_, ?_, ?_, ?_, ?_, ?_⟩ <;> rintro rfl
  · exact hexec
  · have hcopied : u.setObject n ((tried.object n).copyReply g) = copied := by rw [htried, MsgObject.copyReply_eq]
    rw [hexec, ← hcopied]
  · exact hexec
  all_goals exact hretry _ hexec

/-! ### A node silenced -/

/-- The miss that brings the count to the Miss Limit (R146, R147). -/
theorem State.nodeReport_silences {s : State} (kind : ExchangeKind) {a : BitVec 5} {i : Fin 30} (h : i.val + 1 = a.toNat)
    (hlimit : (s.nodeRecord i).missCount + 1 = s.config.missLimit) :
    s.nodeReport kind a .noReply = { s.setNode i { s.nodeRecord i with
        missCount := s.config.missLimit, state := .silent } with flags := { s.flags with nodeSilent := true } } := by
  unfold State.nodeReport State.nodeMissed
  simp only [nodeIndex_eq_some.mpr h, State.missesLimit_of_index h, hlimit, beq_self_eq_true, if_true]
  rfl

/-- The report that silences a node finishes its object's request, then every other to that node (R106). -/
theorem State.report_silences {s : State} (n : Fin 32) (kind : ExchangeKind) {a : BitVec 5} (h : s.missesLimit a = true) :
    s.report n kind a .noReply =
      (((s.nodeReport kind a .noReply).setObject n { s.object n with
        attempts := (s.object n).attempts + 1, delivered := true }).afterOutcome n .nodeSilent).forEachObject
        (State.finishTo a) := by
  have hdelivered : ((s.object n).delivered || AttemptResult.noReply != .collision) = true :=
    Bool.or_true _
  unfold State.report State.applyResult
  rw [h, ← State.finish_eq, ← State.finishAllTo_eq]
  simp only [State.modifyObject, beq_self_eq_true, Bool.and_true, if_true, State.nodeReport_object, hdelivered]

theorem State.finishTo_eq (a : BitVec 5) (m : Fin 32) (t : State) : State.finishTo a m t =
    if (t.object m).state = .pending ∧ (t.object m).config.node = a then t.afterOutcome m .nodeSilent else t := by
  unfold State.finishTo
  rw [State.finish_eq]

/-- Once a SILENT node's requests are finished, no object to it waits, and the one that missed is IDLE (R106). -/
theorem State.finishAllTo_none {s : State} {n : Fin 32} {a : BitVec 5} (hsilent : s.isSilent a = true)
    (hn : (s.object n).config.node = a) {m : Fin 32} (hm : ((s.finishAllTo n a).object m).config.node = a) :
    ((s.finishAllTo n a).object m).state ≠ .pending ∧ ((s.finishAllTo n a).object n).state = .idle := by
  refine ⟨?_, State.finishAllTo_object hsilent hn⟩
  rw [State.finishAllTo_eq] at hm ⊢
  have hfinished : (s.finish n .nodeSilent).isSilent a = true := by rw [(s.workOn_finish n .nodeSilent).isSilent, hsilent]
  exact State.finishTo_none hfinished hm

/-- Settles O41: the report that silences the node, then the scheduler's part; no request to the node stands after it. -/
theorem gapEndSilencesNode : Obligations.GapEndSilencesNode := by
  unfold Obligations.GapEndSilencesNode
  intro s fl n kind i hf hc hp ht hi hnode hlimit u v w
  have hmisses : s.enterIdle.missesLimit fl.node = true := by
    rw [State.missesLimit_of_index hi]
    show ((s.nodeRecord i).missCount + 1 == s.config.missLimit) = true
    rw [hlimit, beq_self_eq_true]
  have hu : s.enterIdle.nodeReport kind fl.node .noReply = u := State.nodeReport_silences kind hi hlimit
  have hsteps : State.finishTo fl.node = fun m t =>
      if (t.object m).state = .pending ∧ (t.object m).config.node = fl.node then t.afterOutcome m .nodeSilent else t :=
    funext fun m => funext fun t => State.finishTo_eq fl.node m t
  have hw : s.enterIdle.report n kind fl.node .noReply = w := by
    rw [State.report_silences n kind hmisses, hu, hsteps]; rfl
  refine ⟨by rw [exec_gapEnd hf hp ht, State.reported_of_exchange hc, hw]; rfl, fun m hm => ?_⟩
  have hsilent : ∀ p, (u.setObject n p).isSilent fl.node = true := fun p => (State.isSilent_iff _ _).mpr ⟨i, hi, by
    rw [show (u.setObject n p).nodeRecord i = _ from State.nodeRecord_setNode_self s i _]⟩
  have hall : w = (u.setObject n { s.object n with
      attempts := (s.object n).attempts + 1, delivered := true }).finishAllTo n fl.node := by
    rw [State.finishAllTo_eq, State.finish_eq, hsteps]
  rw [hall] at hm ⊢
  exact State.finishAllTo_none (hsilent _) (by rw [State.object_setObject_self]; exact hnode) hm

/-! ### The line fault and the end of STOPPING -/

/-- The report reaches the tables, the flags of its records and the engine's return to IDLE alone (R18, R103). -/
theorem State.reported_eq (s : State) (fl : Flight) (r : AttemptResult) : s.reported fl r = { s with
    objects := (s.reported fl r).objects, slot := (s.reported fl r).slot, nodes := (s.reported fl r).nodes
    queue := (s.reported fl r).queue, lost := (s.reported fl r).lost
    engine := { s.engine with flight := none, gapEndedNow := true }
    flags := { s.flags with
      attention := (s.reported fl r).flags.attention, nodeSilent := (s.reported fl r).flags.nodeSilent
      queueLost := (s.reported fl r).flags.queueLost } } := by
  obtain ⟨u, hwork, hu⟩ := s.reported_table fl r
  have htables := hwork.tables
  unfold State.SameButTables at htables
  generalize s.reported fl r = t at htables
  rw [hu] at htables
  rw [htables]

theorem State.afterLineIdle_of_stopping {s : State} (h : s.sched = .stopping) (fault : Bool) :
    s.afterLineIdle fault = { s with
      sched := .off, activeBank := none, figures := none
      cycle := { s.cycle with window := none, syncOwed := false }
      flags := { s.flags with lineFault := s.flags.lineFault || fault } } := if_pos h

theorem State.afterLineIdle_of_fault {s : State} (h : s.sched = .running) :
    s.afterLineIdle true = { s with sched := .halted, flags := { s.flags with lineFault := true } } := by
  unfold State.afterLineIdle
  simp [h]

theorem State.afterLineIdle_of_running {s : State} (h : s.sched = .running) : s.afterLineIdle false = s.look := by
  unfold State.afterLineIdle
  simp [h]

/-- Settles O42: after a SYNC frame nothing but the engine's return to IDLE precedes the scheduler's part; after an exchange
the report leaves all that the scheduler's part reads. -/
theorem gapEndFaultsAndStops : Obligations.GapEndFaultsAndStops := by
  unfold Obligations.GapEndFaultsAndStops
  intro s fl r hf hp ht idle fault
  have hexec := exec_gapEnd hf hp ht
  have hsched : s.sched = (s.reported fl r).sched := by rw [State.reported_eq]
  have hsync : fl.carried = .sync →
      exec .gapEnd s = .next (idle.afterLineIdle (decide (r = .collision ∧ s.engine.collisions = 3))) := fun hc => by
    rw [hexec, State.reported_of_sync hc]; rfl
  refine ⟨fun hc hs hfault => ?_, fun hc hs hfault => ?_, fun hc hs => ?_, fun hs hfault => ?_, fun hs => ?_⟩
  · rw [hsync hc, decide_eq_false hfault, State.afterLineIdle_of_running (s := idle) hs]
  · rw [hsync hc, decide_eq_true hfault, State.afterLineIdle_of_fault (s := idle) hs]
  · rw [hsync hc, State.afterLineIdle_of_stopping (s := idle) hs]
  · rw [decide_eq_true hfault, State.afterLineIdle_of_fault (hsched ▸ hs), State.reported_eq] at hexec
    exact ⟨_, hexec, rfl, rfl, rfl, hfault.2, rfl, rfl, rfl, rfl, rfl⟩
  · rw [State.afterLineIdle_of_stopping (hsched ▸ hs), State.reported_eq] at hexec
    exact ⟨_, hexec, rfl, rfl, rfl, rfl, rfl, rfl, rfl, rfl, rfl, by simp [fault]⟩

end Sys2Proof.Machine
end

