-- ==== Sys2Proof/Proofs/CycleStartSteps.lean ====
section
/-! The steps of the cycle-start work and of the re-check (R99 to R101, R110, R149): what each does to its object, and that going
through the table gives each object its own steps and records. -/

namespace Sys2Proof.Machine

/-! ### The steps of one object -/

theorem State.ageStep_of_not_pending {s : State} {n : Fin 32} (h : (s.object n).state ≠ .pending) : s.ageStep n = s :=
  if_neg h

theorem State.ageStep_of_pending {s : State} {n : Fin 32} (h : (s.object n).state = .pending) :
    s.ageStep n =
      let aged := s.setObject n { s.object n with age := satInc (s.object n).age }
      if (s.object n).config.lifetime ≠ 0 ∧ (s.object n).config.lifetime.toNat ≤ (satInc (s.object n).age).toNat then
        aged.afterOutcome n .expired
      else aged := by
  unfold State.ageStep
  rw [if_pos h]
  simp only [State.modifyObject, State.object_setObject_self, State.finish_eq, BitVec.le_def]

theorem State.triggerStep_of_none {s : State} {n : Fin 32}
    (h : ¬((s.object n).state ≠ .disabled ∧ (s.object n).config.triggersAt s.cycle.cycleNumber = true)) :
    s.triggerStep n = s := if_neg h

theorem State.triggerStep_of_silent {s : State} {n : Fin 32} (hidle : (s.object n).state = .idle)
    (ht : (s.object n).config.triggersAt s.cycle.cycleNumber = true) (hs : s.isSilent (s.object n).config.node = true) :
    s.triggerStep n = s.modifyNode (s.object n).config.node NodeRecord.skip := by
  unfold State.triggerStep
  simp only [hidle, ht, hs, ne_eq, reduceCtorEq, not_false_eq_true, and_self, if_true]

theorem State.triggerStep_of_trigger {s : State} {n : Fin 32} (hs : (s.object n).state ≠ .disabled)
    (ht : (s.object n).config.triggersAt s.cycle.cycleNumber = true)
    (hheard : ¬((s.object n).state = .idle ∧ s.isSilent (s.object n).config.node = true)) :
    s.triggerStep n = s.request n := by
  unfold State.triggerStep
  simp only [hs, ht, hheard, ne_eq, not_false_eq_true, and_self, if_true, if_false]

theorem State.triggerStep_of_standing {s : State} {n : Fin 32}
    (h : (s.object n).state = .pending ∨ (s.object n).state = .active)
    (ht : (s.object n).config.triggersAt s.cycle.cycleNumber = true) : s.triggerStep n = s.request n := by
  refine State.triggerStep_of_trigger ?_ ht ?_ <;> rcases h with h | h <;> simp [h]

theorem State.triggerStep_of_heard {s : State} {n : Fin 32} (h : (s.object n).state = .idle)
    (ht : (s.object n).config.triggersAt s.cycle.cycleNumber = true) (hs : s.isSilent (s.object n).config.node = false) :
    s.triggerStep n = s.request n :=
  State.triggerStep_of_trigger (by simp [h]) ht (by simp [hs])

theorem State.request_of_idle {s : State} {n : Fin 32} (h : (s.object n).state = .idle) :
    s.request n = s.afterRequest n := by
  unfold State.request
  simp only [h, State.takeRequest_eq]

theorem State.request_of_pending {s : State} {n : Fin 32} (h : (s.object n).state = .pending) :
    s.request n = s.setObject n (s.object n).merge := by
  unfold State.request
  simp only [h, State.modifyObject]

theorem State.request_of_active {s : State} {n : Fin 32} (h : (s.object n).state = .active) :
    s.request n = s.setObject n
      (if (s.object n).reRequest then (s.object n).merge else { s.object n with reRequest := true }) := by
  unfold State.request
  simp only [h, State.modifyObject]

/-- The largest usable duration that object n's waiting request is judged by (R110). -/
def State.recheckLimit (s : State) (n : Fin 32) (f : Figures) : Nat :=
  if s.slot = some n then f.maxAny else f.maxOpen[(s.object n).config.cls.toFin]

theorem State.recheckStep_eq {s : State} {f : Figures} (hf : s.figures = some f) (n : Fin 32) :
    s.recheckStep n =
      if (s.object n).state = .pending ∧ s.recheckLimit n f < s.worst n then s.afterOutcome n .noFit else s := by
  have hfit : s.noFit n = true ↔ f.maxOpen[(s.object n).config.cls.toFin] < s.worst n := by
    rw [State.noFit_iff, hf]; simp
  unfold State.recheckStep State.recheckLimit
  rw [hf]
  by_cases hp : (s.object n).state = .pending <;> by_cases hs : s.slot = some n <;>
    simp only [hp, hs, hfit, if_true, if_false, true_and, false_and, State.finish_eq]

theorem State.recheckStep_of_no_figures {s : State} (hf : s.figures = none) (n : Fin 32) : s.recheckStep n = s := by
  have hfit : s.noFit n = false := by unfold State.noFit; rw [hf]
  unfold State.recheckStep
  simp [hf, hfit]

theorem ObjConfig.triggersAt_iff (c : ObjConfig) (number : BitVec 32) :
    c.triggersAt number = true ↔ c.trigger = .cyclic ∧ number.toNat % c.period.toNat = c.phase.toNat := by
  simp [ObjConfig.triggersAt]

/-- Settles O48: each step's row, by the object's state. -/
theorem objectStepsAtCycleStart : Obligations.ObjectStepsAtCycleStart := by
  unfold Obligations.ObjectStepsAtCycleStart
  constructor
  · intro s n o age aged number triggers merged
    have hage : satInc o.age = age := satInc_eq8 _
    have htriggers : o.config.triggersAt s.cycle.cycleNumber = true ↔ triggers := ObjConfig.triggersAt_iff _ _
    have hmerge : s.setObject n (s.object n).merge = merged := by unfold MsgObject.merge; rw [satInc_eq8]
    refine ⟨State.ageStep_of_not_pending, fun hp hold hre => ?_, fun hp hyoung => ?_, fun hno => ?_, fun ht hidle hs => ?_,
      fun ht hidle hs => ?_, fun ht hp => ?_, fun ht ha hre => ?_, fun ht ha hre => ?_⟩
    · rw [State.ageStep_of_pending hp]
      simp only
      rw [hage]
      exact (if_pos hold).trans (State.afterOutcome_of_no_reRequest (by rw [State.object_setObject_self]; exact hre) _)
    · rw [State.ageStep_of_pending hp]
      simp only
      rw [hage]
      exact if_neg hyoung
    · refine State.triggerStep_of_none fun ⟨hs, ht⟩ => ?_
      rcases hno with hno | hno
      · exact hs hno
      · exact hno (htriggers.mp ht)
    · rw [State.triggerStep_of_silent hidle (htriggers.mpr ht) hs]
      refine fun i => ⟨?_, by rw [State.modifyNode_eq]⟩
      rw [State.modifyNode_nodeRecord, NodeRecord.skip, satInc_eq8]
    · rw [State.triggerStep_of_heard hidle (htriggers.mpr ht) hs, State.request_of_idle hidle]
    · rw [State.triggerStep_of_standing (.inl hp) (htriggers.mpr ht), State.request_of_pending hp, hmerge]
    · rw [State.triggerStep_of_standing (.inr ha) (htriggers.mpr ht), State.request_of_active ha, if_neg]
      exact Bool.eq_false_iff.mp hre
    · rw [State.triggerStep_of_standing (.inr ha) (htriggers.mpr ht), State.request_of_active ha, if_pos hre, hmerge]
  · intro s n f hf o limit
    rw [State.recheckStep_eq hf]
    refine ⟨fun hp hlong hre => ?_, fun h => if_neg fun ⟨hp, hlong⟩ => ?_⟩
    · rw [if_pos ⟨hp, hlong⟩]
      exact State.afterOutcome_of_no_reRequest hre _
    · rcases h with h | h
      · exact h hp
      · exact absurd hlong (Nat.not_lt.mpr h)

/-! ### Each object's own steps -/

/-- What object n's own steps read is the same in `s` and in `t`. -/
structure State.SameView (s t : State) (n : Fin 32) : Prop where
  object : t.object n = s.object n
  slot : t.slot = some n ↔ s.slot = some n
  silent : ∀ a, t.isSilent a = s.isSilent a
  config : t.config = s.config
  figures : t.figures = s.figures
  cycle : t.cycle = s.cycle

theorem State.Beside.sameView {s t : State} {n : Fin 32} (h : s.Beside t n) : s.SameView t n :=
  ⟨h.object, h.slot, h.table.isSilent, h.table.tables.config, h.table.tables.figures, h.table.tables.cycle⟩

/-- Work on object n in both states keeps the view where it makes the same of n and of its place in the slot. -/
theorem State.SameView.work {s t u v : State} {n : Fin 32} (h : s.SameView t n) (hs : s.WorkOn u n) (ht : t.WorkOn v n)
    (hobj : v.object n = u.object n) (hslot : v.slot = some n ↔ u.slot = some n) : u.SameView v n where
  object := hobj
  slot := hslot
  silent a := by rw [hs.isSilent, ht.isSilent, h.silent]
  config := by rw [hs.tables.config, ht.tables.config, h.config]
  figures := by rw [hs.tables.figures, ht.tables.figures, h.figures]
  cycle := by rw [hs.tables.cycle, ht.tables.cycle, h.cycle]

theorem State.SameView.worst {s t : State} {n : Fin 32} (h : s.SameView t n) : t.worst n = s.worst n :=
  State.worst_congr (by rw [h.object]) h.config

theorem State.SameView.noFit {s t : State} {n : Fin 32} (h : s.SameView t n) : t.noFit n = s.noFit n :=
  State.noFit_congr (by rw [h.object]) h.config h.figures

theorem State.SameView.setObject {s t : State} {n : Fin 32} (h : s.SameView t n) (o : MsgObject) :
    (s.setObject n o).SameView (t.setObject n o) n :=
  ⟨by rw [State.object_setObject_self, State.object_setObject_self], h.slot, h.silent, h.config, h.figures, h.cycle⟩

theorem State.afterFinish_slot_ne (s : State) (n : Fin 32) (outcome : RequestOutcome) (next : ObjState) :
    (s.afterFinish n outcome next).slot ≠ some n := by
  rw [State.afterFinish_slot]
  split
  next => exact nofun
  next h => exact h

theorem State.SameView.afterFinish {s t : State} {n : Fin 32} (h : s.SameView t n) (outcome : RequestOutcome)
    (next : ObjState) : (s.afterFinish n outcome next).SameView (t.afterFinish n outcome next) n := by
  refine h.work (s.workOn_afterFinish n outcome next) (t.workOn_afterFinish n outcome next) ?_
    ⟨fun e => absurd e (t.afterFinish_slot_ne n _ _), fun e => absurd e (s.afterFinish_slot_ne n _ _)⟩
  simp only [State.afterFinish_object_self, h.object, h.slot]

theorem State.SameView.afterRequest {s t : State} {n : Fin 32} (h : s.SameView t n) :
    (s.afterRequest n).SameView (t.afterRequest n) n := by
  have htaken := h.setObject { s.object n with state := .pending, attempts := 0, age := 0, delivered := false }
  unfold State.afterRequest
  simp only [h.object, h.silent, h.noFit]
  split
  next => exact htaken.afterFinish _ _
  next =>
    split
    next => exact htaken.afterFinish _ _
    next => exact htaken

theorem State.SameView.afterOutcome {s t : State} {n : Fin 32} (h : s.SameView t n) (outcome : RequestOutcome) :
    (s.afterOutcome n outcome).SameView (t.afterOutcome n outcome) n := by
  have hfin := h.afterFinish outcome .idle
  cases hre : (s.object n).reRequest with
  | false =>
    rw [State.afterOutcome_of_no_reRequest hre, State.afterOutcome_of_no_reRequest (h.object ▸ hre)]
    exact hfin
  | true =>
    rw [State.afterOutcome_of_reRequest hre, State.afterOutcome_of_reRequest (h.object ▸ hre), hfin.object]
    exact (hfin.setObject _).afterRequest

theorem State.SameView.request {s t : State} {n : Fin 32} (h : s.SameView t n) : (s.request n).SameView (t.request n) n := by
  cases hs : (s.object n).state with
  | disabled =>
    have hnone : ∀ {u : State}, (u.object n).state = .disabled → u.request n = u := fun e => by
      unfold State.request; simp only [e]
    rw [hnone hs, hnone (h.object ▸ hs)]; exact h
  | idle => rw [State.request_of_idle hs, State.request_of_idle (h.object ▸ hs)]; exact h.afterRequest
  | pending =>
    rw [State.request_of_pending hs, State.request_of_pending (h.object ▸ hs), h.object]; exact h.setObject _
  | active => rw [State.request_of_active hs, State.request_of_active (h.object ▸ hs), h.object]; exact h.setObject _

theorem State.SameView.ageStep {s t : State} {n : Fin 32} (h : s.SameView t n) : (s.ageStep n).SameView (t.ageStep n) n := by
  by_cases hs : (s.object n).state = .pending
  · rw [State.ageStep_of_pending hs, State.ageStep_of_pending (h.object ▸ hs)]
    simp only [h.object]
    split
    next => exact (h.setObject _).afterOutcome _
    next => exact h.setObject _
  · rw [State.ageStep_of_not_pending hs, State.ageStep_of_not_pending (h.object ▸ hs)]; exact h

theorem State.SameView.triggerStep {s t : State} {n : Fin 32} (h : s.SameView t n) :
    (s.triggerStep n).SameView (t.triggerStep n) n := by
  refine h.work (s.workOn_triggerStep n) (t.workOn_triggerStep n) ?_ ?_ <;> unfold State.triggerStep <;>
    simp only [h.object, h.silent, h.cycle] <;> split
  case refine_1.isTrue =>
    split
    next => rw [State.object_congr (t.modifyNode_objects _ _), State.object_congr (s.modifyNode_objects _ _), h.object]
    next => exact h.request.object
  case refine_2.isTrue =>
    split
    next => rw [State.modifyNode_slot, State.modifyNode_slot]; exact h.slot
    next => exact h.request.slot
  case refine_1.isFalse => exact h.object
  case refine_2.isFalse => exact h.slot

theorem State.SameView.recheckStep {s t : State} {n : Fin 32} (h : s.SameView t n) :
    (s.recheckStep n).SameView (t.recheckStep n) n := by
  cases hf : s.figures with
  | none => rw [State.recheckStep_of_no_figures hf, State.recheckStep_of_no_figures (h.figures.trans hf)]; exact h
  | some f =>
    have hlimit : t.recheckLimit n f = s.recheckLimit n f := by unfold State.recheckLimit; simp only [h.slot, h.object]
    rw [State.recheckStep_eq hf, State.recheckStep_eq (h.figures.trans hf), h.object, hlimit, h.worst]
    split
    next => exact h.afterOutcome _
    next => exact h

theorem State.workOn_cycleStep (n : Fin 32) (s : State) : s.WorkOn ((s.ageStep n).triggerStep n) n :=
  (s.workOn_ageStep n).trans ((s.ageStep n).workOn_triggerStep n)

/-! ### The records of a pass through the table -/

/-- Records joined behind the queue of `s`, in the order `le` of their objects, which are in `l`, each of them as `Q` says. -/
def State.Joined (s t : State) (le : Fin 32 → Fin 32 → Prop) (l : List (Fin 32)) (Q : Completion → Prop) : Prop :=
  ∃ made, t.queue = s.queue ++ made ∧ made.Pairwise (fun a b => le a.object b.object) ∧ ∀ c ∈ made, c.object ∈ l ∧ Q c

/-- Going through objects in order, each joining records of its own, joins records in the order of the objects (R99). -/
theorem State.joined_foldl {I : State → Prop} {f : Fin 32 → State → State} {le : Fin 32 → Fin 32 → Prop}
    {Q : Completion → Prop} (hI : ∀ m t, I t → I (f m t)) (hstep : ∀ m t, I t → t.Joined (f m t) le [m] Q) :
    ∀ (l : List (Fin 32)) (s : State), l.Pairwise le → I s → s.Joined (l.foldl (fun t m => f m t) s) le l Q
  | [], s, _, _ => ⟨[], (List.append_nil _).symm, .nil, nofun⟩
  | m :: l, s, hl, hs => by
    rw [List.pairwise_cons] at hl
    obtain ⟨first, hq1, hp1, hc1⟩ := hstep m s hs
    obtain ⟨rest, hq2, hp2, hc2⟩ := State.joined_foldl hI hstep l (f m s) hl.2 (hI m s hs)
    refine ⟨first ++ rest, by rw [List.foldl_cons, hq2, hq1, List.append_assoc], ?_, fun c hc => ?_⟩
    · refine List.pairwise_append.mpr ⟨hp1, hp2, fun a ha b hb => ?_⟩
      rw [List.mem_singleton.mp (hc1 a ha).1]
      exact hl.1 _ (hc2 b hb).1
    · rcases List.mem_append.mp hc with hc | hc
      · exact ⟨List.mem_singleton.mp (hc1 c hc).1 ▸ List.mem_cons_self, (hc1 c hc).2⟩
      · exact ⟨List.mem_cons_of_mem _ (hc2 c hc).1, (hc2 c hc).2⟩

theorem objectNumbers_pairwise : objectNumbers.Pairwise (· < ·) := List.pairwise_lt_finRange 32

/-- A record of the cycle and the window in force, at the present time (R107). -/
def State.Stamps (s : State) (c : Completion) : Prop :=
  c.cycle = s.cycle.cycleNumber.extractLsb' 0 16 ∧ c.window = s.windowIndex ∧ c.time = s.lineTime.extractLsb' 0 32

theorem State.SameButTables.stamps {s t : State} (h : s.SameButTables t) {c : Completion} (hc : t.Stamps c) :
    s.Stamps c := by
  unfold State.Stamps at hc
  rwa [h.cycle, h.windowIndex, h.lineTime] at hc

/-- Work on object n joins records of n, each with the present cycle, window and time. -/
theorem State.WorkOn.joined {s t u : State} {n : Fin 32} (hs : s.SameButTables t) (h : t.WorkOn u n) :
    t.Joined u (· ≤ ·) [n] s.Stamps := by
  obtain ⟨made, hq, -, hc⟩ := h.queue
  refine ⟨made, hq, ?_, fun c hm => ?_⟩
  · exact List.pairwise_of_forall_mem_list fun a ha b hb => by rw [(hc a ha).1, (hc b hb).1]
  · obtain ⟨hn, hcycle, hwindow, htime⟩ := hc c hm
    exact ⟨List.mem_singleton.mpr hn, hs.stamps ⟨hcycle, hwindow, htime⟩⟩

/-- The re-check of an object with a sound request joins at most its NO_FIT record (R110). -/
theorem State.joined_recheckStep {s t : State} (hs : s.SameButTables t) (ht : t.RequestsSound) (n : Fin 32) :
    t.Joined (t.recheckStep n) (· < ·) [n] fun c => c.outcome = .noFit ∧ s.Stamps c := by
  have hnone : t.Joined t (· < ·) [n] fun c => c.outcome = .noFit ∧ s.Stamps c :=
    ⟨[], (List.append_nil _).symm, .nil, nofun⟩
  cases hf : t.figures with
  | none => rw [State.recheckStep_of_no_figures hf]; exact hnone
  | some f =>
    rw [State.recheckStep_eq hf]
    split
    next h =>
      have hre : (t.object n).reRequest = false := Bool.eq_false_iff.mpr fun e => by
        rw [ht.reRequestActive n e] at h; cases h.1
      rw [State.afterOutcome_of_no_reRequest hre]
      by_cases hroom : t.queue.length < 32
      · refine ⟨_, by simp only [State.afterFinish, hroom, if_true]; rfl, List.pairwise_singleton _ _, fun c hc => ?_⟩
        rw [List.mem_singleton] at hc
        subst hc
        exact ⟨List.mem_singleton.mpr rfl, rfl, hs.stamps ⟨rfl, rfl, rfl⟩⟩
      · exact ⟨[], by simp [State.afterFinish, hroom], .nil, nofun⟩
    next => exact hnone

/-- Settles O49: each object meets its own steps as it stood, since no other object's step reaches it; and each step's records
join in object-number order. -/
theorem cycleWorkIsPerObject : Obligations.CycleWorkIsPerObject := by
  unfold Obligations.CycleWorkIsPerObject
  refine fun s => ⟨fun n => ?_, fun n => ?_, ?_, fun hsound => ?_⟩
  · obtain ⟨t, hbeside, hobj⟩ := State.forEachObject_object State.workOn_cycleStep s n
    exact hobj.trans hbeside.sameView.ageStep.triggerStep.object
  · obtain ⟨t, hbeside, hobj⟩ := State.forEachObject_object (fun m t => t.workOn_recheckStep m) s n
    exact hobj.trans hbeside.sameView.recheckStep.object
  · obtain ⟨made, hq, hp, hc⟩ := State.joined_foldl (I := s.SameButTables)
      (fun m t h => h.trans (State.workOn_cycleStep m t).tables)
      (fun m t h => (State.workOn_cycleStep m t).joined h) objectNumbers s
      (objectNumbers_pairwise.imp fun h => Fin.le_of_lt h) (.refl s)
    exact ⟨made, hq, hp, fun c hm => (hc c hm).2⟩
  · obtain ⟨made, hq, hp, hc⟩ := State.joined_foldl (I := fun t => s.SameButTables t ∧ t.RequestsSound)
      (fun m t h => ⟨h.1.trans (t.workOn_recheckStep m).tables, h.2.works (t.works_recheckStep m)⟩)
      (fun m t h => State.joined_recheckStep h.1 h.2 m) objectNumbers s objectNumbers_pairwise ⟨.refl s, hsound⟩
    exact ⟨made, hq, hp, fun c hm => (hc c hm).2⟩

end Sys2Proof.Machine
end

