-- ==== Sys2Proof/Proofs/ScheduleFacts.lean ====
section
/-! The layout of a bank's entries, its validation, its figures and the instant of a switch (R29, R49 to R53, R59, R60). -/

namespace Sys2Proof.Machine

/-! ### Offsets -/

/-- The Durations before the next entry are those before this one and its own, while it is listed. -/
theorem Bank.durationsBefore_succ (bk : Bank) (i : Fin 64) :
    durationsBefore bk.listed (i.val + 1) = durationsBefore bk.listed i.val +
      if i.val < bk.listLength.toNat then (bk.entries[i.val]).duration.toNat else 0 := by
  unfold durationsBefore
  rw [List.take_add_one, bk.listed_getElem?]
  split <;> simp

/-- The effective durations before an entry add up to its offset, the cycle's end at most (R29). -/
theorem Bank.sum_effective (bk : Bank) {i : Nat} (hi : i ≤ 64) :
    ((List.range i).map (fun j => (bk.effective j).getD 0)).sum =
      min (durationsBefore bk.listed i) bk.cycleTime.toNat := by
  induction i with
  | zero => simp
  | succ i ih =>
    have hsucc := bk.durationsBefore_succ ⟨i, hi⟩
    have heffective := bk.effective_eq ⟨i, hi⟩
    simp only at hsucc heffective
    rw [List.range_succ, List.map_append, List.sum_append, ih (Nat.le_of_succ_le hi), hsucc, List.map_cons,
      List.map_nil, List.sum_singleton, heffective]
    by_cases hl : i < bk.listLength.toNat
    · by_cases ho : durationsBefore bk.listed i < bk.cycleTime.toNat
      · simp only [hl, ho, and_self, if_true, Option.getD_some]; omega
      · simp only [ho, and_false, if_false, Option.getD_none]; omega
    · simp [hl]

/-- Settles O8: the effective durations before an entry are its offset, and an offset at the cycle's end or past it is of an
entry not used. -/
theorem entriesAreLaidInOrder : Obligations.EntriesAreLaidInOrder := by
  unfold Obligations.EntriesAreLaidInOrder
  intro bk i
  rw [bk.sum_effective (Nat.le_of_lt i.isLt), bk.effective_eq i]
  by_cases ho : durationsBefore bk.listed i.val < bk.cycleTime.toNat
  · rw [Nat.min_eq_left (Nat.le_of_lt ho)]
  · rw [Nat.min_eq_right (Nat.not_lt.mp ho), if_neg (fun h => ho h.2), if_neg (fun h => Nat.lt_irrefl _ h.2)]

/-! ### Validation -/

/-- Check 3 fails by an entry of the list that is too short (R49). -/
theorem Bank.any_short_iff (bk : Bank) :
    bk.listed.any (fun e => decide (e.duration.toNat < 16)) = true ↔
      ∃ i : Fin 64, i.val < bk.listLength.toNat ∧ (bk.entries[i.val]).duration.toNat < 16 := by
  rw [List.any_eq_true]
  constructor
  · rintro ⟨e, he, hshort⟩
    obtain ⟨i, hi, rfl⟩ := List.mem_iff_getElem.mp he
    have h64 : i < 64 := Nat.lt_of_lt_of_le hi (by simp [Bank.listed])
    have hlisted := bk.listed_getElem? ⟨i, h64⟩
    rw [List.getElem?_eq_getElem hi] at hlisted
    split at hlisted
    next hl =>
      injection hlisted with hlisted
      exact ⟨⟨i, h64⟩, hl, by rw [← hlisted]; exact of_decide_eq_true hshort⟩
    next => cases hlisted
  · rintro ⟨i, hi, hshort⟩
    have hlisted := bk.listed_getElem? i
    rw [if_pos hi] at hlisted
    exact ⟨_, List.mem_of_getElem? hlisted, decide_eq_true hshort⟩

/-- Check 4 passes by a used entry that some class may send in (R49, R50). -/
theorem Bank.all_closed_iff (bk : Bank) :
    bk.used.all (fun u => u.1.classes == 0) = true ↔
      ∀ i : Fin 64, (bk.effective i.val).isSome = true → (bk.entries[i.val]).classes = 0 := by
  rw [List.all_eq_true]
  constructor
  · intro h i hi
    obtain ⟨d, hd⟩ := Option.isSome_iff_exists.mp hi
    exact beq_iff_eq.mp (h (bk.entries[i.val], d) ((bk.mem_used _).mpr ⟨i, hd, rfl⟩))
  · intro h u hu
    obtain ⟨i, hd, he⟩ := (bk.mem_used u).mp hu
    rw [he, beq_iff_eq]
    exact h i (by rw [hd]; rfl)

/-- Entry 0's effective duration in a bank that passes checks 1 and 2 (R29). -/
theorem Bank.effective_zero {bk : Bank} (hl : 1 ≤ bk.listLength.toNat) (hc : 64 ≤ bk.cycleTime.toNat) :
    (bk.effective 0).getD 0 = min (bk.entries[0]).duration.toNat bk.cycleTime.toNat := by
  have h : bk.effective 0 = if 0 < bk.listLength.toNat ∧ 0 < bk.cycleTime.toNat then
      some (min (bk.entries[0]).duration.toNat (bk.cycleTime.toNat - 0)) else none := bk.effective_eq 0
  rw [h, if_pos ⟨hl, by omega⟩]; rfl

theorem syncTime_eq (rate : BitRate) : syncTime rate =
    match rate with
    | .kbit500 => 592
    | .mbit1 => 296
    | .mbit2 => 148
    | .mbit4 => 74 := by cases rate <;> rfl

/-- The five checks as the statement has them; the last reads entry 0 where the first two have passed. -/
theorem Bank.firstFault_eq (bk : Bank) (rate : BitRate) : bk.firstFault rate =
    if ¬(1 ≤ bk.listLength.toNat ∧ bk.listLength.toNat ≤ 64) then some .length
    else if ¬64 ≤ bk.cycleTime.toNat then some .cycle
    else if ¬∀ i : Fin 64, i.val < bk.listLength.toNat → 16 ≤ (bk.entries[i.val]).duration.toNat then some .entry
    else if ¬∃ i : Fin 64, (bk.effective i.val).isSome = true ∧ (bk.entries[i.val]).classes ≠ 0 then some .allClosed
    else if ¬(bk.sync = true → syncTime rate ≤ min (bk.entries[0]).duration.toNat bk.cycleTime.toNat) then some .syncRoom
    else none := by
  have hlength : (bk.listLength = 0 ∨ 64 < bk.listLength.toNat) ↔
      ¬(1 ≤ bk.listLength.toNat ∧ bk.listLength.toNat ≤ 64) := by
    have hzero : bk.listLength = 0 ↔ bk.listLength.toNat = 0 := ⟨fun h => by rw [h]; rfl, fun h => BitVec.eq_of_toNat_eq h⟩
    rw [hzero]; omega
  have hentry : (¬∀ i : Fin 64, i.val < bk.listLength.toNat → 16 ≤ (bk.entries[i.val]).duration.toNat) ↔
      ∃ i : Fin 64, i.val < bk.listLength.toNat ∧ (bk.entries[i.val]).duration.toNat < 16 := by
    simp
  have hclosed : (¬∃ i : Fin 64, (bk.effective i.val).isSome = true ∧ (bk.entries[i.val]).classes ≠ 0) ↔
      ∀ i : Fin 64, (bk.effective i.val).isSome = true → (bk.entries[i.val]).classes = 0 := by
    simp
  unfold Bank.firstFault
  simp only [hlength, Nat.not_le, bk.any_short_iff, bk.all_closed_iff, hentry, hclosed]
  by_cases hl : 1 ≤ bk.listLength.toNat ∧ bk.listLength.toNat ≤ 64
  · by_cases hc : bk.cycleTime.toNat < 64
    · simp only [hl, hc, if_true]
    · rw [Bank.effective_zero hl.1 (Nat.not_lt.mp hc)]
      simp only [Bool.and_eq_true, decide_eq_true_eq, Classical.not_imp, Nat.not_le]
  · simp only [hl, not_false_eq_true, if_true]

/-- Settles O9: the checks in their order, each a branch of `Bank.firstFault_eq`. -/
theorem validationChecksInOrder : Obligations.ValidationChecksInOrder := by
  unfold Obligations.ValidationChecksInOrder
  intro bk rate syncTicks lengthOk cycleOk entriesOk opens syncRoom
  have hfault : bk.firstFault rate =
      if ¬lengthOk then some .length else if ¬cycleOk then some .cycle else if ¬entriesOk then some .entry
      else if ¬opens then some .allClosed else if ¬syncRoom then some .syncRoom else none := by
    have hsync : syncTime rate = syncTicks := syncTime_eq rate
    have hchecks := bk.firstFault_eq rate
    rw [hsync] at hchecks
    exact hchecks
  by_cases hl : lengthOk
  · by_cases hc : cycleOk
    · by_cases he : entriesOk
      · by_cases ho : opens
        · by_cases hs : syncRoom <;> simp [hfault, hl, hc, he, ho, hs]
        · simp [hfault, hl, hc, he, ho]
      · simp [hfault, hl, hc, he]
    · simp [hfault, hl, hc]
  · simp [hfault, hl]

/-! ### Figures -/

/-- The usable durations are those of the 64 entries that have one (R52). -/
theorem Bank.mem_usable (bk : Bank) (rate : BitRate) (u : Entry × Nat) :
    u ∈ bk.usable rate ↔ ∃ i : Fin 64, u.1 = bk.entries[i.val] ∧
      (bk.effective i.val).map (fun d => if i.val = 0 ∧ bk.sync = true then d - 74 * rate.ticksPerBit else d) =
        some u.2 := by
  have husable : ∀ i : Fin 64, (bk.usable rate)[i.val]? = some u ↔ u.1 = bk.entries[i.val] ∧
      (bk.effective i.val).map (fun d => if i.val = 0 ∧ bk.sync = true then d - 74 * rate.ticksPerBit else d) =
        some u.2 := fun i => by
    rw [bk.usable_getElem? rate i]
    cases bk.effective i.val with
    | none => simp
    | some d =>
      obtain ⟨e, w⟩ := u
      simp only [Option.map_some, Option.some.injEq, Prod.mk.injEq, syncTime, Config.syncBits, eq_comm (a := e)]
  have hlength : (bk.usable rate).length ≤ 64 := by
    have hused : (bk.usable rate).length = bk.used.length := by unfold Bank.usable; cases bk.used <;> rfl
    have hlisted : bk.listed.length ≤ 64 := by simp [Bank.listed]
    rw [hused]
    exact (layout_length_le _ _).trans hlisted
  rw [List.mem_iff_getElem?]
  constructor
  · rintro ⟨i, hi⟩
    have h64 : i < 64 := Nat.lt_of_lt_of_le (List.getElem?_eq_some_iff.mp hi).1 hlength
    exact ⟨⟨i, h64⟩, (husable ⟨i, h64⟩).mp hi⟩
  · rintro ⟨i, h⟩
    exact ⟨i.val, (husable i).mpr h⟩

/-- The figure of the entries a test lets through bounds each of them and is one of them, 0 when there is none (R53). -/
theorem Bank.longest_usable (bk : Bank) (rate : BitRate) (p : Entry → Bool) {usable : Fin 64 → Option Nat}
    (husable : ∀ i, usable i = (bk.effective i.val).map
      (fun d => if i.val = 0 ∧ bk.sync = true then d - 74 * rate.ticksPerBit else d)) :
    (∀ i u, usable i = some u → p bk.entries[i.val] = true → u ≤ longest (bk.usable rate) p) ∧
    ((∃ i, usable i = some (longest (bk.usable rate) p) ∧ p bk.entries[i.val] = true) ∨
      longest (bk.usable rate) p = 0 ∧ ∀ i u, usable i = some u → p bk.entries[i.val] = false) := by
  obtain ⟨hbound, hattained⟩ := longest_spec (bk.usable rate) p
  have hmem : ∀ {i : Fin 64} {u : Nat}, usable i = some u → (bk.entries[i.val], u) ∈ bk.usable rate := fun h =>
    (bk.mem_usable rate _).mpr ⟨_, rfl, (husable _).symm.trans h⟩
  refine ⟨fun i u hu hp => hbound _ (hmem hu) hp, ?_⟩
  rcases hattained with ⟨u, hu, hp, hmax⟩ | ⟨hzero, hnone⟩
  · obtain ⟨i, he, hd⟩ := (bk.mem_usable rate u).mp hu
    exact .inl ⟨i, by rw [husable, hd, hmax], he ▸ hp⟩
  · exact .inr ⟨hzero, fun i u hu => hnone _ (hmem hu)⟩

/-- Settles O10: the four figures of the classes and the one of all are the largest of what each speaks of. -/
theorem figuresAreLongestWindows : Obligations.FiguresAreLongestWindows := by
  unfold Obligations.FiguresAreLongestWindows
  intro bk rate usable
  have hspec := fun p => bk.longest_usable rate p (usable := usable) fun _ => rfl
  refine ⟨fun c => ?_, ?_⟩
  · have hfigure : (bk.figures rate).maxOpen[c.val] = longest (bk.usable rate) (fun e => e.classes.getLsbD c.val) := by
      simp [Bank.figures]
    rw [hfigure]
    exact hspec fun e => e.classes.getLsbD c.val
  · have hany := hspec fun e => e.classes != 0
    simp only [bne_iff_ne, bne_eq_false_iff_eq] at hany
    exact hany

/-! ### The instant -/

/-- A tick lies after another when it is 1 to 2^47 ticks ahead of it, modulo 2^48 (log 11). -/
theorem liesAfter_iff (p t : Tick) : liesAfter p t = true ↔ 1 ≤ (p - t).toNat ∧ (p - t).toNat ≤ 2 ^ 47 := by
  unfold liesAfter
  rw [Bool.and_eq_true, bne_iff_ne, decide_eq_true_eq, Ne, ← BitVec.toNat_inj, BitVec.toNat_sub, BitVec.toNat_sub]
  omega

/-- The grid point k cycles on from the base, seen from u (R60). -/
theorem toNat_sub_add_ofNat (u base : Tick) (m : Nat) :
    (u - (base + BitVec.ofNat 48 m)).toNat = ((u - base).toNat + (2 ^ 48 - m % 2 ^ 48)) % 2 ^ 48 := by
  simp only [BitVec.toNat_sub, BitVec.toNat_add, BitVec.toNat_ofNat]
  omega

/-- The least k that takes base to u or past it, when u is 1 to 2^47 - 1 ticks on (R60). -/
theorem ceil_spec {d c : Nat} (hc : 0 < c) (hd : 0 < d) :
    d ≤ (d + c - 1) / c * c ∧ (d + c - 1) / c * c < d + c ∧ ∀ j, j < (d + c - 1) / c → j * c < d := by
  have hdiv := Nat.div_add_mod (d + c - 1) c
  have hmod := Nat.mod_lt (d + c - 1) hc
  rw [Nat.mul_comm] at hdiv
  refine ⟨by omega, by omega, fun j hj => ?_⟩
  have hle : (j + 1) * c ≤ (d + c - 1) / c * c := Nat.mul_le_mul_right c hj
  rw [Nat.add_mul] at hle
  omega

/-- Settles O11: the reference time by whether the frame bound lies ahead; the instant by the least k whose grid point is not
behind. -/
theorem instantIsFirstGridPoint : Obligations.InstantIsFirstGridPoint := by
  unfold Obligations.InstantIsFirstGridPoint
  refine ⟨fun s => ⟨fun hf => ?_, fun fl hf => ?_⟩, ?_⟩
  · unfold State.referenceTime; rw [hf]
  · unfold State.referenceTime
    rw [hf, ← liesAfter_iff]
    exact ⟨fun h => if_pos h, fun h => if_neg h⟩
  · intro u base c k instant hlow hhigh hreckon behind
    unfold reckon at hreckon
    simp only at hreckon
    split at hreckon
    next hnear =>
      injection hreckon with hk hinstant
      subst hk hinstant
      refine ⟨by simp, ?_, nofun, nofun⟩
      simp only [behind]
      omega
    next hfar =>
      injection hreckon with hk hinstant
      obtain ⟨hreach, hshort, hleast⟩ := ceil_spec (c := c) (d := (u - base).toNat) (by omega) (by omega)
      rw [hk] at hreach hshort hleast hinstant
      have hd := (u - base).isLt
      refine ⟨hinstant.symm, ?_, fun j hj => ?_, fun _ => ?_⟩
      · rw [← hinstant]
        simp only [behind, toNat_sub_add_ofNat]
        omega
      · have hbelow := hleast j hj
        simp only [behind, toNat_sub_add_ofNat]
        omega
      · rw [← hinstant, BitVec.toNat_sub, BitVec.toNat_add, BitVec.toNat_ofNat]
        rw [BitVec.toNat_sub] at *
        omega

end Sys2Proof.Machine
end

