-- ==== Sys2Proof/Proofs/HostWrites.lean ====
section
/-! Host writes to the bank halfwords, the object configuration and the payload (R45, R86, R87, R164): what each reads back and
what it leaves. -/

namespace Sys2Proof.Machine

/-! ### Fields of a halfword -/

/-- A field of a field. -/
theorem extractLsb'_extractLsb' {w : Nat} (x : BitVec w) {a n b m : Nat} (h : b + m ≤ n) :
    (x.extractLsb' a n).extractLsb' b m = x.extractLsb' (a + b) m := by
  refine BitVec.eq_of_getLsbD_eq fun i hi => ?_
  have hin : b + i < n := by omega
  simp only [BitVec.getLsbD_extractLsb', hi, hin, decide_true, Bool.true_and, Nat.add_assoc]

/-- One of three halfwords of a 48-bit value replaced. -/
theorem replaceHalf_extract (x : Tick) (data : Halfword) {j k : Nat} (hj : j < 3) (hk : k < 3) :
    (replaceHalf x j data).extractLsb' (16 * k) 16 = if k = j then data else x.extractLsb' (16 * k) 16 := by
  refine BitVec.eq_of_getLsbD_eq fun i hi => ?_
  interval_cases j <;> interval_cases k <;>
    simp only [replaceHalf, BitVec.getLsbD_extractLsb', BitVec.getLsbD_append, hi, decide_true, Bool.true_and] <;> grind

/-! ### Bank halfwords -/

/-- A bank halfword as the register map shows it, entry `e` selected (11.4, offsets 10 to 16). -/
def Bank.word (bk : Bank) (e : Fin 64) : BankReg → Halfword
  | .baseLow => bk.baseTime.extractLsb' (16 * 0) 16
  | .baseMiddle => bk.baseTime.extractLsb' (16 * 1) 16
  | .baseHigh => bk.baseTime.extractLsb' (16 * 2) 16
  | .cycleLow => bk.cycleTime.extractLsb' 0 16
  | .cycleHigh => fieldAt 0 (bk.cycleTime.extractLsb' 16 8) ||| fieldAt 8 bk.listLength ||| bitAt 15 bk.sync
  | .durationLow => (bk.entries[e.val]).duration.extractLsb' 0 16
  | .durationHigh =>
    fieldAt 0 ((bk.entries[e.val]).duration.extractLsb' 16 4) ||| fieldAt 8 (bk.entries[e.val]).classes

theorem State.readHalfword_bankReg (s : State) (reg : BankReg) :
    s.readHalfword reg.offset = s.selectedBank.word s.port.entrySelect reg := by
  cases reg <;> rfl

theorem cycleHigh_fields (data : Halfword) :
    fieldAt 0 (data.extractLsb' 0 8) ||| fieldAt 8 (data.extractLsb' 8 7) ||| bitAt 15 (data.getLsbD 15) = data := by
  refine BitVec.eq_of_getLsbD_eq fun i hi => ?_
  interval_cases i <;> simp [bitAt, fieldAt]

theorem durationHigh_fields (data : Halfword) :
    fieldAt 0 (data.extractLsb' 0 4) ||| fieldAt 8 (data.extractLsb' 8 4) = data &&& 0x0F0F := by
  refine BitVec.eq_of_getLsbD_eq fun i hi => ?_
  interval_cases i <;> simp [fieldAt]

/-- What every bank halfword reads after one was written (R45, R164). -/
theorem Bank.word_write (bk : Bank) (e : Fin 64) (reg other : BankReg) (data : Halfword) :
    (bk.write e reg data).word e other =
      if other = reg then (if reg = .durationHigh then data &&& 0x0F0F else data) else bk.word e other := by
  cases reg with
  | baseLow | baseMiddle | baseHigh =>
    cases other with
    | baseLow | baseMiddle | baseHigh => exact replaceHalf_extract _ _ (by decide) (by decide)
    | cycleLow | cycleHigh | durationLow | durationHigh => rfl
  | cycleLow =>
    cases other with
    | cycleLow => exact BitVec.extractLsb'_append_eq_right
    | cycleHigh => simp only [Bank.word, Bank.write, BitVec.extractLsb'_append_eq_left]; rfl
    | baseLow | baseMiddle | baseHigh | durationLow | durationHigh => rfl
  | cycleHigh =>
    cases other with
    | cycleLow => exact BitVec.extractLsb'_append_eq_right
    | cycleHigh => simp only [Bank.word, Bank.write, BitVec.extractLsb'_append_eq_left]; exact cycleHigh_fields data
    | baseLow | baseMiddle | baseHigh | durationLow | durationHigh => rfl
  | durationLow =>
    cases other with
    | durationLow =>
      simp only [Bank.word, Bank.write, Vector.getElem_set_self]; exact BitVec.extractLsb'_append_eq_right
    | durationHigh => simp only [Bank.word, Bank.write, Vector.getElem_set_self, BitVec.extractLsb'_append_eq_left]; rfl
    | baseLow | baseMiddle | baseHigh | cycleLow | cycleHigh => rfl
  | durationHigh =>
    cases other with
    | durationLow =>
      simp only [Bank.word, Bank.write, Vector.getElem_set_self]; exact BitVec.extractLsb'_append_eq_right
    | durationHigh =>
      simp only [Bank.word, Bank.write, Vector.getElem_set_self, BitVec.extractLsb'_append_eq_left]
      exact durationHigh_fields data
    | baseLow | baseMiddle | baseHigh | cycleLow | cycleHigh => rfl

/-- A write to a bank halfword leaves every entry but the selected one. -/
theorem Bank.write_other_entry (bk : Bank) {e i : Fin 64} (reg : BankReg) (data : Halfword) (h : i ≠ e) :
    (bk.write e reg data).entries[i.val] = bk.entries[i.val] := by
  have hne : e.val ≠ i.val := fun k => h (Fin.ext k.symm)
  cases reg with
  | baseLow | baseMiddle | baseHigh | cycleLow | cycleHigh => rfl
  | durationLow | durationHigh => exact Vector.getElem_set_ne e.isLt i.isLt hne

theorem State.isLocked_iff (s : State) (b : BankId) :
    s.isLocked b = true ↔ s.sw.pending = true ∧ s.sw.target = some b := by
  simp [State.isLocked]

/-- Settles O31: the write by the role and the lock of the selected bank, and each halfword read back. -/
theorem bankWriteReachesShadowOnly : Obligations.BankWriteReachesShadowOnly := by
  unfold Obligations.BankWriteReachesShadowOnly
  intro s reg data hans b e
  have hexec : exec (.bankWrite reg data) s = .next (s.writeBank reg data) :=
    congrArg Host.Outcome.next (State.takeWrite_answers hans _)
  unfold State.writeBank at hexec
  refine ⟨fun hactive => ?_, fun hshadow hlocked => ?_, fun hshadow hfree => ?_⟩
  · rw [hexec, if_pos hactive]
  · rw [hexec, if_neg hshadow, if_pos ((s.isLocked_iff b).mpr hlocked)]
  · rw [hexec, if_neg hshadow, if_neg (mt (s.isLocked_iff b).mp hfree)]
    have hread : ∀ other : BankReg, (s.setBank b ((s.bank b).write e reg data)).readHalfword other.offset =
        ((s.bank b).write e reg data).word e other := fun other => by
      rw [State.readHalfword_bankReg, State.selectedBank, State.setBank_port, State.bank_setBank_self]
    refine ⟨(s.bank b).write e reg data, rfl, ?_, fun other hother => ?_, fun i hi => Bank.write_other_entry _ reg data hi,
      State.bank_setBank_ne _ _ ?_⟩
    · rw [hread, Bank.word_write, if_pos rfl]
    · rw [hread, Bank.word_write, if_neg hother, State.readHalfword_bankReg]; rfl
    · cases b <;> decide

/-! ### Object configuration halfwords -/

/-- The place of an object configuration halfword among the four (11.4, offsets 18 to 21). -/
def objRegPlace : ObjReg → Nat
  | .conf0 => 0
  | .conf1 => 1
  | .conf2 => 2
  | .conf3 => 3

theorem State.readHalfword_objReg (s : State) (reg : ObjReg) :
    s.readHalfword reg.offset = s.selectedObject.config.word (objRegPlace reg) := by
  cases reg <;> rfl

/-- The fields of an object configuration halfword that has them, as a mask (11.4). -/
def objRegMask : ObjReg → Halfword
  | .conf0 => 0x3FFF
  | .conf1 => 0x3FFF
  | .conf2 => 0x00FF
  | .conf3 => 0x7F7F

theorem ObjConfig.word_write_self (c : ObjConfig) (reg : ObjReg) (data : Halfword) :
    (c.write reg data).word (objRegPlace reg) = data &&& objRegMask reg := by
  have hkind : ((if data.getLsbD 5 then ObjKind.poll else .command) == .poll) = data.getLsbD 5 := by
    cases data.getLsbD 5 <;> rfl
  have htrigger : ((if data.getLsbD 12 then Trigger.cyclic else .host) == .cyclic) = data.getLsbD 12 := by
    cases data.getLsbD 12 <;> rfl
  refine BitVec.eq_of_getLsbD_eq fun i hi => ?_
  cases reg <;> simp only [ObjConfig.word, ObjConfig.write, objRegPlace, objRegMask, hkind, htrigger] <;>
    interval_cases i <;> simp [bitAt, fieldAt]

theorem ObjConfig.word_write_other (c : ObjConfig) {reg other : ObjReg} (data : Halfword) (h : other ≠ reg) :
    (c.write reg data).word (objRegPlace other) = c.word (objRegPlace other) := by
  cases reg <;> cases other
  case conf0.conf0 | conf1.conf1 | conf2.conf2 | conf3.conf3 => exact absurd rfl h
  all_goals rfl

/-! ### The payload -/

/-- A payload halfword replaced: its two bytes, and no other (R87). -/
theorem writePayload_getElem (p : Vector Byte 16) (k : BitVec 3) (data : Halfword) (j : Fin 16) :
    (writePayload p k data)[j.val] =
      if j.val = 2 * k.toNat then data.extractLsb' 0 8
      else if j.val = 2 * k.toNat + 1 then data.extractLsb' 8 8
      else p[j.val] := by
  unfold writePayload
  simp only [Vector.getElem_set]
  by_cases hlow : j.val = 2 * k.toNat
  · rw [if_neg (by omega), if_pos hlow.symm, if_pos hlow]
  · by_cases hhigh : j.val = 2 * k.toNat + 1
    · rw [if_pos hhigh.symm, if_neg hlow, if_pos hhigh]
    · rw [if_neg (Ne.symm hhigh), if_neg (Ne.symm hlow), if_neg hlow, if_neg hhigh]

/-- Settles O32: the two writes by the selected object's state, and what reads back. -/
theorem objectWritesByState : Obligations.ObjectWritesByState := by
  unfold Obligations.ObjectWritesByState
  intro s data hans n o
  refine ⟨fun reg => ?_, fun k => ?_⟩
  · have hexec : exec (.objectConfigurationWrite reg data) s = .next (s.writeObjConfig reg data) :=
      congrArg Host.Outcome.next (State.takeWrite_answers hans _)
    unfold State.writeObjConfig at hexec
    refine ⟨fun hs => ⟨o.config.write reg data, hexec.trans (congrArg _ (if_pos hs)), ?_, fun other hother => ?_⟩,
      fun hs => hexec.trans (congrArg _ (if_neg hs))⟩
    · rw [State.readHalfword_objReg, State.selectedObject, State.setObject_port, State.object_setObject_self]
      refine (ObjConfig.word_write_self _ reg data).trans ?_
      cases reg <;> rfl
    · rw [State.readHalfword_objReg, State.readHalfword_objReg, State.selectedObject, State.setObject_port,
        State.object_setObject_self]
      exact ObjConfig.word_write_other _ data hother
  · have hexec : exec (.payloadWrite k data) s = .next (s.writePayloadHalf k data) :=
      congrArg Host.Outcome.next (State.takeWrite_answers hans _)
    unfold State.writePayloadHalf at hexec
    refine ⟨fun hs => ⟨writePayload o.payload k data, hexec.trans (congrArg _ (if_pos hs)),
      writePayload_getElem o.payload k data⟩, fun hs => hexec.trans (congrArg _ (if_neg ?_))⟩
    show ¬(o.state = .disabled ∨ o.state = .idle)
    rcases hs with hs | hs <;> simp [hs]

end Sys2Proof.Machine
end

