-- ==== Sys2Proof/Proofs/Frames.lean ====
section
/-! The bytes of a frame: the CRC that ends it (R5), the frames the part sends and their worst case (R3 to R6, R22, R90, R131), and
the places of a reply's bytes (R14). -/

namespace Sys2Proof.Machine

/-! ### The CRC -/

/-- A register fed its own top bits shifts them out (R5). -/
theorem crcBit_shift {c : BitVec 16} {b : Bool} {k : Nat} (hk : k ≤ 15) (hb : b = c.getLsbD (15 - k)) :
    crcBit (c <<< k) b = c <<< (k + 1) := by
  have htop : (c <<< k).getLsbD 15 = b := by
    have hlow : ¬15 < k := Nat.not_lt.mpr hk
    rw [hb, BitVec.getLsbD_shiftLeft]; simp [hlow]
  unfold crcBit
  rw [htop, Bool.xor_self, if_neg Bool.false_ne_true, ← BitVec.shiftLeft_add]

/-- A byte that is what stands at the top of the register, shifted j places, shifts it out. -/
theorem crcByte_shift {c : BitVec 16} {d : Byte} {j : Nat} (hj : j ≤ 8)
    (hd : ∀ i, i < 8 → d.getLsbD i = c.getLsbD (8 + i - j)) : crcByte (c <<< j) d = c <<< (j + 8) := by
  have hbit : ∀ k, k < 8 → crcBit (c <<< (j + k)) (d.getLsbD (7 - k)) = c <<< (j + (k + 1)) := fun k hk => by
    rw [crcBit_shift (by omega) (by rw [hd _ (by omega)]; congr 1; omega)]; rfl
  have h0 := hbit 0 (by decide)
  rw [Nat.add_zero] at h0
  simp only [crcByte, List.foldl_cons, List.foldl_nil]
  rw [h0, hbit 1 (by decide), hbit 2 (by decide), hbit 3 (by decide), hbit 4 (by decide), hbit 5 (by decide),
    hbit 6 (by decide), hbit 7 (by decide)]

/-- A run of bytes ended by its CRC, high byte first, leaves the register at 0000h (R5). -/
theorem crcOf_append_crc (bytes : List Byte) :
    crcOf (bytes ++ [(crcOf bytes).extractLsb' 8 8, (crcOf bytes).extractLsb' 0 8]) = 0 := by
  generalize hc : crcOf bytes = c
  have hrun : crcOf (bytes ++ [c.extractLsb' 8 8, c.extractLsb' 0 8]) =
      crcByte (crcByte (c <<< 0) (c.extractLsb' 8 8)) (c.extractLsb' 0 8) := by
    rw [BitVec.shiftLeft_zero, ← hc]
    simp only [crcOf, List.foldl_append, List.foldl_cons, List.foldl_nil]
  rw [hrun, crcByte_shift (j := 0) (by decide), crcByte_shift (j := 8) (by decide)]
  · exact BitVec.shiftLeft_eq_zero (by decide)
  · intro i hi
    simp only [BitVec.getLsbD_extractLsb', hi, decide_true, Bool.true_and]
    congr 1; omega
  · intro i hi
    simp only [BitVec.getLsbD_extractLsb', hi, decide_true, Bool.true_and]
    rfl

/-- The check value of R5. -/
theorem crcOf_check_value : crcOf [0x31, 0x32, 0x33, 0x34, 0x35, 0x36, 0x37, 0x38, 0x39] = 0x29B1 := by
  have h1 : crcByte 0xFFFF 0x31 = 0xC782 := by decide
  have h2 : crcByte 0xC782 0x32 = 0x3DBA := by decide
  have h3 : crcByte 0x3DBA 0x33 = 0x5BCE := by decide
  have h4 : crcByte 0x5BCE 0x34 = 0x5349 := by decide
  have h5 : crcByte 0x5349 0x35 = 0x4560 := by decide
  have h6 : crcByte 0x4560 0x36 = 0x2EF4 := by decide
  have h7 : crcByte 0x2EF4 0x37 = 0x7718 := by decide
  have h8 : crcByte 0x7718 0x38 = 0xA12B := by decide
  have h9 : crcByte 0xA12B 0x39 = 0x29B1 := by decide
  simp only [crcOf, List.foldl_cons, List.foldl_nil, h1, h2, h3, h4, h5, h6, h7, h8, h9]

theorem crcOf_buildFrame (address : BitVec 5) (type : BitVec 3) (tag : BitVec 5) (toggle resync : Bool)
    (payload : List Byte) : crcOf (buildFrame address type tag toggle resync payload) = 0 :=
  crcOf_append_crc _

/-! ### The frames sent -/

theorem buildFrame_length (address : BitVec 5) (type : BitVec 3) (tag : BitVec 5) (toggle resync : Bool)
    (payload : List Byte) : (buildFrame address type tag toggle resync payload).length = payload.length + 5 := by
  simp [buildFrame]

theorem buildFrame_getD_header (address : BitVec 5) (type : BitVec 3) (tag : BitVec 5) (toggle resync : Bool)
    (payload : List Byte) : (buildFrame address type tag toggle resync payload).getD 0 0 = type ++ address := rfl

theorem buildFrame_getD_control (address : BitVec 5) (type : BitVec 3) (tag : BitVec 5) (toggle resync : Bool)
    (payload : List Byte) : (buildFrame address type tag toggle resync payload).getD 1 0 =
      0#1 ++ BitVec.ofBool resync ++ BitVec.ofBool toggle ++ tag := rfl

theorem buildFrame_getD_length (address : BitVec 5) (type : BitVec 3) (tag : BitVec 5) (toggle resync : Bool)
    (payload : List Byte) : (buildFrame address type tag toggle resync payload).getD 2 0 =
      BitVec.ofNat 8 payload.length := rfl

theorem buildFrame_getD_payload (address : BitVec 5) (type : BitVec 3) (tag : BitVec 5) (toggle resync : Bool)
    {payload : List Byte} {j : Nat} (h : j < payload.length) :
    (buildFrame address type tag toggle resync payload).getD (3 + j) 0 = payload.getD j 0 := by
  simp only [buildFrame, List.getD_eq_getElem?_getD]
  rw [List.getElem?_append_left (by simp; omega), List.getElem?_append_right (by simp)]
  simp

/-- The control byte's fields (R3, R6). -/
theorem control_fields (toggle resync : Bool) (tag : BitVec 5) :
    (0#1 ++ BitVec.ofBool resync ++ BitVec.ofBool toggle ++ tag : Byte).extractLsb' 0 5 = tag ∧
    (0#1 ++ BitVec.ofBool resync ++ BitVec.ofBool toggle ++ tag : Byte).getLsbD 5 = toggle ∧
    (0#1 ++ BitVec.ofBool resync ++ BitVec.ofBool toggle ++ tag : Byte).getLsbD 6 = resync ∧
    (0#1 ++ BitVec.ofBool resync ++ BitVec.ofBool toggle ++ tag : Byte).getLsbD 7 = false := by
  refine ⟨BitVec.extractLsb'_append_eq_right, ?_, ?_, ?_⟩ <;> simp only [BitVec.getLsbD_append] <;> simp

theorem State.nodeToggle_eq (s : State) (a : BitVec 5) : s.nodeToggle a =
    if h : 1 ≤ a.toNat ∧ a.toNat ≤ 30 then (s.nodeRecord ⟨a.toNat - 1, by omega⟩).toggle else none := by
  unfold State.nodeToggle nodeIndex
  split <;> split <;> simp_all

theorem ObjConfig.exchangeKind_of_poll {c : ObjConfig} (h : c.kind = .poll) : c.exchangeKind = .poll := by
  unfold ObjConfig.exchangeKind; rw [h]

theorem ObjConfig.exchangeKind_of_command {c : ObjConfig} (h : c.kind = .command) :
    c.node = 31 ∧ c.exchangeKind = .broadcast ∨ c.node ≠ 31 ∧ c.exchangeKind = .command := by
  unfold ObjConfig.exchangeKind
  rw [h]
  by_cases hn : c.node = 31
  · exact .inl ⟨hn, if_pos hn⟩
  · exact .inr ⟨hn, if_neg hn⟩

/-- The payload and the type of an object's request frame (R6, R129). -/
def MsgObject.requestBytes (o : MsgObject) : List Byte :=
  match o.config.kind with
  | .poll => []
  | .command => o.payload.toList.take o.config.length.toNat

def ObjConfig.requestType (c : ObjConfig) : BitVec 3 :=
  match c.kind with
  | .poll => typePoll
  | .command => typeCommand

theorem State.requestFrame_eq (s : State) (n : Fin 32) : s.requestFrame n =
    buildFrame (s.object n).config.node (s.object n).config.requestType (BitVec.ofNat 5 n.val) (s.frameToggle n).1
      (s.frameToggle n).2 (s.object n).requestBytes := by
  unfold State.requestFrame ObjConfig.requestType MsgObject.requestBytes
  cases hk : (s.object n).config.kind with
  | poll => simp only [ObjConfig.exchangeKind_of_poll hk]
  | command =>
    rcases ObjConfig.exchangeKind_of_command hk with ⟨-, he⟩ | ⟨-, he⟩ <;> simp only [he]

/-- Toggle and Resync of a request frame: those of the node record in a COMMAND to a node, else 0 (R131). -/
theorem State.frameToggle_of_toNode {s : State} {n : Fin 32} (hk : (s.object n).config.kind = .command)
    (hn : (s.object n).config.node ≠ 31) : s.frameToggle n = toggleBits (s.nodeToggle (s.object n).config.node) := by
  unfold State.frameToggle
  rcases ObjConfig.exchangeKind_of_command hk with ⟨h, -⟩ | ⟨-, he⟩
  · exact absurd h hn
  · simp only [he]

theorem State.frameToggle_of_not_toNode {s : State} {n : Fin 32}
    (h : ¬((s.object n).config.kind = .command ∧ (s.object n).config.node ≠ 31)) : s.frameToggle n = (false, false) := by
  unfold State.frameToggle
  cases hk : (s.object n).config.kind with
  | poll => simp only [ObjConfig.exchangeKind_of_poll hk]
  | command =>
    rcases ObjConfig.exchangeKind_of_command hk with ⟨-, he⟩ | ⟨hn, -⟩
    · simp only [he]
    · exact absurd ⟨hk, hn⟩ h

theorem toggleBits_iff (t : Option Bool) :
    ((toggleBits t).1 = true ↔ t = some true) ∧ ((toggleBits t).2 = true ↔ t = none) := by
  cases t with
  | none => simp [toggleBits]
  | some b => simp [toggleBits]

theorem ObjConfig.length_le {c : ObjConfig} (h : c.valid = true) (hk : c.kind = .command) : c.length.toNat ≤ 16 := by
  unfold ObjConfig.valid at h
  simp only [hk, Bool.and_eq_true, decide_eq_true_eq] at h
  exact h.1.1.2

/-- Settles O47: every frame the part builds ends in its CRC; a request frame's fields by its object; W by its exchange. -/
theorem framesAndWorstCase : Obligations.FramesAndWorstCase := by
  unfold Obligations.FramesAndWorstCase
  refine ⟨crcOf_check_value, crcOf_append_crc, fun number => ⟨_, _, rfl, crcOf_buildFrame _ _ _ _ _ _⟩, ?_⟩
  intro s n hvalid o c frame tog toNode
  have hframe : frame = buildFrame c.node c.requestType (BitVec.ofNat 5 n.val) (s.frameToggle n).1 (s.frameToggle n).2
      o.requestBytes := s.requestFrame_eq n
  obtain ⟨htag, htoggle, hresync, hattention⟩ := control_fields (s.frameToggle n).1 (s.frameToggle n).2 (BitVec.ofNat 5 n.val)
  rw [hframe, crcOf_buildFrame, buildFrame_getD_header, buildFrame_getD_control, buildFrame_getD_length, buildFrame_length,
    htag, htoggle, hresync, hattention, BitVec.extractLsb'_append_eq_left, BitVec.extractLsb'_append_eq_right]
  refine ⟨rfl, rfl, by simp, rfl, fun hto => ?_, fun hto => ?_, fun hk => ?_, fun hk => ?_⟩
  · rw [State.frameToggle_of_toNode hto.1 hto.2, State.nodeToggle_eq]
    exact toggleBits_iff tog
  · rw [State.frameToggle_of_not_toNode hto]; exact ⟨rfl, rfl⟩
  · have hlength : c.length.toNat ≤ 16 := ObjConfig.length_le hvalid hk
    have hbytes : o.requestBytes = o.payload.toList.take c.length.toNat := by
      unfold MsgObject.requestBytes; rw [show o.config.kind = _ from hk]
    have hcount : o.requestBytes.length = c.length.toNat := by rw [hbytes]; simp [hlength]
    refine ⟨by rw [hcount], by unfold ObjConfig.requestType; rw [hk]; rfl, ?_, fun j hj => ?_, ?_⟩
    · rw [hcount, BitVec.toNat_ofNat]; omega
    · rw [buildFrame_getD_payload _ _ _ _ _ (by rw [hcount]; exact hj), hbytes]
      simp [hj]
    · unfold State.worst worstBits
      rw [Nat.mul_comm]
      rcases ObjConfig.exchangeKind_of_command hk with ⟨hn, he⟩ | ⟨hn, he⟩
      · rw [show (s.object n).config.exchangeKind = _ from he, if_pos hn]
      · rw [show (s.object n).config.exchangeKind = _ from he, if_neg hn]
  · have hbytes : o.requestBytes = [] := by unfold MsgObject.requestBytes; rw [show o.config.kind = _ from hk]
    refine ⟨by rw [hbytes]; rfl, by unfold ObjConfig.requestType; rw [hk]; rfl, by rw [hbytes]; rfl, ?_⟩
    unfold State.worst worstBits
    rw [show (s.object n).config.exchangeKind = _ from ObjConfig.exchangeKind_of_poll hk, Nat.mul_comm]

/-! ### The places of a reply's bytes -/

/-- What the buffer holds of the bytes `read` of a reply of Length `size` (R3, R14). -/
structure Staging.Holds (g : Staging) (read : List Byte) (size : Fin 17) : Prop where
  count : g.count = read.length
  crc : g.crc = crcOf read
  header : 1 ≤ read.length →
    g.address = (read.getD 0 0).extractLsb' 0 5 ∧ g.type = (read.getD 0 0).extractLsb' 5 3
  control : 2 ≤ read.length →
    g.tag = (read.getD 1 0).extractLsb' 0 5 ∧ g.toggle = (read.getD 1 0).getLsbD 5 ∧ g.attention = (read.getD 1 0).getLsbD 7
  length : 3 ≤ read.length → g.length = read.getD 2 0
  payload : ∀ j : Fin 16, g.payload[j.val] =
    if j.val < size.val ∧ 3 + j.val < read.length then read.getD (3 + j.val) 0 else 0

theorem Staging.empty_holds (size : Fin 17) : Staging.empty.Holds [] size where
  count := rfl
  crc := rfl
  header h := absurd h (by decide)
  control h := absurd h (by decide)
  length h := absurd h (by decide)
  payload j := by simp [Staging.empty]

theorem getD_append_left {read : List Byte} {d : Byte} {i : Nat} (h : i < read.length) :
    (read ++ [d]).getD i 0 = read.getD i 0 := by
  simp only [List.getD_eq_getElem?_getD, List.getElem?_append_left h]

theorem getD_append_right {read : List Byte} {d : Byte} {i : Nat} (h : i = read.length) : (read ++ [d]).getD i 0 = d := by
  simp [h]

theorem crcOf_append_singleton (read : List Byte) (d : Byte) : crcOf (read ++ [d]) = crcByte (crcOf read) d := by
  simp only [crcOf, List.foldl_append, List.foldl_cons, List.foldl_nil]

/-- A byte stored at one of the first three places (R3). -/
theorem Staging.store_eq_of_head {g : Staging} (d : Byte) (h : g.count < 3) : g.store d = { g with
    crc := crcByte g.crc d, count := g.count + 1
    address := if g.count = 0 then d.extractLsb' 0 5 else g.address
    type := if g.count = 0 then d.extractLsb' 5 3 else g.type
    tag := if g.count = 1 then d.extractLsb' 0 5 else g.tag
    toggle := if g.count = 1 then d.getLsbD 5 else g.toggle
    attention := if g.count = 1 then d.getLsbD 7 else g.attention
    length := if g.count = 2 then d else g.length } := by
  unfold Staging.store
  obtain hc | hc | hc : g.count = 0 ∨ g.count = 1 ∨ g.count = 2 := by omega
  all_goals simp only [hc]; rfl

/-- A byte stored behind the first three: a payload byte below Length, else of the CRC alone (R3). -/
theorem Staging.store_eq_of_tail {g : Staging} (d : Byte) {k : Nat} (h : g.count = k + 3) : g.store d = { g with
    crc := crcByte g.crc d, count := g.count + 1
    payload := if hk : k < 16 then (if k < g.length.toNat then g.payload.set k d hk else g.payload) else g.payload } := by
  unfold Staging.store
  simp only [h]
  split
  next => split <;> rfl
  next => rfl

/-- A payload byte stored is at its own place alone. -/
theorem payload_set_getElem (p : Vector Byte 16) (d : Byte) (k bound : Nat) (j : Fin 16) :
    (if hk : k < 16 then (if k < bound then p.set k d hk else p) else p)[j.val] =
      if j.val = k ∧ k < bound then d else p[j.val] := by
  have hj := j.isLt
  split
  next hk =>
    split
    next hb =>
      rw [Vector.getElem_set]
      simp only [hb, and_true, eq_comm (a := k)]
    next hb => exact (if_neg fun h => hb h.2).symm
  next hk => exact (if_neg fun h : j.val = k ∧ k < bound => hk (h.1 ▸ hj)).symm

/-- The next byte goes to its place (R3, R14). -/
theorem Staging.Holds.store {g : Staging} {read : List Byte} {size : Fin 17} (h : g.Holds read size) (d : Byte)
    (hsize : 3 ≤ read.length → read.getD 2 0 = BitVec.ofNat 8 size.val) : (g.store d).Holds (read ++ [d]) size := by
  obtain ⟨hcount, hcrc, hheader, hcontrol, hlength, hpayload⟩ := h
  have hnew : (read ++ [d]).length = read.length + 1 := by simp
  by_cases hhead : g.count < 3
  · rw [Staging.store_eq_of_head d hhead]
    refine ⟨by rw [hnew, ← hcount], by rw [crcOf_append_singleton, hcrc], fun _ => ?_, fun h => ?_, fun h => ?_, fun j => ?_⟩
    · by_cases h0 : g.count = 0
      · rw [getD_append_right (by omega)]; simp only [h0, if_true, and_self]
      · rw [getD_append_left (by omega)]; simp only [h0, if_false]; exact hheader (by omega)
    · by_cases h1 : g.count = 1
      · rw [getD_append_right (by omega)]; simp only [h1, if_true, and_self]
      · rw [getD_append_left (by omega)]; simp only [h1, if_false]; exact hcontrol (by omega)
    · have h2 : g.count = 2 := by omega
      rw [getD_append_right (by omega)]; simp only [h2, if_true]
    · rw [hpayload, if_neg (by omega), if_neg (by omega)]
  · obtain ⟨k, hk⟩ : ∃ k, g.count = k + 3 := ⟨g.count - 3, by omega⟩
    have hbound : g.length.toNat = size.val := by
      rw [hlength (by omega), hsize (by omega), BitVec.toNat_ofNat]; omega
    rw [Staging.store_eq_of_tail d hk, hbound]
    refine ⟨by rw [hnew, ← hcount], by rw [crcOf_append_singleton, hcrc], fun _ => ?_, fun _ => ?_, fun _ => ?_, fun j => ?_⟩
    · rw [getD_append_left (by omega)]; exact hheader (by omega)
    · rw [getD_append_left (by omega)]; exact hcontrol (by omega)
    · rw [getD_append_left (by omega)]; exact hlength (by omega)
    · rw [payload_set_getElem, hpayload]
      by_cases hj : j.val = k
      · by_cases hb : k < size.val
        · rw [if_pos ⟨hj, hb⟩, if_pos (by omega), getD_append_right (by omega)]
        · rw [if_neg (by omega), if_neg (by omega), if_neg (by omega)]
      · rw [if_neg (by omega)]
        by_cases hin : j.val < size.val ∧ 3 + j.val < read.length
        · rw [if_pos hin, if_pos (by omega), getD_append_left hin.2]
        · rw [if_neg hin, if_neg (by omega)]

/-- The bytes of a reply, read in turn. -/
theorem Staging.holds_foldl {size : Fin 17} : ∀ (rest read : List Byte) {g : Staging}, g.Holds read size →
    (3 ≤ (read ++ rest).length → (read ++ rest).getD 2 0 = BitVec.ofNat 8 size.val) →
    (rest.foldl Staging.store g).Holds (read ++ rest) size
  | [], read, g, h, _ => by rw [List.append_nil]; exact h
  | d :: rest, read, g, h, hsize => by
    have happend : read ++ d :: rest = (read ++ [d]) ++ rest := by simp
    rw [happend] at hsize ⊢
    refine Staging.holds_foldl rest (read ++ [d]) (h.store d fun h3 => ?_) hsize
    have hall := hsize (by simp; omega)
    rw [List.append_assoc, List.getD_append _ _ _ _ (by omega)] at hall
    exact hall

/-- Settles O39: the buffer holds what was read, byte by byte. -/
theorem replyBytesAreStored : Obligations.ReplyBytesAreStored := by
  unfold Obligations.ReplyBytesAreStored
  intro bytes size hlen hlength g
  obtain ⟨hcount, hcrc, hheader, hcontrol, hsize, hpayload⟩ :=
    Staging.holds_foldl bytes [] (Staging.empty_holds size) fun _ => hlength
  obtain ⟨haddress, htype⟩ := hheader (by simp [hlen])
  obtain ⟨htag, htoggle, hattention⟩ := hcontrol (by simp [hlen])
  refine ⟨hcount.trans hlen, hcrc, haddress, htype, htag, htoggle, hattention, (hsize (by simp [hlen])).trans hlength,
    fun j => (hpayload j).trans ?_⟩
  by_cases hj : j.val < size.val
  · rw [if_pos ⟨hj, by rw [List.nil_append, hlen]; omega⟩, if_pos hj]; rfl
  · rw [if_neg (fun h => hj h.1), if_neg hj]

end Sys2Proof.Machine
end

