-- ==== Sys2Proof/Proofs/BusAndReset.lean ====
section
/-! Bus writes and the commands they are (R161, R162, R164), and the ticks after RESET# rises (R23, R167). -/

namespace Sys2Proof.Machine

/-! ### Command words -/

@[simp] theorem commandWord_code (code arg : BitVec 8) : (commandWord code arg).extractLsb' 0 8 = code :=
  BitVec.extractLsb'_append_eq_right

@[simp] theorem commandWord_arg (code arg : BitVec 8) : (commandWord code arg).extractLsb' 8 8 = arg :=
  BitVec.extractLsb'_append_eq_left

/-- A code that is not listed is UNKNOWN_COMMAND with its argument (R162). -/
theorem commandOf_of_not_listed {data : Halfword} (h : isListedCode (data.extractLsb' 0 8) = false) :
    commandOf data = .unknownCommand (data.extractLsb' 0 8) (data.extractLsb' 8 8) := by
  have hcode : ∀ k : Nat, isListedCode (BitVec.ofNat 8 k) = true → (data.extractLsb' 0 8).toNat ≠ k := fun k hk e => by
    rw [← e, BitVec.ofNat_toNat, BitVec.setWidth_eq, h] at hk; cases hk
  unfold commandOf
  simp only
  split
  case h_15 => rfl
  all_goals
    next hk => exact absurd hk (hcode _ (by decide))

/-- A write to an offset that writes do not reach is REGISTER_WRITE (R161). -/
theorem busWrite_of_not_writable {offset : BitVec 7} (h : isWritableOffset offset = false) (data : Halfword) :
    busWrite offset data = .registerWrite offset data := by
  have hoffset : ∀ k : Nat, isWritableOffset (BitVec.ofNat 7 k) = true → offset.toNat ≠ k := fun k hk e => by
    rw [← e, BitVec.ofNat_toNat, BitVec.setWidth_eq, h] at hk; cases hk
  unfold busWrite
  split
  case h_29 => rfl
  all_goals
    next hk => exact absurd hk (hoffset _ (by decide))

/-- The bus write of a command of its row reads back as that command (R161, R162, R164). -/
theorem busWrite_busWord {i : Instr} {offset : BitVec 7} {data : Halfword} (hi : i.wellFormed = true)
    (h : busWord i = some (offset, data)) : busWrite offset data = i := by
  have hcommand : ∀ d, busWrite 0 d = commandOf d := fun _ => rfl
  cases i with
  | switch | switchCancel | schedStop | schedResume | lineReset | objEnable | objDisable | objRequest | objWithdraw
  | objRelease | objInsert | nodeRevive | queuePop | countersClear =>
    injection h with h
    injection h with hoffset hdata
    rw [← hoffset, ← hdata, hcommand, commandOf, commandWord_code, commandWord_arg]; rfl
  | unknownCommand code arg =>
    injection h with h
    injection h with hoffset hdata
    have hcode : isListedCode code = false := by simpa [Instr.wellFormed] using hi
    rw [← hoffset, ← hdata, hcommand, commandOf_of_not_listed (by rw [commandWord_code]; exact hcode), commandWord_code,
      commandWord_arg]
  | lineConfigurationWrite reg d | bankWrite reg d | objectConfigurationWrite reg d | selectWrite reg d =>
    injection h with h
    injection h with hoffset hdata
    rw [← hoffset, ← hdata]
    cases reg <;> rfl
  | payloadWrite k d =>
    injection h with h
    injection h with hoffset hdata
    rw [← hoffset, ← hdata]
    obtain ⟨k, rfl⟩ : ∃ m : Fin 8, k = BitVec.ofFin m := ⟨k.toFin, rfl⟩
    fin_cases k <;> rfl
  | eventFlagsWrite d | eventEnablesWrite d | accessDeniedRecordClear d =>
    injection h with h
    injection h with hoffset hdata
    rw [← hoffset, ← hdata]; rfl
  | registerWrite o d =>
    injection h with h
    injection h with hoffset hdata
    rw [← hoffset, ← hdata]
    exact busWrite_of_not_writable (by simpa [Instr.wellFormed] using hi) d
  | _ => cases h

/-- Every command written to offset 0 is of its row, and its bus write carries its code (R162). -/
theorem commandOf_busWord (data : Halfword) : (commandOf data).wellFormed = true ∧
    ∃ d, busWord (commandOf data) = some (0, d) ∧ d.extractLsb' 0 8 = data.extractLsb' 0 8 := by
  have hword : ∀ {k : Nat} (arg : BitVec 8), (data.extractLsb' 0 8).toNat = k →
      (commandWord (BitVec.ofNat 8 k) arg).extractLsb' 0 8 = data.extractLsb' 0 8 := fun arg hk => by
    rw [commandWord_code, ← hk, BitVec.ofNat_toNat, BitVec.setWidth_eq]
  cases hcode : isListedCode (data.extractLsb' 0 8) with
  | false =>
    rw [commandOf_of_not_listed hcode]
    exact ⟨by simp [Instr.wellFormed, hcode], _, rfl, commandWord_code _ _⟩
  | true =>
    unfold commandOf
    simp only
    split
    case h_15 h1 h2 h3 h4 h5 h8 h9 hA hB hC hD h10 h11 h12 =>
      simp only [isListedCode, List.mem_cons, List.not_mem_nil, or_false, decide_eq_true_eq, ← BitVec.toNat_inj] at hcode
      exact absurd hcode (by simp only [not_or]; exact ⟨h1, h2, h3, h4, h5, h8, h9, hA, hB, hC, hD, h10, h11, h12⟩)
    all_goals
      next hk => exact ⟨rfl, _, rfl, hword _ hk⟩

/-- Every bus write is a command of its row, whose own bus write has its offset and code; only the argument byte of a command
without argument may differ (R161, R162, R164). -/
theorem busWrite_wellFormed (offset : BitVec 7) (data : Halfword) : (busWrite offset data).wellFormed = true ∧
    ∃ d, busWord (busWrite offset data) = some (offset, d) ∧ d.extractLsb' 0 8 = data.extractLsb' 0 8 ∧
      (offset ≠ 0 → d = data) := by
  cases hoffset : isWritableOffset offset with
  | false =>
    rw [busWrite_of_not_writable hoffset]
    exact ⟨by simp [Instr.wellFormed, hoffset], data, rfl, rfl, fun _ => rfl⟩
  | true =>
    have hnum : ∀ {k : Nat}, offset.toNat = k → offset = BitVec.ofNat 7 k := fun hk => by
      rw [← hk, BitVec.ofNat_toNat, BitVec.setWidth_eq]
    unfold busWrite
    split
    case h_1 hk =>
      rw [hnum hk]
      obtain ⟨hwell, d, hword, hcode⟩ := commandOf_busWord data
      exact ⟨hwell, d, hword, hcode, fun h => absurd rfl h⟩
    case h_29 =>
      simp only [isWritableOffset, Bool.or_eq_true, Bool.and_eq_true, beq_iff_eq, decide_eq_true_eq] at hoffset
      grind
    all_goals
      next hk =>
        rw [hnum hk]
        exact ⟨rfl, data, rfl, rfl, fun _ => rfl⟩

/-- Settles O2: both directions, the second with the first, as the bus write of a command reads back. -/
theorem busWritesAndCommandsAgree : Obligations.BusWritesAndCommandsAgree := by
  unfold Obligations.BusWritesAndCommandsAgree
  refine ⟨fun i offset data => busWrite_busWord, fun offset data => ?_⟩
  obtain ⟨hwell, d, hword, hcode, hsame⟩ := busWrite_wellFormed offset data
  exact ⟨hwell, d, hword, busWrite_busWord hwell hword, hcode, hsame⟩

/-! ### RESET# rising, and the ticks after it -/

theorem exec_lineTimeTick_low {s : State} (h : s.port.resetLow = true) : exec .lineTimeTick s = .next s := by
  simp [exec, execLineTimeTick, h]

theorem exec_resetRelease_low {s : State} (h : s.port.resetLow = true) :
    exec .resetRelease s = .next { s with port := { s.port with resetLow := false, wait := 8 } } := by
  simp [exec, execResetRelease, h]; rfl

theorem exec_resetRelease_high {s : State} (h : s.port.resetLow = false) : exec .resetRelease s = .next s := by
  simp [exec, execResetRelease, h]

/-- A run of n ticks with RESET# high moves Line Time, the wait of the port and `gapEndedNow` alone (R23, R167). -/
theorem State.runSteps_ticks_eq (n : Nat) (s : State) (hlow : s.port.resetLow = false)
    (hpend : s.pending = List.replicate n .lineTimeTick) :
    s.runSteps n = .next { s with
      pending := []
      lineTime := s.lineTime + BitVec.ofNat 48 n
      port := { s.port with wait := s.port.wait - n }
      engine := { s.engine with gapEndedNow := if n = 0 then s.engine.gapEndedNow else false } } := by
  induction n generalizing s with
  | zero =>
    rw [State.runSteps_zero]
    simp only [List.replicate_zero] at hpend
    simp [← hpend]
  | succ n ih =>
    have hstep := (step_of_pending hpend).trans (exec_lineTimeTick (s := { s with pending := _ }) hlow)
    refine (State.runSteps_succ hstep n).trans ((ih _ ?_ rfl).trans ?_)
    case refine_1 => exact hlow
    have htime : s.lineTime + 1 + BitVec.ofNat 48 n = s.lineTime + BitVec.ofNat 48 (n + 1) := by
      rw [BitVec.add_assoc, Nat.add_comm n 1, BitVec.ofNat_add]; rfl
    have hwait : s.port.wait - 1 - n = s.port.wait - (n + 1) := by omega
    have hgap : (if n = 0 then false else false) = if n + 1 = 0 then s.engine.gapEndedNow else false := by simp
    rw [← htime, ← hwait, ← hgap]

/-- Settles O6: the two commands, then the run of RESET_RELEASE and n ticks. -/
theorem resetReleaseAndTicks : Obligations.ResetReleaseAndTicks := by
  unfold Obligations.ResetReleaseAndTicks
  refine ⟨fun s => ⟨exec_lineTimeTick, exec_lineTimeTick_low⟩, fun s => ⟨exec_resetRelease_low, exec_resetRelease_high⟩,
    fun s n hlow hpend => ?_⟩
  have hstep := (step_of_pending hpend).trans (exec_resetRelease_low (s := { s with pending := _ }) hlow)
  refine ⟨_, (State.runSteps_succ hstep n).trans (State.runSteps_ticks_eq n _ rfl rfl), rfl, ?_⟩
  simp [State.portAnswers]
  omega

end Sys2Proof.Machine
end

