-- ==== Sys2Proof/Proofs/HostCommands.lean ====
section
/-! One step, the rows' own commands, arguments out of range, and the commands that reach one record, the queue or the two
counters (11.2). -/

namespace Sys2Proof.Machine

/-! ### Steps and rows -/

/-- Settles O1: one equation for each kind of queue. -/
theorem stepRunsFrontCommand : Obligations.StepRunsFrontCommand := by
  unfold Obligations.StepRunsFrontCommand
  refine fun s => ⟨fun h => ?_, fun c rest h => step_of_pending h⟩
  unfold step
  rw [h]

/-- The two rows whose commands have operands of their own refuse the others; every other command is a next state. -/
theorem exec_of_wellFormed (i : Instr) (s : State) :
    (i.wellFormed = true → ∃ t, exec i s = .next t) ∧ (i.wellFormed = false → exec i s = .refused .otherRow) := by
  cases i
  case unknownCommand code arg =>
    simp only [Instr.wellFormed, exec, execUnknownCommand]
    cases isListedCode code <;> simp
  case registerWrite offset data =>
    simp only [Instr.wellFormed, exec, execRegisterWrite]
    cases isWritableOffset offset <;> simp
  all_goals exact ⟨fun _ => ⟨_, rfl⟩, nofun⟩

/-- Settles O3. -/
theorem commandsOfTheirRowComplete : Obligations.CommandsOfTheirRowComplete := exec_of_wellFormed

/-! ### Arguments out of range -/

theorem State.onObject_none {arg : BitVec 8} (h : 32 ≤ arg.toNat) (s : State)
    (f : Fin 32 → State → State × ResultCode) : s.onObject arg f = (s, .badArg) := by
  rw [State.onObject, objectArgument_none h]

@[simp] theorem State.onObject_ofNat (s : State) (n : Fin 32) (f : Fin 32 → State → State × ResultCode) :
    s.onObject (BitVec.ofNat 8 n.val) f = f n s := by
  rw [State.onObject, objectArgument_ofNat]

/-- A command on object n, once it is taken (R162). -/
theorem State.takeCommand_onObject {s : State} (h : s.portAnswers = true) (code : BitVec 8) (n : Fin 32)
    (f : Fin 32 → State → State × ResultCode) :
    s.takeCommand code (fun t => t.onObject (BitVec.ofNat 8 n.val) f) = (f n s).1.answer code (f n s).2 := by
  rw [State.takeCommand_answers h, State.onObject_ofNat]

/-- Settles O26: objects from 32 on, nodes 0 and from 31 on, and the codes of no row. -/
theorem badArgumentsAndCodes : Obligations.BadArgumentsAndCodes := by
  unfold Obligations.BadArgumentsAndCodes
  intro s arg hport
  have bad : ∀ code f, 32 ≤ arg.toNat →
      (Host.Outcome.next (s.takeCommand code fun t => t.onObject arg f) : Host.Outcome State Fault Refusal) =
        .next (s.answer code .badArg) := fun code f h => by
    rw [State.takeCommand_answers hport, State.onObject_none h]
  refine ⟨fun h => ⟨bad _ _ h, bad _ _ h, bad _ _ h, bad _ _ h, bad _ _ h, bad _ _ h⟩, fun h => ?_, fun code h => ?_⟩
  · rw [exec, execNodeRevive, State.takeCommand_answers hport, nodeArgument_none h]
  · rw [exec, execUnknownCommand, h, State.takeCommand_answers hport]
    exact if_neg Bool.false_ne_true

/-! ### NODE_REVIVE, QUEUE_POP and COUNTERS_CLEAR -/

theorem State.revive_of_silent {s : State} {i : Fin 30} (h : (s.nodeRecord i).state = .silent) :
    s.revive i = (s.setNode i { s.nodeRecord i with state := .unknown, missCount := 0, toggle := none }, .ok) :=
  if_pos h

theorem State.revive_of_not_silent {s : State} {i : Fin 30} (h : (s.nodeRecord i).state ≠ .silent) :
    s.revive i = (s, .badState) := if_neg h

theorem exec_nodeRevive {s : State} (h : s.portAnswers = true) (i : Fin 30) :
    exec (.nodeRevive (BitVec.ofNat 8 (i.val + 1))) s = .next ((s.revive i).1.answer 0x10 (s.revive i).2) := by
  rw [exec, execNodeRevive, State.takeCommand_answers h, nodeArgument_ofNat]

/-- Settles O27. -/
theorem nodeReviveByState : Obligations.NodeReviveByState := by
  unfold Obligations.NodeReviveByState
  refine fun s i hport => ⟨fun h => (exec_nodeRevive hport i).trans ?_, fun h => (exec_nodeRevive hport i).trans ?_⟩
  · rw [State.revive_of_silent h]
  · rw [State.revive_of_not_silent h]

/-- Settles O29. -/
theorem countersClearTwoCounters : Obligations.CountersClearTwoCounters :=
  fun _ hport => congrArg Host.Outcome.next (State.takeCommand_answers hport _ _)

theorem State.pop_of_empty {s : State} (h : s.queue = []) : s.pop = (s, .queueEmpty) := by
  unfold State.pop; rw [h]

theorem State.pop_of_cons {s : State} {c : Completion} {rest : List Completion} (h : s.queue = c :: rest) :
    s.pop = ({ s with queue := rest }, .ok) := by
  unfold State.pop; rw [h]

theorem exec_queuePop {s : State} (h : s.portAnswers = true) :
    exec .queuePop s = .next (s.pop.1.answer 0x11 s.pop.2) := by
  rw [exec, execQueuePop, State.takeCommand_answers h]

end Sys2Proof.Machine
end

