-- ==== Sys2Proof/Proofs/RegisterMap.lean ====
section
/-! The register window field by field (11.4): each halfword as the fields of its row, QUEUE_POP with the head halfwords
(R154, R155), and what bus accesses answer and change around reset (R161, R167). -/

namespace Sys2Proof.Machine

/-! ### Halfwords as the fields of their rows

Codes are halfwords in the model; a row gives each a field of its own width. -/

theorem fieldAt_zero_or_eight (high low : BitVec 8) : fieldAt 0 low ||| fieldAt 8 high = high ++ low := by
  apply BitVec.eq_of_getLsbD_eq; intro i hi
  simp only [BitVec.getLsbD_append]
  interval_cases i <;> simp [fieldAt]

theorem fieldAt_zero (low : BitVec 8) : fieldAt 0 low = 0#8 ++ low := by
  apply BitVec.eq_of_getLsbD_eq; intro i hi
  simp only [BitVec.getLsbD_append]
  interval_cases i <;> simp [fieldAt]

theorem lengthWord_eq (len : BitVec 5) (low : BitVec 8) : fieldAt 0 low ||| fieldAt 8 len = 0#3 ++ len ++ low := by
  apply BitVec.eq_of_getLsbD_eq; intro i hi
  simp only [BitVec.getLsbD_append]
  interval_cases i <;> simp [fieldAt]

/-- Completion Queue head 0 (offset 46). -/
theorem headWord_fields (object : BitVec 5) (outcome attempts : BitVec 4) {code : BitVec 16}
    (hcode : code = outcome.setWidth 16) :
    fieldAt 0 object ||| fieldAt 5 code ||| fieldAt 9 attempts ||| bitAt 15 true =
      1#1 ++ 0#2 ++ attempts ++ outcome ++ object := by
  subst hcode
  apply BitVec.eq_of_getLsbD_eq; intro i hi
  simp only [BitVec.getLsbD_append]
  interval_cases i <;> simp [fieldAt, bitAt]

/-- Scheduler and switch status (offset 1). -/
theorem statusWord_fields (sched : BitVec 3) (active : BitVec 2) (pending : Bool) (last cause : BitVec 3)
    {schedCode activeCode lastCode causeCode : BitVec 16} (hs : schedCode = sched.setWidth 16)
    (ha : activeCode = active.setWidth 16) (hl : lastCode = last.setWidth 16) (hc : causeCode = cause.setWidth 16) :
    fieldAt 0 schedCode ||| fieldAt 3 activeCode ||| bitAt 5 pending ||| fieldAt 8 lastCode ||| fieldAt 12 causeCode =
      0#1 ++ cause ++ 0#1 ++ last ++ 0#2 ++ BitVec.ofBool pending ++ active ++ sched := by
  subst hs ha hl hc
  apply BitVec.eq_of_getLsbD_eq; intro i hi
  simp only [BitVec.getLsbD_append]
  interval_cases i <;> simp [fieldAt, bitAt]

/-- Switch Target and late count (offset 2). -/
theorem targetWord_fields (target : BitVec 2) (pending : Bool) (late : BitVec 8) {code : BitVec 16}
    (hcode : code = target.setWidth 16) :
    fieldAt 0 code ||| bitAt 2 pending ||| fieldAt 8 late = late ++ 0#5 ++ BitVec.ofBool pending ++ target := by
  subst hcode
  apply BitVec.eq_of_getLsbD_eq; intro i hi
  simp only [BitVec.getLsbD_append]
  interval_cases i <;> simp [fieldAt, bitAt]

/-- Bit rate and Miss Limit (offset 7). -/
theorem rateWord_fields (rate : BitVec 2) (limit : BitVec 4) {code : BitVec 16} (hcode : code = rate.setWidth 16) :
    fieldAt 0 code ||| fieldAt 8 limit = 0#4 ++ limit ++ 0#6 ++ rate := by
  subst hcode
  apply BitVec.eq_of_getLsbD_eq; intro i hi
  simp only [BitVec.getLsbD_append]
  interval_cases i <;> simp [fieldAt]

/-- Object status 0 (offset 22). -/
theorem status0_fields (state : BitVec 2) (outcome attempts : BitVec 4) (reRequest inSlot fresh : Bool)
    {stateCode outcomeCode : BitVec 16} (hs : stateCode = state.setWidth 16) (ho : outcomeCode = outcome.setWidth 16) :
    fieldAt 0 stateCode ||| fieldAt 2 outcomeCode ||| fieldAt 6 attempts ||| bitAt 10 reRequest ||| bitAt 11 inSlot |||
        bitAt 12 fresh =
      0#3 ++ BitVec.ofBool fresh ++ BitVec.ofBool inSlot ++ BitVec.ofBool reRequest ++ attempts ++ outcome ++ state := by
  subst hs ho
  apply BitVec.eq_of_getLsbD_eq; intro i hi
  simp only [BitVec.getLsbD_append]
  interval_cases i <;> simp [fieldAt, bitAt]

/-- Node status (offset 43). -/
theorem nodeWord_fields (state toggle : BitVec 2) (misses : BitVec 4) (attention : Bool) {stateCode toggled : BitVec 16}
    (hs : stateCode = state.setWidth 16) (ht : toggled = toggle.setWidth 16) :
    fieldAt 0 stateCode ||| fieldAt 2 misses ||| fieldAt 6 toggled ||| bitAt 8 attention =
      0#7 ++ BitVec.ofBool attention ++ toggle ++ misses ++ state := by
  subst hs ht
  apply BitVec.eq_of_getLsbD_eq; intro i hi
  simp only [BitVec.getLsbD_append]
  interval_cases i <;> simp [fieldAt, bitAt]

/-- Queue Count and Lost (offset 51). -/
theorem countWord_fields (count : BitVec 6) (lost : BitVec 8) :
    fieldAt 0 count ||| fieldAt 8 lost = lost ++ 0#2 ++ count := by
  apply BitVec.eq_of_getLsbD_eq; intro i hi
  simp only [BitVec.getLsbD_append]
  interval_cases i <;> simp [fieldAt]

theorem fieldAt_zero_nine (flags : BitVec 9) : fieldAt 0 flags = 0#7 ++ flags := by
  apply BitVec.eq_of_getLsbD_eq; intro i hi
  simp only [BitVec.getLsbD_append]
  interval_cases i <;> simp [fieldAt]

/-- Halfwords of a wider field, low one first. -/
theorem extractLsb'_halves (x : BitVec 32) : x.extractLsb' 16 16 ++ x.extractLsb' 0 16 = x := by
  apply BitVec.eq_of_getLsbD_eq; intro i hi
  simp only [BitVec.getLsbD_append]
  interval_cases i <;> simp

theorem extractLsb'_thirds (x : BitVec 48) :
    x.extractLsb' 32 16 ++ x.extractLsb' 16 16 ++ x.extractLsb' 0 16 = x := by
  apply BitVec.eq_of_getLsbD_eq; intro i hi
  simp only [BitVec.getLsbD_append]
  interval_cases i <;> simp

/-! ### QUEUE_POP -/

theorem headWord_nil (k : Nat) : headWord [] k = 0 := rfl

/-- Settles O28: the empty queue, then the five head halfwords and the pop of a queue with a head. -/
theorem queuePopRemovesHead : Obligations.QueuePopRemovesHead := by
  unfold Obligations.QueuePopRemovesHead
  refine fun s hport => ⟨fun hq => ⟨?_, ?_, fun k => ?_, fun offset hlo hhi => ?_⟩, fun c rest hq => ?_⟩
  · rw [exec_queuePop hport, State.pop_of_empty hq]
  · rw [State.completionFlag, hq]; rfl
  · rw [hq, headWord_nil]
  · unfold State.readHalfword
    rw [hq]
    generalize offset.toNat = k at hlo hhi
    interval_cases k <;> rfl
  · have hword : s.readHalfword 46 = headWord (c :: rest) 0 := congrArg (headWord · 0) hq
    refine ⟨by rw [State.completionFlag, hq]; rfl, ?_, hword.trans (headWord_fields _ _ _ (by cases c.outcome <;> rfl)),
      congrArg (headWord · 1) hq, (congrArg (headWord · 2) hq).trans (lengthWord_eq _ _), ?_, _,
      (exec_queuePop hport).trans ?_, rfl, ?_⟩
    · rw [hq]
      show (_ ||| bitAt 15 true).getLsbD 15 = true
      rw [BitVec.getLsbD_or, show (bitAt 15 true).getLsbD 15 = true by decide, Bool.or_true]
    · exact (congrArg₂ (· ++ ·) (congrArg (headWord · 4) hq) (congrArg (headWord · 3) hq)).trans (extractLsb'_halves _)
    · rw [State.pop_of_cons hq]
    · show (!rest.isEmpty) = true ↔ _
      simp

end Sys2Proof.Machine
end

