-- ==== Sys2Proof/Proofs/StatusReads.lean ====
section
/-! What bus accesses answer and change, around reset and in the status halfwords (11.3, 11.4; R161, R167). -/

namespace Sys2Proof.Machine

/-! ### Accesses that are not taken -/

theorem State.takeCommand_unanswered {s : State} (h : s.portAnswers = false) (code : BitVec 8)
    (f : State → State × ResultCode) : s.takeCommand code f = s := by
  simp [State.takeCommand, h]

theorem State.takeWrite_unanswered {s : State} (h : s.portAnswers = false) (f : State → State) : s.takeWrite f = s := by
  simp [State.takeWrite, h]

/-- While the port does not answer no host write is taken (R167). -/
theorem exec_of_busWord_unanswered {s : State} (h : s.portAnswers = false) {i : Instr} (hbus : (busWord i).isSome = true)
    (hwell : i.wellFormed = true) : exec i s = .next s := by
  cases i
  case unknownCommand code arg =>
    have hcode : isListedCode code = false := by simpa [Instr.wellFormed] using hwell
    rw [exec, execUnknownCommand, hcode, State.takeCommand_unanswered h]
    exact if_neg Bool.false_ne_true
  case registerWrite offset data => exact exec_registerWrite (by simpa [Instr.wellFormed] using hwell) data s
  case pinReset | resetRelease | lineTimeLowRead | switchInstant | cycleStart | windowBoundary | cycPulseEnd | byteSent
      | replyStart | replyTimeout | replyByteReceived | truncatedReply | drainEnd | gapEnd | lineTimeTick
      | drainCountRestart => cases hbus
  case lineConfigurationWrite | bankWrite | objectConfigurationWrite | payloadWrite | selectWrite | eventFlagsWrite
      | eventEnablesWrite | accessDeniedRecordClear =>
    exact congrArg Host.Outcome.next (State.takeWrite_unanswered h _)
  all_goals exact congrArg Host.Outcome.next (State.takeCommand_unanswered h _ _)

theorem State.portAnswers_of_low {s : State} (h : s.port.resetLow = true) : s.portAnswers = false := by
  simp [State.portAnswers, h]

/-! ### Buffers -/

theorem bufferWord_eq (p : Vector Byte 16) (k : Fin 8) : bufferWord p k.val = p[2 * k.val + 1] ++ p[2 * k.val] := by
  have hk := k.isLt
  have hodd : 2 * k.val + 1 < 16 := by omega
  have heven : 2 * k.val < 16 := by omega
  simp [bufferWord, List.getD_eq_getElem?_getD, hodd, heven]

/-- Event flags (offset 52). -/
theorem flagsWord_fields (denied start fault attention silent failed done lost completion : Bool) :
    fieldAt 0 (BitVec.ofBool denied ++ BitVec.ofBool start ++ BitVec.ofBool fault ++ BitVec.ofBool attention ++
        BitVec.ofBool silent ++ BitVec.ofBool failed ++ BitVec.ofBool done ++ BitVec.ofBool lost ++
        BitVec.ofBool completion) =
      0#7 ++ BitVec.ofBool denied ++ BitVec.ofBool start ++ BitVec.ofBool fault ++ BitVec.ofBool attention ++
        BitVec.ofBool silent ++ BitVec.ofBool failed ++ BitVec.ofBool done ++ BitVec.ofBool lost ++
        BitVec.ofBool completion := by
  rw [fieldAt_zero_nine]
  apply BitVec.eq_of_getLsbD_eq; intro i hi
  simp only [BitVec.getLsbD_append]
  interval_cases i <;> rfl

theorem State.readHalfword_payload (s : State) (k : Fin 8) :
    s.readHalfword (BitVec.ofNat 7 (26 + k.val)) = bufferWord s.selectedObject.payload k.val := by
  fin_cases k <;> rfl

theorem State.readHalfword_reply (s : State) (k : Fin 8) :
    s.readHalfword (BitVec.ofNat 7 (34 + k.val)) = bufferWord s.selectedObject.reply k.val := by
  fin_cases k <;> rfl

theorem State.readHalfword_unmapped (s : State) {offset : BitVec 7} (h : 64 ≤ offset.toNat) :
    s.readHalfword offset = 0 := by
  unfold State.readHalfword
  split <;> try omega
  rfl

/-- Window (offset 59): the index of the window in force, or 255. -/
theorem windowWord_eq (w : Option (Fin 64)) :
    fieldAt 0 (match w with | some k => BitVec.ofNat 8 k.val | none => 255) =
      (match w with | none => 255 | some k => BitVec.ofNat 16 k.val) := by
  cases w with
  | none => rfl
  | some k => revert k; decide

/-- Settles O4: the accesses that are not taken, the reads around reset, then the status halfwords in the order of the
map. -/
theorem readsAnswerAndIgnoredAccessesChangeNothing : Obligations.ReadsAnswerAndIgnoredAccessesChangeNothing := by
  unfold Obligations.ReadsAnswerAndIgnoredAccessesChangeNothing
  refine ⟨fun i s h => exec_of_busWord_unanswered h, fun s h => ⟨fun hlow => ?_, fun hlow => ?_⟩,
    fun offset data s h => exec_registerWrite h data s,
    fun s offset => ⟨fun h => State.hostRead_of_low h offset, fun hlow h => State.hostRead_of_waiting h hlow offset,
      fun h => State.hostRead_of_answers h offset, s.readHalfword_unmapped⟩,
    fun s hlow => ⟨_, execLineTimeLowRead_eq s, ?_⟩, fun s => ?_⟩
  · refine (execLineTimeLowRead_eq s).trans ?_
    rw [if_pos hlow]
  · refine (execLineTimeLowRead_eq s).trans ?_
    simp [hlow, h]
  · cases h : s.portAnswers
    · rw [State.hostRead_of_waiting h hlow]; simp [hlow]
    · rw [State.hostRead_of_answers h]; simp [hlow]; rfl
  · dsimp only
    refine ⟨(fieldAt_zero_or_eight _ _).trans (congrArg _ (by cases s.port.result <;> rfl)),
      statusWord_fields _ _ _ _ _ (by cases s.sched <;> rfl) (by rcases s.activeBank with _ | _ | _ <;> rfl)
        (by cases s.sw.lastResult <;> rfl) (by cases s.sw.cause <;> rfl),
      targetWord_fields _ _ _ (by rcases s.sw.target with _ | _ | _ <;> rfl), extractLsb'_thirds _, rfl,
      rateWord_fields _ _ (by cases s.config.bitRate <;> rfl), fieldAt_zero_or_eight _ _,
      status0_fields _ _ _ _ _ _ (by unfold State.selectedObject; cases (s.object s.port.objectSelect).state <;> rfl)
        (by unfold State.selectedObject; rcases (s.object s.port.objectSelect).lastOutcome with _ | _ | _ <;> rfl),
      lengthWord_eq _ _, fieldAt_zero_or_eight _ _, fieldAt_zero _,
      fun k => ⟨(s.readHalfword_payload k).trans (bufferWord_eq _ k), (s.readHalfword_reply k).trans (bufferWord_eq _ k)⟩,
      nodeWord_fields _ _ _ _ (by unfold State.selectedNode; cases (s.nodeRecord s.port.nodeSelect).state <;> rfl)
        (by unfold State.selectedNode; rcases (s.nodeRecord s.port.nodeSelect).toggle with _ | _ | _ <;> rfl),
      rfl, fieldAt_zero _, countWord_fields _ _, flagsWord_fields _ _ _ _ _ _ _ _ _, fieldAt_zero_nine _, extractLsb'_halves _,
      windowWord_eq _, rfl, rfl, rfl⟩

end Sys2Proof.Machine
end

