-- ==== Sys2Proof/Proofs/HostWindow.lean ====
section
/-! Pin reset as the register map shows it (R167), and the host's writes to the Line Configuration, the selects and the
events (R85, R163, R156, R158). -/

namespace Sys2Proof.Machine

/-! ### PIN_RESET -/

theorem State.holdReset_readHalfword (s : State) (offset : BitVec 7) :
    s.holdReset.readHalfword offset = resetHalfword offset := by
  have hall : ∀ k : Fin 128, ({ State.reset with port := { HostPort.reset with resetLow := true } } : State).readHalfword
      (BitVec.ofFin k) = resetHalfword (BitVec.ofFin k) := by decide
  exact hall offset.toFin

theorem State.holdReset_bank (s : State) (b : BankId) : s.holdReset.bank b = Bank.reset := by cases b <;> rfl

theorem State.holdReset_object (s : State) (n : Fin 32) : s.holdReset.object n = MsgObject.reset := by
  show (Vector.replicate 32 MsgObject.reset)[n.val] = _
  simp

theorem State.holdReset_nodeRecord (s : State) (i : Fin 30) : s.holdReset.nodeRecord i = NodeRecord.reset := by
  show (Vector.replicate 30 NodeRecord.reset)[i.val] = _
  simp

theorem State.holdReset_intLow (s : State) : s.holdReset.intLow = false := by
  simp [State.intLow, State.holdReset, State.reset]

/-- Settles O5: block by block, the register map through its 128 offsets. -/
theorem pinResetSetsEveryBlock : Obligations.PinResetSetsEveryBlock := by
  unfold Obligations.PinResetSetsEveryBlock
  refine fun s => ⟨s.holdReset, rfl, rfl, rfl, rfl, rfl, fun offset => ⟨rfl, s.holdReset_readHalfword offset⟩, rfl,
    fun b => ?_, rfl, rfl, rfl, rfl, rfl, rfl, rfl, s.holdReset_object, rfl, rfl, rfl, rfl, rfl, rfl, rfl, fun i => ?_,
    rfl, rfl, rfl, rfl, s.holdReset_intLow, rfl, rfl, rfl⟩
  · rw [State.holdReset_bank]
    exact ⟨rfl, rfl, rfl, rfl, fun i => by show (Vector.replicate 64 _)[i.val] = _; simp⟩
  · rw [State.holdReset_nodeRecord]
    exact ⟨rfl, rfl, rfl, rfl, rfl, rfl⟩

/-! ### LINE_CONFIGURATION_WRITE -/

theorem State.writeLineConfig_of_off {s : State} (h : s.sched = .off) (reg : LineReg) (data : Halfword) :
    s.writeLineConfig reg data = { s with
      config := s.config.write reg data
      nodes := if (s.config.write reg data).missLimit = s.config.missLimit then s.nodes
        else s.nodes.map (NodeRecord.withinLimit (s.config.write reg data).missLimit) } := if_pos h

theorem State.writeLineConfig_of_not_off {s : State} (h : s.sched ≠ .off) (reg : LineReg) (data : Halfword) :
    s.writeLineConfig reg data = s.deny reg.offset .schedState := if_neg h

/-- A Miss Count brought within the Miss Limit, or below it where the node is not SILENT (R85). -/
theorem NodeRecord.withinLimit_eq (limit : BitVec 4) (r : NodeRecord) :
    r.withinLimit limit = { r with missCount :=
      if r.state = .silent then (if limit.toNat < r.missCount.toNat then limit else r.missCount)
      else if limit.toNat ≤ r.missCount.toNat then limit - 1 else r.missCount } := by
  unfold NodeRecord.withinLimit
  simp only [BitVec.lt_def, BitVec.le_def]
  split <;> split <;> rfl

theorem bitRateOf_code (x : BitVec 2) : (bitRateOf x).code = x.setWidth 16 := by revert x; decide

theorem exec_lineConfigurationWrite {s : State} (h : s.portAnswers = true) (reg : LineReg) (data : Halfword) :
    exec (.lineConfigurationWrite reg data) s = .next (s.writeLineConfig reg data) :=
  congrArg Host.Outcome.next (State.takeWrite_answers h _)

/-- Settles O30: the two halfwords in OFF, then the denial. -/
theorem lineConfigurationWriteInOff : Obligations.LineConfigurationWriteInOff := by
  unfold Obligations.LineConfigurationWriteInOff
  refine fun s data hport => ⟨fun hoff => ⟨?_, _, exec_lineConfigurationWrite hport _ _, ?_⟩, fun hoff reg => ?_⟩
  · rw [exec_lineConfigurationWrite hport, State.writeLineConfig_of_off hoff]
    simp [LineConfig.write, BitVec.lt_def]
  · rw [State.writeLineConfig_of_off hoff]
    refine ⟨bitRateOf_code _, rfl, fun i => ?_, rfl⟩
    by_cases hm : (s.config.write .rateAndMiss data).missLimit = s.config.missLimit
    · simp [State.nodeRecord, hm]
    · simp only [State.nodeRecord, hm, if_false, Vector.getElem_map]
      exact NodeRecord.withinLimit_eq _ _
  · rw [exec_lineConfigurationWrite hport, State.writeLineConfig_of_not_off hoff]

/-! ### SELECT_WRITE -/

theorem exec_selectWrite {s : State} (h : s.portAnswers = true) (reg : SelectReg) (data : Halfword) :
    exec (.selectWrite reg data) s = .next (s.writeSelect reg data) :=
  congrArg Host.Outcome.next (State.takeWrite_answers h _)

theorem bankSelectOf_eq (data : Halfword) : bankSelectOf data = if data.getLsbD 0 then .bankB else .bankA := by
  have hbit : (data.extractLsb' 0 2).toNat % 2 = if data.getLsbD 0 then 1 else 0 := by
    rw [BitVec.extractLsb'_toNat, BitVec.getLsbD, Nat.testBit_zero]
    simp only [Nat.shiftRight_zero]
    split <;> simp_all
  unfold bankSelectOf
  rw [hbit]
  cases data.getLsbD 0 <;> rfl

theorem entrySelectOf_val (data : Halfword) : (entrySelectOf data).val = data.toNat / 256 % 64 := by
  show (data.extractLsb' 8 7).toNat % 64 = _
  rw [BitVec.extractLsb'_toNat, Nat.shiftRight_eq_div_pow]
  omega

/-- The bank select halfword reads its three fields back. -/
theorem bankSelectWord_eq (data : Halfword) :
    fieldAt 0 (BitVec.ofBool (bankSelectOf data == .bankB)) ||| fieldAt 8 (BitVec.ofNat 7 (entrySelectOf data).val) =
      data &&& 0x3F01 := by
  have hbank : (bankSelectOf data == .bankB) = data.getLsbD 0 := by
    rw [bankSelectOf_eq]; cases data.getLsbD 0 <;> rfl
  have hentry : BitVec.ofNat 7 (entrySelectOf data).val = (data.extractLsb' 8 6).setWidth 7 := by
    apply BitVec.eq_of_toNat_eq
    rw [entrySelectOf_val, BitVec.toNat_ofNat, BitVec.toNat_setWidth, BitVec.extractLsb'_toNat,
      Nat.shiftRight_eq_div_pow]
  rw [hbank, hentry]
  apply BitVec.eq_of_getLsbD_eq; intro i hi
  interval_cases i <;> simp [fieldAt]

/-- Settles O33: the three selects in turn; the reset values and LINE_RESET by evaluation. -/
theorem selectsAreReduced : Obligations.SelectsAreReduced := by
  unfold Obligations.SelectsAreReduced
  refine ⟨fun s data hport => ⟨⟨_, exec_selectWrite hport _ _, rfl, rfl, ?_⟩,
    ⟨_, exec_selectWrite hport _ _, rfl, bankSelectOf_eq data, entrySelectOf_val data, bankSelectWord_eq data⟩,
    ⟨_, exec_selectWrite hport _ _, rfl, ?_, rfl, ?_⟩⟩, ⟨_, rfl, by decide⟩, fun s => ⟨_, rfl, ?_⟩⟩
  · show (BitVec.ofNat 16 (data.toNat % 32)).toNat = _
    rw [BitVec.toNat_ofNat]
    omega
  · show (BitVec.ofNat 16 ((data.toNat + 29) % 30 + 1)).toNat = _
    rw [BitVec.toNat_ofNat]
    split <;> [skip; split] <;> omega
  · show (data.toNat + 29) % 30 + 1 = (BitVec.ofNat 16 ((data.toNat + 29) % 30 + 1)).toNat
    rw [BitVec.toNat_ofNat]
    omega
  · cases h : s.portAnswers
    · rw [State.takeCommand_unanswered h]; simp
    · rw [State.takeCommand_answers h]
      simp [State.answer]

/-! ### EVENT_FLAGS_WRITE and EVENT_ENABLES_WRITE -/

theorem and_ne_zero_iff {w : Nat} (x y : BitVec w) :
    (x &&& y) ≠ 0 ↔ ∃ k : Fin w, x.getLsbD k.val = true ∧ y.getLsbD k.val = true := by
  constructor
  · intro hne
    by_contra hnone
    refine hne (BitVec.eq_of_getLsbD_eq fun i hi => ?_)
    have := fun h => hnone ⟨⟨i, hi⟩, h⟩
    simp at this ⊢
    exact this
  · rintro ⟨k, hx, hy⟩ hzero
    have := congrArg (·.getLsbD k.val) hzero
    rw [BitVec.getLsbD_and, hx, hy] at this
    exact absurd this (by simp)

/-- Settles O35. -/
theorem eventWritesDriveInterrupt : Obligations.EventWritesDriveInterrupt := by
  unfold Obligations.EventWritesDriveInterrupt
  refine fun s data hport => ⟨⟨_, congrArg Host.Outcome.next (State.takeWrite_answers hport _), rfl, fun k => ?_⟩,
    congrArg Host.Outcome.next (State.takeWrite_answers hport _), ?_, ?_⟩
  · simp only [State.flagsWord, State.completionFlag, EventFlags.cleared, BitVec.getLsbD_append]
    fin_cases k <;> simp
  · rw [← and_ne_zero_iff, State.intLow, bne_iff_ne]
  · simp only [State.flagsWord, State.completionFlag, BitVec.getLsbD_append]
    simp

end Sys2Proof.Machine
end

