-- ==== Sys2Proof/Proofs/Switching.lean ====
section
/-! SWITCH (R58, R61, R62), SCHED_STOP and SCHED_RESUME (R75, R81) and LINE_RESET (R82, R83): each command's rows. -/

namespace Sys2Proof.Machine

/-! ### SWITCH -/

theorem exec_switch {s : State} (h : s.portAnswers = true) (b : BankId) :
    exec (.switch b.argument) s = .next ((s.switchTo b).1.answer 0x01 (s.switchTo b).2) := by
  rw [exec, execSwitch, State.takeCommand_answers h, bankArgument_argument]

theorem State.switchTo_of_refused {s : State} {b : BankId} {r : ResultCode} (h : s.switchRefusal b = some r) :
    s.switchTo b = (s, r) := by
  unfold State.switchTo
  rw [h]

theorem State.switchTo_of_failed {s : State} {b : BankId} {f : SwitchCause × BitVec 8} (hr : s.switchRefusal b = none)
    (h : s.judge b = .error f) : s.switchTo b = (s.failSwitch b f.1 f.2, .badConfig) := by
  unfold State.switchTo
  rw [hr]
  simp only [h]

theorem State.switchTo_of_passed {s : State} {b : BankId} {k : Nat} {instant : Tick} (hr : s.switchRefusal b = none)
    (h : s.judge b = .ok (k, instant)) : s.switchTo b =
      (if instant = s.lineTime then (s.armSwitch b instant (lateField k)).takeInstant b
        else (s.armSwitch b instant (lateField k)).look, .ok) := by
  unfold State.switchTo
  rw [hr]
  simp only [h]
  split <;> rfl

theorem State.switchRefusal_none {s : State} {b : BankId} (harmed : s.sched ≠ .armed) (hstop : s.sched ≠ .stopping)
    (hpend : s.sw.pending = false) (hbank : s.activeBank ≠ some b) : s.switchRefusal b = none := by
  simp [State.switchRefusal, harmed, hstop, hpend, hbank]

/-- The late field is the count of a switch that passes: its limit has eight bits (R61, R62). -/
theorem lateField_of_le {k : Nat} {limit : BitVec 8} (h : k ≤ limit.toNat) : lateField k = BitVec.ofNat 8 k := by
  have := limit.isLt
  rw [lateField, Nat.min_eq_left (by omega)]

theorem State.judge_of_fault {s : State} {b : BankId} {cause : SwitchCause}
    (h : (s.bank b).firstFault s.config.bitRate = some cause) : s.judge b = .error (cause, 0) := by
  simp [State.judge, h]

theorem State.judge_of_late {s : State} {b : BankId} {k : Nat} {instant : Tick}
    (h : (s.bank b).firstFault s.config.bitRate = none)
    (hr : reckon s.referenceTime (s.bank b).baseTime (s.bank b).cycleTime.toNat = (k, instant))
    (hk : s.config.lateLimit.toNat < k) : s.judge b = .error (.late, lateField k) := by
  simp [State.judge, h, hr, hk]

theorem State.judge_of_in_time {s : State} {b : BankId} {k : Nat} {instant : Tick}
    (h : (s.bank b).firstFault s.config.bitRate = none)
    (hr : reckon s.referenceTime (s.bank b).baseTime (s.bank b).cycleTime.toNat = (k, instant))
    (hk : k ≤ s.config.lateLimit.toNat) : s.judge b = .ok (k, instant) := by
  simp [State.judge, h, hr, hk]

/-- Settles O12: the argument and the two refusals, then validation and the late check. -/
theorem switchRefusedOrFailed : Obligations.SwitchRefusedOrFailed := by
  unfold Obligations.SwitchRefusedOrFailed
  refine ⟨fun s arg hport => ⟨fun h => ?_, fun b harg => ⟨fun h => ?_, fun harmed hstop hpend h => ?_⟩⟩,
    fun s b hport harmed hstop hpend hbank => ⟨fun cause h => ?_, fun k instant h hr hk => ?_⟩⟩
  · rw [exec, execSwitch, State.takeCommand_answers hport, bankArgument_none h]
  · rw [harg, exec_switch hport, State.switchTo_of_refused (if_pos h)]
  · have hrow : s.switchRefusal b = some .wrongBank := by simp [State.switchRefusal, harmed, hstop, hpend, h]
    rw [harg, exec_switch hport, State.switchTo_of_refused hrow]
  · rw [exec_switch hport,
      State.switchTo_of_failed (State.switchRefusal_none harmed hstop hpend hbank) (State.judge_of_fault h)]
    rfl
  · rw [exec_switch hport,
      State.switchTo_of_failed (State.switchRefusal_none harmed hstop hpend hbank) (State.judge_of_late h hr hk)]
    rfl

/-- An instant that is due is taken on the target (R65). -/
theorem exec_switchInstant {s : State} {b : BankId} (hpend : s.sw.pending = true) (htarget : s.sw.target = some b)
    (hdue : s.sw.instant = s.lineTime) : exec .switchInstant s = .next (s.takeInstant b) := by
  rw [exec, execSwitchInstant, htarget]
  simp [State.instantDue, hpend, hdue]

/-- Settles O13: the pending switch, taken at once when its instant is the present tick. -/
theorem switchPasses : Obligations.SwitchPasses := by
  unfold Obligations.SwitchPasses
  intro s b k instant hport harmed hstop hpend hbank hfault hr hk t
  have hto := State.switchTo_of_passed (State.switchRefusal_none harmed hstop hpend hbank)
    (State.judge_of_in_time hfault hr hk)
  have harm : s.armSwitch b instant (BitVec.ofNat 8 k) = t := rfl
  have hlocked : t.isLocked b = true := by simp [t, State.isLocked]
  have hpending : t.sw.pending = true := rfl
  have htarget : t.sw.target = some b := rfl
  have hinstant : t.sw.instant = instant := rfl
  have htime : t.lineTime = s.lineTime := rfl
  rw [lateField_of_le hk, harm] at hto
  clear_value t
  refine ⟨hlocked, fun hlater => ?_, fun hnow =>
    ⟨_, exec_switchInstant hpending htarget (by rw [hinstant, hnow, htime]), ?_⟩⟩
  · rw [exec_switch hport, hto, if_neg hlater]
  · rw [exec_switch hport, hto, if_pos hnow]

/-! ### SCHED_STOP and SCHED_RESUME -/

theorem exec_schedStop {s : State} (h : s.portAnswers = true) :
    exec .schedStop s = .next (s.stop.1.answer 0x03 s.stop.2) := by
  rw [exec, execSchedStop, State.takeCommand_answers h]

theorem exec_schedResume {s : State} (h : s.portAnswers = true) :
    exec .schedResume s = .next (s.resume.1.answer 0x04 s.resume.2) := by
  rw [exec, execSchedResume, State.takeCommand_answers h]

/-- The end of a pending switch, in the Switch Record alone (R70). -/
theorem State.endPending_stopped (s : State) : s.endPending .stopped = { s with sw :=
    if s.sw.pending then { s.sw with pending := false, lastResult := .stopped, cause := .noCause } else s.sw } := by
  unfold State.endPending
  split <;> rfl

/-- Settles O16: one row for each scheduler state. -/
theorem schedStopAndResumeByState : Obligations.SchedStopAndResumeByState := by
  unfold Obligations.SchedStopAndResumeByState
  refine ⟨fun s hport => ⟨fun h => ?_, fun h => ?_, fun h hidle => ?_, fun h hbusy => ?_, fun h => ?_, fun b => ?_⟩,
    fun s hport => ⟨fun h => ?_, fun h => ?_⟩⟩
  · rw [exec_schedStop hport]
    rcases h with h | h <;> rw [State.stop, h]
  · rw [exec_schedStop hport, State.stop, h, State.endPending_stopped]
  · have hline : s.lineIdle = true := by rw [State.lineIdle, hidle]; rfl
    rw [exec_schedStop hport, State.stop, h, State.endPending_stopped]
    simp only [hline, if_true]
    rfl
  · have hline : s.lineIdle = false := by
      rw [State.lineIdle]; exact Option.isNone_eq_false_iff.mpr (Option.isSome_iff_ne_none.mpr hbusy)
    rw [exec_schedStop hport, State.stop, h, State.endPending_stopped]
    simp [hline]
  · rw [exec_schedStop hport, State.stop, h, State.endPending_stopped]
    rfl
  · cases hpend : s.sw.pending <;> simp [State.isLocked, hpend]
  · rw [exec_schedResume hport, State.resume, if_pos h]
  · rw [exec_schedResume hport, State.resume, if_neg h]

/-! ### LINE_RESET -/

theorem exec_lineReset {s : State} (h : s.portAnswers = true) :
    exec .lineReset s = .next (s.lineReset.answer 0x05 .ok) :=
  congrArg Host.Outcome.next (State.takeCommand_answers h _ _)

/-- Settles O17: the two tables record by record, the rest of the state at once. -/
theorem lineResetClearsLineSide : Obligations.LineResetClearsLineSide := by
  unfold Obligations.LineResetClearsLineSide
  refine fun s hport => ⟨_, exec_lineReset hport, rfl, rfl, rfl, rfl, ?_, fun n => ?_, fun i => ?_, ?_⟩
  · simp [State.intLow, State.answer, State.lineReset, State.flagsWord, State.completionFlag, EventFlags.clear]
  · rw [show (s.lineReset.answer 0x05 .ok).object n = s.lineReset.object n from rfl, State.lineReset_object]
    by_cases h : (s.object n).state = .pending ∨ (s.object n).state = .active
    · rw [MsgObject.lineReset_of_standing h, if_pos h]
    · rw [MsgObject.lineReset_of_not_standing h, if_neg h]
  · exact s.lineReset_nodeRecord i
  · simp only [State.answer, State.lineReset, State.endPending_stopped]

end Sys2Proof.Machine
end

