-- ==== Sys2Proof/Proofs/CycleTimes.lean ====
section
/-! The Cycle Timer's happenings, with the state that each leaves before the work it hands on: the switch instant (R65 to R67),
the cycle start on the grid (R31), the window boundary with its overrun count (R20, R30), the end of the pulse (R35). -/

namespace Sys2Proof.Machine

/-! ### A cycle start -/

/-- A cycle on a bank whose first entry is used (R28, R36, R37). -/
theorem State.beginCycle_of_used {s : State} {b : BankId} {d : Nat} (h : (s.bank b).effective 0 = some d)
    (number : BitVec 32) : s.beginCycle b number = { s with
      cycle :=
        { cycleStart := s.lineTime
          cycleEnd := s.lineTime + (s.bank b).cycleTime.setWidth 48
          cycleNumber := number
          window := some 0
          windowEnd := s.lineTime + BitVec.ofNat 48 d
          syncOwed := (s.bank b).sync
          pulseEnd := some (s.lineTime + 4) }
      engine := { s.engine with
        syncLate := if (s.bank b).sync && s.countsLate then satInc s.engine.syncLate else s.engine.syncLate }
      flags := { s.flags with cycleStart := true } } := by
  dsimp only [State.beginCycle]
  rw [h]
  rfl

/-- The new cycle of the grid, with all it holds before the cycle-start work (R31). -/
theorem State.gridBase_of_used {s : State} {b : BankId} {d : Nat} (h : (s.bank b).effective 0 = some d) :
    s.gridBase b = { s with
      cycle :=
        { cycleStart := s.lineTime
          cycleEnd := s.lineTime + (s.bank b).cycleTime.setWidth 48
          cycleNumber := s.cycle.cycleNumber + 1
          window := some 0
          windowEnd := s.lineTime + BitVec.ofNat 48 d
          syncOwed := (s.bank b).sync
          pulseEnd := some (s.lineTime + 4) }
      engine := { s.signalWindowEnd.engine with
        syncLate := if (s.bank b).sync && (s.busyAtCycleStart || s.sched != .running) then satInc s.engine.syncLate
          else s.engine.syncLate }
      flags := { s.flags with cycleStart := true } } := by
  have hused : (s.signalWindowEnd.bank b).effective 0 = some d := by rw [State.signalWindowEnd_bank, h]
  rw [State.gridBase, State.beginCycle_of_used hused, State.countsLate, State.signalWindowEnd_busyAtCycleStart,
    State.signalWindowEnd_syncLate, State.signalWindowEnd_bank]
  have heq := s.signalWindowEnd_eq
  generalize s.signalWindowEnd.engine = e at heq
  rw [heq]

theorem State.recordSwitch_signalWindowEnd (s : State) :
    s.recordSwitch.signalWindowEnd = { s.recordSwitch with engine := s.signalWindowEnd.engine } := by
  rw [State.signalWindowEnd_eq s.recordSwitch,
    State.signalWindowEnd_engine_congr (s := s) (t := s.recordSwitch) rfl rfl rfl]

/-- At a switch instant an owed SYNC counts late where the line is busy or the scheduler will not be RUNNING (R37, R67). -/
theorem State.countsLate_takeRoles (s : State) (b : BankId) :
    (s.recordSwitch.signalWindowEnd.takeRoles b).countsLate =
      (s.busyAtCycleStart || (s.sched != .armed && s.sched != .running)) := by
  have hbusy : (s.recordSwitch.signalWindowEnd.takeRoles b).busyAtCycleStart = s.busyAtCycleStart :=
    (State.busyAtCycleStart_congr (s := s.recordSwitch.signalWindowEnd) rfl rfl).trans
      ((State.signalWindowEnd_busyAtCycleStart _).trans (State.busyAtCycleStart_congr rfl rfl))
  have hsched : (s.recordSwitch.signalWindowEnd.takeRoles b).sched = if s.sched = .armed then .running else s.sched := by
    simp [State.takeRoles, State.recordSwitch]
  rw [State.countsLate, hbusy, hsched]
  cases s.sched <;> rfl

/-- The new cycle of a switch instant, with all it holds before the cycle-start work (R65 to R67). -/
theorem State.instantBase_of_used {s : State} {b : BankId} {d : Nat} (h : (s.bank b).effective 0 = some d) :
    s.instantBase b = { s with
      sw := { s.sw with
        pending := false, lastResult := .done, cause := .noCause, switchCount := s.sw.switchCount + 1 }
      activeBank := some b
      figures := some ((s.bank b).figures s.config.bitRate)
      sched := if s.sched = .armed then .running else s.sched
      cycle :=
        { cycleStart := s.lineTime
          cycleEnd := s.lineTime + (s.bank b).cycleTime.setWidth 48
          cycleNumber := if s.sched = .armed then 0 else s.cycle.cycleNumber + 1
          window := some 0
          windowEnd := s.lineTime + BitVec.ofNat 48 d
          syncOwed := (s.bank b).sync
          pulseEnd := some (s.lineTime + 4) }
      engine := { s.signalWindowEnd.engine with
        syncLate := if (s.bank b).sync && (s.busyAtCycleStart || (s.sched != .armed && s.sched != .running)) then
          satInc s.engine.syncLate else s.engine.syncLate }
      flags := { s.flags with switchDone := true, cycleStart := true } } := by
  have hused : ((s.recordSwitch.signalWindowEnd.takeRoles b).bank b).effective 0 = some d := by simpa using h
  have hlate := s.countsLate_takeRoles b
  have hsync : (s.recordSwitch.signalWindowEnd.takeRoles b).engine.syncLate = s.engine.syncLate :=
    State.signalWindowEnd_syncLate _
  have hbank : (s.recordSwitch.signalWindowEnd.takeRoles b).bank b = s.bank b := by simp
  rw [State.instantBase, State.beginCycle_of_used hused, hlate, hsync, hbank, State.takeRoles,
    State.recordSwitch_signalWindowEnd]
  rfl

/-- Settles O14: the due instant is taken, and its base is the state written out. -/
theorem switchInstantStartsBank : Obligations.SwitchInstantStartsBank := by
  unfold Obligations.SwitchInstantStartsBank
  intro s b d hpend htarget hdue hused
  rw [exec_switchInstant hpend htarget hdue]
  exact congrArg (fun t : State => Host.Outcome.next (t.cycleWork.recheck.look)) (State.instantBase_of_used hused)

theorem State.instantDue_eq_false {s : State} (h : ¬(s.sw.pending = true ∧ s.sw.instant = s.lineTime)) :
    s.instantDue = false := by
  rw [State.instantDue, Bool.and_eq_false_iff, beq_eq_false_iff_ne]
  by_cases hp : s.sw.pending = true
  · exact .inr fun hi => h ⟨hp, hi⟩
  · exact .inl (Bool.eq_false_iff.mpr hp)

theorem exec_cycleStart {s : State} {b : BankId} (hactive : s.activeBank = some b)
    (hend : s.cycle.cycleEnd = s.lineTime) (hno : ¬(s.sw.pending = true ∧ s.sw.instant = s.lineTime)) :
    exec .cycleStart s = .next (s.gridCycleStart b) := by
  rw [exec, execCycleStart, hactive]
  simp [State.cycleEndDue, hend, State.instantDue_eq_false hno]

/-- Settles O18: the due cycle start is taken, and its base is the state written out. -/
theorem cycleStartOnGrid : Obligations.CycleStartOnGrid := by
  unfold Obligations.CycleStartOnGrid
  intro s b d hactive hend hno hused
  rw [exec_cycleStart hactive hend hno]
  exact congrArg (fun t : State => Host.Outcome.next (t.cycleWork.look)) (State.gridBase_of_used hused)

/-! ### A window boundary and its overrun -/

theorem exec_windowBoundary {s : State} {b : BankId} {w : Fin 64} (hactive : s.activeBank = some b)
    (hw : s.cycle.window = some w) (hend : s.cycle.windowEnd = s.lineTime) (hcycle : s.cycle.cycleEnd ≠ s.lineTime)
    (hno : ¬(s.sw.pending = true ∧ s.sw.instant = s.lineTime)) :
    exec .windowBoundary s = .next (s.boundary b w) := by
  rw [exec, execWindowBoundary, hactive, hw]
  simp [State.windowEndDue, hend, hcycle.symm, State.instantDue_eq_false hno]

theorem Flight.gapEndsAt_iff {fl : Flight} {now : Tick} : fl.gapEndsAt now = true ↔
    ∃ r, fl.phase = .gap r ∧ fl.mark + BitVec.ofNat 48 (4 * fl.bitRate.ticksPerBit) = now := by
  unfold Flight.gapEndsAt
  cases fl.phase <;> simp [afterBits, Config.gapBits]

theorem State.signalWindowEnd_of_none {s : State} (h : s.cycle.window = none ∨ s.engine.flight = none) :
    s.signalWindowEnd = s := by
  unfold State.signalWindowEnd
  rcases h with h | h <;> rw [h]
  cases s.cycle.window <;> rfl

theorem State.signalWindowEnd_of_not_overruns {s : State} {fl : Flight} (hf : s.engine.flight = some fl)
    (h : fl.overruns s.lineTime = false) : s.signalWindowEnd = s := by
  unfold State.signalWindowEnd
  rw [hf]
  cases s.cycle.window with
  | none => rfl
  | some w => simp [h]

theorem State.signalWindowEnd_of_overruns {s : State} {fl : Flight} (hw : s.cycle.window ≠ none)
    (hf : s.engine.flight = some fl) (h : fl.overruns s.lineTime = true) :
    s.signalWindowEnd = { s with
      engine := { s.engine with flight := some { fl with overran := true }, overrun := satInc s.engine.overrun } } := by
  obtain ⟨w, hw⟩ := Option.ne_none_iff_exists'.mp hw
  unfold State.signalWindowEnd
  rw [hw, hf]
  simp [h]

/-- Settles O19: the boundary by the next entry, the overrun by the flight, the end of the pulse. -/
theorem windowsEndAndPulsesEnd : Obligations.WindowsEndAndPulsesEnd := by
  unfold Obligations.WindowsEndAndPulsesEnd
  refine ⟨fun s b w hactive hw hend hcycle hno => ⟨fun v d hv hd => ?_, fun hunused => ?_⟩,
    fun s => ⟨State.signalWindowEnd_of_none, fun fl hf => ⟨fun h => ?_, fun n kind hw hx hover hgap => ?_⟩⟩,
    fun s h => ⟨by rw [State.cycHigh, h]; rfl, _, if_pos h |> congrArg Host.Outcome.next, rfl, rfl⟩⟩
  · have hnext := State.nextWindow_used (s := s.signalWindowEnd) hv (by rw [State.signalWindowEnd_bank, hd])
    rw [exec_windowBoundary hactive hw hend hcycle hno, State.boundary, hnext]
    have heq := s.signalWindowEnd_eq
    generalize s.signalWindowEnd.engine = e at heq
    rw [heq]
    rfl
  · have hnext := State.nextWindow_unused (s := s.signalWindowEnd) (w := w) (by rw [State.signalWindowEnd_bank, hunused])
    rw [exec_windowBoundary hactive hw hend hcycle hno, State.boundary, hnext]
    have heq := s.signalWindowEnd_eq
    generalize s.signalWindowEnd.engine = e at heq
    rw [heq]
    rfl
  · refine State.signalWindowEnd_of_not_overruns hf ?_
    rw [← Flight.gapEndsAt_iff] at h
    rcases h with h | h | h <;> simp [Flight.overruns, h]
  · have hnogap : fl.gapEndsAt s.lineTime = false := by
      rw [Bool.eq_false_iff, ne_eq, Flight.gapEndsAt_iff]
      exact fun ⟨r, hr, htime⟩ => hgap r hr htime
    rw [State.signalWindowEnd_of_overruns hw hf (by simp [Flight.overruns, hx, hover, hnogap]), satInc_eq16]

end Sys2Proof.Machine
end

