-- ==== Sys2Proof/Proofs/ObjectCommands.lean ====
section
/-! The six object commands (R91 to R97, R122), each by its object's state. -/

namespace Sys2Proof.Machine

/-! ### OBJ_ENABLE -/

theorem ObjConfig.valid_command_iff {c : ObjConfig} (h : c.kind = .command) : c.valid = true ↔
    1 ≤ c.node.toNat ∧ c.length.toNat ≤ 16 ∧ (1 ≤ c.attemptLimit.toNat ∧ c.attemptLimit.toNat ≤ 8) ∧
      (c.trigger = .cyclic → 1 ≤ c.period.toNat ∧ c.period.toNat ≤ 64 ∧ c.phase.toNat < c.period.toNat) := by
  have hnode := c.node.isLt
  simp only [ObjConfig.valid, h]
  cases c.trigger <;> simp <;> omega

theorem ObjConfig.valid_poll_iff {c : ObjConfig} (h : c.kind = .poll) : c.valid = true ↔
    (1 ≤ c.node.toNat ∧ c.node.toNat ≤ 30) ∧ c.replyLength.toNat ≤ 16 ∧
      (1 ≤ c.attemptLimit.toNat ∧ c.attemptLimit.toNat ≤ 8) ∧
      (c.trigger = .cyclic → 1 ≤ c.period.toNat ∧ c.period.toNat ≤ 64 ∧ c.phase.toNat < c.period.toNat) := by
  simp only [ObjConfig.valid, h]
  cases c.trigger <;> simp <;> omega

theorem exec_objEnable {s : State} (h : s.portAnswers = true) (n : Fin 32) :
    exec (.objEnable (BitVec.ofNat 8 n.val)) s = .next ((s.enable n).1.answer 0x08 (s.enable n).2) :=
  congrArg Host.Outcome.next (State.takeCommand_onObject h 0x08 n State.enable)

/-- Settles O20: a DISABLED object by its configuration, then the other states. -/
theorem objEnableJudgesConfiguration : Obligations.ObjEnableJudgesConfiguration := by
  unfold Obligations.ObjEnableJudgesConfiguration
  intro s n hport
  dsimp only
  refine ⟨fun h hok => ?_, fun h hbad => ?_, fun h => ?_⟩ <;> rw [exec_objEnable hport, State.enable]
  · have hvalid : (s.object n).config.valid = true := by
      cases hk : (s.object n).config.kind <;> simp only [hk] at hok
      · exact (ObjConfig.valid_command_iff hk).mpr hok
      · exact (ObjConfig.valid_poll_iff hk).mpr hok
    simp only [h, hvalid, if_true]
    rfl
  · have hinvalid : ¬(s.object n).config.valid = true := by
      cases hk : (s.object n).config.kind <;> simp only [hk] at hbad
      · exact fun hv => hbad ((ObjConfig.valid_command_iff hk).mp hv)
      · exact fun hv => hbad ((ObjConfig.valid_poll_iff hk).mp hv)
    simp only [h, hinvalid]
    rfl
  · cases hstate : (s.object n).state with
    | disabled => exact absurd hstate h
    | idle | pending | active => rfl

/-! ### OBJ_DISABLE -/

theorem exec_objDisable {s : State} (h : s.portAnswers = true) (n : Fin 32) :
    exec (.objDisable (BitVec.ofNat 8 n.val)) s = .next ((s.disable n).1.answer 0x09 (s.disable n).2) :=
  congrArg Host.Outcome.next (State.takeCommand_onObject h 0x09 n State.disable)

/-- Settles O21. -/
theorem objDisableByState : Obligations.ObjDisableByState := by
  unfold Obligations.ObjDisableByState
  intro s n hport
  dsimp only
  refine ⟨fun h => ?_, fun h => ?_, fun h => ?_, fun h => ?_⟩ <;> rw [exec_objDisable hport, State.disable, h]
  · rfl
  · rw [State.retire_eq]

/-! ### OBJ_REQUEST -/

theorem exec_objRequest {s : State} (h : s.portAnswers = true) (n : Fin 32) :
    exec (.objRequest (BitVec.ofNat 8 n.val)) s = .next ((s.hostRequest n).1.answer 0x0A (s.hostRequest n).2) :=
  congrArg Host.Outcome.next (State.takeCommand_onObject h 0x0A n State.hostRequest)

theorem State.hostRequest_of_idle {s : State} {n : Fin 32} (h : (s.object n).state = .idle) : s.hostRequest n =
    (if ((s.afterRequest n).object n).state = .pending then (s.afterRequest n).look else s.afterRequest n, .ok) := by
  rw [State.hostRequest, h]
  simp only [State.request_of_idle h]

/-- A request finished at its taking leaves no look (R94). -/
theorem State.hostRequest_of_finished {s : State} {n : Fin 32} {t : State} {outcome : RequestOutcome}
    (h : (s.object n).state = .idle) (hfin : s.afterRequest n = t.afterFinish n outcome .idle) :
    s.hostRequest n = (t.afterFinish n outcome .idle, .ok) := by
  rw [State.hostRequest_of_idle h, hfin, State.afterFinish_object_self, if_neg (by simp)]

theorem State.hostRequest_of_standing {s : State} {n : Fin 32}
    (h : (s.object n).state = .pending ∨ (s.object n).state = .active) : s.hostRequest n = (s.request n, .ok) := by
  rcases h with h | h <;> rw [State.hostRequest, h]

theorem MsgObject.merge_eq (o : MsgObject) :
    o.merge = { o with mergeCount := if o.mergeCount = 255 then 255 else o.mergeCount + 1 } := by
  rw [MsgObject.merge, satInc_eq8]

/-- Settles O22: a request from IDLE by the two checks at its taking, then the other states. -/
theorem objRequestByState : Obligations.ObjRequestByState := by
  unfold Obligations.ObjRequestByState
  intro s n hport
  dsimp only
  refine ⟨fun h => ?_, fun h hsilent => ?_, fun h hsilent hfit => ?_, fun h hsilent hfit => ?_, fun h => ?_,
    fun h hre => ?_, fun h hre => ?_⟩ <;> rw [exec_objRequest hport]
  · rw [State.hostRequest, h]
  · rw [State.hostRequest_of_finished h (if_pos hsilent)]
  · have hno : s.noFit n = true := s.noFit_iff n |>.mpr hfit
    rw [State.hostRequest_of_finished h ((if_neg (Bool.eq_false_iff.mp hsilent)).trans (if_pos hno))]
  · have hno : ¬s.noFit n = true := fun hno => by
      obtain ⟨f, hf, hlt⟩ := s.noFit_iff n |>.mp hno
      exact absurd (hfit f hf) (by omega)
    have htaken : s.afterRequest n =
        s.setObject n { s.object n with state := .pending, attempts := 0, age := 0, delivered := false } :=
      (if_neg (Bool.eq_false_iff.mp hsilent)).trans (if_neg hno)
    rw [State.hostRequest_of_idle h, htaken, State.object_setObject_self, if_pos rfl]
  · rw [State.hostRequest_of_standing (.inl h), State.request_of_pending h, MsgObject.merge_eq]
  · rw [State.hostRequest_of_standing (.inr h), State.request_of_active h, hre]
    rfl
  · rw [State.hostRequest_of_standing (.inr h), State.request_of_active h, if_pos hre, MsgObject.merge_eq]

/-! ### OBJ_WITHDRAW and OBJ_RELEASE -/

theorem exec_objWithdraw {s : State} (h : s.portAnswers = true) (n : Fin 32) :
    exec (.objWithdraw (BitVec.ofNat 8 n.val)) s = .next ((s.withdraw n).1.answer 0x0B (s.withdraw n).2) :=
  congrArg Host.Outcome.next (State.takeCommand_onObject h 0x0B n State.withdraw)

theorem State.withdraw_of_active {s : State} {n : Fin 32} (h : (s.object n).state = .active) :
    s.withdraw n = (s.setObject n { s.object n with reRequest := false }, .inFlight) := by
  unfold State.withdraw
  rw [h]
  rfl

/-- Settles O23. -/
theorem objWithdrawByState : Obligations.ObjWithdrawByState := by
  unfold Obligations.ObjWithdrawByState
  intro s n hport
  dsimp only
  refine ⟨fun h hre => ?_, fun h => ?_, fun h => ?_⟩ <;> rw [exec_objWithdraw hport]
  · rw [State.withdraw, h, State.finish_eq, State.afterOutcome_of_no_reRequest hre]
  · rw [State.withdraw_of_active h]
  · rcases h with h | h <;> rw [State.withdraw, h]

theorem exec_objRelease {s : State} (h : s.portAnswers = true) (n : Fin 32) :
    exec (.objRelease (BitVec.ofNat 8 n.val)) s = .next ((s.release n).1.answer 0x0C (s.release n).2) :=
  congrArg Host.Outcome.next (State.takeCommand_onObject h 0x0C n State.release)

theorem State.release_of_enabled {s : State} {n : Fin 32} (h : (s.object n).state ≠ .disabled) : s.release n =
    (if (s.object n).state = .pending ∧ (s.object n).held = true then
        (s.setObject n { s.object n with fresh := false }).look
      else s.setObject n { s.object n with fresh := false }, .ok) := by
  unfold State.release
  cases hstate : (s.object n).state with
  | disabled => exact absurd hstate h
  | idle | pending | active => rfl

/-- Settles O24. -/
theorem objReleaseClearsFresh : Obligations.ObjReleaseClearsFresh := by
  unfold Obligations.ObjReleaseClearsFresh
  intro s n hport
  dsimp only
  refine ⟨fun h => ?_, fun h hends => ?_, fun h hends => ?_⟩ <;> rw [exec_objRelease hport]
  · rw [State.release, h]
  · rw [← MsgObject.held_iff] at hends
    rw [State.release_of_enabled h, if_pos hends]
  · rw [← MsgObject.held_iff] at hends
    rw [State.release_of_enabled h, if_neg hends]

/-! ### OBJ_INSERT -/

theorem exec_objInsert {s : State} (h : s.portAnswers = true) (n : Fin 32) :
    exec (.objInsert (BitVec.ofNat 8 n.val)) s = .next ((s.insert n).1.answer 0x0D (s.insert n).2) :=
  congrArg Host.Outcome.next (State.takeCommand_onObject h 0x0D n fun n u => u.insert n)

theorem State.insert_of_pending {s : State} {n : Fin 32} (h : (s.object n).state = .pending) : s.insert n =
    if s.slot = some n then (s.look, .ok) else if s.tooLong n then (s, .tooLong) else ((s.enterSlot n).look, .ok) := by
  rw [State.insert, h]

theorem State.enterSlot_of_empty {s : State} {n : Fin 32} (h : s.slot = none) :
    s.enterSlot n = { s.setObject n { s.object n with inSlot := true } with slot := some n } := by
  unfold State.enterSlot
  rw [h]
  rfl

theorem State.setObject_comm (s : State) {n m : Fin 32} (h : m ≠ n) (o p : MsgObject) :
    (s.setObject m p).setObject n o = (s.setObject n o).setObject m p := by
  unfold State.setObject
  rw [Vector.set_comm _ _ (fun e => h (Fin.ext e))]

theorem State.enterSlot_of_occupied {s : State} {n m : Fin 32} (h : s.slot = some m) (hm : m ≠ n) :
    s.enterSlot n = { ({ s.setObject n { s.object n with inSlot := true } with slot := some n } : State).setObject m
      { s.object m with inSlot := false } with supersede := satInc s.supersede } := by
  have hother : (s.setObject m { s.object m with inSlot := false }).object n = s.object n :=
    s.object_setObject_ne _ hm.symm
  have hcomm := s.setObject_comm hm { s.object n with inSlot := true } { s.object m with inSlot := false }
  rw [State.enterSlot, h]
  show { ({ s.setObject m { s.object m with inSlot := false } with supersede := satInc s.supersede } : State).setObject n
    { (s.setObject m { s.object m with inSlot := false }).object n with inSlot := true } with slot := some n } = _
  rw [hother]
  exact congrArg (fun t : State => { t with slot := some n, supersede := satInc s.supersede }) hcomm

/-- Settles O25: a PENDING object by the slot and the check on MaxAny, then the other states. -/
theorem objInsertByState : Obligations.ObjInsertByState := by
  unfold Obligations.ObjInsertByState
  intro s n hport
  dsimp only
  simp only [← State.tooLong_iff]
  refine ⟨fun h hslot => ?_, fun h hslot hlong => ?_, fun h hslot hlong => ?_, fun m h hslot hm hlong => ?_, fun h => ?_,
    fun h => ?_, fun h => ?_⟩ <;> rw [exec_objInsert hport]
  · rw [State.insert_of_pending h, if_pos hslot]
  · rw [State.insert_of_pending h, if_neg hslot, if_pos hlong]
  · rw [State.insert_of_pending h, if_neg (by simp [hslot]), if_neg hlong, State.enterSlot_of_empty hslot]
  · rw [State.insert_of_pending h, if_neg (by simp [hslot, hm]), if_neg hlong, State.enterSlot_of_occupied hslot hm,
      satInc_eq16]
  all_goals rw [State.insert, h]

end Sys2Proof.Machine
end

