-- ==== Sys2Proof/Proofs/LineEvents.lean ====
section
/-! The Line Engine's happenings (R11 to R17): each by its state and tick, and what happenings out of time do (log 5, log 14);
and the look (R113, R117, R120). -/

namespace Sys2Proof.Machine

/-! ### Each happening, by the flight -/

section
variable {s : State} {fl : Flight}

theorem State.bitsUp_iff {n : Nat} : s.bitsUp fl n = true ↔
    fl.mark + BitVec.ofNat 48 (n * fl.bitRate.ticksPerBit) = s.lineTime := beq_iff_eq

theorem exec_byteSent (hf : s.engine.flight = some fl) (echo : BitVec 10) : exec (.byteSent echo) s =
    .next (if fl.phase = .sending ∧ s.bitsUp fl 10 = true then s.byteEnds fl echo else s) := by
  rw [exec, execByteSent, hf]
  rfl

theorem exec_replyStart (hf : s.engine.flight = some fl) : exec .replyStart s =
    .next (if s.startInTime fl then { s with engine := { s.engine with
      staging := Staging.empty, flight := some (fl.goTo .receiving s.lineTime) } } else s) := by
  rw [exec, execReplyStart, hf]

theorem exec_replyTimeout (hf : s.engine.flight = some fl) : exec .replyTimeout s =
    .next (if fl.phase = .awaitReply ∧ s.bitsUp fl fl.replyTimeout.toNat = true then
      s.setFlight (fl.goTo (.gap .noReply) s.lineTime) else s) := by
  rw [exec, execReplyTimeout, hf]

theorem exec_replyByteReceived {n : Fin 32} {kind : ExchangeKind} (hf : s.engine.flight = some fl)
    (hx : fl.carried = .exchange n kind) (data : Byte) (stopBit : Bool) : exec (.replyByteReceived data stopBit) s =
    .next (if fl.phase = .receiving ∧ s.byteInTime fl = true then s.receiveByte fl n kind data stopBit else s) := by
  rw [exec, execReplyByteReceived, hf]
  simp only [hx]

theorem exec_truncatedReply (hf : s.engine.flight = some fl) : exec .truncatedReply s =
    .next (if fl.phase = .receiving ∧ s.engine.staging.count ≠ 0 ∧ s.bitsUp fl 20 = true then
      s.setFlight (fl.goTo (.gap .badReply) s.lineTime) else s) := by
  rw [exec, execTruncatedReply, hf]
  rfl

theorem exec_drainEnd (hf : s.engine.flight = some fl) : exec .drainEnd s =
    .next (if fl.phase = .draining ∧ s.bitsUp fl 20 = true then s.setFlight (fl.goTo (.gap .badReply) s.lineTime)
      else s) := by
  rw [exec, execDrainEnd, hf]
  rfl

theorem exec_drainCountRestart (hf : s.engine.flight = some fl) : exec .drainCountRestart s =
    .next (if fl.phase = .draining then s.setFlight { fl with mark := s.lineTime } else s) := by
  rw [exec, execDrainCountRestart, hf]

/-- GAP_END in another state of the engine, or at another tick (R18). -/
theorem exec_gapEnd_out_of_time (hf : s.engine.flight = some fl)
    (h : (∀ r, fl.phase ≠ .gap r) ∨ ¬s.bitsUp fl 4 = true) : exec .gapEnd s = .next s := by
  rw [exec, execGapEnd, hf]
  cases hp : fl.phase with
  | gap r =>
    have hlate : ¬s.bitsUp fl Config.gapBits = true := h.resolve_left fun hno => hno r hp
    simp only [hp, hlate, Bool.false_eq_true, if_false]
  | sending | awaitReply | receiving | draining => simp only [hp]

/-! ### BYTE_SENT -/

/-- The ten bits driven: the start bit, the byte from its lowest bit on, the stop bit (R1). -/
theorem eq_drivenBits_iff {echo : BitVec 10} {d : Byte} : echo = drivenBits d ↔
    echo.getLsbD 0 = false ∧ (∀ k : Fin 8, echo.getLsbD (k.val + 1) = d.getLsbD k.val) ∧ echo.getLsbD 9 = true := by
  have hbits : ∀ i, (drivenBits d).getLsbD i = if i < 1 then false else if i - 1 < 8 then d.getLsbD (i - 1)
      else (1#1).getLsbD (i - 1 - 8) := fun i => by
    simp only [drivenBits, BitVec.getLsbD_append]
    split <;> [simp; rfl]
  constructor
  · rintro rfl
    refine ⟨hbits 0, fun k => (hbits _).trans ?_, hbits 9⟩
    simp [k.isLt]
  · rintro ⟨hstart, hdata, hstop⟩
    apply BitVec.eq_of_getLsbD_eq; intro i hi
    rw [hbits]
    by_cases hzero : i = 0
    · rw [hzero]; exact hstart
    by_cases hnine : i = 9
    · rw [hnine]; exact hstop
    have hk := hdata ⟨i - 1, by omega⟩
    rw [show i - 1 + 1 = i by omega] at hk
    rw [hk, if_neg (by omega), if_pos (by omega)]

theorem State.frameWhole_of_silent (h : fl.carried = .sync ∨ ∃ n, fl.carried = .exchange n .broadcast) :
    s.frameWhole fl =
      { s with engine := { s.engine with collisions := 0, flight := some (fl.goTo (.gap .ack) s.lineTime) } } := by
  unfold State.frameWhole
  rcases h with h | ⟨n, h⟩ <;> rw [h]

theorem State.frameWhole_of_answered
    (h : (∃ n, fl.carried = .exchange n .command) ∨ ∃ n, fl.carried = .exchange n .poll) :
    s.frameWhole fl = { s with engine := { s.engine with
      collisions := 0, staging := Staging.empty, flight := some (fl.goTo .awaitReply s.lineTime) } } := by
  unfold State.frameWhole
  rcases h with ⟨n, h⟩ | ⟨n, h⟩ <;> rw [h]

end

/-- Settles O36: the echo agrees exactly when it is the ten bits driven; then by what is left of the frame. -/
theorem byteSentChecksEcho : Obligations.ByteSentChecksEcho := by
  unfold Obligations.ByteSentChecksEcho
  intro s fl echo hf hsend hnow hlen
  dsimp only
  rw [← eq_drivenBits_iff, show fl.frame.getD fl.sent 0 = fl.currentByte from rfl, exec_byteSent hf, if_pos ⟨hsend, State.bitsUp_iff.mpr hnow⟩]
  unfold State.byteEnds
  refine ⟨fun h hmore => ?_, fun h hlast => ⟨fun hx => ?_, fun hx => ?_⟩, fun h => ?_⟩
  · rw [if_pos h, if_pos hmore]
    rfl
  · rw [if_pos h, if_neg (by omega), State.frameWhole_of_silent (fl := { fl with sent := fl.sent + 1 }) hx]
    rfl
  · rw [if_pos h, if_neg (by omega), State.frameWhole_of_answered (fl := { fl with sent := fl.sent + 1 }) hx]
    rfl
  · rw [if_neg h, State.collide, satInc_eq2]
    rfl

/-! ### The reply phase -/

theorem State.startInTime_of_await {s : State} {fl : Flight} (h : fl.phase = .awaitReply) : s.startInTime fl = true ↔
    (s.lineTime - fl.mark).toNat ≤ fl.replyTimeout.toNat * fl.bitRate.ticksPerBit := by
  unfold State.startInTime
  rw [h]
  exact decide_eq_true_iff

/-- No start bit counts but in AWAIT_REPLY, and at the tick of a Reply Timeout just taken (log 10). -/
theorem State.startInTime_eq_false {s : State} {fl : Flight} (h : fl.phase ≠ .awaitReply)
    (hgap : ¬(fl.phase = .gap .noReply ∧ fl.mark = s.lineTime)) : s.startInTime fl = false := by
  unfold State.startInTime
  split
  next hp => exact absurd hp h
  next hp => exact beq_eq_false_iff_ne.mpr fun hmark => hgap ⟨hp, hmark⟩
  next => rfl

/-- Settles O37: a start bit, the timeout and the two in one tick; then the three silence counts. -/
theorem replyPhaseBeginsAndEnds : Obligations.ReplyPhaseBeginsAndEnds := by
  unfold Obligations.ReplyPhaseBeginsAndEnds
  refine ⟨fun s fl hf hwait => ⟨fun hin => ?_, fun hlate => ?_, fun hnow => ⟨?_, ?_, ?_⟩⟩,
    fun s fl hf => ⟨fun hp hcount hsilent => ?_, fun hp hsilent => ?_, fun hp => ?_⟩⟩
  · rw [exec_replyStart hf, if_pos ((State.startInTime_of_await hwait).mpr hin)]
    rfl
  · rw [exec_replyStart hf, if_neg fun h => absurd ((State.startInTime_of_await hwait).mp h) (by omega)]
  · rw [exec_replyTimeout hf, if_pos ⟨hwait, State.bitsUp_iff.mpr hnow⟩]
    rfl
  · rw [exec_replyStart (fl := { fl with phase := .gap .noReply, mark := s.lineTime }) rfl, if_pos (by simp [State.startInTime])]
    rfl
  · rw [exec_replyTimeout (fl := { fl with phase := .receiving, mark := s.lineTime }) rfl, if_neg (by simp)]
  · rw [exec_truncatedReply hf, if_pos ⟨hp, hcount, State.bitsUp_iff.mpr hsilent⟩]
    rfl
  · rw [exec_drainEnd hf, if_pos ⟨hp, State.bitsUp_iff.mpr hsilent⟩]
    rfl
  · rw [exec_drainCountRestart hf, if_pos hp]
    rfl

/-! ### REPLY_BYTE_RECEIVED -/

theorem typeFits_iff {kind : ExchangeKind} {type : BitVec 3} : typeFits kind type = true ↔
    type = typeNak ∨ (kind = .poll ∧ type = typeData) ∨ (kind ≠ .poll ∧ type = typeAck) := by
  cases kind <;> simp [typeFits, or_comm]

theorem lengthFits_iff {type : BitVec 3} {length : BitVec 8} {replyLength : BitVec 5}
    (h : type = typeAck ∨ type = typeNak ∨ type = typeData) : lengthFits type length replyLength = true ↔
    (type = typeAck → length = 0) ∧ (type = typeNak → length = 1) ∧
      (type = typeData → length.toNat ≤ replyLength.toNat) := by
  rcases h with rfl | rfl | rfl <;> simp [lengthFits, typeAck, typeNak, typeData]

section
variable {n : Fin 32} {kind : ExchangeKind} {node replyLength : BitVec 5} {g : Staging}

theorem checkByte_one (h : g.count = 1) : checkByte n kind node replyLength g =
    if g.address = node ∧ typeFits kind g.type = true then .goOn else .drain := by
  rw [checkByte, h]

theorem checkByte_two (h : g.count = 2) : checkByte n kind node replyLength g =
    if g.tag = BitVec.ofNat 5 n.val then .goOn else .drain := by
  rw [checkByte, h]

theorem checkByte_three (h : g.count = 3) : checkByte n kind node replyLength g =
    if lengthFits g.type g.length replyLength then .goOn else .drain := by
  rw [checkByte, h]

/-- From the fourth byte on a reply goes on to its last byte, which ends it (R15, R16). -/
theorem checkByte_of_four_le (h : 4 ≤ g.count) : checkByte n kind node replyLength g =
    if g.count = g.length.toNat + 5 then (if g.crc = 0 then .finish (validResult g) else .finish .badReply)
    else .goOn := by
  obtain ⟨k, hk⟩ := Nat.exists_eq_add_of_le' h
  rw [checkByte, hk]

theorem tag_eq_iff {tag : BitVec 5} : tag = BitVec.ofNat 5 n.val ↔ tag.toNat = n.val := by
  have hn := n.isLt
  rw [← BitVec.toNat_inj, BitVec.toNat_ofNat, Nat.mod_eq_of_lt (by omega)]

end

theorem validResult_of_nak {g : Staging} (h : g.type = typeNak) : validResult g =
    if g.payload[0] = 1 then .nakReject else if g.payload[0] = 2 then .nakBusy else .badReply := by
  have hack : g.type ≠ typeAck := by rw [h]; decide
  rw [validResult, if_neg hack, if_pos h]

section
variable {s : State} {fl : Flight} {n : Fin 32} {kind : ExchangeKind} {data : Byte} {g : Staging}
  (hf : s.engine.flight = some fl) (hx : fl.carried = .exchange n kind) (hp : fl.phase = .receiving)
  (ht : s.byteInTime fl = true) (hg : s.engine.staging.store data = g)

include hf hx hp ht

/-- A broken byte drains (R14). -/
theorem exec_replyByte_broken : exec (.replyByteReceived data false) s = .next { s with engine := { s.engine with
    flight := some { fl with phase := .draining, mark := s.lineTime } } } := by
  rw [exec_replyByteReceived hf hx, if_pos ⟨hp, ht⟩]
  rfl

include hg

theorem exec_replyByte_goOn (hv : checkByte n kind fl.node fl.replyLength g = .goOn) :
    exec (.replyByteReceived data true) s = .next { s with engine := { s.engine with
      staging := g, flight := some { fl with mark := s.lineTime } } } := by
  subst hg
  rw [exec_replyByteReceived hf hx, if_pos ⟨hp, ht⟩, State.receiveByte]
  simp only [hv, if_true]

theorem exec_replyByte_drain (hv : checkByte n kind fl.node fl.replyLength g = .drain) :
    exec (.replyByteReceived data true) s = .next { s with engine := { s.engine with
      staging := g, flight := some { fl with phase := .draining, mark := s.lineTime } } } := by
  subst hg
  rw [exec_replyByteReceived hf hx, if_pos ⟨hp, ht⟩, State.receiveByte]
  simp only [hv, if_true, Flight.goTo]

theorem exec_replyByte_finish {r : AttemptResult} (hv : checkByte n kind fl.node fl.replyLength g = .finish r) :
    exec (.replyByteReceived data true) s = .next { s with engine := { s.engine with
      staging := g, flight := some { fl with phase := .gap r, mark := s.lineTime } } } := by
  subst hg
  rw [exec_replyByteReceived hf hx, if_pos ⟨hp, ht⟩, State.receiveByte]
  simp only [hv, if_true, Flight.goTo]

end

/-- Settles O38: the broken byte, then the check of each place in the frame. -/
theorem replyBytesAreChecked : Obligations.ReplyBytesAreChecked := by
  unfold Obligations.ReplyBytesAreChecked
  intro s fl n kind data hf hx hp ht g
  have hg : s.engine.staging.store data = g := rfl
  clear_value g
  have goOn := exec_replyByte_goOn hf hx hp ht hg
  have drain := exec_replyByte_drain hf hx hp ht hg
  have finish := fun r => exec_replyByte_finish (r := r) hf hx hp ht hg
  dsimp only
  refine ⟨exec_replyByte_broken hf hx hp ht, fun h => ?one, fun h => ?two, fun h htype => ?three,
    fun h hmore => goOn ?_, fun h hlast => ?last⟩
  case one =>
    rw [← typeFits_iff]
    exact ⟨fun hfit => goOn ((checkByte_one h).trans (if_pos hfit)),
      fun hfit => drain ((checkByte_one h).trans (if_neg hfit))⟩
  case two =>
    rw [← tag_eq_iff, ne_eq, ← tag_eq_iff]
    exact ⟨fun htag => goOn ((checkByte_two h).trans (if_pos htag)),
      fun htag => drain ((checkByte_two h).trans (if_neg htag))⟩
  case three =>
    rw [← lengthFits_iff htype]
    exact ⟨fun hfit => goOn ((checkByte_three h).trans (if_pos hfit)),
      fun hfit => drain ((checkByte_three h).trans (if_neg hfit))⟩
  case last =>
    have hcheck := (checkByte_of_four_le (n := n) (kind := kind) (node := fl.node) (replyLength := fl.replyLength)
      h).trans (if_pos hlast)
    have valid : g.crc = 0 → ∀ r, validResult g = r → checkByte n kind fl.node fl.replyLength g = .finish r :=
      fun hcrc r hr => (hcheck.trans (if_pos hcrc)).trans (congrArg _ hr)
    refine ⟨fun hcrc => finish _ (hcheck.trans (if_neg hcrc)), fun hcrc htype => finish _ (valid hcrc _ ?_),
      fun hcrc htype hone => finish _ (valid hcrc _ ?_), fun hcrc htype htwo => finish _ (valid hcrc _ ?_),
      fun hcrc htype hone htwo => finish _ (valid hcrc _ ?_), fun hcrc htype => finish _ (valid hcrc _ ?_)⟩
    · rw [validResult, if_pos htype]
    · rw [validResult_of_nak htype, if_pos hone]
    · rw [validResult_of_nak htype, htwo]
      rfl
    · rw [validResult_of_nak htype, if_neg hone, if_neg htwo]
    · rw [validResult, htype]
      rfl
  · exact (checkByte_of_four_le h).trans (if_neg hmore)

/-! ### Happenings out of time -/

theorem State.instantDue_iff {s : State} :
    s.instantDue = true ↔ s.sw.pending = true ∧ s.sw.instant = s.lineTime := by
  simp [State.instantDue]

theorem State.cycleEndDue_iff {s : State} : s.cycleEndDue = true ↔
    s.cycle.cycleEnd = s.lineTime ∧ ¬(s.sw.pending = true ∧ s.sw.instant = s.lineTime) := by
  rw [← State.instantDue_iff]
  simp [State.cycleEndDue]

theorem State.windowEndDue_iff {s : State} : s.windowEndDue = true ↔
    s.cycle.windowEnd = s.lineTime ∧ s.cycle.windowEnd ≠ s.cycle.cycleEnd ∧
      ¬(s.sw.pending = true ∧ s.sw.instant = s.lineTime) := by
  rw [← State.instantDue_iff]
  simp [State.windowEndDue, and_assoc]

/-- Settles O44: first the Cycle Timer's happenings, then the Line Engine's with no frame in flight and with one. -/
theorem happeningsOutOfTimeDoNothing : Obligations.HappeningsOutOfTimeDoNothing := by
  unfold Obligations.HappeningsOutOfTimeDoNothing
  intro s
  refine ⟨fun h => ?_, fun h => ?_, fun h => ?_, fun h => congrArg Host.Outcome.next (if_neg h), fun hf echo data stopBit => ?_,
    fun fl hf => ⟨fun h echo => ?_, fun h hgap => ?_, fun h => ?_, fun h data stopBit => ?_, fun h => ?_, fun h => ?_,
      fun h => ?_, fun h => exec_gapEnd_out_of_time hf (h.imp_right fun hno => mt State.bitsUp_iff.mp hno)⟩⟩
  · rw [exec, execSwitchInstant, State.instantDue_eq_false h]
    cases s.sw.target <;> rfl
  · rw [exec, execCycleStart]
    cases hbank : s.activeBank with
    | none => rfl
    | some b =>
      have hdue : ¬s.cycleEndDue = true := fun hd => by
        obtain ⟨hend, hno⟩ := State.cycleEndDue_iff.mp hd
        exact h.elim (fun hnone => by rw [hbank] at hnone; cases hnone) (Or.elim · (absurd hend) hno)
      exact congrArg Host.Outcome.next (if_neg hdue)
  · rw [exec, execWindowBoundary]
    cases hbank : s.activeBank with
    | none => rfl
    | some b =>
      cases hw : s.cycle.window with
      | none => rfl
      | some w =>
        have hdue : ¬s.windowEndDue = true := fun hd => by
          obtain ⟨hend, hcycle, hno⟩ := State.windowEndDue_iff.mp hd
          rcases h with hnone | hnone | hne | heq | hnow
          · rw [hbank] at hnone; cases hnone
          · rw [hw] at hnone; cases hnone
          · exact hne hend
          · exact hcycle heq
          · exact hno hnow
        exact congrArg Host.Outcome.next (if_neg hdue)
  · simp only [List.forall_mem_cons, List.not_mem_nil, false_implies, implies_true, and_true]
    simp only [exec, execByteSent, execReplyStart, execReplyTimeout, execReplyByteReceived, execTruncatedReply,
      execDrainEnd, execDrainCountRestart, execGapEnd, hf, and_self]
  · rw [exec_byteSent hf, if_neg fun hc => h.elim (absurd hc.1) (absurd (State.bitsUp_iff.mp hc.2))]
  · rw [exec_replyStart hf, if_neg (Bool.eq_false_iff.mp (State.startInTime_eq_false h hgap))]
  · rw [exec_replyTimeout hf, if_neg fun hc => h.elim (absurd hc.1) (absurd (State.bitsUp_iff.mp hc.2))]
  · cases hx : fl.carried with
    | sync => rw [exec, execReplyByteReceived, hf]; simp only [hx]
    | exchange n kind =>
      rw [exec_replyByteReceived hf hx, if_neg]
      rintro ⟨hp, ht⟩
      rcases h with hsync | hne | hlate
      · rw [hx] at hsync; cases hsync
      · exact hne hp
      · rw [ht] at hlate; cases hlate
  · rw [exec_truncatedReply hf, if_neg]
    rintro ⟨hp, hcount, hnow⟩
    exact h.elim (absurd hp) (Or.elim · hcount (absurd (State.bitsUp_iff.mp hnow)))
  · rw [exec_drainEnd hf, if_neg fun hc => h.elim (absurd hc.1) (absurd (State.bitsUp_iff.mp hc.2))]
  · rw [exec_drainCountRestart hf, if_neg h]

/-! ### The look -/

theorem State.syncBarred_iff {s : State} : s.syncBarred = true ↔
    s.sw.pending = true ∧ (s.sw.instant - s.lineTime).toNat < 74 * s.config.bitRate.ticksPerBit := by
  rw [State.syncBarred, Bool.and_eq_true, decide_eq_true_iff]
  rfl

/-- A look with the line idle in RUNNING (R113). -/
theorem State.look_of_ready {s : State} (hrun : s.sched = .running) (hidle : s.engine.flight = none) :
    s.look = if s.cycle.syncOwed then (if s.syncBarred then s else s.startSync)
      else match s.winner with
        | none => s
        | some n => s.startExchange n := by
  have hline : s.lineIdle = true := by rw [State.lineIdle, hidle]; rfl
  exact if_pos ⟨hrun, hline⟩

/-- Settles O45: no look to make, the owed SYNC, the winner's exchange. -/
theorem lookStartsAtMostOneFrame : Obligations.LookStartsAtMostOneFrame := by
  unfold Obligations.LookStartsAtMostOneFrame
  intro s
  dsimp only
  rw [← State.syncBarred_iff]
  refine ⟨fun h => h.elim State.look_of_not_running State.look_of_busy,
    fun hrun hidle howed => ⟨fun hbar => ?_, fun hbar => ?_⟩, fun hrun hidle howed => ⟨fun hw => ?_, fun n hw => ?_⟩⟩
  · rw [State.look_of_ready hrun hidle, howed, if_pos rfl, if_pos hbar]
  · rw [State.look_of_ready hrun hidle, if_pos howed, if_neg hbar]
    rfl
  · rw [State.look_of_ready hrun hidle, howed, hw]
    rfl
  · refine ((State.look_of_ready hrun hidle).trans ?_).trans (State.startExchange_eq s n)
    rw [howed, hw]
    rfl

end Sys2Proof.Machine
end
